-- ==== Sys2Proof/Word.lean ====
section
/-! DEFINITION. The value types of the block: 32-bit words, bytes and 4-byte words (00_scope R13, R14).
Bit 0 of a `BitVec` is the least significant bit, as in R14. -/
namespace Sys2Proof

/-- Register data, staged addresses and sizes, memory request addresses: 32 bits (00_scope R13). -/
abbrev Word := BitVec 32

/-- A byte: 8 bits (00_scope R13). -/
abbrev Byte := BitVec 8

/-- The four bytes of a read answer or of a ready-data word, in address order (20_memory R92, R94; 10_state R55). -/
abbrev Quad := Vector Byte 4

end Sys2Proof
end

