-- ==== Sys2Proof/Syntax.lean ====
section
/-! DEFINITION. Names of channels, requests, the calls agents make, and `Instr`: one constructor per row of
spec/opcode_table.json (30_encoding R120, R136, R143). -/
namespace Sys2Proof

/-- Direction of a channel: RX is peripheral to memory, TX memory to peripheral (00_scope R10 `dir(c)`). -/
inductive Dir where
  | rx
  | tx
deriving DecidableEq, Repr, Inhabited

/-- The three channel slots of a peripheral group (42_peripheral_group R220). -/
inductive Slot where
  | rx
  | tx
  | custom
deriving DecidableEq, Repr, Inhabited

/-- A channel is named by its peripheral (canonical id, below 32 by 00_scope R10) and its slot (90_conflicts C7). -/
structure ChanId where
  pid  : Fin 32
  slot : Slot
deriving DecidableEq, Repr, Inhabited

/-- Direction of a register access with its write data: `wdata` exists only when `dir = W` (30_encoding R121). -/
inductive Acc where
  | rd
  | wr (v : Word)
deriving DecidableEq, Repr, Inhabited

/-- `req.dir` of a memory request (20_memory R91). -/
inductive ReqDir where
  | read
  | write
deriving DecidableEq, Repr, Inhabited

/-- A memory request: address, byte size, direction, data, and the owning channel as tag (20_memory R91). -/
structure Req where
  addr : Word
  size : Nat
  dir  : ReqDir
  data : List Byte
  tag  : ChanId
deriving DecidableEq, Repr, Inhabited

/-- What an agent does next (00_scope R9): a host register access `(off, dir, size, wdata)` or reset pulse, a decoder
call, a channel event, a controller run, a clock tick. A BUS call is still undecoded: Decode.lean selects its row. -/
inductive Call where
  | bus (off : Word) (acc : Acc) (size : Nat)
  | pushBytes (c : ChanId) (bytes : List Byte)
  | rdqPop (c : ChanId)
  | promote (c : ChanId)
  | ctrlLoop
  | tick
  | reset (active : Bool)
deriving DecidableEq, Repr, Inhabited

/-- The operations of spec/opcode_table.json, one constructor a row, in the table's order. `off` is the offset from the
block's base, `id` the flattened peripheral id and `w` the window offset of 30_encoding R124, `v` the write data. -/
inductive Instr where
  | badSize (off : Word) (acc : Acc) (size : Nat)
  | cgWr (v : Word)
  | cgRd
  | evtinWr (v : Word)
  | evtinRd
  | cfgBadOffset (off : Word) (acc : Acc)
  | noPeriph (off : Word) (acc : Acc)
  | periphOffNoop (id w : Nat) (acc : Acc)
  | customAccess (id w : Nat) (acc : Acc)
  | rxSlotEmpty (id w : Nat) (acc : Acc)
  | txSlotEmpty (id w : Nat) (acc : Acc)
  | rxAddrWr (id : Nat) (v : Word)
  | rxAddrRd (id : Nat)
  | rxSizeWr (id : Nat) (v : Word)
  | rxSizeRd (id : Nat)
  | rxConfigWr (id : Nat) (v : Word)
  | rxConfigRd (id : Nat)
  | rxBadOffset (id w : Nat) (acc : Acc)
  | txAddrWr (id : Nat) (v : Word)
  | txAddrRd (id : Nat)
  | txSizeWr (id : Nat) (v : Word)
  | txSizeRd (id : Nat)
  | txConfigWr (id : Nat) (v : Word)
  | txConfigRd (id : Nat)
  | txBadOffset (id w : Nat) (acc : Acc)
  | pushBytes (c : ChanId) (bytes : List Byte)
  | rdqPop (c : ChanId)
  | promote (c : ChanId)
  | ctrlLoop
  | tick
  | reset (active : Bool)
  | prepareNextChunk (c : ChanId)
  | deliverChunk (c : ChanId) (rdata : Quad)
  | finalize (c : ChanId)
  | channelReady (c : ChanId)
  | postWrite (req : Req)
  | enqueueTransfer (c : ChanId)
  | flush (c : ChanId)
  | periphSetOn (p : Fin 32) (b : Bool)
deriving DecidableEq, Repr

end Sys2Proof
end

