-- ==== Sys2Proof/Config.lean ====
section
/-! DEFINITION. What a configuration is (00_scope R10), the values fixed by the source (R11), and the free values: opaque
constants without a body, so no statement can rest on what they are. The default numbers stand in Decode.lean. -/
namespace Sys2Proof

/-- Register layout and CONFIG bit positions, parameters of 00_scope R10. -/
structure Layout where
  channelRegionStart : Nat
  periphStride       : Nat
  txWindowStart      : Nat
  customWindowStart  : Nat
  offAddr            : Nat
  offSize            : Nat
  offConfig          : Nat
  offCg              : Nat
  offEvtin           : Nat
  contBit            : Nat
  widthLo            : Nat
  enBit              : Nat
  pendingBit         : Nat
  clearBit           : Nat
deriving DecidableEq, Repr

/-- One thing a custom handler does to a channel of its own peripheral (42_peripheral_group R225; the ownership of 10_state
R67). DESIGN CHOICE, log entry 12: `pass` hands the access on to register offset `r`, `reg` is an access the handler makes,
`transfer` builds a transfer of its own, past ADDR, SIZE and CONFIG. -/
inductive HandlerOp where
  | pass (slot : Slot) (r : Nat)
  | reg (slot : Slot) (r : Nat) (acc : Acc)
  | transfer (slot : Slot) (base size : Word) (width : BitVec 2) (cont : Bool)
deriving DecidableEq, Repr, Inhabited

/-- How a custom handler answers an access it accepts (log entry 12): as the last of its operations was answered, `OK` with
a word, `OK` with the word of a register outside the block (a free value), or `INVALID`, which rejects the access after all:
its operations then change nothing (60_exceptions R281). -/
inductive HandlerResp where
  | last
  | okData (v : Word)
  | device
  | invalid
deriving DecidableEq, Repr, Inhabited

/-- A custom handler's reaction to one access: its operations, first first, and its answer. -/
structure HandlerAct where
  ops  : List HandlerOp
  resp : HandlerResp
deriving DecidableEq, Repr, Inhabited

/-- One accepted access of a handler written as a table: window offset `w` (unrebased, D48), read or write, and the
reaction. -/
structure HandlerRow where
  w     : Nat
  write : Bool
  act   : HandlerAct
deriving DecidableEq, Repr

/-- `custom_handler(p)` (00_scope R10, 42_peripheral_group R225). `rows` is a table of the accesses it accepts, the empty one
the default handler, which rejects; `concrete` is any handler whatever, the free value `Config.customHandler`
(log entry 12). -/
inductive Handler where
  | rows (rs : List HandlerRow)
  | concrete
deriving DecidableEq, Repr

/-- A peripheral instance (00_scope R10, 42_peripheral_group R220): canonical id, number of ids of its range, the
populated slots, the custom channel's direction when that slot is populated, and its custom handler. -/
structure PeriphCfg where
  cid     : Fin 32
  ids     : Nat
  rx      : Bool
  tx      : Bool
  custom  : Option Dir
  handler : Handler
deriving DecidableEq, Repr

/-- The configuration a model takes as argument (00_scope R10). DESIGN CHOICE, log entry 3: it stands in State, where no
step changes it, so that a statement about every state is one about every configuration. That `udmaBase` has 32 bits is the
model's choice too, log entry 26. -/
structure Cfg where
  np       : Nat
  periphs  : List PeriphCfg
  nrb      : Nat
  layout   : Layout
  udmaBase : Word
deriving DecidableEq, Repr

/-- An answer of the memory interface: `ACCEPT(lat, rdata)`, `REJECT` or `PENDING` (20_memory R92). -/
inductive MemAnswer where
  | accept (lat : Nat) (rdata : Quad)
  | reject
  | pending
deriving DecidableEq, Repr, Inhabited

namespace Config

/-- Transfer-record pool capacity per channel, fixed by the source (00_scope R11). -/
def poolCap : Nat := 2

/-- Pending-transfer queue capacity per channel (00_scope R11). -/
def pendingCap : Nat := 2

/-- Receive assembly window in bytes (00_scope R11). -/
def asmWindow : Nat := 4

/-- Size in bytes of every read request (00_scope R11). -/
def readSize : Nat := 4

/-- FREE VALUE, log entry 6. The 32-bit word a read returns where the spec says "draw": a register of a peripheral that is
off (42_peripheral_group R222), an unwritten ADDR or SIZE (41_channel R172, R174). -/
opaque readDraw : Nat → Word

/-- FREE VALUE, log entry 7. The answer of the memory interface when `State.answers` holds none (20_memory R92, D23). -/
opaque memAnswer : Nat → MemAnswer

/-- FREE VALUE, log entry 1. The call some agent makes next when `State.agenda` is empty (00_scope R9, D31, D53). -/
opaque nextCall : Nat → Call

end Config
end Sys2Proof
end

