-- ==== Sys2Proof/Decode.lean ====
section
/-! DEFINITION. The register map: peripheral table, window arithmetic, the total decoder of calls, and after it the
encoder (30_encoding R120 to R127, R143; 43_controller R235, R236, R241; 42_peripheral_group R221). -/
namespace Sys2Proof

/-- The default layout (00_scope R10; 92 D1 to D4). PRESUMED, log entry 4: the numbers are general knowledge of the PULP
μDMA, not the source's. -/
def Layout.default : Layout :=
  { channelRegionStart := 0x80, periphStride := 0x80, txWindowStart := 0x10, customWindowStart := 0x20
    offAddr := 0x0, offSize := 0x4, offConfig := 0x8, offCg := 0x0, offEvtin := 0x4
    contBit := 0, widthLo := 1, enBit := 4, pendingBit := 5, clearBit := 6 }

/-- CFG-A of 95_test_vectors section 0. DESIGN CHOICE, log entry 3: the configuration of `State.reset`. -/
def Cfg.vectors : Cfg :=
  { np := 4
    periphs :=
      [ { cid := 0, ids := 1, rx := true, tx := true, custom := none, handler := .rows [] },
        { cid := 1, ids := 1, rx := true, tx := false, custom := none, handler := .rows [] },
        { cid := 2, ids := 1, rx := true, tx := true, custom := none, handler := .rows [] } ]
    nrb := 2
    layout := Layout.default
    udmaBase := 0 }

/-- `table(i)`: the peripheral whose id range holds the flattened id `i` (10_state R60, 43_controller R241). -/
def Cfg.table (cfg : Cfg) (i : Nat) : Option PeriphCfg :=
  if i < cfg.np then cfg.periphs.find? (fun p => decide (p.cid.val ≤ i ∧ i < p.cid.val + p.ids)) else none

/-- The peripheral with canonical id `pid`. -/
def Cfg.periph (cfg : Cfg) (pid : Fin 32) : Option PeriphCfg :=
  cfg.periphs.find? (fun p => decide (p.cid = pid))

/-- The direction of a peripheral's slot, none when the slot is unpopulated: rx slot RX, tx slot TX, custom slot as
configured (00_scope R10 `slots(p)`, `dir(c)`). -/
def PeriphCfg.slotDir (p : PeriphCfg) : Slot → Option Dir
  | .rx => if p.rx then some .rx else none
  | .tx => if p.tx then some .tx else none
  | .custom => p.custom

/-- `dir(c)`; none when `c` names no channel of the configuration (00_scope R10). -/
def Cfg.dirOf (cfg : Cfg) (c : ChanId) : Option Dir :=
  (cfg.periph c.pid).bind (fun p => p.slotDir c.slot)

/-- The channels of one peripheral, in slot order. -/
def PeriphCfg.channels (p : PeriphCfg) : List ChanId :=
  [Slot.rx, Slot.tx, Slot.custom].filterMap
    (fun sl => if (p.slotDir sl).isSome then some { pid := p.cid, slot := sl } else none)

/-- Every channel: one per populated slot of each peripheral (10_state R45). -/
def Cfg.channels (cfg : Cfg) : List ChanId :=
  cfg.periphs.flatMap PeriphCfg.channels

/-- The reaction of a handler written as a table to an access at window offset `w`; none rejects (42_peripheral_group R225,
log entry 12). -/
def handlerRowsAct (rs : List HandlerRow) (w : Nat) (acc : Acc) : Option HandlerAct :=
  (rs.find? (fun r => decide (r.w = w ∧ r.write = (match acc with | .wr _ => true | .rd => false)))).map HandlerRow.act

/-- `id = (off - CHANNEL_REGION_START) div PERIPH_STRIDE` (30_encoding R124). -/
def Layout.periphId (l : Layout) (off : Word) : Nat :=
  (off.toNat - l.channelRegionStart) / l.periphStride

/-- `w = (off - CHANNEL_REGION_START) mod PERIPH_STRIDE` (30_encoding R124). -/
def Layout.windowOff (l : Layout) (off : Word) : Nat :=
  (off.toNat - l.channelRegionStart) % l.periphStride

/-- The offset of window offset `w` in the window of flattened id `i` (30_encoding R127, `B(i) + w`). -/
def Layout.windowAddr (l : Layout) (i w : Nat) : Word :=
  BitVec.ofNat 32 (l.channelRegionStart + l.periphStride * i + w)

/-- The platform address of offset `off` (00_scope R10 `UDMA_BASE`; 92 D64). DESIGN CHOICE, log entry 26: the spec gives the
base no width and does not say what base plus offset is beyond it; here both have 32 bits and the sum wraps. -/
def Cfg.platformAddr (cfg : Cfg) (off : Word) : Word :=
  cfg.udmaBase + off

/-- The rx window of a peripheral that is on: unpopulated slot, else the row of the channel offset `w`
(30_encoding R125, R126). -/
def decodeRxWindow (l : Layout) (p : PeriphCfg) (i w : Nat) (acc : Acc) : Instr :=
  if (p.slotDir .rx).isNone then .rxSlotEmpty i w acc
  else if w = l.offAddr then (match acc with | .wr v => .rxAddrWr i v | .rd => .rxAddrRd i)
  else if w = l.offSize then (match acc with | .wr v => .rxSizeWr i v | .rd => .rxSizeRd i)
  else if w = l.offConfig then (match acc with | .wr v => .rxConfigWr i v | .rd => .rxConfigRd i)
  else .rxBadOffset i w acc

/-- The tx window of a peripheral that is on; the channel offset is `w - TX_WINDOW_START` (30_encoding R125, R126). -/
def decodeTxWindow (l : Layout) (p : PeriphCfg) (i w : Nat) (acc : Acc) : Instr :=
  if (p.slotDir .tx).isNone then .txSlotEmpty i w acc
  else if w - l.txWindowStart = l.offAddr then (match acc with | .wr v => .txAddrWr i v | .rd => .txAddrRd i)
  else if w - l.txWindowStart = l.offSize then (match acc with | .wr v => .txSizeWr i v | .rd => .txSizeRd i)
  else if w - l.txWindowStart = l.offConfig then (match acc with | .wr v => .txConfigWr i v | .rd => .txConfigRd i)
  else .txBadOffset i w acc

/-- The row a register access selects when the on/off flags are `on`: the first of the table whose guard holds
(30_encoding R143; the checks of 60_exceptions R287 in their order). Every access selects exactly one row (R120). -/
def decodeBus (cfg : Cfg) (on : Fin 32 → Bool) (off : Word) (acc : Acc) (size : Nat) : Instr :=
  if size ≠ 4 then .badSize off acc size
  else if off.toNat < cfg.layout.channelRegionStart then
    if off.toNat = cfg.layout.offCg then (match acc with | .wr v => .cgWr v | .rd => .cgRd)
    else if off.toNat = cfg.layout.offEvtin then (match acc with | .wr v => .evtinWr v | .rd => .evtinRd)
    else .cfgBadOffset off acc
  else
    match cfg.table (cfg.layout.periphId off) with
    | none => .noPeriph off acc
    | some p =>
      if on p.cid = false then .periphOffNoop (cfg.layout.periphId off) (cfg.layout.windowOff off) acc
      else if cfg.layout.windowOff off < cfg.layout.txWindowStart then
        decodeRxWindow cfg.layout p (cfg.layout.periphId off) (cfg.layout.windowOff off) acc
      else if cfg.layout.windowOff off < cfg.layout.customWindowStart then
        decodeTxWindow cfg.layout p (cfg.layout.periphId off) (cfg.layout.windowOff off) acc
      else .customAccess (cfg.layout.periphId off) (cfg.layout.windowOff off) acc

/-- The decoder: the operation an agent's call selects. PORT and INTERNAL calls name their row (30_encoding R135, R136). -/
def decode (cfg : Cfg) (on : Fin 32 → Bool) : Call → Instr
  | .bus off acc size => decodeBus cfg on off acc size
  | .pushBytes c bytes => .pushBytes c bytes
  | .rdqPop c => .rdqPop c
  | .promote c => .promote c
  | .ctrlLoop => .ctrlLoop
  | .tick => .tick
  | .reset active => .reset active

/-- The call that carries an operation, by the register map of 30_encoding R127. The eight calls between components are
made inside other operations and by no agent (00_scope R9), so they have none. -/
def encode (cfg : Cfg) : Instr → Option Call
  | .badSize off acc size => some (.bus off acc size)
  | .cgWr v => some (.bus (BitVec.ofNat 32 cfg.layout.offCg) (.wr v) 4)
  | .cgRd => some (.bus (BitVec.ofNat 32 cfg.layout.offCg) .rd 4)
  | .evtinWr v => some (.bus (BitVec.ofNat 32 cfg.layout.offEvtin) (.wr v) 4)
  | .evtinRd => some (.bus (BitVec.ofNat 32 cfg.layout.offEvtin) .rd 4)
  | .cfgBadOffset off acc => some (.bus off acc 4)
  | .noPeriph off acc => some (.bus off acc 4)
  | .periphOffNoop i w acc => some (.bus (cfg.layout.windowAddr i w) acc 4)
  | .customAccess i w acc => some (.bus (cfg.layout.windowAddr i w) acc 4)
  | .rxSlotEmpty i w acc => some (.bus (cfg.layout.windowAddr i w) acc 4)
  | .txSlotEmpty i w acc => some (.bus (cfg.layout.windowAddr i w) acc 4)
  | .rxAddrWr i v => some (.bus (cfg.layout.windowAddr i cfg.layout.offAddr) (.wr v) 4)
  | .rxAddrRd i => some (.bus (cfg.layout.windowAddr i cfg.layout.offAddr) .rd 4)
  | .rxSizeWr i v => some (.bus (cfg.layout.windowAddr i cfg.layout.offSize) (.wr v) 4)
  | .rxSizeRd i => some (.bus (cfg.layout.windowAddr i cfg.layout.offSize) .rd 4)
  | .rxConfigWr i v => some (.bus (cfg.layout.windowAddr i cfg.layout.offConfig) (.wr v) 4)
  | .rxConfigRd i => some (.bus (cfg.layout.windowAddr i cfg.layout.offConfig) .rd 4)
  | .rxBadOffset i w acc => some (.bus (cfg.layout.windowAddr i w) acc 4)
  | .txAddrWr i v => some (.bus (cfg.layout.windowAddr i (cfg.layout.txWindowStart + cfg.layout.offAddr)) (.wr v) 4)
  | .txAddrRd i => some (.bus (cfg.layout.windowAddr i (cfg.layout.txWindowStart + cfg.layout.offAddr)) .rd 4)
  | .txSizeWr i v => some (.bus (cfg.layout.windowAddr i (cfg.layout.txWindowStart + cfg.layout.offSize)) (.wr v) 4)
  | .txSizeRd i => some (.bus (cfg.layout.windowAddr i (cfg.layout.txWindowStart + cfg.layout.offSize)) .rd 4)
  | .txConfigWr i v => some (.bus (cfg.layout.windowAddr i (cfg.layout.txWindowStart + cfg.layout.offConfig)) (.wr v) 4)
  | .txConfigRd i => some (.bus (cfg.layout.windowAddr i (cfg.layout.txWindowStart + cfg.layout.offConfig)) .rd 4)
  | .txBadOffset i w acc => some (.bus (cfg.layout.windowAddr i w) acc 4)
  | .pushBytes c bytes => some (.pushBytes c bytes)
  | .rdqPop c => some (.rdqPop c)
  | .promote c => some (.promote c)
  | .ctrlLoop => some .ctrlLoop
  | .tick => some .tick
  | .reset active => some (.reset active)
  | .prepareNextChunk _ => none
  | .deliverChunk _ _ => none
  | .finalize _ => none
  | .channelReady _ => none
  | .postWrite _ => none
  | .enqueueTransfer _ => none
  | .flush _ => none
  | .periphSetOn _ _ => none

/-- The `match` and `mask` of a BUS row over the 32-bit offset, as opcode_table.json gives them for the default layout
(30_encoding R143); PORT and INTERNAL rows have none. -/
def tableRow : Instr → Option (Word × Word)
  | .badSize _ _ _ => some (0x00000000, 0x00000000)
  | .cgWr _ => some (0x00000000, 0xffffffff)
  | .cgRd => some (0x00000000, 0xffffffff)
  | .evtinWr _ => some (0x00000004, 0xffffffff)
  | .evtinRd => some (0x00000004, 0xffffffff)
  | .cfgBadOffset _ _ => some (0x00000000, 0xffffff80)
  | .noPeriph _ _ => some (0x00000000, 0x00000000)
  | .periphOffNoop _ _ _ => some (0x00000000, 0x00000000)
  | .customAccess _ _ _ => some (0x00000000, 0x00000000)
  | .rxSlotEmpty _ _ _ => some (0x00000000, 0x00000070)
  | .txSlotEmpty _ _ _ => some (0x00000010, 0x00000070)
  | .rxAddrWr _ _ => some (0x00000000, 0x0000007f)
  | .rxAddrRd _ => some (0x00000000, 0x0000007f)
  | .rxSizeWr _ _ => some (0x00000004, 0x0000007f)
  | .rxSizeRd _ => some (0x00000004, 0x0000007f)
  | .rxConfigWr _ _ => some (0x00000008, 0x0000007f)
  | .rxConfigRd _ => some (0x00000008, 0x0000007f)
  | .rxBadOffset _ _ _ => some (0x00000000, 0x00000070)
  | .txAddrWr _ _ => some (0x00000010, 0x0000007f)
  | .txAddrRd _ => some (0x00000010, 0x0000007f)
  | .txSizeWr _ _ => some (0x00000014, 0x0000007f)
  | .txSizeRd _ => some (0x00000014, 0x0000007f)
  | .txConfigWr _ _ => some (0x00000018, 0x0000007f)
  | .txConfigRd _ => some (0x00000018, 0x0000007f)
  | .txBadOffset _ _ _ => some (0x00000010, 0x00000070)
  | .pushBytes _ _ => none
  | .rdqPop _ => none
  | .promote _ => none
  | .ctrlLoop => none
  | .tick => none
  | .reset _ => none
  | .prepareNextChunk _ => none
  | .deliverChunk _ _ => none
  | .finalize _ => none
  | .channelReady _ => none
  | .postWrite _ => none
  | .enqueueTransfer _ => none
  | .flush _ => none
  | .periphSetOn _ _ => none

/-- A register access as one number. Bits 31..0 are `off`, the only bits opcode_table.json numbers (30_encoding R143).
DESIGN CHOICE, log entry 2: above them bit 32 is 1 for a read, bits 63..33 hold the size with bit 2 inverted, so that
zeros mean a 4-byte access, and bits 95..64 hold `wdata`. -/
def busOfBits (n : Nat) : Call :=
  .bus (BitVec.ofNat 32 n) (if n.testBit 32 then .rd else .wr (BitVec.ofNat 32 (n >>> 64)))
    (((n >>> 33) % 2 ^ 31) ^^^ 4)

/-- The number of a register access, inverse to `busOfBits` for sizes below 2^31. -/
def bitsOfBus (off : Word) (acc : Acc) (size : Nat) : Nat :=
  match acc with
  | .rd => off.toNat + 2 ^ 32 + 2 ^ 33 * (size ^^^ 4)
  | .wr v => off.toNat + 2 ^ 33 * (size ^^^ 4) + 2 ^ 64 * v.toNat

/-- The call whose bits are `w`, of which the opcode table gives `nbits`; every bit above is 0 (log entry 2). -/
def callOfTableWord (nbits w : Nat) : Call :=
  busOfBits (w % 2 ^ nbits)

/-- The operation the decoder reads from a table word, in the configuration and with the flags the machine has after
reset: CFG-A and every peripheral off (10_state R58). -/
def decodeTableWord (nbits w : Nat) : Option Instr :=
  some (decode Cfg.vectors (fun _ => false) (callOfTableWord nbits w))

end Sys2Proof
end

