-- ==== Sys2Proof/WellFormed.lean ====
section
/-! DEFINITION. Which configurations a model is defined for (00_scope R10, R12) and which operations are well-formed in
one: their operands name things that exist, and a BUS row's static guard of opcode_table.json holds. -/
namespace Sys2Proof

/-- The layout gives every register an offset of its own inside its window. DEDUCED, log entry 5: 00_scope R10 states no
constraint on the layout parameters; these are what the map of 30_encoding R122 to R127 needs. -/
def Layout.wf (l : Layout) : Bool :=
  decide (0 < l.periphStride ∧ l.offCg < l.channelRegionStart ∧ l.offEvtin < l.channelRegionStart ∧ l.offCg ≠ l.offEvtin
    ∧ l.txWindowStart ≤ l.customWindowStart ∧ l.customWindowStart ≤ l.periphStride
    ∧ l.offAddr ≠ l.offSize ∧ l.offAddr ≠ l.offConfig ∧ l.offSize ≠ l.offConfig
    ∧ l.offAddr < l.txWindowStart ∧ l.offSize < l.txWindowStart ∧ l.offConfig < l.txWindowStart
    ∧ l.txWindowStart + l.offAddr < l.customWindowStart ∧ l.txWindowStart + l.offSize < l.customWindowStart
    ∧ l.txWindowStart + l.offConfig < l.customWindowStart)

/-- The bits of the CONFIG fields (00_scope R10). -/
def Layout.configBits (l : Layout) : List Nat :=
  [l.contBit, l.widthLo, l.widthLo + 1, l.enBit, l.pendingBit, l.clearBit]

/-- The CONFIG fields are at distinct bits of the word (log entry 5). -/
def Layout.bitsWf (l : Layout) : Bool :=
  decide l.configBits.Nodup && l.configBits.all (fun b => decide (b < 32))

/-- A peripheral instance is valid: its range has `n ≥ 1` ids inside `[0, NP)`, at least one slot is populated
(00_scope R10). -/
def PeriphCfg.wf (np : Nat) (p : PeriphCfg) : Bool :=
  decide (1 ≤ p.ids ∧ p.cid.val + p.ids ≤ np ∧ (p.rx = true ∨ p.tx = true ∨ p.custom.isSome = true))

/-- A configuration satisfies the constraints of 00_scope R10: bounds on NP and NRB, valid peripherals with pairwise disjoint
id ranges. For any other there is no initial state (00_scope R12, 60_exceptions R286). -/
def Cfg.valid (cfg : Cfg) : Bool :=
  decide (1 ≤ cfg.np ∧ cfg.np ≤ 32 ∧ 1 ≤ cfg.nrb)
    && cfg.periphs.all (PeriphCfg.wf cfg.np)
    && decide (cfg.periphs.Pairwise (fun p q => p.cid.val + p.ids ≤ q.cid.val ∨ q.cid.val + q.ids ≤ p.cid.val))

/-- A valid configuration with a layout of log entry 5 whose windows lie in the 32-bit offset space. -/
def Cfg.wf (cfg : Cfg) : Bool :=
  cfg.valid && cfg.layout.wf && cfg.layout.bitsWf
    && decide (cfg.layout.channelRegionStart + cfg.layout.periphStride * cfg.np ≤ 2 ^ 32)

/-- The peripheral at flattened id `i` exists and has slot `sl` populated, or unpopulated. -/
def Cfg.slotAt (cfg : Cfg) (i : Nat) (sl : Slot) (populated : Bool) : Bool :=
  match cfg.table i with
  | none => false
  | some p => (p.slotDir sl).isSome == populated

/-- The flags-independent part of a row's guard, and the ranges of its operands (opcode_table.json column `guard`). -/
def Instr.wf (cfg : Cfg) : Instr → Bool
  | .badSize _ _ size => decide (size ≠ 4)
  | .cgWr _ => true
  | .cgRd => true
  | .evtinWr _ => true
  | .evtinRd => true
  | .cfgBadOffset off _ => decide (off.toNat < cfg.layout.channelRegionStart ∧ off.toNat ≠ cfg.layout.offCg
      ∧ off.toNat ≠ cfg.layout.offEvtin)
  | .noPeriph off _ => decide (cfg.layout.channelRegionStart ≤ off.toNat) && (cfg.table (cfg.layout.periphId off)).isNone
  | .periphOffNoop i w _ => (cfg.table i).isSome && decide (w < cfg.layout.periphStride)
  | .customAccess i w _ => (cfg.table i).isSome && decide (cfg.layout.customWindowStart ≤ w ∧ w < cfg.layout.periphStride)
  | .rxSlotEmpty i w _ => cfg.slotAt i .rx false && decide (w < cfg.layout.txWindowStart)
  | .txSlotEmpty i w _ => cfg.slotAt i .tx false
      && decide (cfg.layout.txWindowStart ≤ w ∧ w < cfg.layout.customWindowStart)
  | .rxAddrWr i _ => cfg.slotAt i .rx true
  | .rxAddrRd i => cfg.slotAt i .rx true
  | .rxSizeWr i _ => cfg.slotAt i .rx true
  | .rxSizeRd i => cfg.slotAt i .rx true
  | .rxConfigWr i _ => cfg.slotAt i .rx true
  | .rxConfigRd i => cfg.slotAt i .rx true
  | .rxBadOffset i w _ => cfg.slotAt i .rx true && decide (w < cfg.layout.txWindowStart ∧ w ≠ cfg.layout.offAddr
      ∧ w ≠ cfg.layout.offSize ∧ w ≠ cfg.layout.offConfig)
  | .txAddrWr i _ => cfg.slotAt i .tx true
  | .txAddrRd i => cfg.slotAt i .tx true
  | .txSizeWr i _ => cfg.slotAt i .tx true
  | .txSizeRd i => cfg.slotAt i .tx true
  | .txConfigWr i _ => cfg.slotAt i .tx true
  | .txConfigRd i => cfg.slotAt i .tx true
  | .txBadOffset i w _ => cfg.slotAt i .tx true && decide (cfg.layout.txWindowStart ≤ w ∧ w < cfg.layout.customWindowStart
      ∧ w ≠ cfg.layout.txWindowStart + cfg.layout.offAddr ∧ w ≠ cfg.layout.txWindowStart + cfg.layout.offSize
      ∧ w ≠ cfg.layout.txWindowStart + cfg.layout.offConfig)
  | .pushBytes c _ => (cfg.dirOf c).isSome
  | .rdqPop c => (cfg.dirOf c).isSome
  | .promote c => (cfg.dirOf c).isSome
  | .ctrlLoop => true
  | .tick => true
  | .reset _ => true
  | .prepareNextChunk c => (cfg.dirOf c).isSome
  | .deliverChunk c _ => decide (cfg.dirOf c = some .tx)
  | .finalize c => (cfg.dirOf c).isSome
  | .channelReady c => (cfg.dirOf c).isSome
  | .postWrite req => decide (req.dir = .write ∧ req.data.length = req.size ∧ 1 ≤ req.size ∧ req.size ≤ 4)
      && (cfg.dirOf req.tag).isSome
  | .enqueueTransfer c => (cfg.dirOf c).isSome
  | .flush c => decide (cfg.dirOf c = some .rx)
  | .periphSetOn p _ => (cfg.periph p).isSome

/-- The on/off flag of the peripheral at flattened id `i` is `b`. -/
def Cfg.flagAt (cfg : Cfg) (on : Fin 32 → Bool) (i : Nat) (b : Bool) : Bool :=
  match cfg.table i with
  | none => false
  | some p => on p.cid == b

/-- The on/off part of a BUS row's guard: PERIPH_OFF_NOOP needs its peripheral off, the rows behind a peripheral's window
need it on (opcode_table.json column `guard`). -/
def Instr.flagsOk (cfg : Cfg) (on : Fin 32 → Bool) : Instr → Bool
  | .periphOffNoop i _ _ => cfg.flagAt on i false
  | .customAccess i _ _ => cfg.flagAt on i true
  | .rxSlotEmpty i _ _ => cfg.flagAt on i true
  | .txSlotEmpty i _ _ => cfg.flagAt on i true
  | .rxAddrWr i _ => cfg.flagAt on i true
  | .rxAddrRd i => cfg.flagAt on i true
  | .rxSizeWr i _ => cfg.flagAt on i true
  | .rxSizeRd i => cfg.flagAt on i true
  | .rxConfigWr i _ => cfg.flagAt on i true
  | .rxConfigRd i => cfg.flagAt on i true
  | .rxBadOffset i _ _ => cfg.flagAt on i true
  | .txAddrWr i _ => cfg.flagAt on i true
  | .txAddrRd i => cfg.flagAt on i true
  | .txSizeWr i _ => cfg.flagAt on i true
  | .txSizeRd i => cfg.flagAt on i true
  | .txConfigWr i _ => cfg.flagAt on i true
  | .txConfigRd i => cfg.flagAt on i true
  | .txBadOffset i _ _ => cfg.flagAt on i true
  | .badSize _ _ _ => true
  | .cgWr _ => true
  | .cgRd => true
  | .evtinWr _ => true
  | .evtinRd => true
  | .cfgBadOffset _ _ => true
  | .noPeriph _ _ => true
  | .pushBytes _ _ => true
  | .rdqPop _ => true
  | .promote _ => true
  | .ctrlLoop => true
  | .tick => true
  | .reset _ => true
  | .prepareNextChunk _ => true
  | .deliverChunk _ _ => true
  | .finalize _ => true
  | .channelReady _ => true
  | .postWrite _ => true
  | .enqueueTransfer _ => true
  | .flush _ => true
  | .periphSetOn _ _ => true

/-- A call names channels that exist. -/
def Call.wf (cfg : Cfg) : Call → Bool
  | .bus _ _ _ => true
  | .pushBytes c _ => (cfg.dirOf c).isSome
  | .rdqPop c => (cfg.dirOf c).isSome
  | .promote c => (cfg.dirOf c).isSome
  | .ctrlLoop => true
  | .tick => true
  | .reset _ => true

end Sys2Proof
end

