-- ==== Sys2Proof/Machine/State.lean ====
section
/-! DEFINITION. Every piece of state the spec gives the block (10_state), the event history (00_scope R17), the reasons
recorded in it (60_exceptions R282), and the construction state (10_state R73). -/
namespace Sys2Proof.Machine

/-- A transfer record (10_state R43). -/
structure Transfer where
  base      : Word
  cur       : Word
  total     : Nat
  remaining : Nat
  received  : Nat
  width     : BitVec 2
  cont      : Bool
  owner     : ChanId
deriving DecidableEq, Repr, Inhabited

/-- The busy/full signal (10_state R53, 60_exceptions R291). -/
inductive Busy where
  | available
  | undriven
deriving DecidableEq, Repr, Inhabited

/-- The state of one channel (10_state R45). `addr` and `size` are `none` while unwritten, the spec's own state (R46, R47;
log entry 11). -/
structure Chan where
  addr     : Option Word
  size     : Option Word
  contCfg  : Bool
  widthCfg : BitVec 2
  free     : Nat
  pending  : List Transfer
  active   : Option Transfer
  asm      : List Byte
  busy     : Busy
  promo    : Bool
  rdq      : List Quad
deriving DecidableEq, Repr, Inhabited

/-- A peripheral group's on/off flag and the channels of its three slots (10_state R58, 42_peripheral_group R220). An
unpopulated slot's record is storage no operation of the block reaches (log entry 17). -/
structure Periph where
  on     : Bool
  rx     : Chan
  tx     : Chan
  custom : Chan
deriving DecidableEq, Repr, Inhabited

end Sys2Proof.Machine

namespace Sys2Proof.Config

/-- FREE VALUE, log entry 12. A concrete custom handler (00_scope R10 `custom_handler(p)`, 42_peripheral_group R225): the
reaction of the peripheral with that canonical id to the access at a window offset (unrebased, D48), a function of the
written word, of the peripheral's state, and of a fresh count that stands for what the handler keeps outside the block;
none rejects. -/
opaque customHandler (cid : Fin 32) (draw : Nat) (w : Nat) (acc : Acc) (own : Machine.Periph) : Option HandlerAct

end Sys2Proof.Config

namespace Sys2Proof.Machine

/-- An accepted read in the in-flight pipeline (10_state R64). -/
structure InFlight where
  ts    : Nat
  c     : ChanId
  req   : Req
  rdata : Quad
deriving DecidableEq, Repr, Inhabited

/-- The response to a register access (30_encoding R121, 60_exceptions R281). -/
inductive Resp where
  | ok
  | okData (v : Word)
  | invalid
deriving DecidableEq, Repr, Inhabited

/-- The queue instances of 40_latency_queue R167, named in `LOG(QUEUE_FULL)` and `POP_EMPTY` (60_exceptions R282). -/
inductive QueueId where
  | freePool (c : ChanId)
  | pending (c : ChanId)
  | rdq (c : ChanId)
  | readBuffers
  | inflight
  | writeQueue
  | ready
deriving DecidableEq, Repr, Inhabited

/-- L01 to L08 of 60_exceptions R282, each with its recorded value. -/
inductive LogKind where
  | enqueueNoSlot (c : ChanId)
  | pushNoActive (c : ChanId)
  | pushWindowOverflow (c : ChanId) (length : Nat)
  | invalidAccess (off : Word)
  | queueFull (q : QueueId)
  | unimplementedEvtin (off : Word) (acc : Acc)
  | writeRejected (req : Req)
  | unimplementedResponse (req : Req)
deriving DecidableEq, Repr, Inhabited

/-- F01 to F04 of 60_exceptions R282, each with its recorded value: sticky model faults kept in `State.faults` (R284).
They do not stop the machine. -/
inductive FaultKind where
  | writeRejected (req : Req)
  | readRejected (req : Req)
  | asyncResponse (req : Req)
  | evtinUnsupported (off : Word) (acc : Acc)
deriving DecidableEq, Repr, Inhabited

/-- X01 to X11 of 60_exceptions R282, each with its recorded value: the refusal mark `State.refused` (R285). -/
inductive RefusalKind where
  | unwrittenStaging (c : ChanId)
  | zeroSize (c : ChanId)
  | unalignedBase (c : ChanId) (addr : Word)
  | addressWrap (c : ChanId) (addr size : Word)
  | rxOverrun (c : ChanId) (length : Nat)
  | pushNotRx (c : ChanId)
  | popNotTx (c : ChanId)
  | prepareNoActive (c : ChanId)
  | deliverNoActive (c : ChanId)
  | popEmpty (q : QueueId)
  | resetNotQuiescent
deriving DecidableEq, Repr, Inhabited

/-- The events of the history (00_scope R17). -/
inductive Event where
  | bus (off : Word) (acc : Acc) (size : Nat) (resp : Resp)
  | mem (req : Req) (ans : MemAnswer) (cycle : Nat)
  | complete (c : ChanId)
  | busy (c : ChanId) (v : Busy)
  | txdata (c : ChanId) (bytes : Quad)
  | log (k : LogKind)
  | reset
deriving DecidableEq, Repr, Inhabited

/-- The state of the block (10_state R42, R45, R58, R60; 00_scope R17), its configuration (00_scope R10, log entry 3), and
the model's own fields `agenda`, `answers` and `draws` (log entries 1, 6, 7). -/
structure State where
  cfg      : Cfg
  now      : Nat
  periphs  : Vector Periph 32
  cg       : Word
  rbfree   : Nat
  inflight : List InFlight
  wq       : List Req
  ready    : List ChanId
  wake     : Option Nat
  lastrun  : Option Nat
  faults   : List FaultKind
  refused  : Option RefusalKind
  hist     : List Event
  agenda   : List Call
  answers  : List MemAnswer
  draws    : Nat
deriving DecidableEq, Repr

/-- Why the machine stops: outcome (4) of 00_scope R16, a step that is not enabled, written as a stuck state with its
reason. Every one is safe: the model goes no further where the block has no such step. -/
inductive Fault where
  /-- Raised by TICK while a controller run is due (43_controller R260). Safe. -/
  | tickBlocked
  /-- Raised by CTRL_LOOP when `K.wake` is none or later than `now` (43_controller R250). Safe. -/
  | loopNotDue
  /-- Raised by PROMOTE(c) without a promotion request (41_channel R181). Safe. -/
  | promotionNotRequested (c : ChanId)
  /-- Raised by RDQ_POP(c) on a TX channel with an empty ready-data queue (41_channel R197, 93 U18). Safe. -/
  | rdqEmpty (c : ChanId)
  /-- Raised by an operation whose operand names no channel of the configuration (10_state R45). Safe. -/
  | noChannel (c : ChanId)
  /-- Raised by PERIPH_SET_ON of a canonical id no peripheral has (42_peripheral_group R227). Safe. -/
  | noPeripheral (p : Fin 32)
  /-- Raised by a call between components, named by its mnemonic, outside the operands its rule gives it (log entry 10).
  Safe: no rule makes such a call. -/
  | outsideOperands (mnemonic : String)
deriving DecidableEq, Repr

/-- Why a step has no meaning. -/
inductive Refusal where
  /-- Raised by an arm of `exec` for an operation not modelled yet. Safe. -/
  | notModelled (mnemonic : String)
  /-- Raised by `step` in a state whose configuration breaks a constraint of 00_scope R10: no model is built for it, so no
  run reaches such a state (00_scope R12, 60_exceptions R286). Safe. -/
  | invalidConfiguration
  /-- Raised by `step` in a state that carries the refusal mark `k`: the spec gives it no further meaning
  (60_exceptions R285, 00_scope R16). Safe. -/
  | marked (k : RefusalKind)
deriving DecidableEq, Repr

/-- A channel as constructed (10_state R45, column "initial value"). -/
def Chan.init : Chan :=
  { addr := none, size := none, contCfg := false, widthCfg := 0, free := Config.poolCap, pending := [], active := none
    asm := [], busy := .undriven, promo := false, rdq := [] }

/-- A peripheral group as constructed: off (10_state R58). -/
def Periph.init : Periph :=
  { on := false, rx := Chan.init, tx := Chan.init, custom := Chan.init }

/-- The initial values of every state element in a configuration (10_state R73). -/
def State.init (cfg : Cfg) : State :=
  { cfg := cfg, now := 0, periphs := Vector.replicate 32 Periph.init, cg := 0, rbfree := cfg.nrb, inflight := [], wq := []
    ready := [], wake := none, lastrun := none, faults := [], refused := none, hist := []
    agenda := [], answers := [], draws := 0 }

/-- Construction: the construction state of a configuration that satisfies R10; none for any other, for which there is no
initial state (00_scope R12, 60_exceptions R286, 93 U29). -/
def State.construct (cfg : Cfg) : Option State :=
  if cfg.valid then some (State.init cfg) else none

/-- The machine right after reset: the construction state, which a quiescent reset pulse reproduces (10_state R73), of
configuration CFG-A (DESIGN CHOICE, log entries 3 and 22). -/
def State.reset : State := State.init Cfg.vectors

end Sys2Proof.Machine
end

