-- ==== Sys2Proof/Machine/Ops.lean ====
section
/-! DEFINITION. The primitives of 00_scope R15 as operations on the state, the accessors of channels and flags, the
latency queue (40_latency_queue) and the memory interface (20_memory R92). The block takes no exception (60_exceptions
R293), so there is no operation for one. -/
namespace Sys2Proof.Machine

/-- The channel record of a slot. -/
def Periph.chan (p : Periph) : Slot → Chan
  | .rx => p.rx
  | .tx => p.tx
  | .custom => p.custom

/-- Replace the channel record of a slot. -/
def Periph.setChan (p : Periph) (sl : Slot) (ch : Chan) : Periph :=
  match sl with
  | .rx => { p with rx := ch }
  | .tx => { p with tx := ch }
  | .custom => { p with custom := ch }

/-- `C[c]` (00_scope R15). -/
def State.chan (s : State) (c : ChanId) : Chan :=
  (s.periphs.get c.pid).chan c.slot

/-- `C[c] <- ch` (00_scope R15). -/
def State.setChan (s : State) (c : ChanId) (ch : Chan) : State :=
  { s with periphs := s.periphs.set c.pid.val ((s.periphs.get c.pid).setChan c.slot ch) c.pid.isLt }

/-- `P[p].on` (00_scope R15). -/
def State.isOn (s : State) (p : Fin 32) : Bool :=
  (s.periphs.get p).on

/-- `set_on(p, b)`: `P[p].on <- b` (42_peripheral_group R227). -/
def State.setOn (s : State) (p : Fin 32) (b : Bool) : State :=
  { s with periphs := s.periphs.set p.val { s.periphs.get p with on := b } p.isLt }

/-- `Emit(ev)` (00_scope R15, R17). -/
def State.emit (s : State) (ev : Event) : State :=
  { s with hist := s.hist ++ [ev] }

/-- `Log(kind)`: a LOG event and no other effect (00_scope R15). -/
def State.log (s : State) (k : LogKind) : State :=
  s.emit (.log k)

/-- The event is a LOG event (00_scope R17). -/
def Event.isLog : Event → Bool
  | .log _ => true
  | .bus _ _ _ _ => false
  | .mem _ _ _ => false
  | .complete _ => false
  | .busy _ _ => false
  | .txdata _ _ => false
  | .reset => false

/-- `s` again, after operations that led to `t` and whose access is then answered INVALID: such an answer changes no state of
the block, so of `t` stay the LOG events it has added only (60_exceptions R281, 30_encoding R137), and the count of free
values drawn (log entries 6, 12). -/
def State.undone (s t : State) : State :=
  { s with hist := s.hist ++ (t.hist.drop s.hist.length).filter Event.isLog, draws := t.draws }

/-- `raise Fault(k)`: adds k to the sticky fault set (60_exceptions R284; a list without repeats, log entry 15). -/
def State.raise (s : State) (k : FaultKind) : State :=
  { s with faults := if k ∈ s.faults then s.faults else s.faults ++ [k] }

/-- `refuse(k)`: sets the refusal mark if it is none (60_exceptions R285). -/
def State.refuse (s : State) (k : RefusalKind) : State :=
  { s with refused := some (s.refused.getD k) }

/-- How a rule's pseudocode goes on: `cont` runs the next line, `halted` met a `refuse`, after which the rule gives the
state no further meaning and no further line runs (60_exceptions R285, log entry 8). -/
inductive Flow where
  | cont (s : State)
  | halted (s : State)
deriving DecidableEq, Repr

/-- The state a rule leaves. -/
def Flow.state : Flow → State
  | .cont s => s
  | .halted s => s

/-- The next line of a rule. -/
def Flow.andThen (f : Flow) (k : State → Flow) : Flow :=
  match f with
  | .cont s => k s
  | .halted s => .halted s

/-- The next word drawn where the spec says "draw" (log entry 6). -/
def State.nextDraw (s : State) : Word :=
  Config.readDraw s.draws

/-- Take the next word drawn. -/
def State.takeDraw (s : State) : State :=
  { s with draws := s.draws + 1 }

/-- `RequestWake(t)` (43_controller R262): requests coalesce to the earliest cycle. -/
def State.requestWake (s : State) (t : Nat) : State :=
  { s with wake := some (match s.wake with | none => t | some t0 => min t t0) }

/-- `StimulusWake()` (43_controller R263): this cycle if the loop has not run in it, else the next. -/
def State.stimulusWake (s : State) : State :=
  s.requestWake (if s.lastrun = some s.now then s.now + 1 else s.now)

/-- `Q.push(x)` on a queue of capacity `cap` (none is unbounded): append, or drop and log when full
(40_latency_queue R161, R162). The second component says whether it was dropped. -/
def queuePush {α : Type} (cap : Option Nat) (q : List α) (x : α) : List α × Bool :=
  if cap = some q.length then (q, true) else (q ++ [x], false)

/-- The ascending insertion of `push_ordered` on an unbounded queue: after every item of equal timestamp
(40_latency_queue R163). -/
def pushOrdered {α : Type} (ts : α → Nat) (x : α) : List α → List α
  | [] => [x]
  | e :: rest => if ts x < ts e then x :: e :: rest else e :: pushOrdered ts x rest

/-- `Q.push_ordered(x)` (40_latency_queue R163): as `queuePush`, inserting in timestamp order. -/
def queuePushOrdered {α : Type} (ts : α → Nat) (cap : Option Nat) (q : List α) (x : α) : List α × Bool :=
  if cap = some q.length then (q, true) else (pushOrdered ts x q, false)

/-- `Q.pop()`: the head and the rest; none on an empty queue, where the caller refuses POP_EMPTY
(40_latency_queue R164). -/
def queuePop {α : Type} : List α → Option (α × List α)
  | [] => none
  | x :: rest => some (x, rest)

/-- `Q.peek()`: the head, the queue unchanged; none on an empty queue (40_latency_queue R165). -/
def queuePeek {α : Type} : List α → Option α
  | [] => none
  | x :: _ => some x

/-- The log of a push that was dropped (40_latency_queue R161). -/
def State.logIfFull (s : State) (q : QueueId) (dropped : Bool) : State :=
  if dropped then s.log (.queueFull q) else s

/-- Push of a record on a channel's pending queue, capacity 2 (40_latency_queue R167). -/
def State.pushPending (s : State) (c : ChanId) (t : Transfer) : State :=
  (s.setChan c { s.chan c with pending := (queuePush (some Config.pendingCap) (s.chan c).pending t).1 }).logIfFull
    (.pending c) (queuePush (some Config.pendingCap) (s.chan c).pending t).2

/-- Push of a word on a channel's ready-data queue, unbounded (40_latency_queue R167). -/
def State.pushRdq (s : State) (c : ChanId) (w : Quad) : State :=
  s.setChan c { s.chan c with rdq := (queuePush none (s.chan c).rdq w).1 }

/-- Return of a record to a channel's free pool, a queue of capacity 2 kept as a count (10_state R44, R49;
40_latency_queue R167). -/
def State.pushFree (s : State) (c : ChanId) : State :=
  if (s.chan c).free < Config.poolCap then s.setChan c { s.chan c with free := (s.chan c).free + 1 }
  else s.log (.queueFull (.freePool c))

/-- Return of a read buffer to the pool, a queue of capacity NRB kept as a count (10_state R63; 40_latency_queue R167). -/
def State.pushBuffer (s : State) : State :=
  if s.rbfree < s.cfg.nrb then { s with rbfree := s.rbfree + 1 } else s.log (.queueFull .readBuffers)

/-- Push on the controller's write queue, unbounded (40_latency_queue R167). -/
def State.pushWrite (s : State) (req : Req) : State :=
  { s with wq := (queuePush none s.wq req).1 }

/-- Push on the ready-transmit-channel queue, unbounded (40_latency_queue R167). -/
def State.pushReady (s : State) (c : ChanId) : State :=
  { s with ready := (queuePush none s.ready c).1 }

/-- `K.inflight.push_ordered(e)`, unbounded (40_latency_queue R167). -/
def State.pushInflight (s : State) (e : InFlight) : State :=
  { s with inflight := (queuePushOrdered InFlight.ts none s.inflight e).1 }

/-- The answer the memory interface gives to the next request: the first of `answers`, a free value when there is none
(20_memory R92, log entry 7). -/
def State.nextAnswer (s : State) : MemAnswer :=
  match s.answers with
  | [] => Config.memAnswer s.draws
  | a :: _ => a

/-- Take the memory interface's next answer. -/
def State.takeAnswer (s : State) : State :=
  match s.answers with
  | [] => { s with draws := s.draws + 1 }
  | _ :: rest => { s with answers := rest }

/-- `ans <- MemIssue(req); Emit(MEM(req, ans, now))` (20_memory R92, 43_controller R251, R252); the answer is
`s.nextAnswer`. -/
def State.memIssue (s : State) (req : Req) : State :=
  s.takeAnswer.emit (.mem req s.nextAnswer s.now)

/-- The bytes of a request with their addresses: byte k of the data is the byte at `addr + k` (20_memory R94). -/
def cellsFrom : Nat → List Byte → List Host.Cell
  | _, [] => []
  | a, b :: rest => (a, b) :: cellsFrom (a + 1) rest

/-- The bytes a write request carries, by address (20_memory R94). -/
def reqCells (req : Req) : List Host.Cell :=
  cellsFrom req.addr.toNat req.data

/-- The word value of a list of bytes, first byte least significant, upper bits zero (20_memory R94, 41_channel R192). -/
def bytesWord : List Byte → Word
  | [] => 0
  | b :: rest => b.setWidth 32 ||| (bytesWord rest <<< 8)

end Sys2Proof.Machine
end

