-- ==== Sys2Proof/Machine/Operands.lean ====
section
/-! DEFINITION. Operand assembly: the fields of a CONFIG write and of a CONFIG read value (30_encoding R130, R131, R142),
the transfer record an enable builds and the checks on its operands (41_channel R176), and a transmit transfer's next
chunk (41_channel R195). -/
namespace Sys2Proof.Machine

/-- `cont = v[CFG_CONT_BIT]` (30_encoding R142). -/
def cfgCont (l : Layout) (v : Word) : Bool := v.getLsbD l.contBit

/-- `width = v[CFG_WIDTH_LO+1 : CFG_WIDTH_LO]` (30_encoding R142). -/
def cfgWidth (l : Layout) (v : Word) : BitVec 2 := v.extractLsb' l.widthLo 2

/-- `en = v[CFG_EN_BIT]` (30_encoding R142). -/
def cfgEn (l : Layout) (v : Word) : Bool := v.getLsbD l.enBit

/-- `clear = v[CFG_CLEAR_BIT]` (30_encoding R142). -/
def cfgClear (l : Layout) (v : Word) : Bool := v.getLsbD l.clearBit

/-- One bit as a word. -/
def bitWord (b : Bool) : Word := if b then 1 else 0

/-- The CONFIG read value from its four fields (30_encoding R142). -/
def cfgReadValue (l : Layout) (pend slot : Bool) (width : BitVec 2) (cont : Bool) : Word :=
  (bitWord pend <<< l.pendingBit) ||| (bitWord slot <<< l.enBit) ||| (width.setWidth 32 <<< l.widthLo)
    ||| (bitWord cont <<< l.contBit)

/-- `ceil(n/4)`: the number of 4-byte chunks of n bytes. -/
def chunks (n : Nat) : Nat := (n + 3) / 4

/-- Why a transfer from these ADDR and SIZE is refused, the first reason of 41_channel R176 in its order; none when the
enable has a meaning. -/
def stagingRefusal (c : ChanId) (addr size : Option Word) : Option RefusalKind :=
  match addr, size with
  | some a, some s =>
    if s.toNat = 0 then some (.zeroSize c)
    else if a.toNat % 4 ≠ 0 then some (.unalignedBase c a)
    else if 2 ^ 32 < a.toNat + 4 * chunks s.toNat then some (.addressWrap c a s)
    else none
  | _, _ => some (.unwrittenStaging c)

/-- The record built from ADDR, SIZE, WIDTH and CONT (41_channel R176). -/
def newTransfer (c : ChanId) (addr size : Option Word) (width : BitVec 2) (cont : Bool) : Transfer :=
  { base := addr.getD 0, cur := addr.getD 0, total := (size.getD 0).toNat, remaining := (size.getD 0).toNat
    received := 0, width := width, cont := cont, owner := c }

/-- The read request of a transfer's next chunk (41_channel R195). -/
def chunkReq (c : ChanId) (t : Transfer) : Req :=
  { addr := t.cur, size := Config.readSize, dir := .read, data := [], tag := c }

/-- A transfer after its next chunk is prepared (41_channel R195). -/
def chunkAdvance (t : Transfer) : Transfer :=
  { t with cur := t.cur + 4, remaining := t.remaining - min 4 t.remaining }

/-- The write request of a flush (41_channel R191). -/
def flushReq (c : ChanId) (t : Transfer) (asm : List Byte) : Req :=
  { addr := t.cur, size := asm.length, dir := .write, data := asm, tag := c }

/-- A transfer after a flush of `k` bytes (41_channel R191). -/
def flushAdvance (t : Transfer) (k : Nat) : Transfer :=
  { t with cur := t.cur + BitVec.ofNat 32 k, remaining := t.remaining - k }

end Sys2Proof.Machine
end

