-- ==== Sys2Proof/Machine/Flags.lean ====
section
/-! DEFINITION. The block's status values (10_state R70), the state-machine state of a channel (R57), quiescence (R72) and
when the clock and the controller are due (43_controller R250, R260). The block has no condition codes. -/
namespace Sys2Proof.Machine

/-- "slot available", the CONFIG read bit at the EN position (10_state R70). -/
def slotAvailable (ch : Chan) : Bool := decide (0 < ch.free)

/-- "nothing queued", the CONFIG read bit at the PENDING position (10_state R70). -/
def nothingQueued (ch : Chan) : Bool := ch.pending.isEmpty

/-- The value driven on the busy/full signal (41_channel R183). -/
def busyValue (ch : Chan) : Busy := if 0 < ch.free then .available else .undriven

/-- The CONFIG read value of a channel (41_channel R177). -/
def configValue (l : Layout) (ch : Chan) : Word :=
  cfgReadValue l (nothingQueued ch) (slotAvailable ch) ch.widthCfg ch.contCfg

/-- The states of a channel's state machine (10_state R57). -/
inductive ChanPhase where
  | idle
  | queued
  | active
deriving DecidableEq, Repr

/-- The state-machine state, a function of the fields (10_state R57). -/
def chanPhase (ch : Chan) : ChanPhase :=
  if ch.active.isSome then .active else if ch.pending.isEmpty then .idle else .queued

/-- A channel has no work outstanding (10_state R72). -/
def chanQuiescent (ch : Chan) : Bool :=
  ch.active.isNone && ch.pending.isEmpty && ch.asm.isEmpty && !ch.promo && ch.rdq.isEmpty

/-- The block is quiescent (10_state R72). -/
def State.quiescent (s : State) : Bool :=
  s.cfg.channels.all (fun c => chanQuiescent (s.chan c)) && s.wq.isEmpty && s.ready.isEmpty && s.inflight.isEmpty
    && s.wake.isNone

/-- A controller run is due: `K.wake = some(t)` with `t ≤ now` (43_controller R250). -/
def State.loopDue (s : State) : Bool :=
  match s.wake with
  | none => false
  | some t => decide (t ≤ s.now)

/-- Step 2 of the controller loop has its preconditions: a ready channel and a free read buffer (43_controller R250). -/
def State.canRead (s : State) : Bool := !s.ready.isEmpty && decide (0 < s.rbfree)

end Sys2Proof.Machine
end

