-- ==== Sys2Proof/Machine/Channel.lean ====
section
/-! DEFINITION. The operations of a channel and of the controller that a channel calls (41_channel; 43_controller R245,
R246). The families' meanings stand over them. -/
namespace Sys2Proof.Machine

/-- `request_promotion(c)` (41_channel R180). -/
def State.requestPromotion (s : State) (c : ChanId) : State :=
  s.setChan c { s.chan c with promo := true }

/-- `busy_update(c)`: drive the busy/full signal and emit, even when it is unchanged (41_channel R183). -/
def State.busyUpdate (s : State) (c : ChanId) : State :=
  (s.setChan c { s.chan c with busy := busyValue (s.chan c) }).emit (.busy c (busyValue (s.chan c)))

/-- `channel_ready(c)`: a TX channel joins the ready queue and wakes the controller; the RX path changes nothing
(43_controller R245). -/
def State.channelReady (s : State) (c : ChanId) : State :=
  if s.cfg.dirOf c = some .tx then (s.pushReady c).stimulusWake else s

/-- `post_write(req)` (43_controller R246). -/
def State.postWrite (s : State) (req : Req) : State :=
  (s.pushWrite req).stimulusWake

/-- What `enqueue_transfer` does with ADDR, SIZE, WIDTH and CONT (41_channel R176): the checks, the record leaves the free
pool and is queued, the busy/full signal is driven, promotion is requested. A pop of an empty pool is refused
(40_latency_queue R164; its callers have checked, log entry 18). -/
def State.enqueueRecord (s : State) (c : ChanId) (addr size : Option Word) (width : BitVec 2) (cont : Bool) : Flow :=
  match stagingRefusal c addr size with
  | some k => .halted (s.refuse k)
  | none =>
    if (s.chan c).free = 0 then .halted (s.refuse (.popEmpty (.freePool c)))
    else
      .cont (((((s.setChan c { s.chan c with free := (s.chan c).free - 1 }).pushPending c
        (newTransfer c addr size width cont)).busyUpdate c).requestPromotion c))

/-- `enqueue_transfer(c)` (41_channel R176), from the staged registers. -/
def State.enqueueTransfer (s : State) (c : ChanId) : Flow :=
  s.enqueueRecord c (s.chan c).addr (s.chan c).size (s.chan c).widthCfg (s.chan c).contCfg

/-- `PROMOTE(c)`: the channel event's step (41_channel R181). -/
def State.promote (s : State) (c : ChanId) : State :=
  match (s.chan c).active, (s.chan c).pending with
  | none, t :: rest =>
    (s.setChan c { s.chan c with promo := false, active := some t, pending := rest }).channelReady c
  | _, _ => s.setChan c { s.chan c with promo := false }

/-- `finalize(c)` (41_channel R205): record back to the pool, active cleared, busy/full driven, completion signal raised,
promotion requested. -/
def State.finalize (s : State) (c : ChanId) : State :=
  ((((s.pushFree c).setChan c { (s.pushFree c).chan c with active := none }).busyUpdate c).emit
    (.complete c)).requestPromotion c

/-- `flush(c)` with active transfer `t` (41_channel R191): the assembled bytes are posted as a write, and a transfer that
is exhausted is finalized at once. -/
def State.flush (s : State) (c : ChanId) (t : Transfer) : State :=
  if (flushAdvance t (s.chan c).asm.length).remaining = 0 then
    ((s.setChan c { s.chan c with asm := [], active := some (flushAdvance t (s.chan c).asm.length) }).postWrite
      (flushReq c t (s.chan c).asm)).finalize c
  else
    (s.setChan c { s.chan c with asm := [], active := some (flushAdvance t (s.chan c).asm.length) }).postWrite
      (flushReq c t (s.chan c).asm)

/-- `push_bytes(c, bytes)` on an RX channel, after the direction check: the checks in the order of 60_exceptions R288, then
assembly, and the flush when the window or the transfer is full (41_channel R190). -/
def State.pushBytes (s : State) (c : ChanId) (bytes : List Byte) : State :=
  match (s.chan c).active with
  | none => s.log (.pushNoActive c)
  | some t =>
    if Config.asmWindow < (s.chan c).asm.length + bytes.length then s.log (.pushWindowOverflow c bytes.length)
    else if t.remaining < (s.chan c).asm.length + bytes.length then s.refuse (.rxOverrun c bytes.length)
    else if (s.chan c).asm.length + bytes.length = Config.asmWindow
        ∨ (s.chan c).asm.length + bytes.length = t.remaining then
      (s.setChan c { s.chan c with asm := (s.chan c).asm ++ bytes }).flush c t
    else s.setChan c { s.chan c with asm := (s.chan c).asm ++ bytes }

/-- `rdq_pop(c)` on a TX channel whose ready-data queue is `w :: rest` (41_channel R197). -/
def State.popWord (s : State) (c : ChanId) (w : Quad) (rest : List Quad) : State :=
  (s.setChan c { s.chan c with rdq := rest }).emit (.txdata c w)

/-- What `prepare_next_chunk` returns: the request and whether it is the transfer's last (41_channel R195). -/
structure Chunk where
  req  : Req
  last : Bool
deriving DecidableEq, Repr

/-- The chunk `prepare_next_chunk(c)` returns; none where it refuses, on a channel that is not TX or has no active transfer
(41_channel R195). -/
def State.nextChunk (s : State) (c : ChanId) : Option Chunk :=
  if s.cfg.dirOf c = some .tx then
    (s.chan c).active.map (fun t => { req := chunkReq c t, last := decide ((chunkAdvance t).remaining = 0) })
  else none

/-- The state `prepare_next_chunk(c)` leaves: the active transfer's address and remaining count advance (41_channel R195). -/
def State.advanceChunk (s : State) (c : ChanId) : State :=
  s.setChan c { s.chan c with active := (s.chan c).active.map chunkAdvance }

/-- `deliver_chunk(c, rdata)` (41_channel R196): the word reaches the ready-data queue before the finalization check. -/
def State.deliverChunk (s : State) (c : ChanId) (rdata : Quad) : Flow :=
  match (s.chan c).active with
  | none => .halted (s.refuse (.deliverNoActive c))
  | some t =>
    if t.total ≤ t.received + Config.readSize then
      .cont (((s.setChan c { s.chan c with active := some { t with received := t.received + Config.readSize } }).pushRdq c
        rdata).finalize c)
    else
      .cont ((s.setChan c { s.chan c with active := some { t with received := t.received + Config.readSize } }).pushRdq c
        rdata)

/-- A register access on its way: the state it leaves and the response, none when a refusal ended it before it responded
(log entry 8). -/
structure Reply where
  state : State
  resp  : Option Resp
deriving DecidableEq, Repr

/-- An access whose last line but the response is a rule that may refuse: OK unless it did (log entry 8). -/
def Flow.reply : Flow → Reply
  | .cont s => { state := s, resp := some .ok }
  | .halted s => { state := s, resp := none }

/-- ADDR write (41_channel R171). -/
def State.addrWr (s : State) (c : ChanId) (v : Word) : Reply :=
  { state := s.setChan c { s.chan c with addr := some v }, resp := some .ok }

/-- A read of a staged register: its value, or a draw while it is unwritten (41_channel R172, R174). -/
def State.stagedRd (s : State) (r : Option Word) : Reply :=
  match r with
  | some v => { state := s, resp := some (.okData v) }
  | none => { state := s.takeDraw, resp := some (.okData s.nextDraw) }

/-- ADDR read (41_channel R172). -/
def State.addrRd (s : State) (c : ChanId) : Reply := s.stagedRd (s.chan c).addr

/-- SIZE write (41_channel R173). -/
def State.sizeWr (s : State) (c : ChanId) (v : Word) : Reply :=
  { state := s.setChan c { s.chan c with size := some v }, resp := some .ok }

/-- SIZE read (41_channel R174). -/
def State.sizeRd (s : State) (c : ChanId) : Reply := s.stagedRd (s.chan c).size

/-- The CONT and WIDTH fields of a CONFIG write, stored (41_channel R175). -/
def State.storeConfig (s : State) (c : ChanId) (v : Word) : State :=
  s.setChan c { s.chan c with contCfg := cfgCont s.cfg.layout v, widthCfg := cfgWidth s.cfg.layout v }

/-- CONFIG write (41_channel R175). -/
def State.configWr (s : State) (c : ChanId) (v : Word) : Reply :=
  if cfgClear s.cfg.layout v then { state := s, resp := some .invalid }
  else if cfgEn s.cfg.layout v ∧ (s.chan c).free = 0 then { state := s.log (.enqueueNoSlot c), resp := some .ok }
  else if cfgEn s.cfg.layout v then
    ((s.storeConfig c v).enqueueTransfer c).reply
  else { state := s.storeConfig c v, resp := some .ok }

/-- A transfer that a custom handler builds (42_peripheral_group R225): dropped and logged without a free record, else
checked and queued as an enable's (41_channel R175, R176). DESIGN CHOICE, log entry 12. -/
def State.handlerTransfer (s : State) (c : ChanId) (base size : Word) (width : BitVec 2) (cont : Bool) : Reply :=
  if (s.chan c).free = 0 then { state := s.log (.enqueueNoSlot c), resp := some .ok }
  else (s.enqueueRecord c (some base) (some size) width cont).reply

/-- CONFIG read (41_channel R177). -/
def State.configRd (s : State) (c : ChanId) : Reply :=
  { state := s, resp := some (.okData (configValue s.cfg.layout (s.chan c))) }

/-- A register access at channel offset `r` of an existing channel (41_channel R170 to R178). -/
def State.channelAccess (s : State) (c : ChanId) (r : Nat) (acc : Acc) : Reply :=
  if r = s.cfg.layout.offAddr then (match acc with | .wr v => s.addrWr c v | .rd => s.addrRd c)
  else if r = s.cfg.layout.offSize then (match acc with | .wr v => s.sizeWr c v | .rd => s.sizeRd c)
  else if r = s.cfg.layout.offConfig then (match acc with | .wr v => s.configWr c v | .rd => s.configRd c)
  else { state := s, resp := some .invalid }

end Sys2Proof.Machine
end

