-- ==== Sys2Proof/Machine/Controller.lean ====
section
/-! DEFINITION. The operations of the controller and of a peripheral group: register-access entry and decode (43_controller
R235 to R242, 42_peripheral_group R221 to R226), clock gate (R237), the per-cycle loop (R250 to R254) and reset
(70_reset_and_hazards R310 to R314). -/
namespace Sys2Proof.Machine

/-- One bit of a CG write: bit `i` changed and `i` is a canonical id informs that peripheral (43_controller R237). -/
def State.cgBit (old v : Word) (s : State) (i : Nat) : State :=
  if old.getLsbD i = v.getLsbD i then s
  else
    match s.cfg.table i with
    | none => s
    | some p => if p.cid.val = i then s.setOn p.cid (v.getLsbD i) else s

/-- CG write (43_controller R237): the mask is stored, then each changed bit is informed, from bit 0 up. -/
def State.cgWrite (s : State) (v : Word) : Reply :=
  { state := (List.range 32).foldl (State.cgBit s.cg v) { s with cg := v }, resp := some .ok }

/-- CG read (43_controller R238). -/
def State.cgRead (s : State) : Reply :=
  { state := s, resp := some (.okData s.cg) }

/-- EVTIN access (43_controller R239): log, fault, INVALID. -/
def State.evtinAccess (s : State) (off : Word) (acc : Acc) : Reply :=
  { state := (s.log (.unimplementedEvtin off acc)).raise (.evtinUnsupported off acc), resp := some .invalid }

/-- A rejected access: INVALID and no effect (60_exceptions R281). -/
def State.invalidAccess (s : State) : Reply :=
  { state := s, resp := some .invalid }

/-- An access while the peripheral is off: a silent no-op, OK for a write, OK with a draw for a read
(42_peripheral_group R222). -/
def State.offNoop (s : State) (acc : Acc) : Reply :=
  match acc with
  | .wr _ => { state := s, resp := some .ok }
  | .rd => { state := s.takeDraw, resp := some (.okData s.nextDraw) }

/-- An access to an unpopulated slot: logged and INVALID (42_peripheral_group R226). -/
def State.slotEmpty (s : State) (off : Word) : Reply :=
  { state := s.log (.invalidAccess off), resp := some .invalid }

/-- The reaction of `custom_handler(p)` to an access at window offset `w`; none rejects (42_peripheral_group R225,
log entry 12). -/
def State.handlerAct (s : State) (p : PeriphCfg) (w : Nat) (acc : Acc) : Option HandlerAct :=
  match p.handler with
  | .rows rs => handlerRowsAct rs w acc
  | .concrete => Config.customHandler p.cid s.draws w acc (s.periphs.get p.cid)

/-- The state after the handler is asked: a concrete handler's reaction is a free value drawn. -/
def State.afterHandler (s : State) (p : PeriphCfg) : State :=
  match p.handler with
  | .rows _ => s
  | .concrete => s.takeDraw

/-- `act` on the channel in slot `sl` of peripheral `p`; an unpopulated slot is logged and INVALID (42_peripheral_group
R226). -/
def State.onSlot (s : State) (p : PeriphCfg) (sl : Slot) (off : Word) (act : ChanId → Reply) : Reply :=
  if (p.slotDir sl).isSome then act { pid := p.cid, slot := sl } else s.slotEmpty off

/-- One operation of a handler reacting to the access `acc` (log entry 12). -/
def State.handlerOp (s : State) (p : PeriphCfg) (off : Word) (acc : Acc) : HandlerOp → Reply
  | .pass sl r => s.onSlot p sl off (fun c => s.channelAccess c r acc)
  | .reg sl r a => s.onSlot p sl off (fun c => s.channelAccess c r a)
  | .transfer sl base size width cont => s.onSlot p sl off (fun c => s.handlerTransfer c base size width cont)

/-- The operations of a handler, each on the state the former left, up to the first that is refused (log entries 8, 12). -/
def handlerOps (p : PeriphCfg) (off : Word) (acc : Acc) : List HandlerOp → Reply → Reply
  | [], r => r
  | op :: ops, r =>
    match r.resp with
    | none => r
    | some _ => handlerOps p off acc ops (r.state.handlerOp p off acc op)

/-- The answer of a handler asked in state `s` whose operations left `r` (log entry 12): an answer to a write carries no word,
one to a read does (30_encoding R121). An access that it answers INVALID is rejected, and its operations have changed
nothing (60_exceptions R281, 30_encoding R137). -/
def Reply.answered (r : Reply) (s : State) (acc : Acc) (h : HandlerResp) : Reply :=
  match r.resp with
  | none => r
  | some last =>
    match h, last, acc with
    | .invalid, _, _ => (s.undone r.state).invalidAccess
    | .last, .invalid, _ => (s.undone r.state).invalidAccess
    | .last, .okData v, .rd => { state := r.state, resp := some (.okData v) }
    | .okData v, _, .rd => { state := r.state, resp := some (.okData v) }
    | _, _, a => r.state.offNoop a

/-- An access to the custom region (42_peripheral_group R225): the peripheral's handler, which rejects by default; log
entry 12 for a handler that accepts. -/
def State.customAccess (s : State) (p : PeriphCfg) (off : Word) (w : Nat) (acc : Acc) : Reply :=
  match s.handlerAct p w acc with
  | none => (s.afterHandler p).invalidAccess
  | some act =>
    (handlerOps p off acc act.ops (s.afterHandler p).invalidAccess).answered (s.afterHandler p) acc act.resp

/-- `periph_access(p, w, dir, wdata)` (42_peripheral_group R221). -/
def State.periphAccess (s : State) (p : PeriphCfg) (off : Word) (w : Nat) (acc : Acc) : Reply :=
  if s.isOn p.cid = false then s.offNoop acc
  else if w < s.cfg.layout.txWindowStart then
    s.onSlot p .rx off (fun c => s.channelAccess c w acc)
  else if w < s.cfg.layout.customWindowStart then
    s.onSlot p .tx off (fun c => s.channelAccess c (w - s.cfg.layout.txWindowStart) acc)
  else s.customAccess p off w acc

/-- `config_access(off, dir, wdata)` (43_controller R236). -/
def State.configAccess (s : State) (off : Word) (acc : Acc) : Reply :=
  if off.toNat = s.cfg.layout.offCg then (match acc with | .wr v => s.cgWrite v | .rd => s.cgRead)
  else if off.toNat = s.cfg.layout.offEvtin then s.evtinAccess off acc
  else s.invalidAccess

/-- `channel_region_access(off, dir, wdata)` (43_controller R241, R242). -/
def State.channelRegionAccess (s : State) (off : Word) (acc : Acc) : Reply :=
  match s.cfg.table (s.cfg.layout.periphId off) with
  | none => s.invalidAccess
  | some p => s.periphAccess p off (s.cfg.layout.windowOff off) acc

/-- The event that ends a register access: `BUS(off, dir, size, wdata, resp)` with the response given; none was given when
a refusal ended the access (43_controller R235, log entry 8). -/
def Reply.close (r : Reply) (off : Word) (acc : Acc) (size : Nat) : State :=
  match r.resp with
  | some resp => r.state.emit (.bus off acc size resp)
  | none => r.state

/-- `BUS(off, dir, size, wdata)`: the register-access entry, as nested decode (43_controller R235). -/
def State.busEntry (s : State) (off : Word) (acc : Acc) (size : Nat) : State :=
  Reply.close
    (if size ≠ 4 then s.invalidAccess
      else if off.toNat < s.cfg.layout.channelRegionStart then s.configAccess off acc
      else s.channelRegionAccess off acc)
    off acc size

/-- Step 1 of the loop with write queue `req :: rest`: issue the write (43_controller R251). -/
def State.issueWrite (s : State) (req : Req) (rest : List Req) : State :=
  match s.nextAnswer with
  | .accept _ _ => { s with wq := rest }.memIssue req
  | .reject => (({ s with wq := rest }.memIssue req).log (.writeRejected req)).raise (.writeRejected req)
  | .pending => (({ s with wq := rest }.memIssue req).log (.unimplementedResponse req)).raise (.asyncResponse req)

/-- What step 2 does with the memory interface's answer `ans` to the read `req` of channel `c`, after it was issued
(43_controller R252). -/
def State.readAnswered (s : State) (c : ChanId) (req : Req) : MemAnswer → State
  | .accept lat rdata => s.pushInflight { ts := s.now + lat + 1, c := c, req := req, rdata := rdata }
  | .reject => s.pushBuffer.raise (.readRejected req)
  | .pending => (s.pushBuffer.log (.unimplementedResponse req)).raise (.asyncResponse req)

/-- The channel goes back to the tail of the ready queue unless the chunk was its last (43_controller R252). -/
def State.cedeTurn (s : State) (c : ChanId) (last : Bool) : State :=
  if last then s else s.pushReady c

/-- Step 2 of the loop with ready queue `c :: rest`: one buffer is taken, the channel prepares its next chunk, cedes its
turn, and the read is issued (43_controller R252). -/
def State.issueRead (s : State) (c : ChanId) (rest : List ChanId) : Flow :=
  match s.nextChunk c with
  | none => .halted ({ s with ready := rest, rbfree := s.rbfree - 1 }.refuse (.prepareNoActive c))
  | some ch =>
    .cont (((({ s with ready := rest, rbfree := s.rbfree - 1 }.advanceChunk c).cedeTurn c ch.last).memIssue
      ch.req).readAnswered c ch.req s.nextAnswer)

/-- Steps 1 and 2 of the loop: a queued write, else a read when a ready channel and a free buffer exist, else nothing
(43_controller R250). -/
def State.issueOne (s : State) : Flow :=
  match s.wq with
  | req :: rest => .cont (s.issueWrite req rest)
  | [] =>
    match s.ready with
    | c :: rest => if 0 < s.rbfree then s.issueRead c rest else .cont s
    | [] => .cont s

/-- Step 3 over the entries of the in-flight pipeline: while the earliest entry's timestamp is reached, it leaves the
pipeline, its buffer returns and its word is delivered (43_controller R253). -/
def drainEntries : List InFlight → State → Flow
  | [], s => .cont s
  | e :: rest, s =>
    if e.ts ≤ s.now then
      (({ s with inflight := rest }.pushBuffer).deliverChunk e.c e.rdata).andThen (drainEntries rest)
    else .cont s

/-- Step 3 of the loop, drain (43_controller R253). -/
def State.drain (s : State) : Flow := drainEntries s.inflight s

/-- The first request of step 4: the next cycle, if step 1's or step 2's preconditions hold (43_controller R254). -/
def State.rearmNext (s : State) : State :=
  if s.wq.isEmpty = false ∨ s.canRead = true then s.requestWake (s.now + 1) else s

/-- Step 4 of the loop, re-arm: then the earliest in-flight timestamp (43_controller R254). -/
def State.rearm (s : State) : State :=
  match queuePeek s.inflight with
  | none => s.rearmNext
  | some e => s.rearmNext.requestWake e.ts

/-- `CTRL_LOOP` (43_controller R250). -/
def State.ctrlLoop (s : State) : State :=
  ((({ s with wake := none, lastrun := some s.now }.issueOne).andThen State.drain).andThen
    (fun t => .cont t.rearm)).state

/-- `channel_reset(c)` (70_reset_and_hazards R311, R312): the assembly buffer is cleared on an RX channel only. -/
def State.channelReset (s : State) (c : ChanId) : State :=
  (s.setChan c { s.chan c with
      active := none, contCfg := false, widthCfg := 0, busy := .undriven, addr := none, size := none
      asm := if s.cfg.dirOf c = some .rx then [] else (s.chan c).asm }).emit (.busy c .undriven)

/-- `RESET(true)` on a quiescent block (70_reset_and_hazards R310, R314): the controller's fields, every peripheral off,
then every channel, in the order of the configuration (log entry 19). -/
def State.resetBlock (s : State) : State :=
  (s.cfg.channels.foldl State.channelReset
    (s.cfg.periphs.foldl (fun t p => t.setOn p.cid false) { s with cg := 0, wake := none })).emit .reset

/-- `RESET(active)` (70_reset_and_hazards R310, R313). -/
def State.resetPulse (s : State) (active : Bool) : State :=
  if active = false then s
  else if s.quiescent then s.resetBlock
  else s.refuse .resetNotQuiescent

end Sys2Proof.Machine
end

