-- ==== Sys2Proof/Machine/Bus.lean ====
section
/-! DEFINITION. The meanings of the BUS rows decided by the controller and the peripheral group: wrong size, configuration
region, no peripheral, peripheral off, custom region, unpopulated slot (43_controller R235 to R242; 42_peripheral_group R222
to R226). A row is one outcome of decoding an access; where its guard does not hold in the state, the access is the one the
register-access entry R235 decodes (log entry 16). -/
namespace Sys2Proof.Machine

/-- BAD_SIZE (43_controller R235): INVALID, whatever the offset. -/
def execBadSize (off : Word) (acc : Acc) (size : Nat) (s : State) : Host.Outcome State Fault Refusal :=
  .next (if size ≠ 4 then s.invalidAccess.close off acc size else s.busEntry off acc size)

/-- CG_WR (43_controller R237). -/
def execCgWr (v : Word) (s : State) : Host.Outcome State Fault Refusal :=
  .next ((s.cgWrite v).close (BitVec.ofNat 32 s.cfg.layout.offCg) (.wr v) 4)

/-- CG_RD (43_controller R238). -/
def execCgRd (s : State) : Host.Outcome State Fault Refusal :=
  .next (s.cgRead.close (BitVec.ofNat 32 s.cfg.layout.offCg) .rd 4)

/-- EVTIN_WR (43_controller R239). -/
def execEvtinWr (v : Word) (s : State) : Host.Outcome State Fault Refusal :=
  .next ((s.evtinAccess (BitVec.ofNat 32 s.cfg.layout.offEvtin) (.wr v)).close
    (BitVec.ofNat 32 s.cfg.layout.offEvtin) (.wr v) 4)

/-- EVTIN_RD (43_controller R239). -/
def execEvtinRd (s : State) : Host.Outcome State Fault Refusal :=
  .next ((s.evtinAccess (BitVec.ofNat 32 s.cfg.layout.offEvtin) .rd).close
    (BitVec.ofNat 32 s.cfg.layout.offEvtin) .rd 4)

/-- CFG_BAD_OFFSET (43_controller R240): INVALID. -/
def execCfgBadOffset (off : Word) (acc : Acc) (s : State) : Host.Outcome State Fault Refusal :=
  .next (if off.toNat < s.cfg.layout.channelRegionStart ∧ off.toNat ≠ s.cfg.layout.offCg
      ∧ off.toNat ≠ s.cfg.layout.offEvtin then s.invalidAccess.close off acc 4
    else s.busEntry off acc 4)

/-- NO_PERIPH (43_controller R242): INVALID. -/
def execNoPeriph (off : Word) (acc : Acc) (s : State) : Host.Outcome State Fault Refusal :=
  .next (if s.cfg.layout.channelRegionStart ≤ off.toNat ∧ (s.cfg.table (s.cfg.layout.periphId off)).isNone then
      s.invalidAccess.close off acc 4
    else s.busEntry off acc 4)

/-- PERIPH_OFF_NOOP (42_peripheral_group R222): accepted, nothing changes, a read returns a draw. -/
def execPeriphOffNoop (i w : Nat) (acc : Acc) (s : State) : Host.Outcome State Fault Refusal :=
  .next (match s.cfg.table i with
    | none => s.busEntry (s.cfg.layout.windowAddr i w) acc 4
    | some p =>
      if s.isOn p.cid = false then (s.offNoop acc).close (s.cfg.layout.windowAddr i w) acc 4
      else s.busEntry (s.cfg.layout.windowAddr i w) acc 4)

/-- CUSTOM_ACCESS (42_peripheral_group R225): the peripheral's handler; the default rejects. -/
def execCustomAccess (i w : Nat) (acc : Acc) (s : State) : Host.Outcome State Fault Refusal :=
  .next (match s.cfg.table i with
    | none => s.busEntry (s.cfg.layout.windowAddr i w) acc 4
    | some p =>
      if s.isOn p.cid = true ∧ s.cfg.layout.txWindowStart ≤ w ∧ s.cfg.layout.customWindowStart ≤ w then
        (s.customAccess p (s.cfg.layout.windowAddr i w) w acc).close (s.cfg.layout.windowAddr i w) acc 4
      else s.busEntry (s.cfg.layout.windowAddr i w) acc 4)

/-- RX_SLOT_EMPTY (42_peripheral_group R226): logged, INVALID. -/
def execRxSlotEmpty (i w : Nat) (acc : Acc) (s : State) : Host.Outcome State Fault Refusal :=
  .next (match s.cfg.table i with
    | none => s.busEntry (s.cfg.layout.windowAddr i w) acc 4
    | some p =>
      if s.isOn p.cid = true ∧ (p.slotDir .rx).isNone = true ∧ w < s.cfg.layout.txWindowStart then
        (s.slotEmpty (s.cfg.layout.windowAddr i w)).close (s.cfg.layout.windowAddr i w) acc 4
      else s.busEntry (s.cfg.layout.windowAddr i w) acc 4)

/-- TX_SLOT_EMPTY (42_peripheral_group R226): logged, INVALID. -/
def execTxSlotEmpty (i w : Nat) (acc : Acc) (s : State) : Host.Outcome State Fault Refusal :=
  .next (match s.cfg.table i with
    | none => s.busEntry (s.cfg.layout.windowAddr i w) acc 4
    | some p =>
      if s.isOn p.cid = true ∧ (p.slotDir .tx).isNone = true ∧ s.cfg.layout.txWindowStart ≤ w
          ∧ w < s.cfg.layout.customWindowStart then
        (s.slotEmpty (s.cfg.layout.windowAddr i w)).close (s.cfg.layout.windowAddr i w) acc 4
      else s.busEntry (s.cfg.layout.windowAddr i w) acc 4)

end Sys2Proof.Machine
end

