-- ==== Sys2Proof/Machine/ChannelRegs.lean ====
section
/-! DEFINITION. The meanings of the channel register rows: ADDR, SIZE and CONFIG of the rx and the tx slot, and the other
offsets of their windows (41_channel R171 to R178). Where the slot cannot be reached (no peripheral at the id, peripheral
off, slot unpopulated) the access is the one the register-access entry R235 decodes (log entry 16). -/
namespace Sys2Proof.Machine

/-- The channel a register access through flattened id `i` reaches in slot `sl`: the peripheral exists, is on, and the slot
is populated (41_channel R170). -/
def State.reach (s : State) (i : Nat) (sl : Slot) : Option ChanId :=
  match s.cfg.table i with
  | none => none
  | some p => if s.isOn p.cid = true ∧ (p.slotDir sl).isSome = true then some { pid := p.cid, slot := sl } else none

/-- The offset of the rx register at channel offset `r` of flattened id `i` (30_encoding R127). -/
def State.rxOff (s : State) (i r : Nat) : Word := s.cfg.layout.windowAddr i r

/-- The offset of the tx register at channel offset `r` of flattened id `i` (30_encoding R127). -/
def State.txOff (s : State) (i r : Nat) : Word := s.cfg.layout.windowAddr i (s.cfg.layout.txWindowStart + r)

/-- An access at offset `off` that does `act` on the channel it reaches in slot `sl` of flattened id `i`. -/
def State.regAccess (s : State) (i : Nat) (sl : Slot) (off : Word) (acc : Acc) (act : ChanId → Reply) : State :=
  match s.reach i sl with
  | some c => (act c).close off acc 4
  | none => s.busEntry off acc 4

/-- RX_ADDR_WR (41_channel R171). -/
def execRxAddrWr (i : Nat) (v : Word) (s : State) : Host.Outcome State Fault Refusal :=
  .next (s.regAccess i .rx (s.rxOff i s.cfg.layout.offAddr) (.wr v) (fun c => s.addrWr c v))

/-- RX_ADDR_RD (41_channel R172). -/
def execRxAddrRd (i : Nat) (s : State) : Host.Outcome State Fault Refusal :=
  .next (s.regAccess i .rx (s.rxOff i s.cfg.layout.offAddr) .rd (fun c => s.addrRd c))

/-- RX_SIZE_WR (41_channel R173). -/
def execRxSizeWr (i : Nat) (v : Word) (s : State) : Host.Outcome State Fault Refusal :=
  .next (s.regAccess i .rx (s.rxOff i s.cfg.layout.offSize) (.wr v) (fun c => s.sizeWr c v))

/-- RX_SIZE_RD (41_channel R174). -/
def execRxSizeRd (i : Nat) (s : State) : Host.Outcome State Fault Refusal :=
  .next (s.regAccess i .rx (s.rxOff i s.cfg.layout.offSize) .rd (fun c => s.sizeRd c))

/-- RX_CONFIG_WR (41_channel R175, R176). -/
def execRxConfigWr (i : Nat) (v : Word) (s : State) : Host.Outcome State Fault Refusal :=
  .next (s.regAccess i .rx (s.rxOff i s.cfg.layout.offConfig) (.wr v) (fun c => s.configWr c v))

/-- RX_CONFIG_RD (41_channel R177). -/
def execRxConfigRd (i : Nat) (s : State) : Host.Outcome State Fault Refusal :=
  .next (s.regAccess i .rx (s.rxOff i s.cfg.layout.offConfig) .rd (fun c => s.configRd c))

/-- RX_BAD_OFFSET (41_channel R178): INVALID. -/
def execRxBadOffset (i w : Nat) (acc : Acc) (s : State) : Host.Outcome State Fault Refusal :=
  .next (if w < s.cfg.layout.txWindowStart ∧ w ≠ s.cfg.layout.offAddr ∧ w ≠ s.cfg.layout.offSize
      ∧ w ≠ s.cfg.layout.offConfig then
      s.regAccess i .rx (s.rxOff i w) acc (fun _ => s.invalidAccess)
    else s.busEntry (s.rxOff i w) acc 4)

/-- TX_ADDR_WR (41_channel R171). -/
def execTxAddrWr (i : Nat) (v : Word) (s : State) : Host.Outcome State Fault Refusal :=
  .next (s.regAccess i .tx (s.txOff i s.cfg.layout.offAddr) (.wr v) (fun c => s.addrWr c v))

/-- TX_ADDR_RD (41_channel R172). -/
def execTxAddrRd (i : Nat) (s : State) : Host.Outcome State Fault Refusal :=
  .next (s.regAccess i .tx (s.txOff i s.cfg.layout.offAddr) .rd (fun c => s.addrRd c))

/-- TX_SIZE_WR (41_channel R173). -/
def execTxSizeWr (i : Nat) (v : Word) (s : State) : Host.Outcome State Fault Refusal :=
  .next (s.regAccess i .tx (s.txOff i s.cfg.layout.offSize) (.wr v) (fun c => s.sizeWr c v))

/-- TX_SIZE_RD (41_channel R174). -/
def execTxSizeRd (i : Nat) (s : State) : Host.Outcome State Fault Refusal :=
  .next (s.regAccess i .tx (s.txOff i s.cfg.layout.offSize) .rd (fun c => s.sizeRd c))

/-- TX_CONFIG_WR (41_channel R175, R176). -/
def execTxConfigWr (i : Nat) (v : Word) (s : State) : Host.Outcome State Fault Refusal :=
  .next (s.regAccess i .tx (s.txOff i s.cfg.layout.offConfig) (.wr v) (fun c => s.configWr c v))

/-- TX_CONFIG_RD (41_channel R177). -/
def execTxConfigRd (i : Nat) (s : State) : Host.Outcome State Fault Refusal :=
  .next (s.regAccess i .tx (s.txOff i s.cfg.layout.offConfig) .rd (fun c => s.configRd c))

/-- TX_BAD_OFFSET (41_channel R178): INVALID. `w` is the window offset. -/
def execTxBadOffset (i w : Nat) (acc : Acc) (s : State) : Host.Outcome State Fault Refusal :=
  .next (if s.cfg.layout.txWindowStart ≤ w ∧ w < s.cfg.layout.customWindowStart
      ∧ w ≠ s.cfg.layout.txWindowStart + s.cfg.layout.offAddr ∧ w ≠ s.cfg.layout.txWindowStart + s.cfg.layout.offSize
      ∧ w ≠ s.cfg.layout.txWindowStart + s.cfg.layout.offConfig then
      s.regAccess i .tx (s.cfg.layout.windowAddr i w) acc (fun _ => s.invalidAccess)
    else s.busEntry (s.cfg.layout.windowAddr i w) acc 4)

end Sys2Proof.Machine
end

