-- ==== Sys2Proof/Machine/Port.lean ====
section
/-! DEFINITION. The meanings of the PORT rows, called by a peripheral decoder (30_encoding R135; 41_channel R190, R197). -/
namespace Sys2Proof.Machine

/-- An operation on channel `c`: `act` of its direction; stuck when the configuration has no such channel. -/
def State.onChannel (s : State) (c : ChanId) (act : Dir → Host.Outcome State Fault Refusal) :
    Host.Outcome State Fault Refusal :=
  match s.cfg.dirOf c with
  | none => .fault (.noChannel c)
  | some d => act d

/-- PUSH_BYTES (41_channel R190): refused on a TX channel, which is checked first (60_exceptions R288). -/
def execPushBytes (c : ChanId) (bytes : List Byte) (s : State) : Host.Outcome State Fault Refusal :=
  s.onChannel c (fun d =>
    match d with
    | .tx => .next (s.refuse (.pushNotRx c))
    | .rx => .next (s.pushBytes c bytes))

/-- RDQ_POP (41_channel R197): refused on an RX channel, which is checked first (log entry 13); with an empty ready-data
queue the decoder has no step (93 U18). -/
def execRdqPop (c : ChanId) (s : State) : Host.Outcome State Fault Refusal :=
  s.onChannel c (fun d =>
    match d with
    | .rx => .next (s.refuse (.popNotTx c))
    | .tx =>
      match queuePop (s.chan c).rdq with
      | none => .fault (.rdqEmpty c)
      | some (w, rest) => .next (s.popWord c w rest))

end Sys2Proof.Machine
end

