-- ==== Sys2Proof/Machine/Internal.lean ====
section
/-! DEFINITION. The meanings of the INTERNAL rows (30_encoding R136): the steps of the channel event, the controller event
and the clock, the reset pulse, and the eight calls between components. A call between components outside the operands its
rule gives it is never made: it is stuck (log entry 10). -/
namespace Sys2Proof.Machine

/-- PROMOTE(c), enabled when `C[c].promo` (41_channel R181). -/
def execPromote (c : ChanId) (s : State) : Host.Outcome State Fault Refusal :=
  s.onChannel c (fun _ => if (s.chan c).promo then .next (s.promote c) else .fault (.promotionNotRequested c))

/-- CTRL_LOOP, enabled when `K.wake` is due (43_controller R250). -/
def execCtrlLoop (s : State) : Host.Outcome State Fault Refusal :=
  if s.loopDue then .next s.ctrlLoop else .fault .loopNotDue

/-- TICK, enabled when no controller run is due (43_controller R260). -/
def execTick (s : State) : Host.Outcome State Fault Refusal :=
  if s.loopDue then .fault .tickBlocked else .next { s with now := s.now + 1 }

/-- RESET(active) (70_reset_and_hazards R310). -/
def execReset (active : Bool) (s : State) : Host.Outcome State Fault Refusal :=
  .next (s.resetPulse active)

/-- PREPARE_NEXT_CHUNK (41_channel R195). The request and the last flag are returned to the caller (`State.nextChunk`). -/
def execPrepareNextChunk (c : ChanId) (s : State) : Host.Outcome State Fault Refusal :=
  s.onChannel c (fun _ =>
    match s.nextChunk c with
    | none => .next (s.refuse (.prepareNoActive c))
    | some _ => .next (s.advanceChunk c))

/-- DELIVER_CHUNK (41_channel R196), on a TX channel. -/
def execDeliverChunk (c : ChanId) (rdata : Quad) (s : State) : Host.Outcome State Fault Refusal :=
  s.onChannel c (fun d =>
    match d with
    | .tx => .next (s.deliverChunk c rdata).state
    | .rx => .fault (.outsideOperands "DELIVER_CHUNK"))

/-- FINALIZE (41_channel R205), on a channel with an active transfer. -/
def execFinalize (c : ChanId) (s : State) : Host.Outcome State Fault Refusal :=
  s.onChannel c (fun _ =>
    if (s.chan c).active.isSome then .next (s.finalize c) else .fault (.outsideOperands "FINALIZE"))

/-- CHANNEL_READY (43_controller R245). -/
def execChannelReady (c : ChanId) (s : State) : Host.Outcome State Fault Refusal :=
  s.onChannel c (fun _ => .next (s.channelReady c))

/-- POST_WRITE (43_controller R246), of a WRITE request. -/
def execPostWrite (req : Req) (s : State) : Host.Outcome State Fault Refusal :=
  if req.dir = .write then .next (s.postWrite req) else .fault (.outsideOperands "POST_WRITE")

/-- ENQUEUE_TRANSFER (41_channel R176). -/
def execEnqueueTransfer (c : ChanId) (s : State) : Host.Outcome State Fault Refusal :=
  s.onChannel c (fun _ => .next (s.enqueueTransfer c).state)

/-- FLUSH (41_channel R191), on an RX channel with an active transfer and 1 to 4 assembled bytes. -/
def execFlush (c : ChanId) (s : State) : Host.Outcome State Fault Refusal :=
  s.onChannel c (fun d =>
    match d, (s.chan c).active with
    | .rx, some t =>
      if 1 ≤ (s.chan c).asm.length ∧ (s.chan c).asm.length ≤ Config.asmWindow then .next (s.flush c t)
      else .fault (.outsideOperands "FLUSH")
    | _, _ => .fault (.outsideOperands "FLUSH"))

/-- PERIPH_SET_ON (42_peripheral_group R227). -/
def execPeriphSetOn (p : Fin 32) (b : Bool) (s : State) : Host.Outcome State Fault Refusal :=
  match s.cfg.periph p with
  | none => .fault (.noPeripheral p)
  | some _ => .next (s.setOn p b)

end Sys2Proof.Machine
end

