-- ==== Sys2Proof/Machine/Dispatch.lean ====
section
/-! DEFINITION. The dispatch: one arm per row of spec/opcode_table.json, in the table's order. -/
namespace Sys2Proof.Machine

/-- The meaning of each operation. -/
def exec (i : Instr) (s : State) : Host.Outcome State Fault Refusal :=
  match i with
  | .badSize off acc size => Sys2Proof.Machine.execBadSize off acc size s
  | .cgWr v => Sys2Proof.Machine.execCgWr v s
  | .cgRd => Sys2Proof.Machine.execCgRd s
  | .evtinWr v => Sys2Proof.Machine.execEvtinWr v s
  | .evtinRd => Sys2Proof.Machine.execEvtinRd s
  | .cfgBadOffset off acc => Sys2Proof.Machine.execCfgBadOffset off acc s
  | .noPeriph off acc => Sys2Proof.Machine.execNoPeriph off acc s
  | .periphOffNoop id w acc => Sys2Proof.Machine.execPeriphOffNoop id w acc s
  | .customAccess id w acc => Sys2Proof.Machine.execCustomAccess id w acc s
  | .rxSlotEmpty id w acc => Sys2Proof.Machine.execRxSlotEmpty id w acc s
  | .txSlotEmpty id w acc => Sys2Proof.Machine.execTxSlotEmpty id w acc s
  | .rxAddrWr id v => Sys2Proof.Machine.execRxAddrWr id v s
  | .rxAddrRd id => Sys2Proof.Machine.execRxAddrRd id s
  | .rxSizeWr id v => Sys2Proof.Machine.execRxSizeWr id v s
  | .rxSizeRd id => Sys2Proof.Machine.execRxSizeRd id s
  | .rxConfigWr id v => Sys2Proof.Machine.execRxConfigWr id v s
  | .rxConfigRd id => Sys2Proof.Machine.execRxConfigRd id s
  | .rxBadOffset id w acc => Sys2Proof.Machine.execRxBadOffset id w acc s
  | .txAddrWr id v => Sys2Proof.Machine.execTxAddrWr id v s
  | .txAddrRd id => Sys2Proof.Machine.execTxAddrRd id s
  | .txSizeWr id v => Sys2Proof.Machine.execTxSizeWr id v s
  | .txSizeRd id => Sys2Proof.Machine.execTxSizeRd id s
  | .txConfigWr id v => Sys2Proof.Machine.execTxConfigWr id v s
  | .txConfigRd id => Sys2Proof.Machine.execTxConfigRd id s
  | .txBadOffset id w acc => Sys2Proof.Machine.execTxBadOffset id w acc s
  | .pushBytes c bytes => Sys2Proof.Machine.execPushBytes c bytes s
  | .rdqPop c => Sys2Proof.Machine.execRdqPop c s
  | .promote c => Sys2Proof.Machine.execPromote c s
  | .ctrlLoop => Sys2Proof.Machine.execCtrlLoop s
  | .tick => Sys2Proof.Machine.execTick s
  | .reset active => Sys2Proof.Machine.execReset active s
  | .prepareNextChunk c => Sys2Proof.Machine.execPrepareNextChunk c s
  | .deliverChunk c rdata => Sys2Proof.Machine.execDeliverChunk c rdata s
  | .finalize c => Sys2Proof.Machine.execFinalize c s
  | .channelReady c => Sys2Proof.Machine.execChannelReady c s
  | .postWrite req => Sys2Proof.Machine.execPostWrite req s
  | .enqueueTransfer c => Sys2Proof.Machine.execEnqueueTransfer c s
  | .flush c => Sys2Proof.Machine.execFlush c s
  | .periphSetOn p b => Sys2Proof.Machine.execPeriphSetOn p b s

end Sys2Proof.Machine
end

