-- ==== Sys2Proof/Machine/Schedule.lean ====
section
/-! DEFINITION. Which agent steps next (00_scope R9, R16; 92 D53; log entry 1): the head of the agenda, and with an empty
agenda any enabled call, chosen by a free value. -/
namespace Sys2Proof.Machine

/-- The agent has this step (00_scope R16 outcome (4); 41_channel R181, R197; 43_controller R250, R260). A host access, a
reset pulse and a push may be made at any step (60_exceptions R297). -/
def State.enabled (s : State) : Call → Bool
  | .bus _ _ _ => true
  | .pushBytes c _ => (s.cfg.dirOf c).isSome
  | .rdqPop c =>
    match s.cfg.dirOf c with
    | none => false
    | some .rx => true
    | some .tx => !(s.chan c).rdq.isEmpty
  | .promote c => (s.cfg.dirOf c).isSome && (s.chan c).promo
  | .ctrlLoop => s.loopDue
  | .tick => !s.loopDue
  | .reset _ => true

/-- The step the block has of itself: the controller run that is due, else the clock's tick; exactly one of the two is
enabled (43_controller R250, R260). -/
def State.ownCall (s : State) : Call :=
  if s.loopDue then .ctrlLoop else .tick

/-- The call made next: the head of the agenda; with an empty agenda the call a free value names if it is enabled, else
the block's own step (log entry 1). -/
def State.upcoming (s : State) : Call :=
  match s.agenda with
  | c :: _ => c
  | [] => if s.enabled (Config.nextCall s.draws) then Config.nextCall s.draws else s.ownCall

/-- The state in which that call is executed: it has left the agenda, or its free value is drawn. -/
def State.afterFetch (s : State) : State :=
  match s.agenda with
  | _ :: rest => { s with agenda := rest }
  | [] => { s with draws := s.draws + 1 }

/-- The operation the next call selects, by the decoder and the present on/off flags (30_encoding R143). -/
def State.upcomingInstr (s : State) : Instr :=
  decode s.cfg s.isOn s.upcoming

/-- Put a call at the head of the agenda. -/
def State.schedule (s : State) (c : Call) : State :=
  { s with agenda := c :: s.agenda }

end Sys2Proof.Machine
end

