-- ==== Sys2Proof/Machine/Step.lean ====
section
/-! DEFINITION. One step of the machine (00_scope R9, R16; log entry 1). -/
namespace Sys2Proof.Machine

/-- One step of one agent: refused in a configuration for which no model is built (00_scope R12) and in a state that carries
the refusal mark (60_exceptions R285), else the next call's operation, executed. -/
def step (s : State) : Host.Outcome State Fault Refusal :=
  if s.cfg.valid then
    match s.refused with
    | some k => .refused (.marked k)
    | none => exec s.upcomingInstr s.afterFetch
  else .refused .invalidConfiguration

/-- `s` with the register access whose bits are `w` as the next call (log entries 1 and 2). -/
def State.withFetchWord (s : State) (nbits w : Nat) : State :=
  s.schedule (callOfTableWord nbits w)

end Sys2Proof.Machine
end

