-- ==== Sys2Proof/Safety.lean ====
section
/-! DEFINITION. What counts as a finished run (10_state R74), the invariants of the block (10_state R56, R61, R63, R64, R66,
R68, R69; 20_memory R91, R96, R97, R101), and the frames in which the statements say what an operation leaves unchanged. -/
namespace Sys2Proof.Machine

/-- A run is finished: quiescent, no fault recorded, no refusal mark (10_state R74). -/
def State.finished (s : State) : Bool :=
  s.quiescent && s.faults.isEmpty && s.refused.isNone

/-- The host's access through flattened id `i` reaches channel `c` in slot `sl`: the peripheral exists, is on and has the
slot populated (41_channel R170). -/
def Reaches (s : State) (i : Nat) (sl : Slot) (c : ChanId) : Prop :=
  ∃ p, s.cfg.table i = some p ∧ s.isOn p.cid = true ∧ (p.slotDir sl).isSome = true ∧ c = { pid := p.cid, slot := sl }

/-! Frames. Each says which fields may differ; every other field of the state is equal. -/

/-- Only the history differs. -/
def OnlyHist (s t : State) : Prop := t = { s with hist := t.hist }

/-- Only the history and the count of drawn free values differ. -/
def OnlyHistDraws (s t : State) : Prop := t = { s with hist := t.hist, draws := t.draws }

/-- The channels other than `c`, and every on/off flag, are equal. -/
def OtherChansSame (c : ChanId) (s t : State) : Prop :=
  (∀ c', c' ≠ c → t.chan c' = s.chan c') ∧ ∀ p, t.isOn p = s.isOn p

/-- Only channel `c` and the history differ. -/
def OnlyChan (c : ChanId) (s t : State) : Prop :=
  OtherChansSame c s t ∧ t = { s with periphs := t.periphs, hist := t.hist }

/-- Only channel `c`, the history, the write queue and the wake-up differ. -/
def OnlyChanWrite (c : ChanId) (s t : State) : Prop :=
  OtherChansSame c s t ∧ t = { s with periphs := t.periphs, hist := t.hist, wq := t.wq, wake := t.wake }

/-- Only channel `c`, the ready queue and the wake-up differ. -/
def OnlyChanReady (c : ChanId) (s t : State) : Prop :=
  OtherChansSame c s t ∧ t = { s with periphs := t.periphs, ready := t.ready, wake := t.wake }

/-- Every channel is equal; the flags may differ. -/
def ChansSame (s t : State) : Prop := ∀ c, t.chan c = s.chan c

/-! What a register access leaves, as the statements speak of it: `s` before it, `t` after it but for the event that ends the
access, `resp` its response, none when a refusal ended it (log entry 8). -/

/-- `t` after the event that ends a 4-byte access, when the access responded (43_controller R235). -/
def State.answered (t : State) (off : Word) (acc : Acc) (resp : Option Resp) : State :=
  match resp with
  | none => t
  | some r => { t with hist := t.hist ++ [.bus off acc 4 r] }

/-- The access is refused `k`: the mark is set if none was, channel `c` is left as `ch`, no event is added, nothing else
changes (60_exceptions R285). That `ch` keeps what was stored before the refusal, and that no event ends the access, is the
model's choice, log entry 8. -/
def RefusedLeaves (s : State) (c : ChanId) (ch : Chan) (k : RefusalKind) (t : State) (resp : Option Resp) : Prop :=
  resp = none ∧ t.chan c = ch ∧ OtherChansSame c s t ∧ t.refused = some (s.refused.getD k)
    ∧ t = { s with periphs := t.periphs, refused := t.refused }

/-- A transfer of channel `c`, whose registers then hold what `ch` says, is queued, or refused for the first reason of
41_channel R176. -/
def EnqueueLeaves (s : State) (c : ChanId) (ch : Chan) (addr size : Option Word) (width : BitVec 2) (cont : Bool) (t : State)
    (resp : Option Resp) : Prop :=
  match addr, size with
  | some a, some z =>
    if z.toNat = 0 then RefusedLeaves s c ch (.zeroSize c) t resp
    else if a.toNat % 4 ≠ 0 then RefusedLeaves s c ch (.unalignedBase c a) t resp
    else if 2 ^ 32 < a.toNat + 4 * ((z.toNat + 3) / 4) then RefusedLeaves s c ch (.addressWrap c a z) t resp
    else
      resp = some .ok ∧ OnlyChan c s t
        ∧ t.chan c = { ch with
            free := ch.free - 1
            pending := ch.pending ++ [{ base := a, cur := a, total := z.toNat, remaining := z.toNat, received := 0
                                        width := width, cont := cont, owner := c }]
            busy := if 1 < ch.free then .available else .undriven
            promo := true }
        ∧ t.hist = s.hist ++ [.busy c (if 1 < ch.free then .available else .undriven)]
  | _, _ => RefusedLeaves s c ch (.unwrittenStaging c) t resp

/-- The channel with the CONT and WIDTH fields of a CONFIG write stored (41_channel R175). -/
def storedChan (l : Layout) (ch : Chan) (v : Word) : Chan :=
  { ch with contCfg := v.getLsbD l.contBit, widthCfg := v.extractLsb' l.widthLo 2 }

/-- A CONFIG write of `v` with EN set and CLEAR not, on a channel with a free record (41_channel R175, R176). -/
def EnableLeaves (s : State) (c : ChanId) (v : Word) (t : State) (resp : Option Resp) : Prop :=
  EnqueueLeaves s c (storedChan s.cfg.layout (s.chan c) v) (s.chan c).addr (s.chan c).size
    (v.extractLsb' s.cfg.layout.widthLo 2) (v.getLsbD s.cfg.layout.contBit) t resp

/-- A CONFIG write (41_channel R175). -/
def ConfigWriteLeaves (s : State) (c : ChanId) (v : Word) (t : State) (resp : Option Resp) : Prop :=
  if v.getLsbD s.cfg.layout.clearBit = true then t = s ∧ resp = some .invalid
  else if v.getLsbD s.cfg.layout.enBit = false then
    OnlyChan c s t ∧ t.hist = s.hist ∧ t.chan c = storedChan s.cfg.layout (s.chan c) v ∧ resp = some .ok
  else if (s.chan c).free = 0 then t = { s with hist := s.hist ++ [.log (.enqueueNoSlot c)] } ∧ resp = some .ok
  else EnableLeaves s c v t resp

/-- `d` is the CONFIG read value of channel record `ch` (41_channel R177, 30_encoding R131). -/
def IsConfigWord (l : Layout) (ch : Chan) (d : Word) : Prop :=
  d.getLsbD l.contBit = ch.contCfg
    ∧ d.extractLsb' l.widthLo 2 = ch.widthCfg
    ∧ d.getLsbD l.enBit = decide (0 < ch.free)
    ∧ d.getLsbD l.pendingBit = decide (ch.pending = [])
    ∧ ∀ b, b ∉ [l.contBit, l.widthLo, l.widthLo + 1, l.enBit, l.pendingBit] → d.getLsbD b = false

/-- A read of a staged register: its word, some word while it is unwritten (41_channel R172, R174). -/
def StagedReadLeaves (s : State) (r : Option Word) (t : State) (resp : Option Resp) : Prop :=
  t = { s with draws := t.draws } ∧ ∃ d, resp = some (.okData d) ∧ ∀ x, r = some x → d = x

/-- An access to register offset `r` of channel `c` (41_channel R171 to R178). -/
def RegisterLeaves (s : State) (c : ChanId) (r : Nat) (acc : Acc) (t : State) (resp : Option Resp) : Prop :=
  if r = s.cfg.layout.offAddr then
    match acc with
    | .wr v => OnlyChan c s t ∧ t.hist = s.hist ∧ t.chan c = { s.chan c with addr := some v } ∧ resp = some .ok
    | .rd => StagedReadLeaves s (s.chan c).addr t resp
  else if r = s.cfg.layout.offSize then
    match acc with
    | .wr v => OnlyChan c s t ∧ t.hist = s.hist ∧ t.chan c = { s.chan c with size := some v } ∧ resp = some .ok
    | .rd => StagedReadLeaves s (s.chan c).size t resp
  else if r = s.cfg.layout.offConfig then
    match acc with
    | .wr v => ConfigWriteLeaves s c v t resp
    | .rd => t = s ∧ ∃ d, resp = some (.okData d) ∧ IsConfigWord s.cfg.layout (s.chan c) d
  else t = s ∧ resp = some .invalid

/-! Wake-ups and events, as the statements speak of them. -/

/-- The cycle a stimulus asks for: this one if the loop has not run in it, else the next (43_controller R263). -/
def stimulusCycle (s : State) : Nat := if s.lastrun = some s.now then s.now + 1 else s.now

/-- A wake-up request for cycle `t` coalesces with what is scheduled to the earliest (43_controller R262). -/
def earliest (scheduled : Option Nat) (t : Nat) : Nat :=
  match scheduled with
  | none => t
  | some t0 => min t t0

/-- The event is an issued memory request (00_scope R17). -/
def Event.isMem : Event → Bool
  | .mem _ _ _ => true
  | .bus _ _ _ _ => false
  | .complete _ => false
  | .busy _ _ => false
  | .txdata _ _ => false
  | .log _ => false
  | .reset => false

/-- The event is `LOG(QUEUE_FULL)` (40_latency_queue R161). -/
def Event.isQueueFull : Event → Bool
  | .log (.queueFull _) => true
  | .log (.enqueueNoSlot _) => false
  | .log (.pushNoActive _) => false
  | .log (.pushWindowOverflow _ _) => false
  | .log (.invalidAccess _) => false
  | .log (.unimplementedEvtin _ _) => false
  | .log (.writeRejected _) => false
  | .log (.unimplementedResponse _) => false
  | .mem _ _ _ => false
  | .bus _ _ _ _ => false
  | .complete _ => false
  | .busy _ _ => false
  | .txdata _ _ => false
  | .reset => false

/-- The refusal kinds that 60_exceptions R282 calls unreachable: X08, X09, X10. -/
def RefusalKind.unreachable : RefusalKind → Bool
  | .prepareNoActive _ => true
  | .deliverNoActive _ => true
  | .popEmpty _ => true
  | .unwrittenStaging _ => false
  | .zeroSize _ => false
  | .unalignedBase _ _ => false
  | .addressWrap _ _ _ => false
  | .rxOverrun _ _ => false
  | .pushNotRx _ => false
  | .popNotTx _ => false
  | .resetNotQuiescent => false

/-- The same state with the history `h` before its own. -/
def State.withPast (s : State) (h : List Event) : State := { s with hist := h ++ s.hist }

/-- The words of the entries of channel `c` among `es`, in their order. -/
def wordsOf (c : ChanId) (es : List InFlight) : List Quad :=
  (es.filter (fun e => decide (e.c = c))).map InFlight.rdata

/-! Invariants. -/

/-- 10_state R56 (b): free, pending and active records of a channel are two in all. -/
def RecordsConserved (s : State) : Prop :=
  ∀ c, (s.chan c).free + (s.chan c).pending.length + (if (s.chan c).active.isSome then 1 else 0) = 2

/-- 10_state R61: every peripheral's flag is the CG bit of its canonical id. -/
def FlagsFollowCg (s : State) : Prop :=
  ∀ p ∈ s.cfg.periphs, s.isOn p.cid = s.cg.getLsbD p.cid.val

/-- 10_state R64: the in-flight pipeline is sorted by timestamp. -/
def InflightSorted (s : State) : Prop :=
  s.inflight.Pairwise (fun a b => a.ts ≤ b.ts)

/-- The event schedule is sound: the pipeline is sorted, a scheduled wake-up is not in the past (43_controller R250, R260),
the last run is not in the future, and the loop is not scheduled again in the cycle it ran in (10_state R69). -/
structure ScheduleInv (s : State) : Prop where
  sorted     : InflightSorted s
  wakeFuture : ∀ t, s.wake = some t → s.now ≤ t
  runPast    : ∀ r, s.lastrun = some r → r ≤ s.now
  onePerCycle : s.lastrun = some s.now → s.wake ≠ some s.now

/-- How many reads of channel `c` are in flight. -/
def inflightOf (s : State) (c : ChanId) : Nat :=
  s.inflight.countP (fun e => decide (e.c = c))

/-- A transfer record is as an enable built it: whole, aligned, not crossing 2^32, owned by `c` (41_channel R176). -/
structure FreshTransfer (c : ChanId) (t : Transfer) : Prop where
  owner   : t.owner = c
  start   : t.cur = t.base
  whole   : t.remaining = t.total
  some1   : 1 ≤ t.total
  none0   : t.received = 0
  aligned : t.base.toNat % 4 = 0
  noWrap  : t.base.toNat + 4 * chunks t.total ≤ 2 ^ 32

/-- An active transfer of channel `c`: owned by it, its next request aligned and inside the address space, the count of
requested bytes a multiple of 4 while bytes remain (10_state R43, R56 (e); 20_memory R97, R101). -/
structure RunningTransfer (c : ChanId) (t : Transfer) : Prop where
  owner   : t.owner = c
  some1   : 1 ≤ t.total
  bound   : t.remaining ≤ t.total
  aligned : t.cur.toNat % 4 = 0
  noWrap  : t.cur.toNat + 4 * chunks t.remaining ≤ 2 ^ 32
  whole   : t.remaining = 0 ∨ 4 ∣ t.total - t.remaining

/-- The invariant of one channel (10_state R56 (b) to (e), R66; 41_channel R195, R196). -/
structure ChanInv (s : State) (c : ChanId) : Prop where
  records : (s.chan c).free + (s.chan c).pending.length + (if (s.chan c).active.isSome then 1 else 0) = 2
  pending : ∀ t ∈ (s.chan c).pending, FreshTransfer c t
  active  : ∀ t, (s.chan c).active = some t → RunningTransfer c t
  asmRx   : ∀ t, (s.chan c).active = some t → s.cfg.dirOf c = some .rx → (s.chan c).asm.length < min 4 t.remaining
  asmIdle : (s.chan c).active = none ∨ s.cfg.dirOf c ≠ some .rx → (s.chan c).asm = []
  rdqTx   : s.cfg.dirOf c ≠ some .tx → (s.chan c).rdq = []
  reads   : ∀ t, (s.chan c).active = some t → t.received + 4 * inflightOf s c ≤ 4 * chunks (t.total - t.remaining)
  idle    : (s.chan c).active = none → inflightOf s c = 0
  unfinished : ∀ t, (s.chan c).active = some t → t.received < t.total
  readsTx : s.cfg.dirOf c ≠ some .tx → inflightOf s c = 0

/-- The invariant of the block: every channel's, the read-buffer pool (10_state R63), the ready queue (R66), the write queue
(20_memory R91, R96, R97), the flags (R61), the schedule, and no lost wake-up: work outstanding has a run scheduled, no later
than the earliest completion (43_controller R254, R257, R263). -/
structure Inv (s : State) : Prop where
  chans    : ∀ c, ChanInv s c
  buffers  : s.rbfree + s.inflight.length = s.cfg.nrb
  readyNodup : s.ready.Nodup
  readyTx  : ∀ c ∈ s.ready, s.cfg.dirOf c = some .tx ∧ ∃ t, (s.chan c).active = some t ∧ 0 < t.remaining
  writes   : ∀ r ∈ s.wq, r.dir = .write ∧ r.data.length = r.size ∧ 1 ≤ r.size ∧ r.size ≤ 4
      ∧ r.addr.toNat % 4 = 0 ∧ r.addr.toNat + r.size ≤ 2 ^ 32 ∧ s.cfg.dirOf r.tag = some .rx
  flags    : FlagsFollowCg s
  faultsNodup : s.faults.Nodup
  schedule : ScheduleInv s
  wakeWork : s.wq ≠ [] ∨ s.ready ≠ [] → s.wake ≠ none
  wakeRead : ∀ e ∈ s.inflight, ∃ t, s.wake = some t ∧ t ≤ e.ts

end Sys2Proof.Machine
end

