-- ==== Sys2Proof/Certificates/Slice0/Obligations.lean ====
section
/-! DEFINITION. The statements for the provers. Each says, in its docstring, which rule of spec/ it formalises. A statement
about an operation has as its conclusion that `exec` answers a next state, and what that state holds; its frame says that
everything else is unchanged. A well-formed configuration, `cfg.wf`, is one that satisfies 00_scope R10 and has a layout of
log entry 5. -/

open Sys2Proof Sys2Proof.Machine

/-! ## Decoding and the step -/

/-- 30_encoding R127, R143: decoding the call that carries a well-formed operation, under on/off flags its row's guard
admits, gives the operation back. -/
def Obligations.DecodeOfEncodeIsIdentity : Prop :=
  ∀ (cfg : Cfg) (on : Fin 32 → Bool) (i : Instr) (c : Call),
    cfg.wf = true → i.wf cfg = true → i.flagsOk cfg on = true → encode cfg i = some c → decode cfg on c = i

/-- 30_encoding R120, R121: every access tuple selects exactly one row of the opcode table. -/
def Obligations.EveryAccessSelectsOneRow : Prop :=
  ∀ (cfg : Cfg) (on : Fin 32 → Bool) (off : Word) (acc : Acc) (size : Nat), cfg.wf = true →
    ∃! i : Instr, i.wf cfg = true ∧ i.flagsOk cfg on = true ∧ encode cfg i = some (.bus off acc size)

/-- 30_encoding R127 with CFG-A (the model's choice, log entry 3) and the default layout (PRESUMED, log entry 4): words written
out from the register map decode to the rows they stand for. The first five clauses, about `decodeTableWord`, rest on the
model's own number layout of an access, log entry 2 (DESIGN CHOICE): a 32-bit table word is a 4-byte write of 0, decoded with
every peripheral off as after reset; the others decode with every peripheral on. -/
def Obligations.RegisterMapWordsDecode : Prop :=
  decodeTableWord 32 0x000 = some (.cgWr 0) ∧ decodeTableWord 32 0x004 = some (.evtinWr 0)
  ∧ decodeTableWord 32 0x07C = some (.cfgBadOffset 0x07C (.wr 0)) ∧ decodeTableWord 32 0x200 = some (.noPeriph 0x200 (.wr 0))
  ∧ decodeTableWord 32 0x088 = some (.periphOffNoop 0 0x08 (.wr 0))
  ∧ decode Cfg.vectors (fun _ => true) (.bus 0x080 (.wr 0x1000) 4) = .rxAddrWr 0 0x1000
  ∧ decode Cfg.vectors (fun _ => true) (.bus 0x104 .rd 4) = .rxSizeRd 1
  ∧ decode Cfg.vectors (fun _ => true) (.bus 0x188 (.wr 0x10) 4) = .rxConfigWr 2 0x10
  ∧ decode Cfg.vectors (fun _ => true) (.bus 0x190 (.wr 0x2000) 4) = .txAddrWr 2 0x2000
  ∧ decode Cfg.vectors (fun _ => true) (.bus 0x094 .rd 4) = .txSizeRd 0
  ∧ decode Cfg.vectors (fun _ => true) (.bus 0x098 .rd 4) = .txConfigRd 0
  ∧ decode Cfg.vectors (fun _ => true) (.bus 0x110 .rd 4) = .txSlotEmpty 1 0x10 .rd
  ∧ decode Cfg.vectors (fun _ => true) (.bus 0x09C .rd 4) = .txBadOffset 0 0x1C .rd
  ∧ decode Cfg.vectors (fun _ => true) (.bus 0x0FC .rd 4) = .customAccess 0 0x7C .rd
  ∧ decode Cfg.vectors (fun _ => true) (.bus 0x188 .rd 2) = .badSize 0x188 .rd 2

/-- 43_controller R235, R236, R241, 42_peripheral_group R221, 41_channel R170, 60_exceptions R287: executing the row that an
access selects under the state's own flags, `on = s.isOn`, does what the nested decode of the register-access entry does.
For other flags the row executed may be one that the access does not select in that state; that it then does the nested
decode too is the model's choice, log entry 16 (DESIGN CHOICE), and no rule of the spec. -/
def Obligations.RowMeaningIsNestedDecode : Prop :=
  ∀ (s : State) (on : Fin 32 → Bool) (off : Word) (acc : Acc) (size : Nat),
    exec (decode s.cfg on (.bus off acc size)) s = .next (s.busEntry off acc size)

/-- 00_scope R9, R12, R16 (3), 60_exceptions R285, R286, log entry 1: a configuration that breaks a constraint of R10 has no
step, for no model is built for it. In the others a state with the refusal mark has no further step. A step of any other state
executes the operation that the next call decodes to. The next call is the head of the agenda, which leaves it;
with an empty agenda it is the call the free value names if an agent has it, else the controller run that is due, else the
tick. A fetched table word is the next call. -/
def Obligations.StepRunsDecodedOperation : Prop :=
  ∀ s : State,
    (s.cfg.valid = false → step s = .refused .invalidConfiguration)
    ∧ (∀ k, s.cfg.valid = true → s.refused = some k → step s = .refused (.marked k))
    ∧ (∀ c rest, s.cfg.valid = true → s.refused = none → s.agenda = c :: rest →
      step s = exec (decode s.cfg s.isOn c) { s with agenda := rest })
    ∧ (s.cfg.valid = true → s.refused = none → s.agenda = [] → step s = exec (decode s.cfg s.isOn
        (if s.enabled (Config.nextCall s.draws) = true then Config.nextCall s.draws
          else if s.loopDue = true then Call.ctrlLoop else Call.tick)) { s with draws := s.draws + 1 })
    ∧ (∀ nbits w, s.cfg.valid = true → s.refused = none →
      step (s.withFetchWord nbits w) = exec (decode s.cfg s.isOn (callOfTableWord nbits w)) s)

/-- 60_exceptions R280 ("The block never traps and never stops"), log entry 1: with no call put on the agenda, every state of
a configuration a model is built for, without refusal mark, has a next state. -/
def Obligations.FreeRunningBlockNeverStops : Prop :=
  ∀ s : State, s.cfg.valid = true → s.refused = none → s.agenda = [] → ∃ t, step s = .next t

/-! ## Rows decided by the controller and the peripheral group -/

/-- 43_controller R235, R240, 20_memory R98 (the spec's decisions D3, D9): an access of a size other than 4, and an access to
another offset of the configuration region than the two registers, are INVALID and change nothing. -/
def Obligations.BadSizeAndBadConfigOffsetAreInvalid : Prop :=
  ∀ (s : State) (off : Word) (acc : Acc),
    (∀ size, size ≠ 4 →
      ∃ t, exec (.badSize off acc size) s = .next t ∧ OnlyHist s t ∧ t.hist = s.hist ++ [.bus off acc size .invalid])
    ∧ (off.toNat < s.cfg.layout.channelRegionStart → off.toNat ≠ s.cfg.layout.offCg → off.toNat ≠ s.cfg.layout.offEvtin →
      ∃ t, exec (.cfgBadOffset off acc) s = .next t ∧ OnlyHist s t ∧ t.hist = s.hist ++ [.bus off acc 4 .invalid])

/-- 43_controller R237: a CG write stores the mask and informs the peripheral of each changed canonical bit; nobody else. -/
def Obligations.ClockGateWriteInformsChangedBits : Prop :=
  ∀ (s : State) (v : Word), s.cfg.wf = true →
    ∃ t, exec (.cgWr v) s = .next t ∧ t.cg = v
      ∧ (∀ p ∈ s.cfg.periphs, t.isOn p.cid =
          if s.cg.getLsbD p.cid.val = v.getLsbD p.cid.val then s.isOn p.cid else v.getLsbD p.cid.val)
      ∧ (∀ q, (∀ p ∈ s.cfg.periphs, p.cid ≠ q) → t.isOn q = s.isOn q)
      ∧ ChansSame s t
      ∧ t.hist = s.hist ++ [.bus (BitVec.ofNat 32 s.cfg.layout.offCg) (.wr v) 4 .ok]
      ∧ t = { s with cg := t.cg, periphs := t.periphs, hist := t.hist }

/-- 43_controller R238: a CG read returns the 32 stored bits. -/
def Obligations.ClockGateReadReturnsMask : Prop :=
  ∀ s : State, ∃ t, exec .cgRd s = .next t ∧ OnlyHist s t
    ∧ t.hist = s.hist ++ [.bus (BitVec.ofNat 32 s.cfg.layout.offCg) .rd 4 (.okData s.cg)]

/-- 43_controller R239: every EVTIN access logs, records the fault and answers INVALID; nothing else changes. -/
def Obligations.EvtinAccessRecordsFault : Prop :=
  ∀ (s : State) (v : Word),
    (∃ t, exec (.evtinWr v) s = .next t
      ∧ (∀ f, f ∈ t.faults ↔ f ∈ s.faults ∨ f = .evtinUnsupported (BitVec.ofNat 32 s.cfg.layout.offEvtin) (.wr v))
      ∧ t.hist = s.hist ++ [.log (.unimplementedEvtin (BitVec.ofNat 32 s.cfg.layout.offEvtin) (.wr v)),
          .bus (BitVec.ofNat 32 s.cfg.layout.offEvtin) (.wr v) 4 .invalid]
      ∧ t = { s with faults := t.faults, hist := t.hist })
    ∧ (∃ t, exec .evtinRd s = .next t
      ∧ (∀ f, f ∈ t.faults ↔ f ∈ s.faults ∨ f = .evtinUnsupported (BitVec.ofNat 32 s.cfg.layout.offEvtin) .rd)
      ∧ t.hist = s.hist ++ [.log (.unimplementedEvtin (BitVec.ofNat 32 s.cfg.layout.offEvtin) .rd),
          .bus (BitVec.ofNat 32 s.cfg.layout.offEvtin) .rd 4 .invalid]
      ∧ t = { s with faults := t.faults, hist := t.hist })

/-- 43_controller R242: an access to an id without peripheral, inside or beyond the table, is INVALID and changes nothing,
whatever any peripheral's flag is. -/
def Obligations.NonexistentPeripheralIsInvalid : Prop :=
  ∀ (s : State) (off : Word) (acc : Acc), s.cfg.layout.channelRegionStart ≤ off.toNat →
    s.cfg.np ≤ s.cfg.layout.periphId off ∨ s.cfg.table (s.cfg.layout.periphId off) = none →
    ∃ t, exec (.noPeriph off acc) s = .next t ∧ OnlyHist s t ∧ t.hist = s.hist ++ [.bus off acc 4 .invalid]

/-- 42_peripheral_group R222: while a peripheral is off, any access of its windows selects PERIPH_OFF_NOOP, which answers OK
(a read with some word, a free value of log entry 6), logs nothing and changes nothing. -/
def Obligations.OffPeripheralAccessIsNoop : Prop :=
  ∀ (s : State) (p : PeriphCfg) (i w : Nat) (v : Word), s.cfg.table i = some p → s.isOn p.cid = false →
    (∃ t, exec (.periphOffNoop i w (.wr v)) s = .next t ∧ OnlyHist s t
      ∧ t.hist = s.hist ++ [.bus (s.cfg.layout.windowAddr i w) (.wr v) 4 .ok])
    ∧ (∃ t d, exec (.periphOffNoop i w .rd) s = .next t ∧ OnlyHistDraws s t
      ∧ t.hist = s.hist ++ [.bus (s.cfg.layout.windowAddr i w) .rd 4 (.okData d)])
    ∧ (∀ off acc, s.cfg.layout.channelRegionStart ≤ off.toNat → s.cfg.layout.periphId off = i →
      decode s.cfg s.isOn (.bus off acc 4) = .periphOffNoop i (s.cfg.layout.windowOff off) acc)

/-- 42_peripheral_group R226: an access to an unpopulated slot of a peripheral that is on is logged and INVALID. -/
def Obligations.UnpopulatedSlotIsLoggedAndInvalid : Prop :=
  ∀ (s : State) (p : PeriphCfg) (i w : Nat) (acc : Acc), s.cfg.table i = some p → s.isOn p.cid = true →
    (p.slotDir .rx = none → w < s.cfg.layout.txWindowStart →
      ∃ t, exec (.rxSlotEmpty i w acc) s = .next t ∧ OnlyHist s t
        ∧ t.hist = s.hist ++ [.log (.invalidAccess (s.cfg.layout.windowAddr i w)),
            .bus (s.cfg.layout.windowAddr i w) acc 4 .invalid])
    ∧ (p.slotDir .tx = none → s.cfg.layout.txWindowStart ≤ w → w < s.cfg.layout.customWindowStart →
      ∃ t, exec (.txSlotEmpty i w acc) s = .next t ∧ OnlyHist s t
        ∧ t.hist = s.hist ++ [.log (.invalidAccess (s.cfg.layout.windowAddr i w)),
            .bus (s.cfg.layout.windowAddr i w) acc 4 .invalid])

/-- 42_peripheral_group R225, 60_exceptions R281, 30_encoding R137, the custom region's INVALID. The default handler accepts
nothing; an access that the handler of a peripheral that is on does not accept is INVALID and changes nothing (a concrete
handler's reaction is a free value drawn, log entry 12). Whatever the handler, whatever it has done: an access that ends
INVALID has changed no state of the block but the history, by logs and its BUS event. -/
def Obligations.InvalidCustomAccessChangesOnlyHistory : Prop :=
  (∀ (s : State) (p : PeriphCfg) (w : Nat) (acc : Acc), p.handler = .rows [] → s.handlerAct p w acc = none)
  ∧ ∀ (s : State) (p : PeriphCfg) (i w : Nat) (acc : Acc), s.cfg.wf = true → s.cfg.table i = some p → s.isOn p.cid = true →
    s.cfg.layout.customWindowStart ≤ w →
    (s.handlerAct p w acc = none → ∃ t, exec (.customAccess i w acc) s = .next t ∧ OnlyHistDraws s t
      ∧ t.draws = (if p.handler = .concrete then s.draws + 1 else s.draws)
      ∧ t.hist = s.hist ++ [.bus (s.cfg.layout.windowAddr i w) acc 4 .invalid])
    ∧ ∃ t, exec (.customAccess i w acc) s = .next t
      ∧ ∀ evs, t.hist = s.hist ++ evs ++ [.bus (s.cfg.layout.windowAddr i w) acc 4 .invalid] →
        OnlyHistDraws s t ∧ ∀ e ∈ evs, e.isLog = true

/-- 42_peripheral_group R225 with a handler that accepts, the model's choice of log entry 12; `u` is the state after the
handler is asked. Whatever it does, it touches no channel of another peripheral, no flag and nothing of the controller
(10_state R67). An access it answers itself changes nothing of the block. An access it passes on, or makes, at any register
offset of a channel of its peripheral leaves what 41_channel R171 to R178 say of that access, CONFIG writes with all their
outcomes. A transfer it builds is dropped without a free record, else queued or refused as an enable's. Two operations,
ADDR and SIZE of one of its channels, run in their order. An answer INVALID undoes them, as
InvalidCustomAccessChangesOnlyHistory says. The premises on the pending queue follow from 10_state R56 (b). -/
def Obligations.AcceptingCustomHandlerReachesItsChannels : Prop :=
  ∀ (s u : State) (p : PeriphCfg) (i w : Nat) (acc : Acc) (act : HandlerAct) (off : Word), s.cfg.wf = true →
    s.cfg.table i = some p → s.isOn p.cid = true → s.cfg.layout.customWindowStart ≤ w → s.handlerAct p w acc = some act →
    u = { s with draws := if p.handler = .concrete then s.draws + 1 else s.draws } → off = s.cfg.layout.windowAddr i w →
    (∃ t, exec (.customAccess i w acc) s = .next t ∧ (∀ c, c.pid ≠ p.cid → t.chan c = s.chan c) ∧ (∀ q, t.isOn q = s.isOn q)
      ∧ t = { s with periphs := t.periphs, hist := t.hist, draws := t.draws, refused := t.refused })
    ∧ (act.ops = [] → act.resp = .invalid ∨ act.resp = .last →
      exec (.customAccess i w acc) s = .next (u.answered off acc (some .invalid)))
    ∧ (∀ v, acc = .wr v → act.ops = [] → act.resp = .device ∨ (∃ x, act.resp = .okData x) →
      exec (.customAccess i w acc) s = .next (u.answered off acc (some .ok)))
    ∧ (∀ x, acc = .rd → act.ops = [] → act.resp = .okData x →
      exec (.customAccess i w acc) s = .next (u.answered off acc (some (.okData x))))
    ∧ (acc = .rd → act.ops = [] → act.resp = .device →
      ∃ d, exec (.customAccess i w acc) s =
        .next (({ u with draws := u.draws + 1 } : State).answered off acc (some (.okData d))))
    ∧ (∀ sl r a, (act = { ops := [.pass sl r], resp := .last } ∧ a = acc)
        ∨ (act = { ops := [.reg sl r a], resp := .last } ∧ (a = .rd ↔ acc = .rd)) →
      (p.slotDir sl = none → exec (.customAccess i w acc) s =
        .next (({ u with hist := u.hist ++ [.log (.invalidAccess off)] } : State).answered off acc (some .invalid)))
      ∧ ((p.slotDir sl).isSome = true → (u.chan { pid := p.cid, slot := sl }).pending.length < 2
          ∨ (u.chan { pid := p.cid, slot := sl }).free = 0 →
        ∃ t resp, exec (.customAccess i w acc) s = .next (t.answered off acc resp)
          ∧ RegisterLeaves u { pid := p.cid, slot := sl } r a t resp))
    ∧ (∀ v sl a z, acc = .wr v → (p.slotDir sl).isSome = true →
      act = { ops := [.reg sl s.cfg.layout.offAddr (.wr a), .reg sl s.cfg.layout.offSize (.wr z)], resp := .last } →
      ∃ t, exec (.customAccess i w acc) s = .next (t.answered off acc (some .ok)) ∧ t.hist = u.hist
        ∧ OnlyChan { pid := p.cid, slot := sl } u t
        ∧ t.chan { pid := p.cid, slot := sl } = { u.chan { pid := p.cid, slot := sl } with addr := some a, size := some z })
    ∧ (∀ v sl base size width cont, acc = .wr v → (p.slotDir sl).isSome = true →
      act = { ops := [.transfer sl base size width cont], resp := .last } →
      ((u.chan { pid := p.cid, slot := sl }).free = 0 → exec (.customAccess i w acc) s =
        .next (({ u with hist := u.hist ++ [.log (.enqueueNoSlot { pid := p.cid, slot := sl })] } : State).answered off acc
          (some .ok)))
      ∧ (0 < (u.chan { pid := p.cid, slot := sl }).free → (u.chan { pid := p.cid, slot := sl }).pending.length < 2 →
        ∃ t resp, exec (.customAccess i w acc) s = .next (t.answered off acc resp)
          ∧ EnqueueLeaves u { pid := p.cid, slot := sl } (u.chan { pid := p.cid, slot := sl }) (some base) (some size) width
              cont t resp))

/-! ## Channel registers -/

/-- 41_channel R178: another channel offset is INVALID and changes nothing. -/
def Obligations.OtherChannelOffsetsAreInvalid : Prop :=
  ∀ (s : State) (c : ChanId) (i w : Nat) (acc : Acc),
    (Reaches s i .rx c → w < s.cfg.layout.txWindowStart → w ≠ s.cfg.layout.offAddr → w ≠ s.cfg.layout.offSize →
      w ≠ s.cfg.layout.offConfig →
      ∃ t, exec (.rxBadOffset i w acc) s = .next t ∧ OnlyHist s t
        ∧ t.hist = s.hist ++ [.bus (s.cfg.layout.windowAddr i w) acc 4 .invalid])
    ∧ (Reaches s i .tx c → s.cfg.layout.txWindowStart ≤ w → w < s.cfg.layout.customWindowStart →
      w - s.cfg.layout.txWindowStart ≠ s.cfg.layout.offAddr → w - s.cfg.layout.txWindowStart ≠ s.cfg.layout.offSize →
      w - s.cfg.layout.txWindowStart ≠ s.cfg.layout.offConfig →
      ∃ t, exec (.txBadOffset i w acc) s = .next t ∧ OnlyHist s t
        ∧ t.hist = s.hist ++ [.bus (s.cfg.layout.windowAddr i w) acc 4 .invalid])

/-- 41_channel R171: an ADDR write stages the word, whatever it is, and changes nothing else. -/
def Obligations.AddrWriteStagesWord : Prop :=
  ∀ (s : State) (c : ChanId) (i : Nat) (v : Word),
    (Reaches s i .rx c → ∃ t, exec (.rxAddrWr i v) s = .next t ∧ t.chan c = { s.chan c with addr := some v } ∧ OnlyChan c s t
      ∧ t.hist = s.hist ++ [.bus (s.rxOff i s.cfg.layout.offAddr) (.wr v) 4 .ok])
    ∧ (Reaches s i .tx c → ∃ t, exec (.txAddrWr i v) s = .next t ∧ t.chan c = { s.chan c with addr := some v }
      ∧ OnlyChan c s t ∧ t.hist = s.hist ++ [.bus (s.txOff i s.cfg.layout.offAddr) (.wr v) 4 .ok])

/-- 41_channel R172: an ADDR read returns the staged word, some word while it is unwritten (a free value, log entry 6), and
changes nothing. -/
def Obligations.AddrReadReturnsStagedWord : Prop :=
  ∀ (s : State) (c : ChanId) (i : Nat),
    (Reaches s i .rx c → ∃ t d, exec (.rxAddrRd i) s = .next t ∧ OnlyHistDraws s t
      ∧ t.hist = s.hist ++ [.bus (s.rxOff i s.cfg.layout.offAddr) .rd 4 (.okData d)]
      ∧ ∀ a, (s.chan c).addr = some a → d = a)
    ∧ (Reaches s i .tx c → ∃ t d, exec (.txAddrRd i) s = .next t ∧ OnlyHistDraws s t
      ∧ t.hist = s.hist ++ [.bus (s.txOff i s.cfg.layout.offAddr) .rd 4 (.okData d)]
      ∧ ∀ a, (s.chan c).addr = some a → d = a)

/-- 41_channel R173: a SIZE write stages the word, 0 too, and changes nothing else. -/
def Obligations.SizeWriteStagesWord : Prop :=
  ∀ (s : State) (c : ChanId) (i : Nat) (v : Word),
    (Reaches s i .rx c → ∃ t, exec (.rxSizeWr i v) s = .next t ∧ t.chan c = { s.chan c with size := some v } ∧ OnlyChan c s t
      ∧ t.hist = s.hist ++ [.bus (s.rxOff i s.cfg.layout.offSize) (.wr v) 4 .ok])
    ∧ (Reaches s i .tx c → ∃ t, exec (.txSizeWr i v) s = .next t ∧ t.chan c = { s.chan c with size := some v }
      ∧ OnlyChan c s t ∧ t.hist = s.hist ++ [.bus (s.txOff i s.cfg.layout.offSize) (.wr v) 4 .ok])

/-- 41_channel R174: a SIZE read returns the staged count, some word while it is unwritten (a free value, log entry 6), and
changes nothing. -/
def Obligations.SizeReadReturnsStagedWord : Prop :=
  ∀ (s : State) (c : ChanId) (i : Nat),
    (Reaches s i .rx c → ∃ t d, exec (.rxSizeRd i) s = .next t ∧ OnlyHistDraws s t
      ∧ t.hist = s.hist ++ [.bus (s.rxOff i s.cfg.layout.offSize) .rd 4 (.okData d)]
      ∧ ∀ z, (s.chan c).size = some z → d = z)
    ∧ (Reaches s i .tx c → ∃ t d, exec (.txSizeRd i) s = .next t ∧ OnlyHistDraws s t
      ∧ t.hist = s.hist ++ [.bus (s.txOff i s.cfg.layout.offSize) .rd 4 (.okData d)]
      ∧ ∀ z, (s.chan c).size = some z → d = z)

/-- 41_channel R177, 30_encoding R131: a CONFIG read returns the two staged fields, "slot available" at the EN position,
"nothing queued" at the PENDING position and 0 in every other bit; it changes nothing. -/
def Obligations.ConfigReadReturnsFieldsAndStatus : Prop :=
  ∀ (s : State) (c : ChanId) (i : Nat), s.cfg.layout.bitsWf = true →
    ∃ d : Word, IsConfigWord s.cfg.layout (s.chan c) d
      ∧ (Reaches s i .rx c → ∃ t, exec (.rxConfigRd i) s = .next t ∧ OnlyHist s t
        ∧ t.hist = s.hist ++ [.bus (s.rxOff i s.cfg.layout.offConfig) .rd 4 (.okData d)])
      ∧ (Reaches s i .tx c → ∃ t, exec (.txConfigRd i) s = .next t ∧ OnlyHist s t
        ∧ t.hist = s.hist ++ [.bus (s.txOff i s.cfg.layout.offConfig) .rd 4 (.okData d)])

/-- 41_channel R175, R208 (the spec's decisions D13, D14, D15), the CONFIG writes that queue no transfer, in the order of the
checks: with CLEAR set INVALID and no change, EN set or not; with EN set and no free record answered OK, logged, no change;
without EN the CONT and WIDTH fields are stored and nothing else happens. -/
def Obligations.ConfigWriteRejectsDropsOrStores : Prop :=
  ∀ (s : State) (c : ChanId) (i : Nat) (v : Word),
    (v.getLsbD s.cfg.layout.clearBit = true →
      (Reaches s i .rx c → ∃ t, exec (.rxConfigWr i v) s = .next t ∧ OnlyHist s t
        ∧ t.hist = s.hist ++ [.bus (s.rxOff i s.cfg.layout.offConfig) (.wr v) 4 .invalid])
      ∧ (Reaches s i .tx c → ∃ t, exec (.txConfigWr i v) s = .next t ∧ OnlyHist s t
        ∧ t.hist = s.hist ++ [.bus (s.txOff i s.cfg.layout.offConfig) (.wr v) 4 .invalid]))
    ∧ (v.getLsbD s.cfg.layout.clearBit = false → v.getLsbD s.cfg.layout.enBit = true → (s.chan c).free = 0 →
      (Reaches s i .rx c → ∃ t, exec (.rxConfigWr i v) s = .next t ∧ OnlyHist s t
        ∧ t.hist = s.hist ++ [.log (.enqueueNoSlot c), .bus (s.rxOff i s.cfg.layout.offConfig) (.wr v) 4 .ok])
      ∧ (Reaches s i .tx c → ∃ t, exec (.txConfigWr i v) s = .next t ∧ OnlyHist s t
        ∧ t.hist = s.hist ++ [.log (.enqueueNoSlot c), .bus (s.txOff i s.cfg.layout.offConfig) (.wr v) 4 .ok]))
    ∧ (v.getLsbD s.cfg.layout.clearBit = false → v.getLsbD s.cfg.layout.enBit = false →
      (Reaches s i .rx c → ∃ t, exec (.rxConfigWr i v) s = .next t ∧ OnlyChan c s t
        ∧ t.chan c = { s.chan c with
            contCfg := v.getLsbD s.cfg.layout.contBit, widthCfg := v.extractLsb' s.cfg.layout.widthLo 2 }
        ∧ t.hist = s.hist ++ [.bus (s.rxOff i s.cfg.layout.offConfig) (.wr v) 4 .ok])
      ∧ (Reaches s i .tx c → ∃ t, exec (.txConfigWr i v) s = .next t ∧ OnlyChan c s t
        ∧ t.chan c = { s.chan c with
            contCfg := v.getLsbD s.cfg.layout.contBit, widthCfg := v.extractLsb' s.cfg.layout.widthLo 2 }
        ∧ t.hist = s.hist ++ [.bus (s.txOff i s.cfg.layout.offConfig) (.wr v) 4 .ok]))

/-- 41_channel R175, R176, R180, R183, 60_exceptions R287 (10): an enable takes a record from the pool, queues the transfer
with the CONT and WIDTH of the same write, drives the busy/full signal and requests promotion; on staged registers without a
meaning it is refused, for the first of unwritten, zero size, unaligned, beyond 2^32. A refused write sets the mark and changes
nothing but the CONT and WIDTH stored before; that these stay stored and that no BUS event ends the access is the model's
choice, log entry 8. The premise on the pending queue follows from 10_state R56 (b). -/
def Obligations.EnableQueuesTransferOrIsRefused : Prop :=
  ∀ (s : State) (c : ChanId) (i : Nat) (v : Word), v.getLsbD s.cfg.layout.clearBit = false →
    v.getLsbD s.cfg.layout.enBit = true → 0 < (s.chan c).free → (s.chan c).pending.length < 2 →
    (Reaches s i .rx c → ∃ t resp,
      exec (.rxConfigWr i v) s = .next (t.answered (s.rxOff i s.cfg.layout.offConfig) (.wr v) resp)
        ∧ EnableLeaves s c v t resp)
    ∧ (Reaches s i .tx c → ∃ t resp,
      exec (.txConfigWr i v) s = .next (t.answered (s.txOff i s.cfg.layout.offConfig) (.wr v) resp)
        ∧ EnableLeaves s c v t resp)

/-- 41_channel R176: enqueue_transfer. The refusals in their order; otherwise the record leaves the pool, is queued with the
staged values, the busy/full signal is driven and promotion is requested. -/
def Obligations.EnqueueTransferFollowsStaging : Prop :=
  ∀ (s : State) (c : ChanId), (s.cfg.dirOf c).isSome = true → 0 < (s.chan c).free → (s.chan c).pending.length < 2 →
    ((s.chan c).addr = none ∨ (s.chan c).size = none →
      exec (.enqueueTransfer c) s = .next { s with refused := some (s.refused.getD (.unwrittenStaging c)) })
    ∧ ∀ a z, (s.chan c).addr = some a → (s.chan c).size = some z →
      if z.toNat = 0 then
        exec (.enqueueTransfer c) s = .next { s with refused := some (s.refused.getD (.zeroSize c)) }
      else if a.toNat % 4 ≠ 0 then
        exec (.enqueueTransfer c) s = .next { s with refused := some (s.refused.getD (.unalignedBase c a)) }
      else if 2 ^ 32 < a.toNat + 4 * ((z.toNat + 3) / 4) then
        exec (.enqueueTransfer c) s = .next { s with refused := some (s.refused.getD (.addressWrap c a z)) }
      else
        ∃ t, exec (.enqueueTransfer c) s = .next t ∧ OnlyChan c s t
          ∧ t.chan c = { s.chan c with
              free := (s.chan c).free - 1
              pending := (s.chan c).pending ++ [{ base := a, cur := a, total := z.toNat, remaining := z.toNat, received := 0
                                                  width := (s.chan c).widthCfg, cont := (s.chan c).contCfg, owner := c }]
              busy := if 1 < (s.chan c).free then .available else .undriven
              promo := true }
          ∧ t.hist = s.hist ++ [.busy c (if 1 < (s.chan c).free then .available else .undriven)]

/-! ## Promotion, receive and transmit -/

/-- 41_channel R181, 43_controller R245: the promotion step clears the request; with a pending transfer and none active it
makes the first pending one active, and a TX channel joins the ready queue and wakes the controller; without a request the
channel event has no step. -/
def Obligations.PromotionStartsPendingTransfer : Prop :=
  ∀ (s : State) (c : ChanId) (d : Dir), s.cfg.dirOf c = some d →
    ((s.chan c).promo = false → exec (.promote c) s = .fault (.promotionNotRequested c))
    ∧ ((s.chan c).promo = true → (s.chan c).active.isSome = true ∨ (s.chan c).pending = [] →
      ∃ t, exec (.promote c) s = .next t ∧ OnlyChan c s t ∧ t.hist = s.hist ∧ t.chan c = { s.chan c with promo := false })
    ∧ (∀ x rest, (s.chan c).promo = true → (s.chan c).active = none → (s.chan c).pending = x :: rest →
      ∃ t, exec (.promote c) s = .next t ∧ OnlyChanReady c s t
        ∧ t.chan c = { s.chan c with promo := false, active := some x, pending := rest }
        ∧ (if d = .tx then t.ready = s.ready ++ [c] ∧ t.wake = some (earliest s.wake (stimulusCycle s))
          else t.ready = s.ready ∧ t.wake = s.wake))

/-- 41_channel R190, 60_exceptions R288: the pushes that move no byte, in the order of the checks: on a TX channel refused;
without active transfer logged; beyond the window logged; beyond the transfer's end refused. -/
def Obligations.PushChecksInOrder : Prop :=
  ∀ (s : State) (c : ChanId) (bytes : List Byte),
    (s.cfg.dirOf c = some .tx →
      exec (.pushBytes c bytes) s = .next { s with refused := some (s.refused.getD (.pushNotRx c)) })
    ∧ (s.cfg.dirOf c = some .rx → (s.chan c).active = none →
      exec (.pushBytes c bytes) s = .next { s with hist := s.hist ++ [.log (.pushNoActive c)] })
    ∧ (∀ x, s.cfg.dirOf c = some .rx → (s.chan c).active = some x → 4 < (s.chan c).asm.length + bytes.length →
      exec (.pushBytes c bytes) s = .next { s with hist := s.hist ++ [.log (.pushWindowOverflow c bytes.length)] })
    ∧ (∀ x, s.cfg.dirOf c = some .rx → (s.chan c).active = some x → (s.chan c).asm.length + bytes.length ≤ 4 →
      x.remaining < (s.chan c).asm.length + bytes.length →
      exec (.pushBytes c bytes) s = .next { s with refused := some (s.refused.getD (.rxOverrun c bytes.length)) })

/-- 41_channel R190: a push that neither fills the window nor reaches the transfer's end appends its bytes and does nothing
else. -/
def Obligations.PushAssemblesBytes : Prop :=
  ∀ (s : State) (c : ChanId) (bytes : List Byte) (x : Transfer), s.cfg.dirOf c = some .rx → (s.chan c).active = some x →
    (s.chan c).asm.length + bytes.length < 4 → (s.chan c).asm.length + bytes.length < x.remaining →
    ∃ t, exec (.pushBytes c bytes) s = .next t ∧ OnlyChan c s t ∧ t.hist = s.hist
      ∧ t.chan c = { s.chan c with asm := (s.chan c).asm ++ bytes }

/-- 41_channel R190, R191, 43_controller R246: a push that fills the window of a transfer with more than 4 bytes left posts
the assembled word at the current address, in arrival order, and the transfer goes on 4 bytes further. -/
def Obligations.PushOfFullWindowPostsWord : Prop :=
  ∀ (s : State) (c : ChanId) (bytes : List Byte) (x : Transfer), s.cfg.dirOf c = some .rx → (s.chan c).active = some x →
    (s.chan c).asm.length + bytes.length = 4 → 4 < x.remaining →
    ∃ t, exec (.pushBytes c bytes) s = .next t ∧ OnlyChanWrite c s t ∧ t.hist = s.hist
      ∧ t.chan c = { s.chan c with asm := [], active := some { x with cur := x.cur + 4, remaining := x.remaining - 4 } }
      ∧ t.wq = s.wq ++ [{ addr := x.cur, size := 4, dir := .write, data := (s.chan c).asm ++ bytes, tag := c }]
      ∧ t.wake = some (earliest s.wake (stimulusCycle s))

/-- 41_channel R190, R191, R205: a push that reaches the transfer's end posts the last bytes and finalizes at once, before
the write is issued. The premise on the pool follows from 10_state R56 (b). -/
def Obligations.PushOfLastBytesFinalizes : Prop :=
  ∀ (s : State) (c : ChanId) (bytes : List Byte) (x : Transfer), s.cfg.dirOf c = some .rx → (s.chan c).active = some x →
    (s.chan c).asm.length + bytes.length = x.remaining → x.remaining ≤ 4 → (s.chan c).free < 2 →
    ∃ t, exec (.pushBytes c bytes) s = .next t ∧ OnlyChanWrite c s t
      ∧ t.chan c = { s.chan c with
          asm := [], active := none, free := (s.chan c).free + 1, busy := .available, promo := true }
      ∧ t.wq = s.wq ++ [{ addr := x.cur, size := x.remaining, dir := .write, data := (s.chan c).asm ++ bytes, tag := c }]
      ∧ t.wake = some (earliest s.wake (stimulusCycle s))
      ∧ t.hist = s.hist ++ [.busy c .available, .complete c]

/-- 41_channel R191: flush posts the assembled bytes, empties the window, advances the transfer by their number and
finalizes it at once when it is exhausted. The premise on the pool follows from 10_state R56 (b). -/
def Obligations.FlushPostsAssembledBytes : Prop :=
  ∀ (s : State) (c : ChanId) (x : Transfer), s.cfg.dirOf c = some .rx → (s.chan c).active = some x →
    1 ≤ (s.chan c).asm.length → (s.chan c).asm.length ≤ 4 → (s.chan c).free < 2 →
    ∃ t, exec (.flush c) s = .next t ∧ OnlyChanWrite c s t
      ∧ t.wq = s.wq ++ [{ addr := x.cur, size := (s.chan c).asm.length, dir := .write, data := (s.chan c).asm, tag := c }]
      ∧ t.wake = some (earliest s.wake (stimulusCycle s))
      ∧ (if x.remaining ≤ (s.chan c).asm.length then
          t.chan c = { s.chan c with
            asm := [], active := none, free := (s.chan c).free + 1, busy := .available, promo := true }
          ∧ t.hist = s.hist ++ [.busy c .available, .complete c]
        else
          t.chan c = { s.chan c with
            asm := []
            active := some { x with
              cur := x.cur + BitVec.ofNat 32 (s.chan c).asm.length, remaining := x.remaining - (s.chan c).asm.length } }
          ∧ t.hist = s.hist)

/-- 20_memory R94, 41_channel R192: byte k of a request's data is the byte at address addr + k; read as a word it occupies
bits 8k to 8k+7, and the bits above the data are zero. -/
def Obligations.RequestBytesAreLittleEndian : Prop :=
  ∀ (req : Req), req.data.length ≤ 4 →
    (reqCells req).length = req.data.length
    ∧ (∀ (k : Nat) (h : k < req.data.length),
      (reqCells req)[k]? = some (req.addr.toNat + k, req.data[k])
      ∧ ∀ b, b < 8 → (bytesWord req.data).getLsbD (8 * k + b) = (req.data[k]).getLsbD b)
    ∧ ∀ b, 8 * req.data.length ≤ b → (bytesWord req.data).getLsbD b = false

/-- 41_channel R195: prepare_next_chunk returns a 4-byte read at the current address and whether it is the last, advances
the active transfer, and refuses on a channel that is not TX or has no active transfer. -/
def Obligations.PrepareNextChunkAdvancesTransfer : Prop :=
  ∀ (s : State) (c : ChanId) (d : Dir), s.cfg.dirOf c = some d →
    (d = .rx ∨ (s.chan c).active = none →
      exec (.prepareNextChunk c) s = .next { s with refused := some (s.refused.getD (.prepareNoActive c)) })
    ∧ ∀ x, d = .tx → (s.chan c).active = some x →
      s.nextChunk c = some { req := { addr := x.cur, size := 4, dir := .read, data := [], tag := c }
                             last := decide (x.remaining ≤ 4) }
      ∧ ∃ t, exec (.prepareNextChunk c) s = .next t ∧ OnlyChan c s t ∧ t.hist = s.hist
        ∧ t.chan c = { s.chan c with
            active := some { x with cur := x.cur + 4, remaining := x.remaining - min 4 x.remaining } }

/-- 41_channel R196, R205: deliver_chunk counts 4 bytes, appends the word for the decoder, and finalizes once received is at
least total; without an active transfer it refuses. The premise on the pool follows from 10_state R56 (b). -/
def Obligations.DeliverChunkQueuesWordAndFinalizes : Prop :=
  ∀ (s : State) (c : ChanId) (rdata : Quad), s.cfg.dirOf c = some .tx →
    ((s.chan c).active = none →
      exec (.deliverChunk c rdata) s = .next { s with refused := some (s.refused.getD (.deliverNoActive c)) })
    ∧ ∀ x, (s.chan c).active = some x → (s.chan c).free < 2 →
      ∃ t, exec (.deliverChunk c rdata) s = .next t ∧ OnlyChan c s t
        ∧ (if x.total ≤ x.received + 4 then
            t.chan c = { s.chan c with
              active := none, rdq := (s.chan c).rdq ++ [rdata], free := (s.chan c).free + 1, busy := .available
              promo := true }
            ∧ t.hist = s.hist ++ [.busy c .available, .complete c]
          else
            t.chan c = { s.chan c with
              active := some { x with received := x.received + 4 }, rdq := (s.chan c).rdq ++ [rdata] }
            ∧ t.hist = s.hist)

/-- 41_channel R197: the decoder's pop takes the first word and emits it; an empty queue gives the decoder no step; on an RX
channel it is refused. -/
def Obligations.PopTakesFirstWord : Prop :=
  ∀ (s : State) (c : ChanId),
    (s.cfg.dirOf c = some .rx →
      exec (.rdqPop c) s = .next { s with refused := some (s.refused.getD (.popNotTx c)) })
    ∧ (s.cfg.dirOf c = some .tx → (s.chan c).rdq = [] → exec (.rdqPop c) s = .fault (.rdqEmpty c))
    ∧ (∀ w rest, s.cfg.dirOf c = some .tx → (s.chan c).rdq = w :: rest →
      ∃ t, exec (.rdqPop c) s = .next t ∧ OnlyChan c s t ∧ t.chan c = { s.chan c with rdq := rest }
        ∧ t.hist = s.hist ++ [.txdata c w])

/-- 41_channel R205: finalize returns the record, clears active, drives the busy/full signal, raises the completion signal
once and requests promotion. The premise on the pool follows from 10_state R56 (b). -/
def Obligations.FinalizeReturnsRecordAndCompletes : Prop :=
  ∀ (s : State) (c : ChanId), (s.cfg.dirOf c).isSome = true → (s.chan c).active.isSome = true → (s.chan c).free < 2 →
    ∃ t, exec (.finalize c) s = .next t ∧ OnlyChan c s t
      ∧ t.chan c = { s.chan c with free := (s.chan c).free + 1, active := none, busy := .available, promo := true }
      ∧ t.hist = s.hist ++ [.busy c .available, .complete c]

/-! ## Controller -/

/-- 43_controller R245, R246, R263 (the spec's decisions D28, D30, D32): a TX channel that becomes ready, and a posted write,
join the tail of their queue and wake the controller: this cycle if the loop has not run in it, else the next, or earlier if
a wake-up is scheduled earlier. An RX channel that becomes ready changes nothing. -/
def Obligations.StimuliJoinQueuesAndWakeController : Prop :=
  ∀ (s : State) (c : ChanId) (req : Req),
    (s.cfg.dirOf c = some .rx → exec (.channelReady c) s = .next s)
    ∧ (s.cfg.dirOf c = some .tx →
      exec (.channelReady c) s =
        .next { s with ready := s.ready ++ [c], wake := some (earliest s.wake (stimulusCycle s)) })
    ∧ (req.dir = .write →
      exec (.postWrite req) s = .next { s with wq := s.wq ++ [req], wake := some (earliest s.wake (stimulusCycle s)) })

/-- 43_controller R262: a wake-up request for cycle `t` is scheduled, and coalesces with a scheduled one to the earliest. -/
def Obligations.WakeRequestsCoalesce : Prop :=
  ∀ (s : State) (t : Nat),
    (s.wake = none → s.requestWake t = { s with wake := some t })
    ∧ (∀ t0, s.wake = some t0 → s.requestWake t = { s with wake := some (min t t0) })

/-- 43_controller R260: the tick advances the cycle by one, and has no step exactly while a controller run is due. -/
def Obligations.TickAdvancesCycleUnlessRunDue : Prop :=
  ∀ s : State,
    ((∃ t, s.wake = some t ∧ t ≤ s.now) → exec .tick s = .fault .tickBlocked)
    ∧ (¬ (∃ t, s.wake = some t ∧ t ≤ s.now) → exec .tick s = .next { s with now := s.now + 1 })

/-- 43_controller R250: the controller runs exactly when its wake-up is due; the run records its cycle. It never changes the
clock, the clock gate, the flags, the configuration, or any channel's registers, queued transfers and assembled bytes; and a
channel that is not first in the ready queue and has no read due in flight is not touched at all. -/
def Obligations.ControllerRunsWhenDue : Prop :=
  ∀ s : State,
    (¬ (∃ t, s.wake = some t ∧ t ≤ s.now) → exec .ctrlLoop s = .fault .loopNotDue)
    ∧ ((∃ t, s.wake = some t ∧ t ≤ s.now) →
      ∃ t, exec .ctrlLoop s = .next t ∧ t.lastrun = some s.now ∧ t.now = s.now ∧ t.cg = s.cg ∧ t.cfg = s.cfg
        ∧ (∀ p, t.isOn p = s.isOn p) ∧ t.agenda = s.agenda
        ∧ (∀ c, (t.chan c).addr = (s.chan c).addr ∧ (t.chan c).size = (s.chan c).size
          ∧ (t.chan c).contCfg = (s.chan c).contCfg ∧ (t.chan c).widthCfg = (s.chan c).widthCfg
          ∧ (t.chan c).pending = (s.chan c).pending ∧ (t.chan c).asm = (s.chan c).asm)
        ∧ ∀ c, s.ready.head? ≠ some c → (∀ e ∈ s.inflight, e.c = c → s.now < e.ts) → t.chan c = s.chan c)

/-- 20_memory R103, 43_controller R250: a controller run issues at most one memory request. -/
def Obligations.RunIssuesAtMostOneRequest : Prop :=
  ∀ s t : State, exec .ctrlLoop s = .next t →
    ∃ evs, t.hist = s.hist ++ evs ∧ (evs.filter Event.isMem).length ≤ 1

/-- 43_controller R251, R256: with a queued write the run issues exactly the first one and no read; a rejected or pending
answer is logged and recorded as a fault, and the request is lost. -/
def Obligations.RunIssuesQueuedWriteFirst : Prop :=
  ∀ (s : State) (req : Req) (rest : List Req), s.loopDue = true → s.wq = req :: rest →
    ∃ t evs, exec .ctrlLoop s = .next t ∧ t.wq = rest ∧ t.ready = s.ready
      ∧ t.hist = s.hist ++ .mem req s.nextAnswer s.now :: evs ∧ (∀ e ∈ evs, e.isMem = false)
      ∧ (match s.nextAnswer with
        | .accept _ _ => t.faults = s.faults
        | .reject => Event.log (.writeRejected req) ∈ evs
            ∧ ∀ f, f ∈ t.faults ↔ f ∈ s.faults ∨ f = .writeRejected req
        | .pending => Event.log (.unimplementedResponse req) ∈ evs
            ∧ ∀ f, f ∈ t.faults ↔ f ∈ s.faults ∨ f = .asyncResponse req)

/-- 43_controller R252: without a queued write, the first ready channel issues its next chunk when a read buffer is free,
cedes its turn to the tail unless it was its last chunk, and an accepted read is in flight with completion timestamp
now + latency + 1; a rejected or pending answer is recorded as a fault. -/
def Obligations.RunIssuesOneChunkAndCedesTurn : Prop :=
  ∀ (s : State) (c : ChanId) (rest : List ChanId) (x : Transfer), s.loopDue = true → s.wq = [] → s.ready = c :: rest →
    0 < s.rbfree → s.cfg.dirOf c = some .tx → (s.chan c).active = some x →
    ∃ t req evs, exec .ctrlLoop s = .next t
      ∧ req = { addr := x.cur, size := 4, dir := .read, data := [], tag := c }
      ∧ t.hist = s.hist ++ .mem req s.nextAnswer s.now :: evs ∧ (∀ e ∈ evs, e.isMem = false)
      ∧ t.wq = [] ∧ t.ready = (if x.remaining ≤ 4 then rest else rest ++ [c])
      ∧ (match s.nextAnswer with
        | .accept lat rdata => ({ ts := s.now + lat + 1, c := c, req := req, rdata := rdata } : InFlight) ∈ t.inflight
            ∧ t.faults = s.faults
        | .reject => ∀ f, f ∈ t.faults ↔ f ∈ s.faults ∨ f = .readRejected req
        | .pending => Event.log (.unimplementedResponse req) ∈ evs
            ∧ ∀ f, f ∈ t.faults ↔ f ∈ s.faults ∨ f = .asyncResponse req)

/-- 43_controller R253, 20_memory R105, in a state that meets the invariant `Inv`: a run delivers exactly the reads whose
timestamp is reached, each channel's words in timestamp order, and leaves only later ones in flight. -/
def Obligations.RunDeliversMaturedReadsInOrder : Prop :=
  ∀ s t : State, s.cfg.wf = true → Inv s → exec .ctrlLoop s = .next t →
    (∀ e ∈ t.inflight, s.now < e.ts)
    ∧ (∀ c, (t.chan c).rdq = (s.chan c).rdq ++ wordsOf c (s.inflight.filter (fun e => decide (e.ts ≤ s.now))))
    ∧ ∀ e ∈ s.inflight, s.now < e.ts → e ∈ t.inflight

/-- 43_controller R254, in a state that meets the invariant `Inv`: after a run the controller is scheduled for the next cycle
if a write is queued or a ready channel and a free buffer exist, and for the earliest completion if a read is in flight,
whichever is earlier; otherwise it is dormant. -/
def Obligations.RunRearmsForRemainingWork : Prop :=
  ∀ s t : State, s.cfg.wf = true → Inv s → exec .ctrlLoop s = .next t →
    t.wake = (match t.inflight, decide (t.wq ≠ [] ∨ (t.ready ≠ [] ∧ 0 < t.rbfree)) with
      | [], false => none
      | [], true => some (s.now + 1)
      | e :: _, false => some e.ts
      | e :: _, true => some (min e.ts (s.now + 1)))

/-- 40_latency_queue R162, R163: push appends; push_ordered inserts after every leading item whose timestamp is not above the
new one's, so after items of equal timestamp, and keeps a sorted queue sorted; at capacity both drop the item, which logs
QUEUE_FULL and does nothing else. -/
def Obligations.QueuePushesAppendOrInsertInOrder : Prop :=
  ∀ (cap : Option Nat) (q : List InFlight) (x : InFlight),
    (cap = some q.length → queuePush cap q x = (q, true) ∧ queuePushOrdered InFlight.ts cap q x = (q, true))
    ∧ (cap ≠ some q.length → queuePush cap q x = (q ++ [x], false))
    ∧ (cap ≠ some q.length → ∃ before behind, q = before ++ behind
      ∧ queuePushOrdered InFlight.ts cap q x = (before ++ x :: behind, false)
      ∧ (∀ e ∈ before, e.ts ≤ x.ts) ∧ (∀ e, behind.head? = some e → x.ts < e.ts)
      ∧ (q.Pairwise (fun a b => a.ts ≤ b.ts) → (before ++ x :: behind).Pairwise (fun a b => a.ts ≤ b.ts)))
    ∧ ∀ (s : State) (id : QueueId), s.logIfFull id true = { s with hist := s.hist ++ [.log (.queueFull id)] }
      ∧ s.logIfFull id false = s

/-! ## Reset -/

/-- 70_reset_and_hazards R310, R313: a reset pulse on a block that is not quiescent is refused; the deassertion changes
nothing. -/
def Obligations.ResetNeedsQuiescence : Prop :=
  ∀ s : State, exec (.reset false) s = .next s
    ∧ (s.quiescent = false →
      exec (.reset true) s = .next { s with refused := some (s.refused.getD .resetNotQuiescent) })

/-- 70_reset_and_hazards R311, R312, R314, R315: what a reset pulse leaves in a quiescent block whose records are conserved
(10_state R56 (b)) and whose read buffers are accounted for (R63). The order of its BUSY events, that of the configuration's
list, is the model's (log entry 19); the values of ADDR, SIZE, CG, the flags and the wake-up are the spec's decision D37. -/
def Obligations.QuiescentResetLeavesResetValues : Prop :=
  ∀ s : State, s.quiescent = true → RecordsConserved s → s.rbfree + s.inflight.length = s.cfg.nrb →
    ∃ t, exec (.reset true) s = .next t
      ∧ (∀ c ∈ s.cfg.channels, t.chan c =
          { addr := none, size := none, contCfg := false, widthCfg := 0, free := 2, pending := [], active := none, asm := []
            busy := .undriven, promo := false, rdq := [] })
      ∧ (∀ c, c ∉ s.cfg.channels → t.chan c = s.chan c)
      ∧ (∀ p ∈ s.cfg.periphs, t.isOn p.cid = false)
      ∧ t.cg = 0 ∧ t.rbfree = s.cfg.nrb ∧ t.inflight = [] ∧ t.wq = [] ∧ t.ready = [] ∧ t.wake = none
      ∧ t.lastrun = s.lastrun ∧ t.now = s.now ∧ t.faults = s.faults ∧ t.refused = s.refused ∧ t.cfg = s.cfg
      ∧ t.hist = s.hist ++ s.cfg.channels.map (fun c => Event.busy c .undriven) ++ [.reset]
      ∧ (∀ q, (∀ p ∈ s.cfg.periphs, p.cid ≠ q) → t.isOn q = s.isOn q)
      ∧ t = { s with cg := t.cg, wake := t.wake, periphs := t.periphs, hist := t.hist }

/-- 10_state R73, R45, R58, R60, R42, 00_scope R10, R12, 60_exceptions R286: construction gives a state exactly for the
configurations that satisfy the constraints of R10. The construction state of a configuration has the initial values, and a
reset pulse leaves it equal to itself apart from the history. The configuration of `State.reset` is the model's choice, log
entry 3. -/
def Obligations.ConstructionStateIsResetState : Prop :=
  State.construct Cfg.vectors = some State.reset
  ∧ ∀ cfg : Cfg,
    ((1 ≤ cfg.np ∧ cfg.np ≤ 32 ∧ 1 ≤ cfg.nrb
        ∧ (∀ p ∈ cfg.periphs, 1 ≤ p.ids ∧ p.cid.val + p.ids ≤ cfg.np
          ∧ (p.rx = true ∨ p.tx = true ∨ p.custom.isSome = true))
        ∧ cfg.periphs.Pairwise (fun p q => p.cid.val + p.ids ≤ q.cid.val ∨ q.cid.val + q.ids ≤ p.cid.val)) →
      State.construct cfg = some (State.init cfg))
    ∧ (∀ st, State.construct cfg = some st → st = State.init cfg ∧ 1 ≤ cfg.np ∧ cfg.np ≤ 32 ∧ 1 ≤ cfg.nrb
        ∧ (∀ p ∈ cfg.periphs, 1 ≤ p.ids ∧ p.cid.val + p.ids ≤ cfg.np
          ∧ (p.rx = true ∨ p.tx = true ∨ p.custom.isSome = true))
        ∧ cfg.periphs.Pairwise (fun p q => p.cid.val + p.ids ≤ q.cid.val ∨ q.cid.val + q.ids ≤ p.cid.val))
    ∧ (∀ c, (State.init cfg).chan c =
      { addr := none, size := none, contCfg := false, widthCfg := 0, free := 2, pending := [], active := none, asm := []
        busy := .undriven, promo := false, rdq := [] })
    ∧ (∀ p, (State.init cfg).isOn p = false)
    ∧ (State.init cfg).now = 0 ∧ (State.init cfg).cg = 0 ∧ (State.init cfg).rbfree = cfg.nrb ∧ (State.init cfg).inflight = []
    ∧ (State.init cfg).wq = [] ∧ (State.init cfg).ready = [] ∧ (State.init cfg).wake = none ∧ (State.init cfg).lastrun = none
    ∧ (State.init cfg).faults = [] ∧ (State.init cfg).refused = none ∧ (State.init cfg).hist = []
    ∧ ∃ t, exec (.reset true) (State.init cfg) = .next t ∧ OnlyHist (State.init cfg) t

/-! ## Whole-machine rules and invariants -/

/-- 10_state R42: `now` starts at 0 and is increased by 1 only by the tick; no other operation changes it. -/
def Obligations.OnlyTickAdvancesTime : Prop :=
  State.reset.now = 0
  ∧ ∀ (i : Instr) (s t : State), exec i s = .next t → t.now = if i = .tick then s.now + 1 else s.now

/-- 00_scope R17: the history is append-only, under every operation. -/
def Obligations.HistoryIsAppendOnly : Prop :=
  ∀ (i : Instr) (s t : State), exec i s = .next t → ∃ evs, t.hist = s.hist ++ evs

/-- 00_scope R17: the history is observed and never read: with another past, every step does the same. -/
def Obligations.HistoryIsNeverRead : Prop :=
  ∀ (s : State) (h : List Event),
    match step s with
    | .next t => step (s.withPast h) = .next (t.withPast h)
    | .fault f => step (s.withPast h) = .fault f
    | .refused r => step (s.withPast h) = .refused r

/-- 60_exceptions R284, R285, 70_reset_and_hazards R314: no operation removes a fault or a refusal mark, not even reset. -/
def Obligations.FaultsAndRefusalMarkAreSticky : Prop :=
  ∀ (i : Instr) (s t : State), exec i s = .next t →
    (∀ f ∈ s.faults, f ∈ t.faults) ∧ (∀ k, s.refused = some k → t.refused = some k)

/-- 42_peripheral_group R227, 10_state R58: set_on writes that peripheral's flag and nothing else; in a well-formed
configuration every operation whose row's guard holds leaves every flag, but for a CG write, set_on (which the CG write
calls) and a reset pulse. -/
def Obligations.FlagsAreWrittenByClockGateAndResetOnly : Prop :=
  (∀ (s : State) (p : Fin 32) (b : Bool), (s.cfg.periph p).isSome = true →
    ∃ t, exec (.periphSetOn p b) s = .next t ∧ t.isOn p = b ∧ (∀ q, q ≠ p → t.isOn q = s.isOn q) ∧ ChansSame s t
      ∧ t = { s with periphs := t.periphs })
  ∧ ∀ (i : Instr) (s t : State), s.cfg.wf = true → i.wf s.cfg = true → i.flagsOk s.cfg s.isOn = true → exec i s = .next t →
    (∃ p, t.isOn p ≠ s.isOn p) → (∃ v, i = .cgWr v) ∨ (∃ p b, i = .periphSetOn p b) ∨ i = .reset true

/-- 10_state R67: an operation that names one channel leaves every other channel, and every flag, as it was; and no operation
changes the configuration. -/
def Obligations.ChannelOperationsTouchOneChannel : Prop :=
  (∀ (c : ChanId) (i : Instr) (s t : State),
    ((∃ bytes, i = .pushBytes c bytes) ∨ i = .rdqPop c ∨ i = .promote c ∨ i = .prepareNextChunk c
      ∨ (∃ d, i = .deliverChunk c d) ∨ i = .finalize c ∨ i = .channelReady c ∨ i = .enqueueTransfer c ∨ i = .flush c) →
    exec i s = .next t → OtherChansSame c s t)
  ∧ ∀ (i : Instr) (s t : State), exec i s = .next t → t.cfg = s.cfg

/-- 10_state R56 (b): every step conserves each channel's records, free, pending and active. -/
def Obligations.StepConservesRecords : Prop :=
  ∀ s t : State, RecordsConserved s → step s = .next t → RecordsConserved t

/-- 10_state R61: in a well-formed configuration every step keeps each peripheral's flag equal to the CG bit of its
canonical id. -/
def Obligations.StepKeepsFlagsFollowingCg : Prop :=
  ∀ s t : State, s.cfg.wf = true → FlagsFollowCg s → step s = .next t → FlagsFollowCg t

/-- 43_controller R250, R260, R263, 40_latency_queue R163, 10_state R64, R69: every step keeps the schedule sound: the
pipeline sorted, no wake-up in the past, at most one run of the loop per cycle. -/
def Obligations.StepKeepsSchedule : Prop :=
  ∀ s t : State, ScheduleInv s → step s = .next t → ScheduleInv t

/-- 10_state R56, R61, R63, R64, R66, 20_memory R91, R96, R97, R101, 43_controller R254, R257, R263: in a well-formed
configuration every step keeps the block's invariant. -/
def Obligations.StepKeepsInvariant : Prop :=
  ∀ s t : State, s.cfg.wf = true → Inv s → step s = .next t → Inv t

/-- The invariant holds in the construction state of every well-formed configuration, and CFG-A is one (10_state R73). -/
def Obligations.InvariantHoldsAtReset : Prop :=
  Cfg.vectors.wf = true ∧ ∀ cfg : Cfg, cfg.wf = true → Inv (State.init cfg)

/-- 60_exceptions R282 (column "reachable"), 40_latency_queue R164, R167, 41_channel R195, R196: from a state that meets the
invariant no step sets the refusal marks POP_EMPTY, PREPARE_NO_ACTIVE and DELIVER_NO_ACTIVE or logs QUEUE_FULL. -/
def Obligations.UnreachableRefusalsStayUnreached : Prop :=
  ∀ s t : State, s.cfg.wf = true → Inv s → step s = .next t →
    (∀ k, t.refused = some k → k.unreachable = false)
    ∧ ∃ evs, t.hist = s.hist ++ evs ∧ ∀ e ∈ evs, e.isQueueFull = false
end

