-- ==== Sys2Proof/Laws/State.lean ====
section
/-! SUPPORT. The small lemmas of State: what each operation leaves unchanged, one lemma per field and operation, and what the
accessors read after a write. -/
namespace Sys2Proof.Machine.Laws

/-- Reading the slot of a peripheral that was written. -/
@[simp] theorem periph_chan_setChan_self (p : Periph) (sl : Slot) (ch : Chan) : (p.setChan sl ch).chan sl = ch := by
  cases sl <;> rfl

@[simp] theorem periph_chan_setChan_ne (p : Periph) {sl sl' : Slot} (ch : Chan) (h : sl' ≠ sl) :
    (p.setChan sl ch).chan sl' = p.chan sl' := by
  cases sl <;> cases sl' <;> first | rfl | exact absurd rfl h

@[simp] theorem periph_on_setChan (p : Periph) (sl : Slot) (ch : Chan) : (p.setChan sl ch).on = p.on := by
  cases sl <;> rfl

/-- The flag does not change a slot. -/
@[simp] theorem periph_chan_on (p : Periph) (b : Bool) (sl : Slot) : ({ p with on := b } : Periph).chan sl = p.chan sl := by
  cases sl <;> rfl

theorem vector_get_set {α : Type} (v : Vector α 32) (i j : Fin 32) (x : α) :
    (v.set i.val x i.isLt).get j = if j = i then x else v.get j := by
  have hj : ∀ u : Vector α 32, u.get j = u[j.val] := fun _ => rfl
  rw [hj, hj, Vector.getElem_set]
  by_cases h : j = i
  · simp [h]
  · have : ¬ i.val = j.val := fun e => h (Fin.ext e.symm)
    simp [h, this]

/-- A channel reads back what was written. -/
@[simp] theorem chan_setChan_self (s : State) (c : ChanId) (ch : Chan) : (s.setChan c ch).chan c = ch := by
  simp [State.chan, State.setChan, vector_get_set]

/-- Writing a channel leaves every other channel alone. -/
@[simp] theorem chan_setChan_ne (s : State) {c c' : ChanId} (ch : Chan) (h : c' ≠ c) :
    (s.setChan c ch).chan c' = s.chan c' := by
  simp only [State.chan, State.setChan, vector_get_set]
  split
  · rename_i hp
    rw [hp]
    exact periph_chan_setChan_ne _ _ (fun hs => h (by cases c; cases c'; simp_all))
  · rfl

theorem chan_setChan (s : State) (c c' : ChanId) (ch : Chan) :
    (s.setChan c ch).chan c' = if c' = c then ch else s.chan c' := by
  by_cases h : c' = c
  · subst h; simp
  · simp [h]

@[simp] theorem isOn_setChan (s : State) (c : ChanId) (ch : Chan) (p : Fin 32) : (s.setChan c ch).isOn p = s.isOn p := by
  simp only [State.isOn, State.setChan, vector_get_set]
  split
  · rename_i h; simp [h]
  · rfl

@[simp] theorem chan_setOn (s : State) (p : Fin 32) (b : Bool) (c : ChanId) : (s.setOn p b).chan c = s.chan c := by
  simp only [State.chan, State.setOn, vector_get_set]
  split
  · rename_i h; simp [h]
  · rfl

theorem isOn_setOn (s : State) (p q : Fin 32) (b : Bool) : (s.setOn p b).isOn q = if q = p then b else s.isOn q := by
  simp only [State.isOn, State.setOn, vector_get_set]
  split <;> rfl

@[simp] theorem isOn_setOn_self (s : State) (p : Fin 32) (b : Bool) : (s.setOn p b).isOn p = b := by simp [isOn_setOn]

@[simp] theorem isOn_setOn_ne (s : State) {p q : Fin 32} (b : Bool) (h : q ≠ p) : (s.setOn p b).isOn q = s.isOn q := by
  simp [isOn_setOn, h]

/-- Channels are read from the peripherals alone. -/
theorem chan_of_periphs_eq {s t : State} (h : t.periphs = s.periphs) (c : ChanId) : t.chan c = s.chan c := by
  simp [State.chan, h]

theorem isOn_of_periphs_eq {s t : State} (h : t.periphs = s.periphs) (p : Fin 32) : t.isOn p = s.isOn p := by
  simp [State.isOn, h]

/-- Two states agree when all their fields do. -/
theorem state_ext {s t : State} (h1 : s.cfg = t.cfg) (h2 : s.now = t.now) (h3 : s.periphs = t.periphs) (h4 : s.cg = t.cg)
    (h5 : s.rbfree = t.rbfree) (h6 : s.inflight = t.inflight) (h7 : s.wq = t.wq) (h8 : s.ready = t.ready)
    (h9 : s.wake = t.wake) (h10 : s.lastrun = t.lastrun) (h11 : s.faults = t.faults) (h12 : s.refused = t.refused)
    (h13 : s.hist = t.hist) (h14 : s.agenda = t.agenda) (h15 : s.answers = t.answers) (h16 : s.draws = t.draws) :
    s = t := by
  cases s; cases t; simp_all


@[simp] theorem setChan_cfg (s : State) (c : ChanId) (ch : Chan) : (s.setChan c ch).cfg = s.cfg := rfl
@[simp] theorem setChan_now (s : State) (c : ChanId) (ch : Chan) : (s.setChan c ch).now = s.now := rfl
@[simp] theorem setChan_cg (s : State) (c : ChanId) (ch : Chan) : (s.setChan c ch).cg = s.cg := rfl
@[simp] theorem setChan_rbfree (s : State) (c : ChanId) (ch : Chan) : (s.setChan c ch).rbfree = s.rbfree := rfl
@[simp] theorem setChan_inflight (s : State) (c : ChanId) (ch : Chan) : (s.setChan c ch).inflight = s.inflight := rfl
@[simp] theorem setChan_wq (s : State) (c : ChanId) (ch : Chan) : (s.setChan c ch).wq = s.wq := rfl
@[simp] theorem setChan_ready (s : State) (c : ChanId) (ch : Chan) : (s.setChan c ch).ready = s.ready := rfl
@[simp] theorem setChan_wake (s : State) (c : ChanId) (ch : Chan) : (s.setChan c ch).wake = s.wake := rfl
@[simp] theorem setChan_lastrun (s : State) (c : ChanId) (ch : Chan) : (s.setChan c ch).lastrun = s.lastrun := rfl
@[simp] theorem setChan_faults (s : State) (c : ChanId) (ch : Chan) : (s.setChan c ch).faults = s.faults := rfl
@[simp] theorem setChan_refused (s : State) (c : ChanId) (ch : Chan) : (s.setChan c ch).refused = s.refused := rfl
@[simp] theorem setChan_hist (s : State) (c : ChanId) (ch : Chan) : (s.setChan c ch).hist = s.hist := rfl
@[simp] theorem setChan_agenda (s : State) (c : ChanId) (ch : Chan) : (s.setChan c ch).agenda = s.agenda := rfl
@[simp] theorem setChan_answers (s : State) (c : ChanId) (ch : Chan) : (s.setChan c ch).answers = s.answers := rfl
@[simp] theorem setChan_draws (s : State) (c : ChanId) (ch : Chan) : (s.setChan c ch).draws = s.draws := rfl

@[simp] theorem setOn_cfg (s : State) (p : Fin 32) (b : Bool) : (s.setOn p b).cfg = s.cfg := rfl
@[simp] theorem setOn_now (s : State) (p : Fin 32) (b : Bool) : (s.setOn p b).now = s.now := rfl
@[simp] theorem setOn_cg (s : State) (p : Fin 32) (b : Bool) : (s.setOn p b).cg = s.cg := rfl
@[simp] theorem setOn_rbfree (s : State) (p : Fin 32) (b : Bool) : (s.setOn p b).rbfree = s.rbfree := rfl
@[simp] theorem setOn_inflight (s : State) (p : Fin 32) (b : Bool) : (s.setOn p b).inflight = s.inflight := rfl
@[simp] theorem setOn_wq (s : State) (p : Fin 32) (b : Bool) : (s.setOn p b).wq = s.wq := rfl
@[simp] theorem setOn_ready (s : State) (p : Fin 32) (b : Bool) : (s.setOn p b).ready = s.ready := rfl
@[simp] theorem setOn_wake (s : State) (p : Fin 32) (b : Bool) : (s.setOn p b).wake = s.wake := rfl
@[simp] theorem setOn_lastrun (s : State) (p : Fin 32) (b : Bool) : (s.setOn p b).lastrun = s.lastrun := rfl
@[simp] theorem setOn_faults (s : State) (p : Fin 32) (b : Bool) : (s.setOn p b).faults = s.faults := rfl
@[simp] theorem setOn_refused (s : State) (p : Fin 32) (b : Bool) : (s.setOn p b).refused = s.refused := rfl
@[simp] theorem setOn_hist (s : State) (p : Fin 32) (b : Bool) : (s.setOn p b).hist = s.hist := rfl
@[simp] theorem setOn_agenda (s : State) (p : Fin 32) (b : Bool) : (s.setOn p b).agenda = s.agenda := rfl
@[simp] theorem setOn_answers (s : State) (p : Fin 32) (b : Bool) : (s.setOn p b).answers = s.answers := rfl
@[simp] theorem setOn_draws (s : State) (p : Fin 32) (b : Bool) : (s.setOn p b).draws = s.draws := rfl

@[simp] theorem emit_cfg (s : State) (ev : Event) : (s.emit ev).cfg = s.cfg := rfl
@[simp] theorem emit_now (s : State) (ev : Event) : (s.emit ev).now = s.now := rfl
@[simp] theorem emit_periphs (s : State) (ev : Event) : (s.emit ev).periphs = s.periphs := rfl
@[simp] theorem emit_cg (s : State) (ev : Event) : (s.emit ev).cg = s.cg := rfl
@[simp] theorem emit_rbfree (s : State) (ev : Event) : (s.emit ev).rbfree = s.rbfree := rfl
@[simp] theorem emit_inflight (s : State) (ev : Event) : (s.emit ev).inflight = s.inflight := rfl
@[simp] theorem emit_wq (s : State) (ev : Event) : (s.emit ev).wq = s.wq := rfl
@[simp] theorem emit_ready (s : State) (ev : Event) : (s.emit ev).ready = s.ready := rfl
@[simp] theorem emit_wake (s : State) (ev : Event) : (s.emit ev).wake = s.wake := rfl
@[simp] theorem emit_lastrun (s : State) (ev : Event) : (s.emit ev).lastrun = s.lastrun := rfl
@[simp] theorem emit_faults (s : State) (ev : Event) : (s.emit ev).faults = s.faults := rfl
@[simp] theorem emit_refused (s : State) (ev : Event) : (s.emit ev).refused = s.refused := rfl
@[simp] theorem emit_agenda (s : State) (ev : Event) : (s.emit ev).agenda = s.agenda := rfl
@[simp] theorem emit_answers (s : State) (ev : Event) : (s.emit ev).answers = s.answers := rfl
@[simp] theorem emit_draws (s : State) (ev : Event) : (s.emit ev).draws = s.draws := rfl
@[simp] theorem emit_chan (s : State) (ev : Event) (c' : ChanId) : (s.emit ev).chan c' = s.chan c' :=
  chan_of_periphs_eq (by simp) c'
@[simp] theorem emit_isOn (s : State) (ev : Event) (p' : Fin 32) : (s.emit ev).isOn p' = s.isOn p' :=
  isOn_of_periphs_eq (by simp) p'

@[simp] theorem log_cfg (s : State) (k : LogKind) : (s.log k).cfg = s.cfg := rfl
@[simp] theorem log_now (s : State) (k : LogKind) : (s.log k).now = s.now := rfl
@[simp] theorem log_periphs (s : State) (k : LogKind) : (s.log k).periphs = s.periphs := rfl
@[simp] theorem log_cg (s : State) (k : LogKind) : (s.log k).cg = s.cg := rfl
@[simp] theorem log_rbfree (s : State) (k : LogKind) : (s.log k).rbfree = s.rbfree := rfl
@[simp] theorem log_inflight (s : State) (k : LogKind) : (s.log k).inflight = s.inflight := rfl
@[simp] theorem log_wq (s : State) (k : LogKind) : (s.log k).wq = s.wq := rfl
@[simp] theorem log_ready (s : State) (k : LogKind) : (s.log k).ready = s.ready := rfl
@[simp] theorem log_wake (s : State) (k : LogKind) : (s.log k).wake = s.wake := rfl
@[simp] theorem log_lastrun (s : State) (k : LogKind) : (s.log k).lastrun = s.lastrun := rfl
@[simp] theorem log_faults (s : State) (k : LogKind) : (s.log k).faults = s.faults := rfl
@[simp] theorem log_refused (s : State) (k : LogKind) : (s.log k).refused = s.refused := rfl
@[simp] theorem log_agenda (s : State) (k : LogKind) : (s.log k).agenda = s.agenda := rfl
@[simp] theorem log_answers (s : State) (k : LogKind) : (s.log k).answers = s.answers := rfl
@[simp] theorem log_draws (s : State) (k : LogKind) : (s.log k).draws = s.draws := rfl
@[simp] theorem log_chan (s : State) (k : LogKind) (c' : ChanId) : (s.log k).chan c' = s.chan c' :=
  chan_of_periphs_eq (by simp) c'
@[simp] theorem log_isOn (s : State) (k : LogKind) (p' : Fin 32) : (s.log k).isOn p' = s.isOn p' :=
  isOn_of_periphs_eq (by simp) p'

@[simp] theorem raise_cfg (s : State) (k : FaultKind) : (s.raise k).cfg = s.cfg := rfl
@[simp] theorem raise_now (s : State) (k : FaultKind) : (s.raise k).now = s.now := rfl
@[simp] theorem raise_periphs (s : State) (k : FaultKind) : (s.raise k).periphs = s.periphs := rfl
@[simp] theorem raise_cg (s : State) (k : FaultKind) : (s.raise k).cg = s.cg := rfl
@[simp] theorem raise_rbfree (s : State) (k : FaultKind) : (s.raise k).rbfree = s.rbfree := rfl
@[simp] theorem raise_inflight (s : State) (k : FaultKind) : (s.raise k).inflight = s.inflight := rfl
@[simp] theorem raise_wq (s : State) (k : FaultKind) : (s.raise k).wq = s.wq := rfl
@[simp] theorem raise_ready (s : State) (k : FaultKind) : (s.raise k).ready = s.ready := rfl
@[simp] theorem raise_wake (s : State) (k : FaultKind) : (s.raise k).wake = s.wake := rfl
@[simp] theorem raise_lastrun (s : State) (k : FaultKind) : (s.raise k).lastrun = s.lastrun := rfl
@[simp] theorem raise_refused (s : State) (k : FaultKind) : (s.raise k).refused = s.refused := rfl
@[simp] theorem raise_hist (s : State) (k : FaultKind) : (s.raise k).hist = s.hist := rfl
@[simp] theorem raise_agenda (s : State) (k : FaultKind) : (s.raise k).agenda = s.agenda := rfl
@[simp] theorem raise_answers (s : State) (k : FaultKind) : (s.raise k).answers = s.answers := rfl
@[simp] theorem raise_draws (s : State) (k : FaultKind) : (s.raise k).draws = s.draws := rfl
@[simp] theorem raise_chan (s : State) (k : FaultKind) (c' : ChanId) : (s.raise k).chan c' = s.chan c' :=
  chan_of_periphs_eq (by simp) c'
@[simp] theorem raise_isOn (s : State) (k : FaultKind) (p' : Fin 32) : (s.raise k).isOn p' = s.isOn p' :=
  isOn_of_periphs_eq (by simp) p'

@[simp] theorem refuse_cfg (s : State) (k : RefusalKind) : (s.refuse k).cfg = s.cfg := rfl
@[simp] theorem refuse_now (s : State) (k : RefusalKind) : (s.refuse k).now = s.now := rfl
@[simp] theorem refuse_periphs (s : State) (k : RefusalKind) : (s.refuse k).periphs = s.periphs := rfl
@[simp] theorem refuse_cg (s : State) (k : RefusalKind) : (s.refuse k).cg = s.cg := rfl
@[simp] theorem refuse_rbfree (s : State) (k : RefusalKind) : (s.refuse k).rbfree = s.rbfree := rfl
@[simp] theorem refuse_inflight (s : State) (k : RefusalKind) : (s.refuse k).inflight = s.inflight := rfl
@[simp] theorem refuse_wq (s : State) (k : RefusalKind) : (s.refuse k).wq = s.wq := rfl
@[simp] theorem refuse_ready (s : State) (k : RefusalKind) : (s.refuse k).ready = s.ready := rfl
@[simp] theorem refuse_wake (s : State) (k : RefusalKind) : (s.refuse k).wake = s.wake := rfl
@[simp] theorem refuse_lastrun (s : State) (k : RefusalKind) : (s.refuse k).lastrun = s.lastrun := rfl
@[simp] theorem refuse_faults (s : State) (k : RefusalKind) : (s.refuse k).faults = s.faults := rfl
@[simp] theorem refuse_hist (s : State) (k : RefusalKind) : (s.refuse k).hist = s.hist := rfl
@[simp] theorem refuse_agenda (s : State) (k : RefusalKind) : (s.refuse k).agenda = s.agenda := rfl
@[simp] theorem refuse_answers (s : State) (k : RefusalKind) : (s.refuse k).answers = s.answers := rfl
@[simp] theorem refuse_draws (s : State) (k : RefusalKind) : (s.refuse k).draws = s.draws := rfl
@[simp] theorem refuse_chan (s : State) (k : RefusalKind) (c' : ChanId) : (s.refuse k).chan c' = s.chan c' :=
  chan_of_periphs_eq (by simp) c'
@[simp] theorem refuse_isOn (s : State) (k : RefusalKind) (p' : Fin 32) : (s.refuse k).isOn p' = s.isOn p' :=
  isOn_of_periphs_eq (by simp) p'

@[simp] theorem undone_cfg (s t : State) : (s.undone t).cfg = s.cfg := rfl
@[simp] theorem undone_now (s t : State) : (s.undone t).now = s.now := rfl
@[simp] theorem undone_periphs (s t : State) : (s.undone t).periphs = s.periphs := rfl
@[simp] theorem undone_cg (s t : State) : (s.undone t).cg = s.cg := rfl
@[simp] theorem undone_rbfree (s t : State) : (s.undone t).rbfree = s.rbfree := rfl
@[simp] theorem undone_inflight (s t : State) : (s.undone t).inflight = s.inflight := rfl
@[simp] theorem undone_wq (s t : State) : (s.undone t).wq = s.wq := rfl
@[simp] theorem undone_ready (s t : State) : (s.undone t).ready = s.ready := rfl
@[simp] theorem undone_wake (s t : State) : (s.undone t).wake = s.wake := rfl
@[simp] theorem undone_lastrun (s t : State) : (s.undone t).lastrun = s.lastrun := rfl
@[simp] theorem undone_faults (s t : State) : (s.undone t).faults = s.faults := rfl
@[simp] theorem undone_refused (s t : State) : (s.undone t).refused = s.refused := rfl
@[simp] theorem undone_agenda (s t : State) : (s.undone t).agenda = s.agenda := rfl
@[simp] theorem undone_answers (s t : State) : (s.undone t).answers = s.answers := rfl
@[simp] theorem undone_draws (s t : State) : (s.undone t).draws = t.draws := rfl
@[simp] theorem undone_chan (s t : State) (c : ChanId) : (s.undone t).chan c = s.chan c := rfl
@[simp] theorem undone_isOn (s t : State) (p : Fin 32) : (s.undone t).isOn p = s.isOn p := rfl

@[simp] theorem undone_self (s : State) : s.undone s = s := by simp [State.undone]

/-- 60_exceptions R281: of the events an access has added before it is answered INVALID, the logs stay. -/
theorem undone_hist {s t : State} {evs : List Event} (h : t.hist = s.hist ++ evs) :
    (s.undone t).hist = s.hist ++ evs.filter Event.isLog := by
  simp [State.undone, h]

@[simp] theorem takeDraw_cfg (s : State) : (s.takeDraw).cfg = s.cfg := rfl
@[simp] theorem takeDraw_now (s : State) : (s.takeDraw).now = s.now := rfl
@[simp] theorem takeDraw_periphs (s : State) : (s.takeDraw).periphs = s.periphs := rfl
@[simp] theorem takeDraw_cg (s : State) : (s.takeDraw).cg = s.cg := rfl
@[simp] theorem takeDraw_rbfree (s : State) : (s.takeDraw).rbfree = s.rbfree := rfl
@[simp] theorem takeDraw_inflight (s : State) : (s.takeDraw).inflight = s.inflight := rfl
@[simp] theorem takeDraw_wq (s : State) : (s.takeDraw).wq = s.wq := rfl
@[simp] theorem takeDraw_ready (s : State) : (s.takeDraw).ready = s.ready := rfl
@[simp] theorem takeDraw_wake (s : State) : (s.takeDraw).wake = s.wake := rfl
@[simp] theorem takeDraw_lastrun (s : State) : (s.takeDraw).lastrun = s.lastrun := rfl
@[simp] theorem takeDraw_faults (s : State) : (s.takeDraw).faults = s.faults := rfl
@[simp] theorem takeDraw_refused (s : State) : (s.takeDraw).refused = s.refused := rfl
@[simp] theorem takeDraw_hist (s : State) : (s.takeDraw).hist = s.hist := rfl
@[simp] theorem takeDraw_agenda (s : State) : (s.takeDraw).agenda = s.agenda := rfl
@[simp] theorem takeDraw_answers (s : State) : (s.takeDraw).answers = s.answers := rfl
@[simp] theorem takeDraw_chan (s : State) (c' : ChanId) : (s.takeDraw).chan c' = s.chan c' :=
  chan_of_periphs_eq (by simp) c'
@[simp] theorem takeDraw_isOn (s : State) (p' : Fin 32) : (s.takeDraw).isOn p' = s.isOn p' :=
  isOn_of_periphs_eq (by simp) p'

@[simp] theorem requestWake_cfg (s : State) (t : Nat) : (s.requestWake t).cfg = s.cfg := rfl
@[simp] theorem requestWake_now (s : State) (t : Nat) : (s.requestWake t).now = s.now := rfl
@[simp] theorem requestWake_periphs (s : State) (t : Nat) : (s.requestWake t).periphs = s.periphs := rfl
@[simp] theorem requestWake_cg (s : State) (t : Nat) : (s.requestWake t).cg = s.cg := rfl
@[simp] theorem requestWake_rbfree (s : State) (t : Nat) : (s.requestWake t).rbfree = s.rbfree := rfl
@[simp] theorem requestWake_inflight (s : State) (t : Nat) : (s.requestWake t).inflight = s.inflight := rfl
@[simp] theorem requestWake_wq (s : State) (t : Nat) : (s.requestWake t).wq = s.wq := rfl
@[simp] theorem requestWake_ready (s : State) (t : Nat) : (s.requestWake t).ready = s.ready := rfl
@[simp] theorem requestWake_lastrun (s : State) (t : Nat) : (s.requestWake t).lastrun = s.lastrun := rfl
@[simp] theorem requestWake_faults (s : State) (t : Nat) : (s.requestWake t).faults = s.faults := rfl
@[simp] theorem requestWake_refused (s : State) (t : Nat) : (s.requestWake t).refused = s.refused := rfl
@[simp] theorem requestWake_hist (s : State) (t : Nat) : (s.requestWake t).hist = s.hist := rfl
@[simp] theorem requestWake_agenda (s : State) (t : Nat) : (s.requestWake t).agenda = s.agenda := rfl
@[simp] theorem requestWake_answers (s : State) (t : Nat) : (s.requestWake t).answers = s.answers := rfl
@[simp] theorem requestWake_draws (s : State) (t : Nat) : (s.requestWake t).draws = s.draws := rfl
@[simp] theorem requestWake_chan (s : State) (t : Nat) (c' : ChanId) : (s.requestWake t).chan c' = s.chan c' :=
  chan_of_periphs_eq (by simp) c'
@[simp] theorem requestWake_isOn (s : State) (t : Nat) (p' : Fin 32) : (s.requestWake t).isOn p' = s.isOn p' :=
  isOn_of_periphs_eq (by simp) p'

@[simp] theorem stimulusWake_cfg (s : State) : (s.stimulusWake).cfg = s.cfg := rfl
@[simp] theorem stimulusWake_now (s : State) : (s.stimulusWake).now = s.now := rfl
@[simp] theorem stimulusWake_periphs (s : State) : (s.stimulusWake).periphs = s.periphs := rfl
@[simp] theorem stimulusWake_cg (s : State) : (s.stimulusWake).cg = s.cg := rfl
@[simp] theorem stimulusWake_rbfree (s : State) : (s.stimulusWake).rbfree = s.rbfree := rfl
@[simp] theorem stimulusWake_inflight (s : State) : (s.stimulusWake).inflight = s.inflight := rfl
@[simp] theorem stimulusWake_wq (s : State) : (s.stimulusWake).wq = s.wq := rfl
@[simp] theorem stimulusWake_ready (s : State) : (s.stimulusWake).ready = s.ready := rfl
@[simp] theorem stimulusWake_lastrun (s : State) : (s.stimulusWake).lastrun = s.lastrun := rfl
@[simp] theorem stimulusWake_faults (s : State) : (s.stimulusWake).faults = s.faults := rfl
@[simp] theorem stimulusWake_refused (s : State) : (s.stimulusWake).refused = s.refused := rfl
@[simp] theorem stimulusWake_hist (s : State) : (s.stimulusWake).hist = s.hist := rfl
@[simp] theorem stimulusWake_agenda (s : State) : (s.stimulusWake).agenda = s.agenda := rfl
@[simp] theorem stimulusWake_answers (s : State) : (s.stimulusWake).answers = s.answers := rfl
@[simp] theorem stimulusWake_draws (s : State) : (s.stimulusWake).draws = s.draws := rfl
@[simp] theorem stimulusWake_chan (s : State) (c' : ChanId) : (s.stimulusWake).chan c' = s.chan c' :=
  chan_of_periphs_eq (by simp) c'
@[simp] theorem stimulusWake_isOn (s : State) (p' : Fin 32) : (s.stimulusWake).isOn p' = s.isOn p' :=
  isOn_of_periphs_eq (by simp) p'

@[simp] theorem pushWrite_cfg (s : State) (r : Req) : (s.pushWrite r).cfg = s.cfg := rfl
@[simp] theorem pushWrite_now (s : State) (r : Req) : (s.pushWrite r).now = s.now := rfl
@[simp] theorem pushWrite_periphs (s : State) (r : Req) : (s.pushWrite r).periphs = s.periphs := rfl
@[simp] theorem pushWrite_cg (s : State) (r : Req) : (s.pushWrite r).cg = s.cg := rfl
@[simp] theorem pushWrite_rbfree (s : State) (r : Req) : (s.pushWrite r).rbfree = s.rbfree := rfl
@[simp] theorem pushWrite_inflight (s : State) (r : Req) : (s.pushWrite r).inflight = s.inflight := rfl
@[simp] theorem pushWrite_ready (s : State) (r : Req) : (s.pushWrite r).ready = s.ready := rfl
@[simp] theorem pushWrite_wake (s : State) (r : Req) : (s.pushWrite r).wake = s.wake := rfl
@[simp] theorem pushWrite_lastrun (s : State) (r : Req) : (s.pushWrite r).lastrun = s.lastrun := rfl
@[simp] theorem pushWrite_faults (s : State) (r : Req) : (s.pushWrite r).faults = s.faults := rfl
@[simp] theorem pushWrite_refused (s : State) (r : Req) : (s.pushWrite r).refused = s.refused := rfl
@[simp] theorem pushWrite_hist (s : State) (r : Req) : (s.pushWrite r).hist = s.hist := rfl
@[simp] theorem pushWrite_agenda (s : State) (r : Req) : (s.pushWrite r).agenda = s.agenda := rfl
@[simp] theorem pushWrite_answers (s : State) (r : Req) : (s.pushWrite r).answers = s.answers := rfl
@[simp] theorem pushWrite_draws (s : State) (r : Req) : (s.pushWrite r).draws = s.draws := rfl
@[simp] theorem pushWrite_chan (s : State) (r : Req) (c' : ChanId) : (s.pushWrite r).chan c' = s.chan c' :=
  chan_of_periphs_eq (by simp) c'
@[simp] theorem pushWrite_isOn (s : State) (r : Req) (p' : Fin 32) : (s.pushWrite r).isOn p' = s.isOn p' :=
  isOn_of_periphs_eq (by simp) p'

@[simp] theorem pushReady_cfg (s : State) (c : ChanId) : (s.pushReady c).cfg = s.cfg := rfl
@[simp] theorem pushReady_now (s : State) (c : ChanId) : (s.pushReady c).now = s.now := rfl
@[simp] theorem pushReady_periphs (s : State) (c : ChanId) : (s.pushReady c).periphs = s.periphs := rfl
@[simp] theorem pushReady_cg (s : State) (c : ChanId) : (s.pushReady c).cg = s.cg := rfl
@[simp] theorem pushReady_rbfree (s : State) (c : ChanId) : (s.pushReady c).rbfree = s.rbfree := rfl
@[simp] theorem pushReady_inflight (s : State) (c : ChanId) : (s.pushReady c).inflight = s.inflight := rfl
@[simp] theorem pushReady_wq (s : State) (c : ChanId) : (s.pushReady c).wq = s.wq := rfl
@[simp] theorem pushReady_wake (s : State) (c : ChanId) : (s.pushReady c).wake = s.wake := rfl
@[simp] theorem pushReady_lastrun (s : State) (c : ChanId) : (s.pushReady c).lastrun = s.lastrun := rfl
@[simp] theorem pushReady_faults (s : State) (c : ChanId) : (s.pushReady c).faults = s.faults := rfl
@[simp] theorem pushReady_refused (s : State) (c : ChanId) : (s.pushReady c).refused = s.refused := rfl
@[simp] theorem pushReady_hist (s : State) (c : ChanId) : (s.pushReady c).hist = s.hist := rfl
@[simp] theorem pushReady_agenda (s : State) (c : ChanId) : (s.pushReady c).agenda = s.agenda := rfl
@[simp] theorem pushReady_answers (s : State) (c : ChanId) : (s.pushReady c).answers = s.answers := rfl
@[simp] theorem pushReady_draws (s : State) (c : ChanId) : (s.pushReady c).draws = s.draws := rfl
@[simp] theorem pushReady_chan (s : State) (c : ChanId) (c' : ChanId) : (s.pushReady c).chan c' = s.chan c' :=
  chan_of_periphs_eq (by simp) c'
@[simp] theorem pushReady_isOn (s : State) (c : ChanId) (p' : Fin 32) : (s.pushReady c).isOn p' = s.isOn p' :=
  isOn_of_periphs_eq (by simp) p'

@[simp] theorem pushInflight_cfg (s : State) (e : InFlight) : (s.pushInflight e).cfg = s.cfg := rfl
@[simp] theorem pushInflight_now (s : State) (e : InFlight) : (s.pushInflight e).now = s.now := rfl
@[simp] theorem pushInflight_periphs (s : State) (e : InFlight) : (s.pushInflight e).periphs = s.periphs := rfl
@[simp] theorem pushInflight_cg (s : State) (e : InFlight) : (s.pushInflight e).cg = s.cg := rfl
@[simp] theorem pushInflight_rbfree (s : State) (e : InFlight) : (s.pushInflight e).rbfree = s.rbfree := rfl
@[simp] theorem pushInflight_wq (s : State) (e : InFlight) : (s.pushInflight e).wq = s.wq := rfl
@[simp] theorem pushInflight_ready (s : State) (e : InFlight) : (s.pushInflight e).ready = s.ready := rfl
@[simp] theorem pushInflight_wake (s : State) (e : InFlight) : (s.pushInflight e).wake = s.wake := rfl
@[simp] theorem pushInflight_lastrun (s : State) (e : InFlight) : (s.pushInflight e).lastrun = s.lastrun := rfl
@[simp] theorem pushInflight_faults (s : State) (e : InFlight) : (s.pushInflight e).faults = s.faults := rfl
@[simp] theorem pushInflight_refused (s : State) (e : InFlight) : (s.pushInflight e).refused = s.refused := rfl
@[simp] theorem pushInflight_hist (s : State) (e : InFlight) : (s.pushInflight e).hist = s.hist := rfl
@[simp] theorem pushInflight_agenda (s : State) (e : InFlight) : (s.pushInflight e).agenda = s.agenda := rfl
@[simp] theorem pushInflight_answers (s : State) (e : InFlight) : (s.pushInflight e).answers = s.answers := rfl
@[simp] theorem pushInflight_draws (s : State) (e : InFlight) : (s.pushInflight e).draws = s.draws := rfl
@[simp] theorem pushInflight_chan (s : State) (e : InFlight) (c' : ChanId) : (s.pushInflight e).chan c' = s.chan c' :=
  chan_of_periphs_eq (by simp) c'
@[simp] theorem pushInflight_isOn (s : State) (e : InFlight) (p' : Fin 32) : (s.pushInflight e).isOn p' = s.isOn p' :=
  isOn_of_periphs_eq (by simp) p'

@[simp] theorem pushRdq_cfg (s : State) (c : ChanId) (w : Quad) : (s.pushRdq c w).cfg = s.cfg := rfl
@[simp] theorem pushRdq_now (s : State) (c : ChanId) (w : Quad) : (s.pushRdq c w).now = s.now := rfl
@[simp] theorem pushRdq_cg (s : State) (c : ChanId) (w : Quad) : (s.pushRdq c w).cg = s.cg := rfl
@[simp] theorem pushRdq_rbfree (s : State) (c : ChanId) (w : Quad) : (s.pushRdq c w).rbfree = s.rbfree := rfl
@[simp] theorem pushRdq_inflight (s : State) (c : ChanId) (w : Quad) : (s.pushRdq c w).inflight = s.inflight := rfl
@[simp] theorem pushRdq_wq (s : State) (c : ChanId) (w : Quad) : (s.pushRdq c w).wq = s.wq := rfl
@[simp] theorem pushRdq_ready (s : State) (c : ChanId) (w : Quad) : (s.pushRdq c w).ready = s.ready := rfl
@[simp] theorem pushRdq_wake (s : State) (c : ChanId) (w : Quad) : (s.pushRdq c w).wake = s.wake := rfl
@[simp] theorem pushRdq_lastrun (s : State) (c : ChanId) (w : Quad) : (s.pushRdq c w).lastrun = s.lastrun := rfl
@[simp] theorem pushRdq_faults (s : State) (c : ChanId) (w : Quad) : (s.pushRdq c w).faults = s.faults := rfl
@[simp] theorem pushRdq_refused (s : State) (c : ChanId) (w : Quad) : (s.pushRdq c w).refused = s.refused := rfl
@[simp] theorem pushRdq_hist (s : State) (c : ChanId) (w : Quad) : (s.pushRdq c w).hist = s.hist := rfl
@[simp] theorem pushRdq_agenda (s : State) (c : ChanId) (w : Quad) : (s.pushRdq c w).agenda = s.agenda := rfl
@[simp] theorem pushRdq_answers (s : State) (c : ChanId) (w : Quad) : (s.pushRdq c w).answers = s.answers := rfl
@[simp] theorem pushRdq_draws (s : State) (c : ChanId) (w : Quad) : (s.pushRdq c w).draws = s.draws := rfl

@[simp] theorem logIfFull_cfg (s : State) (q : QueueId) (d : Bool) : (s.logIfFull q d).cfg = s.cfg := by cases d <;> rfl
@[simp] theorem logIfFull_now (s : State) (q : QueueId) (d : Bool) : (s.logIfFull q d).now = s.now := by cases d <;> rfl
@[simp] theorem logIfFull_periphs (s : State) (q : QueueId) (d : Bool) : (s.logIfFull q d).periphs = s.periphs := by cases d <;> rfl
@[simp] theorem logIfFull_cg (s : State) (q : QueueId) (d : Bool) : (s.logIfFull q d).cg = s.cg := by cases d <;> rfl
@[simp] theorem logIfFull_rbfree (s : State) (q : QueueId) (d : Bool) : (s.logIfFull q d).rbfree = s.rbfree := by cases d <;> rfl
@[simp] theorem logIfFull_inflight (s : State) (q : QueueId) (d : Bool) : (s.logIfFull q d).inflight = s.inflight := by cases d <;> rfl
@[simp] theorem logIfFull_wq (s : State) (q : QueueId) (d : Bool) : (s.logIfFull q d).wq = s.wq := by cases d <;> rfl
@[simp] theorem logIfFull_ready (s : State) (q : QueueId) (d : Bool) : (s.logIfFull q d).ready = s.ready := by cases d <;> rfl
@[simp] theorem logIfFull_wake (s : State) (q : QueueId) (d : Bool) : (s.logIfFull q d).wake = s.wake := by cases d <;> rfl
@[simp] theorem logIfFull_lastrun (s : State) (q : QueueId) (d : Bool) : (s.logIfFull q d).lastrun = s.lastrun := by cases d <;> rfl
@[simp] theorem logIfFull_faults (s : State) (q : QueueId) (d : Bool) : (s.logIfFull q d).faults = s.faults := by cases d <;> rfl
@[simp] theorem logIfFull_refused (s : State) (q : QueueId) (d : Bool) : (s.logIfFull q d).refused = s.refused := by cases d <;> rfl
@[simp] theorem logIfFull_agenda (s : State) (q : QueueId) (d : Bool) : (s.logIfFull q d).agenda = s.agenda := by cases d <;> rfl
@[simp] theorem logIfFull_answers (s : State) (q : QueueId) (d : Bool) : (s.logIfFull q d).answers = s.answers := by cases d <;> rfl
@[simp] theorem logIfFull_draws (s : State) (q : QueueId) (d : Bool) : (s.logIfFull q d).draws = s.draws := by cases d <;> rfl
@[simp] theorem logIfFull_chan (s : State) (q : QueueId) (d : Bool) (c' : ChanId) : (s.logIfFull q d).chan c' = s.chan c' :=
  chan_of_periphs_eq (by simp) c'
@[simp] theorem logIfFull_isOn (s : State) (q : QueueId) (d : Bool) (p' : Fin 32) : (s.logIfFull q d).isOn p' = s.isOn p' :=
  isOn_of_periphs_eq (by simp) p'

@[simp] theorem pushPending_cfg (s : State) (c : ChanId) (t : Transfer) : (s.pushPending c t).cfg = s.cfg := logIfFull_cfg _ _ _
@[simp] theorem pushPending_now (s : State) (c : ChanId) (t : Transfer) : (s.pushPending c t).now = s.now := logIfFull_now _ _ _
@[simp] theorem pushPending_cg (s : State) (c : ChanId) (t : Transfer) : (s.pushPending c t).cg = s.cg := logIfFull_cg _ _ _
@[simp] theorem pushPending_rbfree (s : State) (c : ChanId) (t : Transfer) : (s.pushPending c t).rbfree = s.rbfree := logIfFull_rbfree _ _ _
@[simp] theorem pushPending_inflight (s : State) (c : ChanId) (t : Transfer) : (s.pushPending c t).inflight = s.inflight := logIfFull_inflight _ _ _
@[simp] theorem pushPending_wq (s : State) (c : ChanId) (t : Transfer) : (s.pushPending c t).wq = s.wq := logIfFull_wq _ _ _
@[simp] theorem pushPending_ready (s : State) (c : ChanId) (t : Transfer) : (s.pushPending c t).ready = s.ready := logIfFull_ready _ _ _
@[simp] theorem pushPending_wake (s : State) (c : ChanId) (t : Transfer) : (s.pushPending c t).wake = s.wake := logIfFull_wake _ _ _
@[simp] theorem pushPending_lastrun (s : State) (c : ChanId) (t : Transfer) : (s.pushPending c t).lastrun = s.lastrun := logIfFull_lastrun _ _ _
@[simp] theorem pushPending_faults (s : State) (c : ChanId) (t : Transfer) : (s.pushPending c t).faults = s.faults := logIfFull_faults _ _ _
@[simp] theorem pushPending_refused (s : State) (c : ChanId) (t : Transfer) : (s.pushPending c t).refused = s.refused := logIfFull_refused _ _ _
@[simp] theorem pushPending_agenda (s : State) (c : ChanId) (t : Transfer) : (s.pushPending c t).agenda = s.agenda := logIfFull_agenda _ _ _
@[simp] theorem pushPending_answers (s : State) (c : ChanId) (t : Transfer) : (s.pushPending c t).answers = s.answers := logIfFull_answers _ _ _
@[simp] theorem pushPending_draws (s : State) (c : ChanId) (t : Transfer) : (s.pushPending c t).draws = s.draws := logIfFull_draws _ _ _

@[simp] theorem pushFree_cfg (s : State) (c : ChanId) : (s.pushFree c).cfg = s.cfg := by unfold State.pushFree; split <;> rfl
@[simp] theorem pushFree_now (s : State) (c : ChanId) : (s.pushFree c).now = s.now := by unfold State.pushFree; split <;> rfl
@[simp] theorem pushFree_cg (s : State) (c : ChanId) : (s.pushFree c).cg = s.cg := by unfold State.pushFree; split <;> rfl
@[simp] theorem pushFree_rbfree (s : State) (c : ChanId) : (s.pushFree c).rbfree = s.rbfree := by unfold State.pushFree; split <;> rfl
@[simp] theorem pushFree_inflight (s : State) (c : ChanId) : (s.pushFree c).inflight = s.inflight := by unfold State.pushFree; split <;> rfl
@[simp] theorem pushFree_wq (s : State) (c : ChanId) : (s.pushFree c).wq = s.wq := by unfold State.pushFree; split <;> rfl
@[simp] theorem pushFree_ready (s : State) (c : ChanId) : (s.pushFree c).ready = s.ready := by unfold State.pushFree; split <;> rfl
@[simp] theorem pushFree_wake (s : State) (c : ChanId) : (s.pushFree c).wake = s.wake := by unfold State.pushFree; split <;> rfl
@[simp] theorem pushFree_lastrun (s : State) (c : ChanId) : (s.pushFree c).lastrun = s.lastrun := by unfold State.pushFree; split <;> rfl
@[simp] theorem pushFree_faults (s : State) (c : ChanId) : (s.pushFree c).faults = s.faults := by unfold State.pushFree; split <;> rfl
@[simp] theorem pushFree_refused (s : State) (c : ChanId) : (s.pushFree c).refused = s.refused := by unfold State.pushFree; split <;> rfl
@[simp] theorem pushFree_agenda (s : State) (c : ChanId) : (s.pushFree c).agenda = s.agenda := by unfold State.pushFree; split <;> rfl
@[simp] theorem pushFree_answers (s : State) (c : ChanId) : (s.pushFree c).answers = s.answers := by unfold State.pushFree; split <;> rfl
@[simp] theorem pushFree_draws (s : State) (c : ChanId) : (s.pushFree c).draws = s.draws := by unfold State.pushFree; split <;> rfl

@[simp] theorem pushBuffer_cfg (s : State) : (s.pushBuffer).cfg = s.cfg := by unfold State.pushBuffer; split <;> rfl
@[simp] theorem pushBuffer_now (s : State) : (s.pushBuffer).now = s.now := by unfold State.pushBuffer; split <;> rfl
@[simp] theorem pushBuffer_periphs (s : State) : (s.pushBuffer).periphs = s.periphs := by unfold State.pushBuffer; split <;> rfl
@[simp] theorem pushBuffer_cg (s : State) : (s.pushBuffer).cg = s.cg := by unfold State.pushBuffer; split <;> rfl
@[simp] theorem pushBuffer_inflight (s : State) : (s.pushBuffer).inflight = s.inflight := by unfold State.pushBuffer; split <;> rfl
@[simp] theorem pushBuffer_wq (s : State) : (s.pushBuffer).wq = s.wq := by unfold State.pushBuffer; split <;> rfl
@[simp] theorem pushBuffer_ready (s : State) : (s.pushBuffer).ready = s.ready := by unfold State.pushBuffer; split <;> rfl
@[simp] theorem pushBuffer_wake (s : State) : (s.pushBuffer).wake = s.wake := by unfold State.pushBuffer; split <;> rfl
@[simp] theorem pushBuffer_lastrun (s : State) : (s.pushBuffer).lastrun = s.lastrun := by unfold State.pushBuffer; split <;> rfl
@[simp] theorem pushBuffer_faults (s : State) : (s.pushBuffer).faults = s.faults := by unfold State.pushBuffer; split <;> rfl
@[simp] theorem pushBuffer_refused (s : State) : (s.pushBuffer).refused = s.refused := by unfold State.pushBuffer; split <;> rfl
@[simp] theorem pushBuffer_agenda (s : State) : (s.pushBuffer).agenda = s.agenda := by unfold State.pushBuffer; split <;> rfl
@[simp] theorem pushBuffer_answers (s : State) : (s.pushBuffer).answers = s.answers := by unfold State.pushBuffer; split <;> rfl
@[simp] theorem pushBuffer_draws (s : State) : (s.pushBuffer).draws = s.draws := by unfold State.pushBuffer; split <;> rfl
@[simp] theorem pushBuffer_chan (s : State) (c' : ChanId) : (s.pushBuffer).chan c' = s.chan c' :=
  chan_of_periphs_eq (by simp) c'
@[simp] theorem pushBuffer_isOn (s : State) (p' : Fin 32) : (s.pushBuffer).isOn p' = s.isOn p' :=
  isOn_of_periphs_eq (by simp) p'

@[simp] theorem takeAnswer_cfg (s : State) : (s.takeAnswer).cfg = s.cfg := by unfold State.takeAnswer; split <;> rfl
@[simp] theorem takeAnswer_now (s : State) : (s.takeAnswer).now = s.now := by unfold State.takeAnswer; split <;> rfl
@[simp] theorem takeAnswer_periphs (s : State) : (s.takeAnswer).periphs = s.periphs := by unfold State.takeAnswer; split <;> rfl
@[simp] theorem takeAnswer_cg (s : State) : (s.takeAnswer).cg = s.cg := by unfold State.takeAnswer; split <;> rfl
@[simp] theorem takeAnswer_rbfree (s : State) : (s.takeAnswer).rbfree = s.rbfree := by unfold State.takeAnswer; split <;> rfl
@[simp] theorem takeAnswer_inflight (s : State) : (s.takeAnswer).inflight = s.inflight := by unfold State.takeAnswer; split <;> rfl
@[simp] theorem takeAnswer_wq (s : State) : (s.takeAnswer).wq = s.wq := by unfold State.takeAnswer; split <;> rfl
@[simp] theorem takeAnswer_ready (s : State) : (s.takeAnswer).ready = s.ready := by unfold State.takeAnswer; split <;> rfl
@[simp] theorem takeAnswer_wake (s : State) : (s.takeAnswer).wake = s.wake := by unfold State.takeAnswer; split <;> rfl
@[simp] theorem takeAnswer_lastrun (s : State) : (s.takeAnswer).lastrun = s.lastrun := by unfold State.takeAnswer; split <;> rfl
@[simp] theorem takeAnswer_faults (s : State) : (s.takeAnswer).faults = s.faults := by unfold State.takeAnswer; split <;> rfl
@[simp] theorem takeAnswer_refused (s : State) : (s.takeAnswer).refused = s.refused := by unfold State.takeAnswer; split <;> rfl
@[simp] theorem takeAnswer_hist (s : State) : (s.takeAnswer).hist = s.hist := by unfold State.takeAnswer; split <;> rfl
@[simp] theorem takeAnswer_agenda (s : State) : (s.takeAnswer).agenda = s.agenda := by unfold State.takeAnswer; split <;> rfl
@[simp] theorem takeAnswer_chan (s : State) (c' : ChanId) : (s.takeAnswer).chan c' = s.chan c' :=
  chan_of_periphs_eq (by simp) c'
@[simp] theorem takeAnswer_isOn (s : State) (p' : Fin 32) : (s.takeAnswer).isOn p' = s.isOn p' :=
  isOn_of_periphs_eq (by simp) p'

@[simp] theorem memIssue_cfg (s : State) (r : Req) : (s.memIssue r).cfg = s.cfg := takeAnswer_cfg s
@[simp] theorem memIssue_now (s : State) (r : Req) : (s.memIssue r).now = s.now := takeAnswer_now s
@[simp] theorem memIssue_periphs (s : State) (r : Req) : (s.memIssue r).periphs = s.periphs := takeAnswer_periphs s
@[simp] theorem memIssue_cg (s : State) (r : Req) : (s.memIssue r).cg = s.cg := takeAnswer_cg s
@[simp] theorem memIssue_rbfree (s : State) (r : Req) : (s.memIssue r).rbfree = s.rbfree := takeAnswer_rbfree s
@[simp] theorem memIssue_inflight (s : State) (r : Req) : (s.memIssue r).inflight = s.inflight := takeAnswer_inflight s
@[simp] theorem memIssue_wq (s : State) (r : Req) : (s.memIssue r).wq = s.wq := takeAnswer_wq s
@[simp] theorem memIssue_ready (s : State) (r : Req) : (s.memIssue r).ready = s.ready := takeAnswer_ready s
@[simp] theorem memIssue_wake (s : State) (r : Req) : (s.memIssue r).wake = s.wake := takeAnswer_wake s
@[simp] theorem memIssue_lastrun (s : State) (r : Req) : (s.memIssue r).lastrun = s.lastrun := takeAnswer_lastrun s
@[simp] theorem memIssue_faults (s : State) (r : Req) : (s.memIssue r).faults = s.faults := takeAnswer_faults s
@[simp] theorem memIssue_refused (s : State) (r : Req) : (s.memIssue r).refused = s.refused := takeAnswer_refused s
@[simp] theorem memIssue_agenda (s : State) (r : Req) : (s.memIssue r).agenda = s.agenda := takeAnswer_agenda s
@[simp] theorem memIssue_chan (s : State) (r : Req) (c' : ChanId) : (s.memIssue r).chan c' = s.chan c' :=
  chan_of_periphs_eq (by simp) c'
@[simp] theorem memIssue_isOn (s : State) (r : Req) (p' : Fin 32) : (s.memIssue r).isOn p' = s.isOn p' :=
  isOn_of_periphs_eq (by simp) p'

@[simp] theorem requestPromotion_cfg (s : State) (c : ChanId) : (s.requestPromotion c).cfg = s.cfg := rfl
@[simp] theorem requestPromotion_now (s : State) (c : ChanId) : (s.requestPromotion c).now = s.now := rfl
@[simp] theorem requestPromotion_cg (s : State) (c : ChanId) : (s.requestPromotion c).cg = s.cg := rfl
@[simp] theorem requestPromotion_rbfree (s : State) (c : ChanId) : (s.requestPromotion c).rbfree = s.rbfree := rfl
@[simp] theorem requestPromotion_inflight (s : State) (c : ChanId) : (s.requestPromotion c).inflight = s.inflight := rfl
@[simp] theorem requestPromotion_wq (s : State) (c : ChanId) : (s.requestPromotion c).wq = s.wq := rfl
@[simp] theorem requestPromotion_ready (s : State) (c : ChanId) : (s.requestPromotion c).ready = s.ready := rfl
@[simp] theorem requestPromotion_wake (s : State) (c : ChanId) : (s.requestPromotion c).wake = s.wake := rfl
@[simp] theorem requestPromotion_lastrun (s : State) (c : ChanId) : (s.requestPromotion c).lastrun = s.lastrun := rfl
@[simp] theorem requestPromotion_faults (s : State) (c : ChanId) : (s.requestPromotion c).faults = s.faults := rfl
@[simp] theorem requestPromotion_refused (s : State) (c : ChanId) : (s.requestPromotion c).refused = s.refused := rfl
@[simp] theorem requestPromotion_hist (s : State) (c : ChanId) : (s.requestPromotion c).hist = s.hist := rfl
@[simp] theorem requestPromotion_agenda (s : State) (c : ChanId) : (s.requestPromotion c).agenda = s.agenda := rfl
@[simp] theorem requestPromotion_answers (s : State) (c : ChanId) : (s.requestPromotion c).answers = s.answers := rfl
@[simp] theorem requestPromotion_draws (s : State) (c : ChanId) : (s.requestPromotion c).draws = s.draws := rfl

@[simp] theorem busyUpdate_cfg (s : State) (c : ChanId) : (s.busyUpdate c).cfg = s.cfg := rfl
@[simp] theorem busyUpdate_now (s : State) (c : ChanId) : (s.busyUpdate c).now = s.now := rfl
@[simp] theorem busyUpdate_cg (s : State) (c : ChanId) : (s.busyUpdate c).cg = s.cg := rfl
@[simp] theorem busyUpdate_rbfree (s : State) (c : ChanId) : (s.busyUpdate c).rbfree = s.rbfree := rfl
@[simp] theorem busyUpdate_inflight (s : State) (c : ChanId) : (s.busyUpdate c).inflight = s.inflight := rfl
@[simp] theorem busyUpdate_wq (s : State) (c : ChanId) : (s.busyUpdate c).wq = s.wq := rfl
@[simp] theorem busyUpdate_ready (s : State) (c : ChanId) : (s.busyUpdate c).ready = s.ready := rfl
@[simp] theorem busyUpdate_wake (s : State) (c : ChanId) : (s.busyUpdate c).wake = s.wake := rfl
@[simp] theorem busyUpdate_lastrun (s : State) (c : ChanId) : (s.busyUpdate c).lastrun = s.lastrun := rfl
@[simp] theorem busyUpdate_faults (s : State) (c : ChanId) : (s.busyUpdate c).faults = s.faults := rfl
@[simp] theorem busyUpdate_refused (s : State) (c : ChanId) : (s.busyUpdate c).refused = s.refused := rfl
@[simp] theorem busyUpdate_agenda (s : State) (c : ChanId) : (s.busyUpdate c).agenda = s.agenda := rfl
@[simp] theorem busyUpdate_answers (s : State) (c : ChanId) : (s.busyUpdate c).answers = s.answers := rfl
@[simp] theorem busyUpdate_draws (s : State) (c : ChanId) : (s.busyUpdate c).draws = s.draws := rfl

@[simp] theorem postWrite_cfg (s : State) (r : Req) : (s.postWrite r).cfg = s.cfg := rfl
@[simp] theorem postWrite_now (s : State) (r : Req) : (s.postWrite r).now = s.now := rfl
@[simp] theorem postWrite_periphs (s : State) (r : Req) : (s.postWrite r).periphs = s.periphs := rfl
@[simp] theorem postWrite_cg (s : State) (r : Req) : (s.postWrite r).cg = s.cg := rfl
@[simp] theorem postWrite_rbfree (s : State) (r : Req) : (s.postWrite r).rbfree = s.rbfree := rfl
@[simp] theorem postWrite_inflight (s : State) (r : Req) : (s.postWrite r).inflight = s.inflight := rfl
@[simp] theorem postWrite_ready (s : State) (r : Req) : (s.postWrite r).ready = s.ready := rfl
@[simp] theorem postWrite_lastrun (s : State) (r : Req) : (s.postWrite r).lastrun = s.lastrun := rfl
@[simp] theorem postWrite_faults (s : State) (r : Req) : (s.postWrite r).faults = s.faults := rfl
@[simp] theorem postWrite_refused (s : State) (r : Req) : (s.postWrite r).refused = s.refused := rfl
@[simp] theorem postWrite_hist (s : State) (r : Req) : (s.postWrite r).hist = s.hist := rfl
@[simp] theorem postWrite_agenda (s : State) (r : Req) : (s.postWrite r).agenda = s.agenda := rfl
@[simp] theorem postWrite_answers (s : State) (r : Req) : (s.postWrite r).answers = s.answers := rfl
@[simp] theorem postWrite_draws (s : State) (r : Req) : (s.postWrite r).draws = s.draws := rfl
@[simp] theorem postWrite_chan (s : State) (r : Req) (c' : ChanId) : (s.postWrite r).chan c' = s.chan c' :=
  chan_of_periphs_eq (by simp) c'
@[simp] theorem postWrite_isOn (s : State) (r : Req) (p' : Fin 32) : (s.postWrite r).isOn p' = s.isOn p' :=
  isOn_of_periphs_eq (by simp) p'

@[simp] theorem channelReady_cfg (s : State) (c : ChanId) : (s.channelReady c).cfg = s.cfg := by unfold State.channelReady; split <;> rfl
@[simp] theorem channelReady_now (s : State) (c : ChanId) : (s.channelReady c).now = s.now := by unfold State.channelReady; split <;> rfl
@[simp] theorem channelReady_periphs (s : State) (c : ChanId) : (s.channelReady c).periphs = s.periphs := by unfold State.channelReady; split <;> rfl
@[simp] theorem channelReady_cg (s : State) (c : ChanId) : (s.channelReady c).cg = s.cg := by unfold State.channelReady; split <;> rfl
@[simp] theorem channelReady_rbfree (s : State) (c : ChanId) : (s.channelReady c).rbfree = s.rbfree := by unfold State.channelReady; split <;> rfl
@[simp] theorem channelReady_inflight (s : State) (c : ChanId) : (s.channelReady c).inflight = s.inflight := by unfold State.channelReady; split <;> rfl
@[simp] theorem channelReady_wq (s : State) (c : ChanId) : (s.channelReady c).wq = s.wq := by unfold State.channelReady; split <;> rfl
@[simp] theorem channelReady_lastrun (s : State) (c : ChanId) : (s.channelReady c).lastrun = s.lastrun := by unfold State.channelReady; split <;> rfl
@[simp] theorem channelReady_faults (s : State) (c : ChanId) : (s.channelReady c).faults = s.faults := by unfold State.channelReady; split <;> rfl
@[simp] theorem channelReady_refused (s : State) (c : ChanId) : (s.channelReady c).refused = s.refused := by unfold State.channelReady; split <;> rfl
@[simp] theorem channelReady_hist (s : State) (c : ChanId) : (s.channelReady c).hist = s.hist := by unfold State.channelReady; split <;> rfl
@[simp] theorem channelReady_agenda (s : State) (c : ChanId) : (s.channelReady c).agenda = s.agenda := by unfold State.channelReady; split <;> rfl
@[simp] theorem channelReady_answers (s : State) (c : ChanId) : (s.channelReady c).answers = s.answers := by unfold State.channelReady; split <;> rfl
@[simp] theorem channelReady_draws (s : State) (c : ChanId) : (s.channelReady c).draws = s.draws := by unfold State.channelReady; split <;> rfl
@[simp] theorem channelReady_chan (s : State) (c : ChanId) (c' : ChanId) : (s.channelReady c).chan c' = s.chan c' :=
  chan_of_periphs_eq (by simp) c'
@[simp] theorem channelReady_isOn (s : State) (c : ChanId) (p' : Fin 32) : (s.channelReady c).isOn p' = s.isOn p' :=
  isOn_of_periphs_eq (by simp) p'

@[simp] theorem popWord_cfg (s : State) (c : ChanId) (w : Quad) (rest : List Quad) : (s.popWord c w rest).cfg = s.cfg := rfl
@[simp] theorem popWord_now (s : State) (c : ChanId) (w : Quad) (rest : List Quad) : (s.popWord c w rest).now = s.now := rfl
@[simp] theorem popWord_cg (s : State) (c : ChanId) (w : Quad) (rest : List Quad) : (s.popWord c w rest).cg = s.cg := rfl
@[simp] theorem popWord_rbfree (s : State) (c : ChanId) (w : Quad) (rest : List Quad) : (s.popWord c w rest).rbfree = s.rbfree := rfl
@[simp] theorem popWord_inflight (s : State) (c : ChanId) (w : Quad) (rest : List Quad) : (s.popWord c w rest).inflight = s.inflight := rfl
@[simp] theorem popWord_wq (s : State) (c : ChanId) (w : Quad) (rest : List Quad) : (s.popWord c w rest).wq = s.wq := rfl
@[simp] theorem popWord_ready (s : State) (c : ChanId) (w : Quad) (rest : List Quad) : (s.popWord c w rest).ready = s.ready := rfl
@[simp] theorem popWord_wake (s : State) (c : ChanId) (w : Quad) (rest : List Quad) : (s.popWord c w rest).wake = s.wake := rfl
@[simp] theorem popWord_lastrun (s : State) (c : ChanId) (w : Quad) (rest : List Quad) : (s.popWord c w rest).lastrun = s.lastrun := rfl
@[simp] theorem popWord_faults (s : State) (c : ChanId) (w : Quad) (rest : List Quad) : (s.popWord c w rest).faults = s.faults := rfl
@[simp] theorem popWord_refused (s : State) (c : ChanId) (w : Quad) (rest : List Quad) : (s.popWord c w rest).refused = s.refused := rfl
@[simp] theorem popWord_agenda (s : State) (c : ChanId) (w : Quad) (rest : List Quad) : (s.popWord c w rest).agenda = s.agenda := rfl
@[simp] theorem popWord_answers (s : State) (c : ChanId) (w : Quad) (rest : List Quad) : (s.popWord c w rest).answers = s.answers := rfl
@[simp] theorem popWord_draws (s : State) (c : ChanId) (w : Quad) (rest : List Quad) : (s.popWord c w rest).draws = s.draws := rfl

@[simp] theorem advanceChunk_cfg (s : State) (c : ChanId) : (s.advanceChunk c).cfg = s.cfg := rfl
@[simp] theorem advanceChunk_now (s : State) (c : ChanId) : (s.advanceChunk c).now = s.now := rfl
@[simp] theorem advanceChunk_cg (s : State) (c : ChanId) : (s.advanceChunk c).cg = s.cg := rfl
@[simp] theorem advanceChunk_rbfree (s : State) (c : ChanId) : (s.advanceChunk c).rbfree = s.rbfree := rfl
@[simp] theorem advanceChunk_inflight (s : State) (c : ChanId) : (s.advanceChunk c).inflight = s.inflight := rfl
@[simp] theorem advanceChunk_wq (s : State) (c : ChanId) : (s.advanceChunk c).wq = s.wq := rfl
@[simp] theorem advanceChunk_ready (s : State) (c : ChanId) : (s.advanceChunk c).ready = s.ready := rfl
@[simp] theorem advanceChunk_wake (s : State) (c : ChanId) : (s.advanceChunk c).wake = s.wake := rfl
@[simp] theorem advanceChunk_lastrun (s : State) (c : ChanId) : (s.advanceChunk c).lastrun = s.lastrun := rfl
@[simp] theorem advanceChunk_faults (s : State) (c : ChanId) : (s.advanceChunk c).faults = s.faults := rfl
@[simp] theorem advanceChunk_refused (s : State) (c : ChanId) : (s.advanceChunk c).refused = s.refused := rfl
@[simp] theorem advanceChunk_hist (s : State) (c : ChanId) : (s.advanceChunk c).hist = s.hist := rfl
@[simp] theorem advanceChunk_agenda (s : State) (c : ChanId) : (s.advanceChunk c).agenda = s.agenda := rfl
@[simp] theorem advanceChunk_answers (s : State) (c : ChanId) : (s.advanceChunk c).answers = s.answers := rfl
@[simp] theorem advanceChunk_draws (s : State) (c : ChanId) : (s.advanceChunk c).draws = s.draws := rfl

@[simp] theorem storeConfig_cfg (s : State) (c : ChanId) (v : Word) : (s.storeConfig c v).cfg = s.cfg := rfl
@[simp] theorem storeConfig_now (s : State) (c : ChanId) (v : Word) : (s.storeConfig c v).now = s.now := rfl
@[simp] theorem storeConfig_cg (s : State) (c : ChanId) (v : Word) : (s.storeConfig c v).cg = s.cg := rfl
@[simp] theorem storeConfig_rbfree (s : State) (c : ChanId) (v : Word) : (s.storeConfig c v).rbfree = s.rbfree := rfl
@[simp] theorem storeConfig_inflight (s : State) (c : ChanId) (v : Word) : (s.storeConfig c v).inflight = s.inflight := rfl
@[simp] theorem storeConfig_wq (s : State) (c : ChanId) (v : Word) : (s.storeConfig c v).wq = s.wq := rfl
@[simp] theorem storeConfig_ready (s : State) (c : ChanId) (v : Word) : (s.storeConfig c v).ready = s.ready := rfl
@[simp] theorem storeConfig_wake (s : State) (c : ChanId) (v : Word) : (s.storeConfig c v).wake = s.wake := rfl
@[simp] theorem storeConfig_lastrun (s : State) (c : ChanId) (v : Word) : (s.storeConfig c v).lastrun = s.lastrun := rfl
@[simp] theorem storeConfig_faults (s : State) (c : ChanId) (v : Word) : (s.storeConfig c v).faults = s.faults := rfl
@[simp] theorem storeConfig_refused (s : State) (c : ChanId) (v : Word) : (s.storeConfig c v).refused = s.refused := rfl
@[simp] theorem storeConfig_hist (s : State) (c : ChanId) (v : Word) : (s.storeConfig c v).hist = s.hist := rfl
@[simp] theorem storeConfig_agenda (s : State) (c : ChanId) (v : Word) : (s.storeConfig c v).agenda = s.agenda := rfl
@[simp] theorem storeConfig_answers (s : State) (c : ChanId) (v : Word) : (s.storeConfig c v).answers = s.answers := rfl
@[simp] theorem storeConfig_draws (s : State) (c : ChanId) (v : Word) : (s.storeConfig c v).draws = s.draws := rfl

@[simp] theorem cedeTurn_cfg (s : State) (c : ChanId) (l : Bool) : (s.cedeTurn c l).cfg = s.cfg := by cases l <;> rfl
@[simp] theorem cedeTurn_now (s : State) (c : ChanId) (l : Bool) : (s.cedeTurn c l).now = s.now := by cases l <;> rfl
@[simp] theorem cedeTurn_periphs (s : State) (c : ChanId) (l : Bool) : (s.cedeTurn c l).periphs = s.periphs := by cases l <;> rfl
@[simp] theorem cedeTurn_cg (s : State) (c : ChanId) (l : Bool) : (s.cedeTurn c l).cg = s.cg := by cases l <;> rfl
@[simp] theorem cedeTurn_rbfree (s : State) (c : ChanId) (l : Bool) : (s.cedeTurn c l).rbfree = s.rbfree := by cases l <;> rfl
@[simp] theorem cedeTurn_inflight (s : State) (c : ChanId) (l : Bool) : (s.cedeTurn c l).inflight = s.inflight := by cases l <;> rfl
@[simp] theorem cedeTurn_wq (s : State) (c : ChanId) (l : Bool) : (s.cedeTurn c l).wq = s.wq := by cases l <;> rfl
@[simp] theorem cedeTurn_wake (s : State) (c : ChanId) (l : Bool) : (s.cedeTurn c l).wake = s.wake := by cases l <;> rfl
@[simp] theorem cedeTurn_lastrun (s : State) (c : ChanId) (l : Bool) : (s.cedeTurn c l).lastrun = s.lastrun := by cases l <;> rfl
@[simp] theorem cedeTurn_faults (s : State) (c : ChanId) (l : Bool) : (s.cedeTurn c l).faults = s.faults := by cases l <;> rfl
@[simp] theorem cedeTurn_refused (s : State) (c : ChanId) (l : Bool) : (s.cedeTurn c l).refused = s.refused := by cases l <;> rfl
@[simp] theorem cedeTurn_hist (s : State) (c : ChanId) (l : Bool) : (s.cedeTurn c l).hist = s.hist := by cases l <;> rfl
@[simp] theorem cedeTurn_agenda (s : State) (c : ChanId) (l : Bool) : (s.cedeTurn c l).agenda = s.agenda := by cases l <;> rfl
@[simp] theorem cedeTurn_answers (s : State) (c : ChanId) (l : Bool) : (s.cedeTurn c l).answers = s.answers := by cases l <;> rfl
@[simp] theorem cedeTurn_draws (s : State) (c : ChanId) (l : Bool) : (s.cedeTurn c l).draws = s.draws := by cases l <;> rfl
@[simp] theorem cedeTurn_chan (s : State) (c : ChanId) (l : Bool) (c' : ChanId) : (s.cedeTurn c l).chan c' = s.chan c' :=
  chan_of_periphs_eq (by simp) c'
@[simp] theorem cedeTurn_isOn (s : State) (c : ChanId) (l : Bool) (p' : Fin 32) : (s.cedeTurn c l).isOn p' = s.isOn p' :=
  isOn_of_periphs_eq (by simp) p'

@[simp] theorem rearmNext_cfg (s : State) : (s.rearmNext).cfg = s.cfg := by unfold State.rearmNext; split <;> rfl
@[simp] theorem rearmNext_now (s : State) : (s.rearmNext).now = s.now := by unfold State.rearmNext; split <;> rfl
@[simp] theorem rearmNext_periphs (s : State) : (s.rearmNext).periphs = s.periphs := by unfold State.rearmNext; split <;> rfl
@[simp] theorem rearmNext_cg (s : State) : (s.rearmNext).cg = s.cg := by unfold State.rearmNext; split <;> rfl
@[simp] theorem rearmNext_rbfree (s : State) : (s.rearmNext).rbfree = s.rbfree := by unfold State.rearmNext; split <;> rfl
@[simp] theorem rearmNext_inflight (s : State) : (s.rearmNext).inflight = s.inflight := by unfold State.rearmNext; split <;> rfl
@[simp] theorem rearmNext_wq (s : State) : (s.rearmNext).wq = s.wq := by unfold State.rearmNext; split <;> rfl
@[simp] theorem rearmNext_ready (s : State) : (s.rearmNext).ready = s.ready := by unfold State.rearmNext; split <;> rfl
@[simp] theorem rearmNext_lastrun (s : State) : (s.rearmNext).lastrun = s.lastrun := by unfold State.rearmNext; split <;> rfl
@[simp] theorem rearmNext_faults (s : State) : (s.rearmNext).faults = s.faults := by unfold State.rearmNext; split <;> rfl
@[simp] theorem rearmNext_refused (s : State) : (s.rearmNext).refused = s.refused := by unfold State.rearmNext; split <;> rfl
@[simp] theorem rearmNext_hist (s : State) : (s.rearmNext).hist = s.hist := by unfold State.rearmNext; split <;> rfl
@[simp] theorem rearmNext_agenda (s : State) : (s.rearmNext).agenda = s.agenda := by unfold State.rearmNext; split <;> rfl
@[simp] theorem rearmNext_answers (s : State) : (s.rearmNext).answers = s.answers := by unfold State.rearmNext; split <;> rfl
@[simp] theorem rearmNext_draws (s : State) : (s.rearmNext).draws = s.draws := by unfold State.rearmNext; split <;> rfl
@[simp] theorem rearmNext_chan (s : State) (c' : ChanId) : (s.rearmNext).chan c' = s.chan c' :=
  chan_of_periphs_eq (by simp) c'
@[simp] theorem rearmNext_isOn (s : State) (p' : Fin 32) : (s.rearmNext).isOn p' = s.isOn p' :=
  isOn_of_periphs_eq (by simp) p'

@[simp] theorem rearm_cfg (s : State) : (s.rearm).cfg = s.cfg := by unfold State.rearm; split <;> simp
@[simp] theorem rearm_now (s : State) : (s.rearm).now = s.now := by unfold State.rearm; split <;> simp
@[simp] theorem rearm_periphs (s : State) : (s.rearm).periphs = s.periphs := by unfold State.rearm; split <;> simp
@[simp] theorem rearm_cg (s : State) : (s.rearm).cg = s.cg := by unfold State.rearm; split <;> simp
@[simp] theorem rearm_rbfree (s : State) : (s.rearm).rbfree = s.rbfree := by unfold State.rearm; split <;> simp
@[simp] theorem rearm_inflight (s : State) : (s.rearm).inflight = s.inflight := by unfold State.rearm; split <;> simp
@[simp] theorem rearm_wq (s : State) : (s.rearm).wq = s.wq := by unfold State.rearm; split <;> simp
@[simp] theorem rearm_ready (s : State) : (s.rearm).ready = s.ready := by unfold State.rearm; split <;> simp
@[simp] theorem rearm_lastrun (s : State) : (s.rearm).lastrun = s.lastrun := by unfold State.rearm; split <;> simp
@[simp] theorem rearm_faults (s : State) : (s.rearm).faults = s.faults := by unfold State.rearm; split <;> simp
@[simp] theorem rearm_refused (s : State) : (s.rearm).refused = s.refused := by unfold State.rearm; split <;> simp
@[simp] theorem rearm_hist (s : State) : (s.rearm).hist = s.hist := by unfold State.rearm; split <;> simp
@[simp] theorem rearm_agenda (s : State) : (s.rearm).agenda = s.agenda := by unfold State.rearm; split <;> simp
@[simp] theorem rearm_answers (s : State) : (s.rearm).answers = s.answers := by unfold State.rearm; split <;> simp
@[simp] theorem rearm_draws (s : State) : (s.rearm).draws = s.draws := by unfold State.rearm; split <;> simp
@[simp] theorem rearm_chan (s : State) (c' : ChanId) : (s.rearm).chan c' = s.chan c' :=
  chan_of_periphs_eq (by simp) c'
@[simp] theorem rearm_isOn (s : State) (p' : Fin 32) : (s.rearm).isOn p' = s.isOn p' :=
  isOn_of_periphs_eq (by simp) p'

@[simp] theorem channelReset_cfg (s : State) (c : ChanId) : (s.channelReset c).cfg = s.cfg := rfl
@[simp] theorem channelReset_now (s : State) (c : ChanId) : (s.channelReset c).now = s.now := rfl
@[simp] theorem channelReset_cg (s : State) (c : ChanId) : (s.channelReset c).cg = s.cg := rfl
@[simp] theorem channelReset_rbfree (s : State) (c : ChanId) : (s.channelReset c).rbfree = s.rbfree := rfl
@[simp] theorem channelReset_inflight (s : State) (c : ChanId) : (s.channelReset c).inflight = s.inflight := rfl
@[simp] theorem channelReset_wq (s : State) (c : ChanId) : (s.channelReset c).wq = s.wq := rfl
@[simp] theorem channelReset_ready (s : State) (c : ChanId) : (s.channelReset c).ready = s.ready := rfl
@[simp] theorem channelReset_wake (s : State) (c : ChanId) : (s.channelReset c).wake = s.wake := rfl
@[simp] theorem channelReset_lastrun (s : State) (c : ChanId) : (s.channelReset c).lastrun = s.lastrun := rfl
@[simp] theorem channelReset_faults (s : State) (c : ChanId) : (s.channelReset c).faults = s.faults := rfl
@[simp] theorem channelReset_refused (s : State) (c : ChanId) : (s.channelReset c).refused = s.refused := rfl
@[simp] theorem channelReset_agenda (s : State) (c : ChanId) : (s.channelReset c).agenda = s.agenda := rfl
@[simp] theorem channelReset_answers (s : State) (c : ChanId) : (s.channelReset c).answers = s.answers := rfl
@[simp] theorem channelReset_draws (s : State) (c : ChanId) : (s.channelReset c).draws = s.draws := rfl

@[simp] theorem schedule_cfg (s : State) (c : Call) : (s.schedule c).cfg = s.cfg := rfl
@[simp] theorem schedule_now (s : State) (c : Call) : (s.schedule c).now = s.now := rfl
@[simp] theorem schedule_periphs (s : State) (c : Call) : (s.schedule c).periphs = s.periphs := rfl
@[simp] theorem schedule_cg (s : State) (c : Call) : (s.schedule c).cg = s.cg := rfl
@[simp] theorem schedule_rbfree (s : State) (c : Call) : (s.schedule c).rbfree = s.rbfree := rfl
@[simp] theorem schedule_inflight (s : State) (c : Call) : (s.schedule c).inflight = s.inflight := rfl
@[simp] theorem schedule_wq (s : State) (c : Call) : (s.schedule c).wq = s.wq := rfl
@[simp] theorem schedule_ready (s : State) (c : Call) : (s.schedule c).ready = s.ready := rfl
@[simp] theorem schedule_wake (s : State) (c : Call) : (s.schedule c).wake = s.wake := rfl
@[simp] theorem schedule_lastrun (s : State) (c : Call) : (s.schedule c).lastrun = s.lastrun := rfl
@[simp] theorem schedule_faults (s : State) (c : Call) : (s.schedule c).faults = s.faults := rfl
@[simp] theorem schedule_refused (s : State) (c : Call) : (s.schedule c).refused = s.refused := rfl
@[simp] theorem schedule_hist (s : State) (c : Call) : (s.schedule c).hist = s.hist := rfl
@[simp] theorem schedule_answers (s : State) (c : Call) : (s.schedule c).answers = s.answers := rfl
@[simp] theorem schedule_draws (s : State) (c : Call) : (s.schedule c).draws = s.draws := rfl
@[simp] theorem schedule_chan (s : State) (c : Call) (c' : ChanId) : (s.schedule c).chan c' = s.chan c' :=
  chan_of_periphs_eq (by simp) c'
@[simp] theorem schedule_isOn (s : State) (c : Call) (p' : Fin 32) : (s.schedule c).isOn p' = s.isOn p' :=
  isOn_of_periphs_eq (by simp) p'

@[simp] theorem emit_hist (s : State) (ev : Event) : (s.emit ev).hist = s.hist ++ [ev] := rfl
@[simp] theorem log_hist (s : State) (k : LogKind) : (s.log k).hist = s.hist ++ [.log k] := rfl
@[simp] theorem takeDraw_draws (s : State) : s.takeDraw.draws = s.draws + 1 := rfl
@[simp] theorem pushWrite_wq (s : State) (r : Req) : (s.pushWrite r).wq = s.wq ++ [r] := rfl
@[simp] theorem pushReady_ready (s : State) (c : ChanId) : (s.pushReady c).ready = s.ready ++ [c] := rfl
@[simp] theorem postWrite_wq (s : State) (r : Req) : (s.postWrite r).wq = s.wq ++ [r] := rfl
@[simp] theorem pushInflight_inflight (s : State) (e : InFlight) :
    (s.pushInflight e).inflight = pushOrdered InFlight.ts e s.inflight := rfl
@[simp] theorem memIssue_hist (s : State) (r : Req) : (s.memIssue r).hist = s.hist ++ [.mem r s.nextAnswer s.now] := by
  simp [State.memIssue, State.emit]

end Sys2Proof.Machine.Laws
end

