-- ==== Sys2Proof/Laws/Access.lean ====
section
/-! SUPPORT. What each BUS row answers when its guard holds: one lemma per shape of row, which proofs cite instead of
unfolding the meanings. -/
namespace Sys2Proof.Machine.Laws

/-- `Reaches` says what `State.reach` computes. -/
theorem reach_eq_some_iff (s : State) (i : Nat) (sl : Slot) (c : ChanId) : s.reach i sl = some c ↔ Reaches s i sl c := by
  unfold State.reach Reaches
  cases s.cfg.table i with
  | none => exact ⟨fun h => (by cases h), fun ⟨_, h, _⟩ => by cases h⟩
  | some p =>
    show (if _ then _ else _) = _ ↔ _
    split
    · rename_i hp
      exact ⟨fun h => ⟨p, rfl, hp.1, hp.2, (Option.some.inj h).symm⟩,
        fun ⟨q, hq, _, _, hc⟩ => by cases hq; rw [hc]⟩
    · rename_i hp
      exact ⟨fun h => (by cases h), fun ⟨q, hq, h1, h2, _⟩ => by cases hq; exact absurd ⟨h1, h2⟩ hp⟩

theorem regAccess_of_reaches {s : State} {i : Nat} {sl : Slot} {c : ChanId} (h : Reaches s i sl c) (off : Word) (acc : Acc)
    (act : ChanId → Reply) : s.regAccess i sl off acc act = (act c).close off acc 4 := by
  simp [State.regAccess, (reach_eq_some_iff s i sl c).2 h]

@[simp] theorem close_some (t : State) (r : Resp) (off : Word) (acc : Acc) (size : Nat) :
    (Reply.mk t (some r)).close off acc size = t.emit (.bus off acc size r) := rfl

@[simp] theorem close_none (t : State) (off : Word) (acc : Acc) (size : Nat) :
    (Reply.mk t none).close off acc size = t := rfl

/-! Frames of the updates. -/

theorem onlyHist_emit (s : State) (ev : Event) : OnlyHist s (s.emit ev) := rfl

theorem onlyHist_log_emit (s : State) (k : LogKind) (ev : Event) : OnlyHist s ((s.log k).emit ev) := rfl

theorem onlyHistDraws_emit (s : State) (ev : Event) : OnlyHistDraws s (s.emit ev) := rfl

theorem onlyHistDraws_takeDraw_emit (s : State) (ev : Event) : OnlyHistDraws s (s.takeDraw.emit ev) := rfl

theorem otherChansSame_setChan (s : State) (c : ChanId) (ch : Chan) : OtherChansSame c s (s.setChan c ch) :=
  ⟨fun _ h => chan_setChan_ne s ch h, fun p => isOn_setChan s c ch p⟩

theorem otherChansSame_of_periphs {s t u : State} {c : ChanId} (h : OtherChansSame c s t) (hp : u.periphs = t.periphs) :
    OtherChansSame c s u :=
  ⟨fun c' hc => (chan_of_periphs_eq hp c').trans (h.1 c' hc), fun p => (isOn_of_periphs_eq hp p).trans (h.2 p)⟩

theorem otherChansSame_trans {s t u : State} {c : ChanId} (h : OtherChansSame c s t) (h' : OtherChansSame c t u) :
    OtherChansSame c s u :=
  ⟨fun c' hc => (h'.1 c' hc).trans (h.1 c' hc), fun p => (h'.2 p).trans (h.2 p)⟩

theorem onlyChan_setChan (s : State) (c : ChanId) (ch : Chan) : OnlyChan c s (s.setChan c ch) :=
  ⟨otherChansSame_setChan s c ch, rfl⟩

theorem onlyChan_emit {s t : State} {c : ChanId} (h : OnlyChan c s t) (ev : Event) : OnlyChan c s (t.emit ev) :=
  ⟨otherChansSame_of_periphs h.1 rfl, by rw [h.2]; rfl⟩

theorem onlyChan_setChan_of {s t : State} {c : ChanId} (h : OnlyChan c s t) (ch : Chan) : OnlyChan c s (t.setChan c ch) :=
  ⟨otherChansSame_trans h.1 (otherChansSame_setChan t c ch), by rw [h.2]; rfl⟩

/-! The channel register rows, in a state where the access reaches channel `c`. -/

theorem exec_rxAddrWr {s : State} {i : Nat} {c : ChanId} (h : Reaches s i .rx c) (v : Word) :
    exec (.rxAddrWr i v) s = .next ((s.addrWr c v).close (s.rxOff i s.cfg.layout.offAddr) (.wr v) 4) := by
  simp only [exec, execRxAddrWr, regAccess_of_reaches h]

theorem exec_rxAddrRd {s : State} {i : Nat} {c : ChanId} (h : Reaches s i .rx c) :
    exec (.rxAddrRd i) s = .next ((s.addrRd c).close (s.rxOff i s.cfg.layout.offAddr) .rd 4) := by
  simp only [exec, execRxAddrRd, regAccess_of_reaches h]

theorem exec_rxSizeWr {s : State} {i : Nat} {c : ChanId} (h : Reaches s i .rx c) (v : Word) :
    exec (.rxSizeWr i v) s = .next ((s.sizeWr c v).close (s.rxOff i s.cfg.layout.offSize) (.wr v) 4) := by
  simp only [exec, execRxSizeWr, regAccess_of_reaches h]

theorem exec_rxSizeRd {s : State} {i : Nat} {c : ChanId} (h : Reaches s i .rx c) :
    exec (.rxSizeRd i) s = .next ((s.sizeRd c).close (s.rxOff i s.cfg.layout.offSize) .rd 4) := by
  simp only [exec, execRxSizeRd, regAccess_of_reaches h]

theorem exec_rxConfigWr {s : State} {i : Nat} {c : ChanId} (h : Reaches s i .rx c) (v : Word) :
    exec (.rxConfigWr i v) s = .next ((s.configWr c v).close (s.rxOff i s.cfg.layout.offConfig) (.wr v) 4) := by
  simp only [exec, execRxConfigWr, regAccess_of_reaches h]

theorem exec_rxConfigRd {s : State} {i : Nat} {c : ChanId} (h : Reaches s i .rx c) :
    exec (.rxConfigRd i) s = .next ((s.configRd c).close (s.rxOff i s.cfg.layout.offConfig) .rd 4) := by
  simp only [exec, execRxConfigRd, regAccess_of_reaches h]

theorem exec_txAddrWr {s : State} {i : Nat} {c : ChanId} (h : Reaches s i .tx c) (v : Word) :
    exec (.txAddrWr i v) s = .next ((s.addrWr c v).close (s.txOff i s.cfg.layout.offAddr) (.wr v) 4) := by
  simp only [exec, execTxAddrWr, regAccess_of_reaches h]

theorem exec_txAddrRd {s : State} {i : Nat} {c : ChanId} (h : Reaches s i .tx c) :
    exec (.txAddrRd i) s = .next ((s.addrRd c).close (s.txOff i s.cfg.layout.offAddr) .rd 4) := by
  simp only [exec, execTxAddrRd, regAccess_of_reaches h]

theorem exec_txSizeWr {s : State} {i : Nat} {c : ChanId} (h : Reaches s i .tx c) (v : Word) :
    exec (.txSizeWr i v) s = .next ((s.sizeWr c v).close (s.txOff i s.cfg.layout.offSize) (.wr v) 4) := by
  simp only [exec, execTxSizeWr, regAccess_of_reaches h]

theorem exec_txSizeRd {s : State} {i : Nat} {c : ChanId} (h : Reaches s i .tx c) :
    exec (.txSizeRd i) s = .next ((s.sizeRd c).close (s.txOff i s.cfg.layout.offSize) .rd 4) := by
  simp only [exec, execTxSizeRd, regAccess_of_reaches h]

theorem exec_txConfigWr {s : State} {i : Nat} {c : ChanId} (h : Reaches s i .tx c) (v : Word) :
    exec (.txConfigWr i v) s = .next ((s.configWr c v).close (s.txOff i s.cfg.layout.offConfig) (.wr v) 4) := by
  simp only [exec, execTxConfigWr, regAccess_of_reaches h]

theorem exec_txConfigRd {s : State} {i : Nat} {c : ChanId} (h : Reaches s i .tx c) :
    exec (.txConfigRd i) s = .next ((s.configRd c).close (s.txOff i s.cfg.layout.offConfig) .rd 4) := by
  simp only [exec, execTxConfigRd, regAccess_of_reaches h]

/-- Every BUS access completes: the row it selects answers a next state (60_exceptions R280). -/
theorem exec_decodeBus_next (s : State) (cfg : Cfg) (on : Fin 32 → Bool) (off : Word) (acc : Acc) (size : Nat) :
    ∃ t, exec (decodeBus cfg on off acc size) s = .next t := by
  unfold decodeBus decodeRxWindow decodeTxWindow
  cases acc <;> (repeat' split) <;> exact ⟨_, rfl⟩

/-! The nested decode of the register-access entry (43_controller R235, R241). -/

/-- A register row is the register-access entry's access, when what it does on a channel is what the entry does there. -/
theorem regAccess_eq_busEntry {s : State} {i : Nat} {sl : Slot} {off : Word} {acc : Acc} {act : ChanId → Reply}
    (h : ∀ p, s.cfg.table i = some p → s.isOn p.cid = true → (p.slotDir sl).isSome = true →
      (act { pid := p.cid, slot := sl }).close off acc 4 = s.busEntry off acc 4) :
    s.regAccess i sl off acc act = s.busEntry off acc 4 := by
  unfold State.regAccess
  cases hr : s.reach i sl with
  | none => rfl
  | some c =>
    obtain ⟨p, h1, h2, h3, h4⟩ := (reach_eq_some_iff s i sl c).1 hr
    rw [h4]
    exact h p h1 h2 h3

/-- 43_controller R241: an access behind the window of a peripheral that exists. -/
theorem busEntry_window {s : State} {off : Word} {acc : Acc} {p : PeriphCfg}
    (h : ¬ off.toNat < s.cfg.layout.channelRegionStart) (ht : s.cfg.table (s.cfg.layout.periphId off) = some p) :
    s.busEntry off acc 4 = (s.periphAccess p off (s.cfg.layout.windowOff off) acc).close off acc 4 := by
  simp [State.busEntry, h, State.channelRegionAccess, ht]

end Sys2Proof.Machine.Laws
end

