-- ==== Sys2Proof/Laws/Channel.lean ====
section
/-! SUPPORT. What the operations of a channel do, each as one equation in normal form: the channel's new record, then the
events. Proofs cite these instead of unfolding the operations. -/
namespace Sys2Proof.Machine.Laws

@[simp] theorem flow_state_cont (s : State) : (Flow.cont s).state = s := rfl
@[simp] theorem flow_state_halted (s : State) : (Flow.halted s).state = s := rfl
@[simp] theorem flow_cont_andThen (s : State) (k : State → Flow) : (Flow.cont s).andThen k = k s := rfl
@[simp] theorem flow_halted_andThen (s : State) (k : State → Flow) : (Flow.halted s).andThen k = .halted s := rfl

/-- The second write of a channel wins. -/
@[simp] theorem setChan_setChan (s : State) (c : ChanId) (a b : Chan) : (s.setChan c a).setChan c b = s.setChan c b := by
  refine state_ext rfl rfl ?_ rfl rfl rfl rfl rfl rfl rfl rfl rfl rfl rfl rfl rfl
  apply Vector.ext
  intro i hi
  have hp : ∀ (p : Periph) (sl : Slot) (x y : Chan), (p.setChan sl x).setChan sl y = p.setChan sl y := by
    intro p sl x y; cases sl <;> rfl
  have hg : ((s.setChan c a).periphs.get c.pid) = (s.periphs.get c.pid).setChan c.slot a := by
    simp [State.setChan, vector_get_set]
  show ((s.setChan c a).periphs.set c.pid.val (((s.setChan c a).periphs.get c.pid).setChan c.slot b) c.pid.isLt)[i] = _
  rw [hg, hp]
  simp only [State.setChan, Vector.getElem_set]
  split <;> rfl

/-- Events and channel writes commute: the writes come first in the normal form. -/
@[simp] theorem setChan_emit (s : State) (c : ChanId) (ch : Chan) (ev : Event) :
    (s.emit ev).setChan c ch = (s.setChan c ch).emit ev := rfl

/-- The pool gains a record (40_latency_queue R167). -/
theorem pushFree_of_lt {s : State} {c : ChanId} (h : (s.chan c).free < 2) :
    s.pushFree c = s.setChan c { s.chan c with free := (s.chan c).free + 1 } := by
  simp [State.pushFree, Config.poolCap, h]

/-- 41_channel R205. -/
theorem finalize_eq {s : State} {c : ChanId} (h : (s.chan c).free < 2) :
    s.finalize c = ((s.setChan c { s.chan c with
      free := (s.chan c).free + 1, active := none, busy := .available, promo := true }).emit
        (.busy c .available)).emit (.complete c) := by
  simp [State.finalize, pushFree_of_lt h, State.busyUpdate, State.requestPromotion, busyValue]

@[simp] theorem flow_reply_state (f : Flow) : f.reply.state = f.state := by cases f <;> rfl
@[simp] theorem flow_cont_reply (s : State) : (Flow.cont s).reply = { state := s, resp := some .ok } := rfl
@[simp] theorem flow_halted_reply (s : State) : (Flow.halted s).reply = { state := s, resp := none } := rfl

/-- 41_channel R176, when the transfer has a meaning. -/
theorem enqueueRecord_eq {s : State} {c : ChanId} {addr size : Option Word} (width : BitVec 2) (cont : Bool)
    (hr : stagingRefusal c addr size = none) (hf : 0 < (s.chan c).free) (hp : (s.chan c).pending.length < 2) :
    s.enqueueRecord c addr size width cont = .cont ((s.setChan c { s.chan c with
      free := (s.chan c).free - 1, pending := (s.chan c).pending ++ [newTransfer c addr size width cont]
      busy := if 1 < (s.chan c).free then .available else .undriven, promo := true }).emit
        (.busy c (if 1 < (s.chan c).free then .available else .undriven))) := by
  have h1 : ¬ ((s.chan c).free = 0) := by omega
  have h2 : ¬ (some Config.pendingCap = some (s.chan c).pending.length) := by simp [Config.pendingCap]; omega
  have h3 : (0 < (s.chan c).free - 1) = (1 < (s.chan c).free) := by apply propext; omega
  simp [State.enqueueRecord, hr, h1, State.pushPending, queuePush, h2, State.logIfFull, State.busyUpdate,
    State.requestPromotion, busyValue, h3]

/-- 41_channel R176, refused. -/
theorem enqueueRecord_refused {s : State} {c : ChanId} {addr size : Option Word} {k : RefusalKind} (width : BitVec 2)
    (cont : Bool) (hr : stagingRefusal c addr size = some k) :
    s.enqueueRecord c addr size width cont = .halted (s.refuse k) := by
  simp [State.enqueueRecord, hr]

/-- 40_latency_queue R164: no record is free. -/
theorem enqueueRecord_empty {s : State} {c : ChanId} {addr size : Option Word} (width : BitVec 2) (cont : Bool)
    (hr : stagingRefusal c addr size = none) (hf : (s.chan c).free = 0) :
    s.enqueueRecord c addr size width cont = .halted (s.refuse (.popEmpty (.freePool c))) := by
  simp [State.enqueueRecord, hr, hf]

/-- 41_channel R176: no refusal says what the staged registers hold. -/
theorem stagingRefusal_eq_none_iff (c : ChanId) (addr size : Option Word) :
    stagingRefusal c addr size = none ↔ ∃ a z, addr = some a ∧ size = some z ∧ 0 < z.toNat ∧ a.toNat % 4 = 0
      ∧ a.toNat + 4 * chunks z.toNat ≤ 2 ^ 32 := by
  cases addr <;> cases size <;> simp [stagingRefusal]
  split
  · simp; omega
  · rename_i a z hz
    by_cases ha : a.toNat % 4 = 0
    · by_cases hw : 4294967296 < a.toNat + 4 * chunks z.toNat
      · simp [ha, hw]
      · simp [ha, hw]; omega
    · simp [ha]

/-- The channel record a CONFIG write with EN leaves, when the enable has a meaning (41_channel R175, R176). -/
def enabledChan (l : Layout) (c : ChanId) (ch : Chan) (v a z : Word) : Chan :=
  { ch with
    contCfg := v.getLsbD l.contBit, widthCfg := v.extractLsb' l.widthLo 2
    free := ch.free - 1
    pending := ch.pending ++ [{ base := a, cur := a, total := z.toNat, remaining := z.toNat, received := 0
                                width := v.extractLsb' l.widthLo 2, cont := v.getLsbD l.contBit, owner := c }]
    busy := if 1 < ch.free then .available else .undriven
    promo := true }

/-- 41_channel R175, R176: an enable on staged registers the block gives a meaning. -/
theorem configWr_enable {s : State} {c : ChanId} {v a z : Word} (h1 : v.getLsbD s.cfg.layout.clearBit = false)
    (h2 : v.getLsbD s.cfg.layout.enBit = true) (h3 : 0 < (s.chan c).free) (h4 : (s.chan c).pending.length < 2)
    (h5 : (s.chan c).addr = some a) (h6 : (s.chan c).size = some z)
    (h7 : 0 < z.toNat ∧ a.toNat % 4 = 0 ∧ a.toNat + 4 * chunks z.toNat ≤ 2 ^ 32) :
    s.configWr c v = Reply.mk ((s.setChan c (enabledChan s.cfg.layout c (s.chan c) v a z)).emit
      (.busy c (if 1 < (s.chan c).free then .available else .undriven))) (some .ok) := by
  have h10 : (s.chan c).free ≠ 0 := by omega
  have hr : stagingRefusal c ((s.storeConfig c v).chan c).addr ((s.storeConfig c v).chan c).size = none := by
    rw [stagingRefusal_eq_none_iff]
    exact ⟨a, z, by simpa [State.storeConfig] using h5, by simpa [State.storeConfig] using h6, h7⟩
  simp only [State.configWr, cfgClear, h1, cfgEn, h2, h10, State.enqueueTransfer]
  rw [enqueueRecord_eq _ _ hr (by simpa [State.storeConfig] using h3) (by simpa [State.storeConfig] using h4)]
  simp [State.storeConfig, newTransfer, h5, h6, cfgCont, cfgWidth, enabledChan]

/-- 43_controller R245, R246, R263: the stimulus asks for `stimulusCycle`, coalesced. -/
theorem stimulusWake_eq (s : State) :
    s.stimulusWake = { s with wake := some (earliest s.wake (stimulusCycle s)) } := by
  unfold State.stimulusWake State.requestWake earliest stimulusCycle
  cases s.wake <;> rfl

/-- 43_controller R245. -/
theorem channelReady_tx {s : State} {c : ChanId} (h : s.cfg.dirOf c = some .tx) :
    s.channelReady c =
      { s with ready := s.ready ++ [c], wake := some (earliest s.wake (stimulusCycle s)) } := by
  simp only [State.channelReady, h, if_true, stimulusWake_eq]; rfl

/-- 43_controller R245. -/
theorem channelReady_not_tx {s : State} {c : ChanId} (h : s.cfg.dirOf c ≠ some .tx) : s.channelReady c = s := by
  simp [State.channelReady, h]

/-- 43_controller R246. -/
theorem postWrite_eq (s : State) (req : Req) :
    s.postWrite req = { s with wq := s.wq ++ [req], wake := some (earliest s.wake (stimulusCycle s)) } := by
  simp only [State.postWrite, stimulusWake_eq]; rfl

/-- 41_channel R181, with a pending transfer and none active. -/
theorem promote_eq {s : State} {c : ChanId} {x : Transfer} {rest : List Transfer} (ha : (s.chan c).active = none)
    (hp : (s.chan c).pending = x :: rest) :
    s.promote c = (s.setChan c { s.chan c with promo := false, active := some x, pending := rest }).channelReady c := by
  simp [State.promote, ha, hp]

/-- 41_channel R181, otherwise. -/
theorem promote_idle {s : State} {c : ChanId} (h : (s.chan c).active.isSome = true ∨ (s.chan c).pending = []) :
    s.promote c = s.setChan c { s.chan c with promo := false } := by
  unfold State.promote
  split
  · simp_all
  · rfl

/-- 41_channel R191, when bytes remain. -/
theorem flush_more {s : State} {c : ChanId} {x : Transfer} (h : (s.chan c).asm.length < x.remaining) :
    s.flush c x = (s.setChan c { s.chan c with
      asm := [], active := some (flushAdvance x (s.chan c).asm.length) }).postWrite (flushReq c x (s.chan c).asm) := by
  have : (flushAdvance x (s.chan c).asm.length).remaining ≠ 0 := by simp [flushAdvance]; omega
  simp [State.flush, this]

/-- 41_channel R191, when the transfer is exhausted. -/
theorem flush_last {s : State} {c : ChanId} {x : Transfer} (h : x.remaining ≤ (s.chan c).asm.length)
    (hf : (s.chan c).free < 2) :
    s.flush c x = (((s.setChan c { s.chan c with
      asm := [], active := none, free := (s.chan c).free + 1, busy := .available, promo := true }).postWrite
        (flushReq c x (s.chan c).asm)).emit (.busy c .available)).emit (.complete c) := by
  have h1 : (flushAdvance x (s.chan c).asm.length).remaining = 0 := by simp [flushAdvance]; omega
  have h2 : ∀ (t : State) (ch : Chan) (r : Req), (t.postWrite r).setChan c ch = (t.setChan c ch).postWrite r :=
    fun _ _ _ => rfl
  simp only [State.flush, h1, if_true]
  rw [finalize_eq (by simpa using hf)]
  simp [h2]

/-- 41_channel R190, a push that flushes. -/
theorem pushBytes_flush {s : State} {c : ChanId} {bytes : List Byte} {x : Transfer} (ha : (s.chan c).active = some x)
    (hw : (s.chan c).asm.length + bytes.length ≤ 4) (hr : (s.chan c).asm.length + bytes.length ≤ x.remaining)
    (hf : (s.chan c).asm.length + bytes.length = 4 ∨ (s.chan c).asm.length + bytes.length = x.remaining) :
    s.pushBytes c bytes = (s.setChan c { s.chan c with asm := (s.chan c).asm ++ bytes }).flush c x := by
  simp only [State.pushBytes, ha, Config.asmWindow]
  rw [if_neg (by omega), if_neg (by omega), if_pos hf]

/-- 41_channel R190, a push that only assembles. -/
theorem pushBytes_assemble {s : State} {c : ChanId} {bytes : List Byte} {x : Transfer} (ha : (s.chan c).active = some x)
    (hw : (s.chan c).asm.length + bytes.length < 4) (hr : (s.chan c).asm.length + bytes.length < x.remaining) :
    s.pushBytes c bytes = s.setChan c { s.chan c with asm := (s.chan c).asm ++ bytes } := by
  simp only [State.pushBytes, ha, Config.asmWindow]
  rw [if_neg (by omega), if_neg (by omega), if_neg (by omega)]

/-- 41_channel R196, when words are still to come. -/
theorem deliverChunk_more {s : State} {c : ChanId} {rdata : Quad} {x : Transfer} (ha : (s.chan c).active = some x)
    (h : x.received + 4 < x.total) :
    s.deliverChunk c rdata = .cont (s.setChan c { s.chan c with
      active := some { x with received := x.received + 4 }, rdq := (s.chan c).rdq ++ [rdata] }) := by
  simp only [State.deliverChunk, ha]
  rw [if_neg (by simp only [Config.readSize]; omega)]
  simp [State.pushRdq, queuePush, Config.readSize]

/-- 41_channel R196, with the last word. -/
theorem deliverChunk_last {s : State} {c : ChanId} {rdata : Quad} {x : Transfer} (ha : (s.chan c).active = some x)
    (h : x.total ≤ x.received + 4) (hf : (s.chan c).free < 2) :
    s.deliverChunk c rdata = .cont (((s.setChan c { s.chan c with
      active := none, rdq := (s.chan c).rdq ++ [rdata], free := (s.chan c).free + 1, busy := .available
      promo := true }).emit (.busy c .available)).emit (.complete c)) := by
  simp only [State.deliverChunk, ha]
  rw [if_pos (by simp only [Config.readSize]; exact h)]
  rw [finalize_eq (by simpa [State.pushRdq] using hf)]
  simp [State.pushRdq, queuePush]

/-- 41_channel R196, refused. -/
theorem deliverChunk_none {s : State} {c : ChanId} {rdata : Quad} (ha : (s.chan c).active = none) :
    s.deliverChunk c rdata = .halted (s.refuse (.deliverNoActive c)) := by
  simp [State.deliverChunk, ha]

/-- 41_channel R195. -/
theorem nextChunk_eq {s : State} {c : ChanId} {x : Transfer} (hd : s.cfg.dirOf c = some .tx)
    (ha : (s.chan c).active = some x) :
    s.nextChunk c = some { req := { addr := x.cur, size := 4, dir := .read, data := [], tag := c }
                           last := decide (x.remaining ≤ 4) } := by
  have : (x.remaining - min 4 x.remaining = 0) = (x.remaining ≤ 4) := by apply propext; omega
  simp [State.nextChunk, hd, ha, chunkReq, chunkAdvance, Config.readSize, this]

/-- 41_channel R195. -/
theorem advanceChunk_eq {s : State} {c : ChanId} {x : Transfer} (ha : (s.chan c).active = some x) :
    s.advanceChunk c = s.setChan c { s.chan c with
      active := some { x with cur := x.cur + 4, remaining := x.remaining - min 4 x.remaining } } := by
  simp [State.advanceChunk, ha, chunkAdvance]

end Sys2Proof.Machine.Laws
end

