-- ==== Sys2Proof/Laws/Config.lean ====
section
/-! SUPPORT. What a well-formed configuration gives: the peripheral table and the canonical ids agree, and the channels are the
populated slots (00_scope R10, 10_state R60). -/
namespace Sys2Proof.Laws

theorem cfg_wf_iff (cfg : Cfg) : cfg.wf = true ↔ (1 ≤ cfg.np ∧ cfg.np ≤ 32 ∧ 1 ≤ cfg.nrb)
    ∧ (∀ p ∈ cfg.periphs, PeriphCfg.wf cfg.np p = true)
    ∧ cfg.periphs.Pairwise (fun p q => p.cid.val + p.ids ≤ q.cid.val ∨ q.cid.val + q.ids ≤ p.cid.val)
    ∧ cfg.layout.wf = true ∧ cfg.layout.bitsWf = true
    ∧ cfg.layout.channelRegionStart + cfg.layout.periphStride * cfg.np ≤ 2 ^ 32 := by
  simp only [Cfg.wf, Cfg.valid, Bool.and_eq_true, decide_eq_true_eq, List.all_eq_true]
  tauto

theorem layout_wf_of_wf {cfg : Cfg} (h : cfg.wf = true) : cfg.layout.wf = true := ((cfg_wf_iff cfg).1 h).2.2.2.1

theorem periph_wf_of_wf {cfg : Cfg} (h : cfg.wf = true) {p : PeriphCfg} (hp : p ∈ cfg.periphs) :
    1 ≤ p.ids ∧ p.cid.val + p.ids ≤ cfg.np := by
  have := ((cfg_wf_iff cfg).1 h).2.1 p hp
  simp only [PeriphCfg.wf, decide_eq_true_eq] at this
  exact ⟨this.1, this.2.1⟩

/-- Two peripherals whose ranges share an id are one. -/
theorem eq_of_shared_id {cfg : Cfg} (h : cfg.wf = true) {p q : PeriphCfg} (hp : p ∈ cfg.periphs) (hq : q ∈ cfg.periphs)
    {i : Nat} (h1 : p.cid.val ≤ i ∧ i < p.cid.val + p.ids) (h2 : q.cid.val ≤ i ∧ i < q.cid.val + q.ids) : p = q := by
  by_contra hne
  have hpw := ((cfg_wf_iff cfg).1 h).2.2.1
  have hs : Std.Symm (fun p q : PeriphCfg => p.cid.val + p.ids ≤ q.cid.val ∨ q.cid.val + q.ids ≤ p.cid.val) :=
    ⟨fun _ _ h => h.symm⟩
  have := hpw.forall hp hq hne
  omega

/-- A table entry is a peripheral whose range holds the id (10_state R60). -/
theorem mem_of_table {cfg : Cfg} {i : Nat} {p : PeriphCfg} (h : cfg.table i = some p) :
    i < cfg.np ∧ p ∈ cfg.periphs ∧ p.cid.val ≤ i ∧ i < p.cid.val + p.ids := by
  unfold Cfg.table at h
  split at h
  · rename_i hi
    have := List.find?_some h
    exact ⟨hi, List.mem_of_find?_eq_some h, by simpa using this⟩
  · cases h

/-- In a well-formed configuration every id of a peripheral's range has that peripheral as its table entry (10_state R60). -/
theorem table_of_mem {cfg : Cfg} (h : cfg.wf = true) {p : PeriphCfg} (hp : p ∈ cfg.periphs) {i : Nat}
    (h1 : p.cid.val ≤ i ∧ i < p.cid.val + p.ids) : cfg.table i = some p := by
  have hw := periph_wf_of_wf h hp
  unfold Cfg.table
  rw [if_pos (by omega)]
  cases hf : cfg.periphs.find? (fun p => decide (p.cid.val ≤ i ∧ i < p.cid.val + p.ids)) with
  | none => exact absurd h1 (by simpa using List.find?_eq_none.1 hf p hp)
  | some q =>
    have hq := List.find?_some hf
    rw [eq_of_shared_id h hp (List.mem_of_find?_eq_some hf) h1 (by simpa using hq)]

theorem table_cid {cfg : Cfg} (h : cfg.wf = true) {p : PeriphCfg} (hp : p ∈ cfg.periphs) :
    cfg.table p.cid.val = some p :=
  table_of_mem h hp ⟨le_refl _, by have := periph_wf_of_wf h hp; omega⟩

/-- A canonical id names one peripheral. -/
theorem eq_of_cid_eq {cfg : Cfg} (h : cfg.wf = true) {p q : PeriphCfg} (hp : p ∈ cfg.periphs) (hq : q ∈ cfg.periphs)
    (hc : p.cid = q.cid) : p = q := by
  have h1 := table_cid h hp
  rw [hc, table_cid h hq] at h1
  exact (Option.some.inj h1).symm

theorem mem_of_periph {cfg : Cfg} {pid : Fin 32} {p : PeriphCfg} (h : cfg.periph pid = some p) :
    p ∈ cfg.periphs ∧ p.cid = pid := by
  unfold Cfg.periph at h
  exact ⟨List.mem_of_find?_eq_some h, by simpa using List.find?_some h⟩

theorem periph_of_mem {cfg : Cfg} (h : cfg.wf = true) {p : PeriphCfg} (hp : p ∈ cfg.periphs) :
    cfg.periph p.cid = some p := by
  cases hf : cfg.periph p.cid with
  | none =>
    have := List.find?_eq_none.1 hf p hp
    simp at this
  | some q => rw [eq_of_cid_eq h hp (mem_of_periph hf).1 (mem_of_periph hf).2.symm]

/-- The direction of a channel of a table entry. -/
theorem dirOf_of_table {cfg : Cfg} (h : cfg.wf = true) {i : Nat} {p : PeriphCfg} (ht : cfg.table i = some p) (sl : Slot) :
    cfg.dirOf { pid := p.cid, slot := sl } = p.slotDir sl := by
  simp [Cfg.dirOf, periph_of_mem h (mem_of_table ht).2.1]

/-- A peripheral's channels are its populated slots. -/
theorem mem_periph_channels (p : PeriphCfg) (c : ChanId) :
    c ∈ p.channels ↔ c.pid = p.cid ∧ (p.slotDir c.slot).isSome = true := by
  obtain ⟨pid, sl⟩ := c
  simp only [PeriphCfg.channels, List.mem_filterMap, List.mem_cons, List.not_mem_nil, or_false]
  constructor
  · rintro ⟨sl', _, h⟩
    split at h
    · rename_i hs
      cases h
      exact ⟨rfl, hs⟩
    · cases h
  · rintro ⟨h1, h2⟩
    refine ⟨sl, by cases sl <;> simp, ?_⟩
    have h1 : pid = p.cid := h1
    rw [if_pos h2, h1]

/-- The channels of a configuration are the populated slots of its peripherals (10_state R45). -/
theorem mem_channels_iff (cfg : Cfg) (c : ChanId) :
    c ∈ cfg.channels ↔ ∃ p ∈ cfg.periphs, c.pid = p.cid ∧ (p.slotDir c.slot).isSome = true := by
  simp only [Cfg.channels, List.mem_flatMap, mem_periph_channels]

/-- A name with a direction is a channel (10_state R45). -/
theorem mem_channels_of_dirOf {cfg : Cfg} {c : ChanId} (h : (cfg.dirOf c).isSome = true) : c ∈ cfg.channels := by
  unfold Cfg.dirOf at h
  cases hp : cfg.periph c.pid with
  | none => simp [hp] at h
  | some p =>
    rw [hp] at h
    exact (mem_channels_iff cfg c).2 ⟨p, (mem_of_periph hp).1, (mem_of_periph hp).2.symm, h⟩

/-- In a well-formed configuration a channel has a direction (10_state R45). -/
theorem dirOf_of_mem_channels {cfg : Cfg} (h : cfg.wf = true) {c : ChanId} (hc : c ∈ cfg.channels) :
    (cfg.dirOf c).isSome = true := by
  obtain ⟨p, hp, h1, h2⟩ := (mem_channels_iff cfg c).1 hc
  unfold Cfg.dirOf
  rw [h1, periph_of_mem h hp]
  exact h2

end Sys2Proof.Laws
end

