-- ==== Sys2Proof/Laws/Controller.lean ====
section
/-! SUPPORT. What a controller run does: the frame of its drain, the two issue steps, and the run as a whole. -/
namespace Sys2Proof.Machine.Laws

/-- What the drain of a controller run leaves unchanged, and the events it adds (43_controller R253). -/
structure DrainFrame (s t : State) : Prop where
  cfg     : t.cfg = s.cfg
  now     : t.now = s.now
  cg      : t.cg = s.cg
  wq      : t.wq = s.wq
  ready   : t.ready = s.ready
  wake    : t.wake = s.wake
  lastrun : t.lastrun = s.lastrun
  faults  : t.faults = s.faults
  agenda  : t.agenda = s.agenda
  answers : t.answers = s.answers
  draws   : t.draws = s.draws
  isOn    : ∀ p, t.isOn p = s.isOn p
  hist    : ∃ evs, t.hist = s.hist ++ evs ∧ ∀ e ∈ evs, e.isMem = false
  refused : ∀ k, s.refused = some k → t.refused = some k

theorem DrainFrame.refl (s : State) : DrainFrame s s :=
  ⟨rfl, rfl, rfl, rfl, rfl, rfl, rfl, rfl, rfl, rfl, rfl, fun _ => rfl, ⟨[], by simp, by simp⟩, fun _ h => h⟩

theorem DrainFrame.trans {s t u : State} (h : DrainFrame s t) (g : DrainFrame t u) : DrainFrame s u := by
  obtain ⟨e1, h1, m1⟩ := h.hist
  obtain ⟨e2, h2, m2⟩ := g.hist
  refine ⟨g.cfg.trans h.cfg, g.now.trans h.now, g.cg.trans h.cg, g.wq.trans h.wq, g.ready.trans h.ready,
    g.wake.trans h.wake, g.lastrun.trans h.lastrun, g.faults.trans h.faults, g.agenda.trans h.agenda,
    g.answers.trans h.answers, g.draws.trans h.draws, fun p => (g.isOn p).trans (h.isOn p),
    ⟨e1 ++ e2, by rw [h2, h1, List.append_assoc], ?_⟩, fun k hk => g.refused k (h.refused k hk)⟩
  intro e he
  rcases List.mem_append.1 he with he | he
  · exact m1 e he
  · exact m2 e he

/-- A refusal mark, once set, stays (60_exceptions R285). -/
theorem refuse_of_some {s : State} {k k' : RefusalKind} (h : s.refused = some k) : (s.refuse k').refused = some k := by
  simp [State.refuse, h]

theorem drainFrame_setChan (s : State) (c : ChanId) (ch : Chan) : DrainFrame s (s.setChan c ch) :=
  ⟨rfl, rfl, rfl, rfl, rfl, rfl, rfl, rfl, rfl, rfl, rfl, isOn_setChan s c ch, ⟨[], by simp, by simp⟩, fun _ h => h⟩

theorem drainFrame_emit (s : State) {ev : Event} (h : ev.isMem = false) : DrainFrame s (s.emit ev) :=
  ⟨rfl, rfl, rfl, rfl, rfl, rfl, rfl, rfl, rfl, rfl, rfl, fun _ => rfl, ⟨[ev], rfl, by simpa using h⟩, fun _ h => h⟩

theorem drainFrame_log (s : State) (k : LogKind) : DrainFrame s (s.log k) := drainFrame_emit s rfl

theorem drainFrame_refuse (s : State) (k : RefusalKind) : DrainFrame s (s.refuse k) :=
  ⟨rfl, rfl, rfl, rfl, rfl, rfl, rfl, rfl, rfl, rfl, rfl, fun _ => rfl, ⟨[], by simp [State.refuse], by simp⟩,
    fun _ h => refuse_of_some h⟩

theorem drainFrame_pushBuffer (s : State) : DrainFrame s s.pushBuffer := by
  unfold State.pushBuffer
  split
  · exact ⟨rfl, rfl, rfl, rfl, rfl, rfl, rfl, rfl, rfl, rfl, rfl, fun _ => rfl, ⟨[], by simp, by simp⟩, fun _ h => h⟩
  · exact drainFrame_log s _

theorem drainFrame_pushFree (s : State) (c : ChanId) : DrainFrame s (s.pushFree c) := by
  unfold State.pushFree
  split
  · exact drainFrame_setChan s c _
  · exact drainFrame_log s _

theorem DrainFrame.setChan {s t : State} (h : DrainFrame s t) (c : ChanId) (ch : Chan) : DrainFrame s (t.setChan c ch) :=
  h.trans (drainFrame_setChan t c ch)

theorem DrainFrame.emit {s t : State} (h : DrainFrame s t) {ev : Event} (hm : ev.isMem = false) : DrainFrame s (t.emit ev) :=
  h.trans (drainFrame_emit t hm)

theorem drainFrame_finalize (s : State) (c : ChanId) : DrainFrame s (s.finalize c) := by
  unfold State.finalize State.requestPromotion State.busyUpdate
  exact ((((drainFrame_pushFree s c).setChan c _).setChan c _).emit rfl).emit rfl |>.setChan c _

theorem drainFrame_deliverChunk (s : State) (c : ChanId) (rdata : Quad) : DrainFrame s (s.deliverChunk c rdata).state := by
  unfold State.deliverChunk State.pushRdq
  split
  · exact drainFrame_refuse s _
  · split
    · exact ((drainFrame_setChan _ c _).trans (drainFrame_setChan _ c _)).trans (drainFrame_finalize _ c)
    · exact (drainFrame_setChan _ c _).trans (drainFrame_setChan _ c _)

theorem drainFrame_inflight (s : State) (es : List InFlight) : DrainFrame s { s with inflight := es } :=
  ⟨rfl, rfl, rfl, rfl, rfl, rfl, rfl, rfl, rfl, rfl, rfl, fun _ => rfl, ⟨[], by simp, by simp⟩, fun _ h => h⟩

/-- 43_controller R253: the frame of the drain. -/
theorem drainFrame_drainEntries (es : List InFlight) (s : State) : DrainFrame s (drainEntries es s).state := by
  induction es generalizing s with
  | nil => exact DrainFrame.refl s
  | cons e rest ih =>
    simp only [drainEntries]
    split
    · have h1 := ((drainFrame_inflight s rest).trans (drainFrame_pushBuffer _)).trans
        (drainFrame_deliverChunk _ e.c e.rdata)
      cases hd : State.deliverChunk (State.pushBuffer { s with inflight := rest }) e.c e.rdata with
      | cont t => rw [hd] at h1; exact h1.trans (ih t)
      | halted t => rw [hd] at h1; exact h1
    · exact DrainFrame.refl s

/-- What the re-arm at the end of a run changes: the wake-up (43_controller R254). -/
theorem rearm_eq (s : State) : s.rearm = { s with wake := s.rearm.wake } := by
  have h : ∀ (u : State) (t : Nat), u.requestWake t = { u with wake := (u.requestWake t).wake } := fun _ _ => rfl
  have hn : s.rearmNext = { s with wake := s.rearmNext.wake } := by
    unfold State.rearmNext; split <;> rfl
  unfold State.rearm
  split
  · exact hn
  · rw [h, hn]

/-- 43_controller R254, the wake-up of a run that starts without one. -/
theorem rearm_wake {s : State} (h : s.wake = none) :
    s.rearm.wake = (match s.inflight, decide (s.wq ≠ [] ∨ (s.ready ≠ [] ∧ 0 < s.rbfree)) with
      | [], false => none
      | [], true => some (s.now + 1)
      | e :: _, false => some e.ts
      | e :: _, true => some (min e.ts (s.now + 1))) := by
  have hc : (s.wq.isEmpty = false ∨ s.canRead = true) ↔ (s.wq ≠ [] ∨ (s.ready ≠ [] ∧ 0 < s.rbfree)) := by
    cases h1 : s.wq <;> cases h2 : s.ready <;> simp [State.canRead, h2]
  have hn : s.rearmNext.wake = if s.wq ≠ [] ∨ (s.ready ≠ [] ∧ 0 < s.rbfree) then some (s.now + 1) else none := by
    unfold State.rearmNext
    by_cases hp : s.wq ≠ [] ∨ (s.ready ≠ [] ∧ 0 < s.rbfree)
    · rw [if_pos (hc.2 hp), if_pos hp]; simp [State.requestWake, h]
    · rw [if_neg (mt hc.1 hp), if_neg hp, h]
  unfold State.rearm
  cases hi : s.inflight with
  | nil =>
    simp only [queuePeek, hn]
    by_cases hp : s.wq ≠ [] ∨ (s.ready ≠ [] ∧ 0 < s.rbfree) <;> simp [hp]
  | cons e rest =>
    simp only [queuePeek, State.requestWake, hn]
    by_cases hp : s.wq ≠ [] ∨ (s.ready ≠ [] ∧ 0 < s.rbfree) <;> simp [hp]

/-- The state in which a run starts (43_controller R250). -/
def runStart (s : State) : State := { s with wake := none, lastrun := some s.now }

/-- A run: its issue step halted, or its drain halted, or it went on to the re-arm (43_controller R250). -/
theorem ctrlLoop_cases (s : State) :
    (∃ t, (runStart s).issueOne = .halted t ∧ s.ctrlLoop = t)
    ∨ (∃ t u, (runStart s).issueOne = .cont t ∧ t.drain = .halted u ∧ s.ctrlLoop = u)
    ∨ (∃ t u, (runStart s).issueOne = .cont t ∧ t.drain = .cont u ∧ s.ctrlLoop = u.rearm) := by
  have e : s.ctrlLoop = (((runStart s).issueOne.andThen State.drain).andThen (fun t => .cont t.rearm)).state := rfl
  rw [e]
  cases h : (runStart s).issueOne with
  | halted t => exact .inl ⟨t, rfl, rfl⟩
  | cont t =>
    cases hd : t.drain with
    | halted u => exact .inr (.inl ⟨t, u, rfl, hd, by simp [hd]⟩)
    | cont u => exact .inr (.inr ⟨t, u, rfl, hd, by simp [hd]⟩)

/-- A run whose issue step leads to `t`: everything the drain and the re-arm leave unchanged (43_controller R250). -/
theorem ctrlLoop_of_issueOne {s t : State} (h : (runStart s).issueOne = .cont t) :
    ∃ u, DrainFrame t u ∧ (s.ctrlLoop = u ∨ s.ctrlLoop = u.rearm) ∧ (t.drain).state = u := by
  have hf := drainFrame_drainEntries t.inflight t
  rcases ctrlLoop_cases s with ⟨t', h1, _⟩ | ⟨t', u, h1, h2, h3⟩ | ⟨t', u, h1, h2, h3⟩
  · rw [h] at h1; cases h1
  · rw [h] at h1; cases h1
    exact ⟨u, by have := hf; rw [show drainEntries t.inflight t = .halted u from h2] at this; exact this, .inl h3, by rw [h2]; rfl⟩
  · rw [h] at h1; cases h1
    exact ⟨u, by have := hf; rw [show drainEntries t.inflight t = .cont u from h2] at this; exact this, .inr h3, by rw [h2]; rfl⟩

/-- Recording a fault (60_exceptions R284). -/
theorem mem_raise_faults (s : State) (k f : FaultKind) : f ∈ (s.raise k).faults ↔ f ∈ s.faults ∨ f = k := by
  simp only [State.raise]
  split
  · rename_i h
    exact ⟨.inl, fun h' => h'.elim id (fun e => e ▸ h)⟩
  · simp

/-- What a controller run leaves unchanged up to its re-arm, and the events it adds: one request at most (43_controller
R250, 20_memory R103). -/
structure IssueFrame (s t : State) : Prop where
  cfg     : t.cfg = s.cfg
  now     : t.now = s.now
  cg      : t.cg = s.cg
  lastrun : t.lastrun = s.lastrun
  wake    : t.wake = s.wake
  agenda  : t.agenda = s.agenda
  isOn    : ∀ p, t.isOn p = s.isOn p
  hist    : ∃ evs, t.hist = s.hist ++ evs ∧ (evs.filter Event.isMem).length ≤ 1
  refused : ∀ k, s.refused = some k → t.refused = some k
  faults  : ∀ f ∈ s.faults, f ∈ t.faults

theorem DrainFrame.issue {s t : State} (h : DrainFrame s t) : IssueFrame s t := by
  obtain ⟨evs, h1, h2⟩ := h.hist
  refine ⟨h.cfg, h.now, h.cg, h.lastrun, h.wake, h.agenda, h.isOn, ⟨evs, h1, ?_⟩, h.refused, fun f hf => h.faults ▸ hf⟩
  rw [List.filter_eq_nil_iff.2 (fun e he => by simp [h2 e he])]; simp

theorem IssueFrame.drain {s t u : State} (h : IssueFrame s t) (g : DrainFrame t u) : IssueFrame s u := by
  obtain ⟨e1, h1, m1⟩ := h.hist
  obtain ⟨e2, h2, m2⟩ := g.hist
  refine ⟨g.cfg.trans h.cfg, g.now.trans h.now, g.cg.trans h.cg, g.lastrun.trans h.lastrun, g.wake.trans h.wake, g.agenda.trans h.agenda,
    fun p => (g.isOn p).trans (h.isOn p), ⟨e1 ++ e2, by rw [h2, h1, List.append_assoc], ?_⟩, fun k hk => g.refused k (h.refused k hk), fun f hf => g.faults ▸ h.faults f hf⟩
  rw [List.filter_append, (List.filter_eq_nil_iff (l := e2)).2 (fun e he => by simp [m2 e he])]; simpa using m1

theorem issueFrame_raise {s t : State} (h : IssueFrame s t) (k) : IssueFrame s (t.raise k) :=
  ⟨h.cfg, h.now, h.cg, h.lastrun, h.wake, h.agenda, h.isOn, h.hist, h.refused, fun f hf => (mem_raise_faults t k f).2 (.inl (h.faults f hf))⟩
theorem issueFrame_pushInflight {s t : State} (h : IssueFrame s t) (k) : IssueFrame s (t.pushInflight k) :=
  ⟨h.cfg, h.now, h.cg, h.lastrun, h.wake, h.agenda, h.isOn, h.hist, h.refused, h.faults⟩
theorem issueFrame_pushReady {s t : State} (h : IssueFrame s t) (k) : IssueFrame s (t.pushReady k) :=
  ⟨h.cfg, h.now, h.cg, h.lastrun, h.wake, h.agenda, h.isOn, h.hist, h.refused, h.faults⟩

theorem issueFrame_memIssue {s t : State} (h : DrainFrame s t) (r) : IssueFrame s (t.memIssue r) := by
  obtain ⟨evs, h1, h2⟩ := h.hist
  refine ⟨by simp [h.cfg], by simp [h.now], by simp [h.cg], by simp [h.lastrun], by simp [h.wake], by simp [h.agenda], fun p => by simp [h.isOn], ⟨evs ++ [.mem r t.nextAnswer t.now], ?_, ?_⟩, fun k hk => by simpa using h.refused k hk, fun f hf => by simpa [h.faults] using hf⟩
  · rw [memIssue_hist, h1, List.append_assoc]
  · rw [List.filter_append, (List.filter_eq_nil_iff (l := evs)).2 (fun e he => by simp [h2 e he])]; simp [List.filter]; split <;> simp

/-- The frame does not see the queues of the controller. -/
theorem IssueFrame.of_eq {s s' t : State} (h : IssueFrame s' t) (h1 : s'.cfg = s.cfg) (h2 : s'.now = s.now)
    (h3 : s'.cg = s.cg) (h4 : s'.lastrun = s.lastrun) (h5 : s'.wake = s.wake) (h6 : s'.agenda = s.agenda)
    (h7 : s'.periphs = s.periphs) (h8 : s'.hist = s.hist) (h9 : s'.refused = s.refused) (h10 : s'.faults = s.faults) :
    IssueFrame s t :=
  ⟨h.cfg.trans h1, h.now.trans h2, h.cg.trans h3, h.lastrun.trans h4, h.wake.trans h5, h.agenda.trans h6,
    fun p => (h.isOn p).trans (isOn_of_periphs_eq h7 p), h8 ▸ h.hist, h9 ▸ h.refused, h10 ▸ h.faults⟩

/-- Steps 1 and 2 of a run (43_controller R251, R252). -/
theorem issueFrame_issueOne (s : State) : IssueFrame s s.issueOne.state := by
  unfold State.issueOne
  split
  · rename_i req rest _
    show IssueFrame s (s.issueWrite req rest)
    have h : IssueFrame s ({ s with wq := rest }.memIssue req) :=
      (issueFrame_memIssue (DrainFrame.refl { s with wq := rest }) req).of_eq rfl rfl rfl rfl rfl rfl rfl rfl rfl rfl
    unfold State.issueWrite
    split
    · exact h
    · exact issueFrame_raise (h.drain (drainFrame_log _ _)) _
    · exact issueFrame_raise (h.drain (drainFrame_log _ _)) _
  · split
    · rename_i c rest _
      split
      · unfold State.issueRead
        split
        · exact ((drainFrame_refuse { s with ready := rest, rbfree := s.rbfree - 1 } _).issue).of_eq rfl rfl rfl rfl rfl rfl rfl rfl rfl rfl
        · rename_i ch _
          have h0 : IssueFrame s ((({ s with ready := rest, rbfree := s.rbfree - 1 }.advanceChunk c).cedeTurn c ch.last).memIssue ch.req) := by
            by_cases hl : ch.last = true
            · simp only [State.cedeTurn, hl, if_true]
              exact (issueFrame_memIssue (drainFrame_setChan { s with ready := rest, rbfree := s.rbfree - 1 } c _) ch.req).of_eq rfl rfl rfl rfl rfl rfl rfl rfl rfl rfl
            · simp only [State.cedeTurn, hl]
              have := (issueFrame_memIssue (drainFrame_setChan { s with ready := rest ++ [c], rbfree := s.rbfree - 1 } c ((({ s with ready := rest, rbfree := s.rbfree - 1 }.advanceChunk c)).chan c)) ch.req).of_eq (s := s) rfl rfl rfl rfl rfl rfl rfl rfl rfl rfl
              have e : ({ s with ready := rest ++ [c], rbfree := s.rbfree - 1 }.setChan c ((({ s with ready := rest, rbfree := s.rbfree - 1 }.advanceChunk c)).chan c)) = ({ s with ready := rest, rbfree := s.rbfree - 1 }.advanceChunk c).pushReady c := by
                simp [State.advanceChunk]; rfl
              rw [e] at this
              exact this
          cases hn : s.nextAnswer with
          | accept lat rdata => exact issueFrame_pushInflight h0 _
          | reject => exact issueFrame_raise (h0.drain (drainFrame_pushBuffer _)) _
          | pending => exact issueFrame_raise ((h0.drain (drainFrame_pushBuffer _)).drain (drainFrame_log _ _)) _
      · exact (DrainFrame.refl s).issue
    · exact (DrainFrame.refl s).issue

/-- The frame of a whole run: only the wake-up is left to the re-arm (43_controller R250). -/
theorem ctrlLoop_frame (s : State) : ∃ u, IssueFrame (runStart s) u ∧ s.ctrlLoop = { u with wake := s.ctrlLoop.wake } := by
  have hi := issueFrame_issueOne (runStart s)
  rcases ctrlLoop_cases s with ⟨t, h1, h2⟩ | ⟨t, u, h1, h2, h3⟩ | ⟨t, u, h1, h2, h3⟩
  · rw [h1] at hi; exact ⟨t, hi, by rw [h2]⟩
  · rw [h1] at hi
    have hd := drainFrame_drainEntries t.inflight t
    rw [show drainEntries t.inflight t = _ from h2] at hd
    exact ⟨u, hi.drain hd, by rw [h3]⟩
  · rw [h1] at hi
    have hd := drainFrame_drainEntries t.inflight t
    rw [show drainEntries t.inflight t = _ from h2] at hd
    exact ⟨u, hi.drain hd, by rw [h3]; exact rearm_eq u⟩

end Sys2Proof.Machine.Laws
end

