-- ==== Sys2Proof/Laws/Decode.lean ====
section
/-! SUPPORT. What the decoder does with an access behind a peripheral's window (30_encoding R124 to R127), and what the
checks of WellFormed.lean say. -/
namespace Sys2Proof.Laws

theorem layout_wf_iff (l : Layout) : l.wf = true ↔
    (0 < l.periphStride ∧ l.offCg < l.channelRegionStart ∧ l.offEvtin < l.channelRegionStart ∧ l.offCg ≠ l.offEvtin
    ∧ l.txWindowStart ≤ l.customWindowStart ∧ l.customWindowStart ≤ l.periphStride
    ∧ l.offAddr ≠ l.offSize ∧ l.offAddr ≠ l.offConfig ∧ l.offSize ≠ l.offConfig
    ∧ l.offAddr < l.txWindowStart ∧ l.offSize < l.txWindowStart ∧ l.offConfig < l.txWindowStart
    ∧ l.txWindowStart + l.offAddr < l.customWindowStart ∧ l.txWindowStart + l.offSize < l.customWindowStart
    ∧ l.txWindowStart + l.offConfig < l.customWindowStart) := by simp [Layout.wf]

theorem slotAt_iff (cfg : Cfg) (i : Nat) (sl : Slot) (b : Bool) :
    cfg.slotAt i sl b = true ↔ ∃ p, cfg.table i = some p ∧ (p.slotDir sl).isSome = b := by
  unfold Cfg.slotAt; cases cfg.table i <;> simp

theorem flagAt_iff (cfg : Cfg) (on : Fin 32 → Bool) (i : Nat) (b : Bool) :
    cfg.flagAt on i b = true ↔ ∃ p, cfg.table i = some p ∧ on p.cid = b := by
  unfold Cfg.flagAt; cases cfg.table i <;> simp

/-- The windows lie in the 32-bit offset space (log entry 5). -/
theorem windows_fit {cfg : Cfg} (h : cfg.wf = true) :
    cfg.layout.channelRegionStart + cfg.layout.periphStride * cfg.np ≤ 2 ^ 32 := by
  simp [Cfg.wf] at h; exact h.2

/-- The value of a window's offset, without wrapping. -/
theorem windowAddr_toNat {cfg : Cfg} (h : cfg.wf = true) {i w : Nat} (hi : i < cfg.np) (hw : w < cfg.layout.periphStride) :
    (cfg.layout.windowAddr i w).toNat = cfg.layout.channelRegionStart + (cfg.layout.periphStride * i + w) := by
  have hb := windows_fit h
  have h1 : cfg.layout.periphStride * (i + 1) ≤ cfg.layout.periphStride * cfg.np := Nat.mul_le_mul_left _ hi
  rw [Nat.mul_add] at h1
  simp only [Layout.windowAddr, BitVec.toNat_ofNat]
  rw [Nat.mod_eq_of_lt] <;> omega

/-- 30_encoding R124, R127: the id and the window offset are read back from the offset they make. -/
theorem window_fields {cfg : Cfg} (h : cfg.wf = true) {i w : Nat} (hi : i < cfg.np) (hw : w < cfg.layout.periphStride) :
    ¬ (cfg.layout.windowAddr i w).toNat < cfg.layout.channelRegionStart
      ∧ cfg.layout.periphId (cfg.layout.windowAddr i w) = i ∧ cfg.layout.windowOff (cfg.layout.windowAddr i w) = w := by
  have e := windowAddr_toNat h hi hw
  have hp : 0 < cfg.layout.periphStride := by omega
  refine ⟨by omega, ?_, ?_⟩
  · unfold Layout.periphId
    rw [e, Nat.add_sub_cancel_left, Nat.mul_add_div hp, Nat.div_eq_of_lt hw, Nat.add_zero]
  · unfold Layout.windowOff
    rw [e, Nat.add_sub_cancel_left, Nat.mul_add_mod, Nat.mod_eq_of_lt hw]

/-- Decoding at a window offset of an existing peripheral (42_peripheral_group R221). -/
theorem decode_window {cfg : Cfg} (h : cfg.wf = true) {i w : Nat} {p : PeriphCfg} (ht : cfg.table i = some p)
    (hw : w < cfg.layout.periphStride) (on : Fin 32 → Bool) (acc : Acc) :
    decodeBus cfg on (cfg.layout.windowAddr i w) acc 4 =
      if on p.cid = false then .periphOffNoop i w acc
      else if w < cfg.layout.txWindowStart then decodeRxWindow cfg.layout p i w acc
      else if w < cfg.layout.customWindowStart then decodeTxWindow cfg.layout p i w acc
      else .customAccess i w acc := by
  obtain ⟨h1, h2, h3⟩ := window_fields h (mem_of_table ht).1 hw
  simp [decodeBus, h1, h2, h3, ht]

/-- 30_encoding R124: an offset of the channel region is its window's start plus its window offset. -/
theorem windowAddr_split (l : Layout) (off : Word) (h : l.channelRegionStart ≤ off.toNat) :
    l.windowAddr (l.periphId off) (l.windowOff off) = off := by
  apply BitVec.eq_of_toNat_eq
  have hd := Nat.div_add_mod (off.toNat - l.channelRegionStart) l.periphStride
  have e : l.channelRegionStart + l.periphStride * l.periphId off + l.windowOff off = off.toNat := by
    simp only [Layout.periphId, Layout.windowOff]; omega
  simp only [Layout.windowAddr, BitVec.toNat_ofNat, e, Nat.mod_eq_of_lt off.isLt]

end Sys2Proof.Laws
end

