-- ==== Sys2Proof/Laws/Registers.lean ====
section
/-! SUPPORT. What the clock-gate write and the reset pulse do to every flag and channel, and what a register access does to
the state in general. -/
namespace Sys2Proof.Machine.Laws
open Sys2Proof.Laws

/-- The clock-gate write's loop, after the bits below `n` (43_controller R237). -/
def cgLoop (old v : Word) (n : Nat) (s : State) : State := (List.range n).foldl (State.cgBit old v) s

theorem cgLoop_succ (old v : Word) (n : Nat) (s : State) :
    cgLoop old v (n + 1) s = State.cgBit old v (cgLoop old v n s) n := by
  simp [cgLoop, List.range_succ]

/-- One bit: the flag of the canonical id, when the bit changed. -/
theorem cgBit_cases (old v : Word) (s : State) (i : Nat) :
    State.cgBit old v s i = s ∨ ∃ p, s.cfg.table i = some p ∧ p.cid.val = i ∧ old.getLsbD i ≠ v.getLsbD i
      ∧ State.cgBit old v s i = s.setOn p.cid (v.getLsbD i) := by
  unfold State.cgBit
  split
  · exact .inl rfl
  · rename_i hb
    cases ht : s.cfg.table i with
    | none => exact .inl rfl
    | some p =>
      by_cases hc : p.cid.val = i
      · exact .inr ⟨p, rfl, hc, hb, by simp [hc]⟩
      · exact .inl (by simp [hc])

theorem setOn_eq (s : State) (p : Fin 32) (b : Bool) : s.setOn p b = { s with periphs := (s.setOn p b).periphs } := rfl

/-- The loop writes flags only. -/
theorem cgLoop_eq (old v : Word) (n : Nat) (s : State) : cgLoop old v n s = { s with periphs := (cgLoop old v n s).periphs } := by
  induction n with
  | zero => rfl
  | succ n ih =>
    rw [cgLoop_succ]
    rcases cgBit_cases old v (cgLoop old v n s) n with h | ⟨p, _, _, _, h⟩
    · rw [h]; exact ih
    · rw [h, setOn_eq]; rw [ih]

theorem cgLoop_chan (old v : Word) (n : Nat) (s : State) (c : ChanId) : (cgLoop old v n s).chan c = s.chan c := by
  induction n with
  | zero => rfl
  | succ n ih =>
    rw [cgLoop_succ]
    rcases cgBit_cases old v (cgLoop old v n s) n with h | ⟨p, _, _, _, h⟩ <;> rw [h]
    · exact ih
    · rw [chan_setOn, ih]

/-- A flag after the loop: a canonical id below `n` whose bit changed follows the new bit (43_controller R237). -/
theorem cgLoop_isOn (old v : Word) (n : Nat) (s : State) (q : Fin 32) :
    (cgLoop old v n s).isOn q =
      if q.val < n ∧ old.getLsbD q.val ≠ v.getLsbD q.val ∧ (∃ p, s.cfg.table q.val = some p ∧ p.cid = q) then
        v.getLsbD q.val
      else s.isOn q := by
  induction n with
  | zero => simp [cgLoop]
  | succ n ih =>
    have hcfg : (cgLoop old v n s).cfg = s.cfg := by rw [cgLoop_eq]
    rw [cgLoop_succ]
    by_cases hq : q.val = n
    · subst hq
      have hlt : ¬ (q.val < q.val) := lt_irrefl _
      rw [if_neg (fun h => hlt h.1)] at ih
      unfold State.cgBit
      rw [hcfg]
      by_cases hb : old.getLsbD q.val = v.getLsbD q.val
      · rw [if_pos hb, if_neg (fun h => h.2.1 hb)]; exact ih
      · rw [if_neg hb]
        cases ht : s.cfg.table q.val with
        | none => simp only; rw [if_neg (fun h => by obtain ⟨_, _, p, hp, _⟩ := h; cases hp)]; exact ih
        | some p =>
          simp only
          by_cases hc : p.cid.val = q.val
          · have : p.cid = q := Fin.ext hc
            rw [if_pos hc, this, isOn_setOn_self, if_pos ⟨Nat.lt_succ_self _, hb, p, rfl, this⟩]
          · rw [if_neg hc, if_neg (fun h => by
              obtain ⟨_, _, p', hp', h'⟩ := h; cases hp'; exact hc (congrArg Fin.val h'))]
            exact ih
    · have hstep : (State.cgBit old v (cgLoop old v n s) n).isOn q = (cgLoop old v n s).isOn q := by
        rcases cgBit_cases old v (cgLoop old v n s) n with h | ⟨p, _, hc, _, h⟩ <;> rw [h]
        exact isOn_setOn_ne _ _ (fun h' => hq (by rw [h', hc]))
      rw [hstep, ih]
      have : (q.val < n + 1) = (q.val < n) := by apply propext; omega
      simp only [this]

/-- The clock-gate write: the mask, then the loop over the 32 bits (43_controller R237). -/
theorem cgWrite_eq (s : State) (v : Word) :
    s.cgWrite v = Reply.mk (cgLoop s.cg v 32 { s with cg := v }) (some .ok) := rfl

/-- 43_controller R237, flag by flag. -/
theorem cgWrite_isOn (s : State) (v : Word) (q : Fin 32) :
    (s.cgWrite v).state.isOn q =
      if s.cg.getLsbD q.val ≠ v.getLsbD q.val ∧ (∃ p, s.cfg.table q.val = some p ∧ p.cid = q) then v.getLsbD q.val
      else s.isOn q := by
  rw [cgWrite_eq]
  simp only [cgLoop_isOn, q.isLt, true_and]
  rfl

/-- Turning every peripheral of a list off: the flags of the others stay. -/
theorem foldl_setOff (ps : List PeriphCfg) (s : State) :
    ps.foldl (fun t p => t.setOn p.cid false) s = { s with periphs := (ps.foldl (fun t p => t.setOn p.cid false) s).periphs }
    ∧ (∀ c, (ps.foldl (fun t p => t.setOn p.cid false) s).chan c = s.chan c)
    ∧ (∀ p ∈ ps, (ps.foldl (fun t p => t.setOn p.cid false) s).isOn p.cid = false)
    ∧ ∀ q, (∀ p ∈ ps, p.cid ≠ q) → (ps.foldl (fun t p => t.setOn p.cid false) s).isOn q = s.isOn q := by
  induction ps generalizing s with
  | nil => exact ⟨rfl, fun _ => rfl, by simp, fun _ _ => rfl⟩
  | cons a r ih =>
    obtain ⟨h1, h2, h3, h4⟩ := ih (s.setOn a.cid false)
    refine ⟨?_, fun c => ?_, fun p hp => ?_, fun q hq => ?_⟩
    · rw [List.foldl_cons, h1]; rfl
    · rw [List.foldl_cons, h2, chan_setOn]
    · rw [List.foldl_cons]
      rcases List.mem_cons.1 hp with rfl | hp
      · by_cases hm : ∃ p' ∈ r, p'.cid = p.cid
        · obtain ⟨p', hp', he⟩ := hm
          have h := h3 p' hp'
          rw [he] at h
          exact h
        · rw [h4 p.cid (fun p' hp' he => hm ⟨p', hp', he⟩), isOn_setOn_self]
      · exact h3 p hp
    · rw [List.foldl_cons, h4 q (fun p hp => hq p (List.mem_cons_of_mem _ hp)),
        isOn_setOn_ne _ _ (fun he => hq a List.mem_cons_self he.symm)]

/-- Two states with equal channels and flags have equal storage. -/
theorem periphs_ext {s t : State} (hc : ∀ c, t.chan c = s.chan c) (ho : ∀ p, t.isOn p = s.isOn p) :
    t.periphs = s.periphs := by
  apply Vector.ext
  intro i hi
  have e : ∀ u : State, u.periphs[i] = u.periphs.get ⟨i, hi⟩ := fun _ => rfl
  rw [e, e]
  have g1 := hc ⟨⟨i, hi⟩, .rx⟩
  have g2 := hc ⟨⟨i, hi⟩, .tx⟩
  have g3 := hc ⟨⟨i, hi⟩, .custom⟩
  have g4 := ho ⟨i, hi⟩
  unfold State.chan Periph.chan at g1 g2 g3
  unfold State.isOn at g4
  have hx : ∀ a b : Periph, a.on = b.on → a.rx = b.rx → a.tx = b.tx → a.custom = b.custom → a = b := by
    intro a b h1 h2 h3 h4; cases a; cases b; simp_all
  exact hx _ _ g4 g1 g2 g3

/-- The record a reset leaves in a channel (70_reset_and_hazards R311, R312). -/
def resetChan (d : Option Dir) (ch : Chan) : Chan :=
  { ch with
    active := none, contCfg := false, widthCfg := 0, busy := .undriven, addr := none, size := none
    asm := if d = some .rx then [] else ch.asm }

/-- 70_reset_and_hazards R311, R312. -/
theorem channelReset_eq (s : State) (c : ChanId) :
    s.channelReset c = (s.setChan c (resetChan (s.cfg.dirOf c) (s.chan c))).emit (.busy c .undriven) := rfl

/-- Resetting a channel twice leaves it as once. -/
theorem resetChan_resetChan (d : Option Dir) (ch : Chan) : resetChan d (resetChan d ch) = resetChan d ch := by
  simp only [resetChan]
  split <;> rfl

/-- Resetting every channel of a list (70_reset_and_hazards R310). -/
theorem foldl_channelReset (cs : List ChanId) (s : State) :
    cs.foldl State.channelReset s = { s with
      periphs := (cs.foldl State.channelReset s).periphs, hist := s.hist ++ cs.map (fun c => Event.busy c .undriven) }
    ∧ (∀ c ∈ cs, (cs.foldl State.channelReset s).chan c = resetChan (s.cfg.dirOf c) (s.chan c))
    ∧ (∀ c, c ∉ cs → (cs.foldl State.channelReset s).chan c = s.chan c)
    ∧ ∀ p, (cs.foldl State.channelReset s).isOn p = s.isOn p := by
  induction cs generalizing s with
  | nil => exact ⟨by simp, by simp, fun _ _ => rfl, fun _ => rfl⟩
  | cons a r ih =>
    obtain ⟨h1, h2, h3, h4⟩ := ih (s.channelReset a)
    simp only [List.foldl_cons]
    have hs : (s.channelReset a).chan a = resetChan (s.cfg.dirOf a) (s.chan a) := by simp [channelReset_eq]
    have ho : ∀ c, c ≠ a → (s.channelReset a).chan c = s.chan c := fun c hc => by simp [channelReset_eq, hc]
    refine ⟨?_, fun c hc => ?_, fun c hc => ?_, fun p => ?_⟩
    · rw [h1]
      simp [channelReset_eq, State.emit, State.setChan]
    · by_cases hr : c ∈ r
      · rw [h2 c hr]
        by_cases hca : c = a
        · subst hca; rw [hs]; exact resetChan_resetChan _ _
        · rw [ho c hca]; rfl
      · have hca : c = a := by simpa [hr] using hc
        subst hca
        rw [h3 c hr, hs]
    · rw [h3 c (fun h => hc (List.mem_cons_of_mem _ h)), ho c (fun h => hc (h ▸ List.mem_cons_self))]
    · rw [h4]; simp [channelReset_eq]

/-- What a reset pulse does to a quiescent block, to every channel and flag (70_reset_and_hazards R310 to R314). -/
theorem resetBlock_spec (s : State) :
    s.resetBlock = { s with
      cg := 0, wake := none, periphs := s.resetBlock.periphs
      hist := s.hist ++ s.cfg.channels.map (fun c => Event.busy c .undriven) ++ [.reset] }
    ∧ (∀ c ∈ s.cfg.channels, s.resetBlock.chan c = resetChan (s.cfg.dirOf c) (s.chan c))
    ∧ (∀ c, c ∉ s.cfg.channels → s.resetBlock.chan c = s.chan c)
    ∧ (∀ p ∈ s.cfg.periphs, s.resetBlock.isOn p.cid = false)
    ∧ (∀ q, (∀ p ∈ s.cfg.periphs, p.cid ≠ q) → s.resetBlock.isOn q = s.isOn q) := by
  obtain ⟨a1, a2, a3, a4⟩ := foldl_setOff s.cfg.periphs { s with cg := 0, wake := none }
  obtain ⟨b1, b2, b3, b4⟩ := foldl_channelReset s.cfg.channels
    (s.cfg.periphs.foldl (fun t p => t.setOn p.cid false) { s with cg := 0, wake := none })
  refine ⟨?_, fun c hc => ?_, fun c hc => ?_, fun p hp => ?_, fun q hq => ?_⟩
  · unfold State.resetBlock; rw [b1, a1]; rfl
  · show State.chan (List.foldl _ _ _) c = _; rw [b2 c hc, a2, a1]; rfl
  · show State.chan (List.foldl _ _ _) c = _; rw [b3 c hc, a2]; rfl
  · show State.isOn (List.foldl _ _ _) _ = _; rw [b4]; exact a3 p hp
  · show State.isOn (List.foldl _ _ _) _ = _; rw [b4, a4 q hq]; rfl

end Sys2Proof.Machine.Laws
end

