-- ==== Sys2Proof/Laws/Exec.lean ====
section
/-! SUPPORT. Everything one executed operation can do: the replies of a register access (`BusAct`), and the cases of `exec`
(`ExecCase`). Proofs about every step split here once. -/
namespace Sys2Proof.Machine.Laws
open Sys2Proof.Laws

/-- What one operation behind the windows of the peripheral with canonical id `pid` can reply in state `s`
(42_peripheral_group R221, 41_channel R170). -/
inductive PeriphAct (pid : Fin 32) (s : State) : Reply → Prop where
  | invalid : PeriphAct pid s s.invalidAccess
  | offNoop (acc : Acc) : PeriphAct pid s (s.offNoop acc)
  | slotEmpty (off : Word) : PeriphAct pid s (s.slotEmpty off)
  | addrWr (c : ChanId) (v : Word) (h : c ∈ s.cfg.channels) (hp : c.pid = pid) : PeriphAct pid s (s.addrWr c v)
  | addrRd (c : ChanId) (h : c ∈ s.cfg.channels) (hp : c.pid = pid) : PeriphAct pid s (s.addrRd c)
  | sizeWr (c : ChanId) (v : Word) (h : c ∈ s.cfg.channels) (hp : c.pid = pid) : PeriphAct pid s (s.sizeWr c v)
  | sizeRd (c : ChanId) (h : c ∈ s.cfg.channels) (hp : c.pid = pid) : PeriphAct pid s (s.sizeRd c)
  | configWr (c : ChanId) (v : Word) (h : c ∈ s.cfg.channels) (hp : c.pid = pid) : PeriphAct pid s (s.configWr c v)
  | configRd (c : ChanId) (h : c ∈ s.cfg.channels) (hp : c.pid = pid) : PeriphAct pid s (s.configRd c)
  | transfer (c : ChanId) (base size : Word) (width : BitVec 2) (cont : Bool) (h : c ∈ s.cfg.channels) (hp : c.pid = pid) :
      PeriphAct pid s (s.handlerTransfer c base size width cont)

/-- Such operations in a row, answered with any response or undone: what a custom handler can do (42_peripheral_group R225). -/
inductive PeriphRun (pid : Fin 32) : State → Reply → Prop where
  | one {s : State} {r : Reply} (h : PeriphAct pid s r) : PeriphRun pid s r
  | seq {s : State} {r r' : Reply} (h : PeriphRun pid s r) (g : PeriphRun pid r.state r') : PeriphRun pid s r'
  | answer {s : State} {r : Reply} (h : PeriphRun pid s r) (resp : Option Resp) : PeriphRun pid s { r with resp := resp }
  | undo {s : State} {r : Reply} (h : PeriphRun pid s r) : PeriphRun pid s { r with state := s.undone r.state }

/-- What every operation keeps, operations in a row keep. -/
theorem PeriphRun.lift {pid : Fin 32} (R : State → State → Prop) (ht : ∀ {s t u}, R s t → R t u → R s u)
    (hu : ∀ {s t}, R s t → R s (s.undone t)) (h : ∀ {s r}, PeriphAct pid s r → R s r.state) {s : State} {r : Reply}
    (g : PeriphRun pid s r) : R s r.state := by
  induction g with
  | one ha => exact h ha
  | seq _ _ ih ig => exact ht ih ig
  | answer _ _ ih => exact ih
  | undo _ ih => exact hu ih

/-- The replies a register access can get in state `s` (60_exceptions R287). -/
inductive BusAct (s : State) : Reply → Prop where
  | cgWrite (v : Word) : BusAct s (s.cgWrite v)
  | cgRead : BusAct s s.cgRead
  | evtin (off : Word) (acc : Acc) : BusAct s (s.evtinAccess off acc)
  | periph (pid : Fin 32) (r : Reply) (h : PeriphRun pid s r) : BusAct s r

/-- A single operation is a reply. -/
theorem PeriphAct.bus {pid : Fin 32} {s : State} {r : Reply} (h : PeriphAct pid s r) : BusAct s r := .periph pid r (.one h)

theorem busAct_invalid (s : State) : BusAct s s.invalidAccess := PeriphAct.bus (pid := 0) .invalid

theorem enqueueRecord_cfg (s : State) (c : ChanId) (addr size : Option Word) (width : BitVec 2) (cont : Bool) :
    (s.enqueueRecord c addr size width cont).state.cfg = s.cfg := by
  unfold State.enqueueRecord
  split
  · rfl
  · split
    · rfl
    · simp [State.requestPromotion, State.busyUpdate, State.pushPending]

theorem periphAct_cfg {pid : Fin 32} {s : State} {r : Reply} (h : PeriphAct pid s r) : r.state.cfg = s.cfg := by
  cases h with
  | offNoop acc => cases acc <;> rfl
  | addrRd c _ _ => unfold State.addrRd State.stagedRd; split <;> rfl
  | sizeRd c _ _ => unfold State.sizeRd State.stagedRd; split <;> rfl
  | configWr c v _ _ =>
    unfold State.configWr
    repeat' split
    all_goals try rfl
    rw [flow_reply_state]
    exact enqueueRecord_cfg _ c _ _ _ _
  | transfer c base size width cont _ _ =>
    unfold State.handlerTransfer
    split
    · rfl
    · rw [flow_reply_state]
      exact enqueueRecord_cfg _ c _ _ _ _
  | _ => rfl

theorem periphRun_cfg {pid : Fin 32} {s : State} {r : Reply} (h : PeriphRun pid s r) : r.state.cfg = s.cfg := by
  induction h with
  | one ha => exact periphAct_cfg ha
  | seq _ _ ih ig => exact ig.trans ih
  | answer _ _ ih => exact ih
  | undo _ _ => rfl

theorem periphAct_channelAccess {pid : Fin 32} {s : State} {c : ChanId} (h : c ∈ s.cfg.channels) (hp : c.pid = pid) (r : Nat)
    (acc : Acc) : PeriphAct pid s (s.channelAccess c r acc) := by
  unfold State.channelAccess
  cases acc <;> (repeat' split) <;>
    first
      | exact .addrWr c _ h hp | exact .addrRd c h hp | exact .sizeWr c _ h hp | exact .sizeRd c h hp
      | exact .configWr c _ h hp | exact .configRd c h hp | exact .invalid

theorem mem_channels_of_table {cfg : Cfg} {i : Nat} {p : PeriphCfg} (ht : cfg.table i = some p) {sl : Slot}
    (hs : (p.slotDir sl).isSome = true) : ({ pid := p.cid, slot := sl } : ChanId) ∈ cfg.channels :=
  (mem_channels_iff cfg _).2 ⟨p, (mem_of_table ht).2.1, rfl, hs⟩

theorem periphAct_onSlot {s : State} {i : Nat} {p : PeriphCfg} (ht : s.cfg.table i = some p) (sl : Slot) (off : Word)
    {act : ChanId → Reply} (h : ∀ c ∈ s.cfg.channels, c.pid = p.cid → PeriphAct p.cid s (act c)) :
    PeriphAct p.cid s (s.onSlot p sl off act) := by
  unfold State.onSlot
  split
  · exact h _ (mem_channels_of_table ht ‹_›) rfl
  · exact .slotEmpty off

theorem periphAct_handlerOp {s : State} {i : Nat} {p : PeriphCfg} (ht : s.cfg.table i = some p) (off : Word) (acc : Acc)
    (op : HandlerOp) : PeriphAct p.cid s (s.handlerOp p off acc op) := by
  cases op with
  | pass sl r => exact periphAct_onSlot ht sl off fun c h hp => periphAct_channelAccess h hp r acc
  | reg sl r a => exact periphAct_onSlot ht sl off fun c h hp => periphAct_channelAccess h hp r a
  | transfer sl base size width cont => exact periphAct_onSlot ht sl off fun c h hp => .transfer c _ _ _ _ h hp

theorem afterHandler_cfg (s : State) (p : PeriphCfg) : (s.afterHandler p).cfg = s.cfg := by
  unfold State.afterHandler
  split <;> rfl

/-- The operations of a handler after a reply (42_peripheral_group R225). -/
theorem periphRun_handlerOps {s : State} {i : Nat} {p : PeriphCfg} (ht : s.cfg.table i = some p) (off : Word) (acc : Acc)
    (ops : List HandlerOp) (r : Reply) (hr : PeriphRun p.cid s r) : PeriphRun p.cid s (handlerOps p off acc ops r) := by
  induction ops generalizing r with
  | nil => exact hr
  | cons op ops ih =>
    unfold handlerOps
    split
    · exact hr
    · have ht' : r.state.cfg.table i = some p := by rw [periphRun_cfg hr]; exact ht
      have ha := periphAct_handlerOp ht' off acc op
      exact ih _ (hr.seq (.one ha))

theorem periphRun_answered {pid : Fin 32} {s : State} {r : Reply} (h : PeriphRun pid s r) (acc : Acc) (x : HandlerResp) :
    PeriphRun pid s (r.answered s acc x) := by
  have hi : PeriphRun pid s (s.undone r.state).invalidAccess := (h.undo).answer _
  have hn : PeriphRun pid s (r.state.offNoop acc) := h.seq (.one (.offNoop acc))
  have hd : ∀ v, PeriphRun pid s { state := r.state, resp := some (.okData v) } := fun v => h.answer _
  unfold Reply.answered
  cases hr : r.resp with
  | none => exact h
  | some last =>
    cases x <;> cases last <;> cases acc <;>
      first
        | exact hi
        | exact hd _
        | exact hn

theorem periphRun_customAccess {s : State} {i : Nat} {p : PeriphCfg} (ht : s.cfg.table i = some p) (off : Word) (w : Nat)
    (acc : Acc) : PeriphRun p.cid s (s.customAccess p off w acc) := by
  have h0 : PeriphRun p.cid s (s.afterHandler p).invalidAccess := by
    unfold State.afterHandler
    split
    · exact .one .invalid
    · exact .seq (.one (.offNoop .rd)) (.one .invalid)
  have ht' : (s.afterHandler p).cfg.table i = some p := by rw [afterHandler_cfg]; exact ht
  unfold State.customAccess
  split
  · exact h0
  · exact h0.seq (periphRun_answered (periphRun_handlerOps ht' off acc _ _ (.one .invalid)) acc _)

/-- 60_exceptions R281, 30_encoding R137: a handler's answer INVALID leaves the state it was asked in, with the logs. -/
theorem answered_invalid {s : State} {r : Reply} {acc : Acc} {x : HandlerResp}
    (h : (r.answered s acc x).resp = some .invalid) : (r.answered s acc x).state = s.undone r.state := by
  unfold Reply.answered at h ⊢
  cases hr : r.resp with
  | none => simp [hr] at h
  | some last => cases x <;> cases last <;> cases acc <;> simp_all [State.invalidAccess, State.offNoop]

theorem periphRun_periphAccess {s : State} {i : Nat} {p : PeriphCfg} (ht : s.cfg.table i = some p) (off : Word) (w : Nat)
    (acc : Acc) : PeriphRun p.cid s (s.periphAccess p off w acc) := by
  unfold State.periphAccess
  split
  · exact .one (.offNoop acc)
  · split
    · exact .one (periphAct_onSlot ht _ off fun c h hp => periphAct_channelAccess h hp _ acc)
    · split
      · exact .one (periphAct_onSlot ht _ off fun c h hp => periphAct_channelAccess h hp _ acc)
      · exact periphRun_customAccess ht off w acc

/-- 43_controller R235: the register-access entry gives one of these replies. -/
theorem busAct_busEntry (s : State) (off : Word) (acc : Acc) (size : Nat) :
    ∃ r, BusAct s r ∧ s.busEntry off acc size = r.close off acc size := by
  refine ⟨_, ?_, rfl⟩
  split
  · exact busAct_invalid s
  · split
    · unfold State.configAccess
      cases acc <;> (repeat' split) <;>
        first | exact .cgWrite _ | exact .cgRead | exact .evtin off _ | exact busAct_invalid s
    · unfold State.channelRegionAccess
      split
      · exact busAct_invalid s
      · exact .periph _ _ (periphRun_periphAccess ‹_› off _ acc)

/-- What an executed register access leaves: the state of one of the replies, closed by its event. -/
def BusNext (s t : State) : Prop :=
  ∃ (r : Reply) (off : Word) (acc : Acc) (size : Nat), BusAct s r ∧ t = r.close off acc size

theorem busNext_busEntry (s : State) (off : Word) (acc : Acc) (size : Nat) : BusNext s (s.busEntry off acc size) := by
  obtain ⟨r, h, e⟩ := busAct_busEntry s off acc size
  exact ⟨r, off, acc, size, h, e⟩

theorem busNext_regAccess {s : State} {i : Nat} {sl : Slot} {off : Word} {acc : Acc} {act : ChanId → Reply}
    (h : ∀ c ∈ s.cfg.channels, BusAct s (act c)) : BusNext s (s.regAccess i sl off acc act) := by
  unfold State.regAccess
  cases hr : s.reach i sl with
  | none => exact busNext_busEntry s off acc 4
  | some c =>
    obtain ⟨p, h1, _, h3, h4⟩ := (reach_eq_some_iff s i sl c).1 hr
    exact ⟨_, off, acc, 4, h c (by rw [h4]; exact mem_channels_of_table h1 h3), rfl⟩

/-- The operation is a register access, a BUS row (30_encoding R120). -/
def IsBus (i : Instr) : Prop := (tableRow i).isSome = true

/-- 30_encoding R120: every BUS row completes with one of the replies. -/
theorem exec_bus {i : Instr} (hb : IsBus i) (s : State) : ∃ t, exec i s = .next t ∧ BusNext s t := by
  have hE := busNext_busEntry s
  cases i
  case badSize off acc size =>
    refine ⟨_, rfl, ?_⟩
    split
    · exact ⟨_, off, acc, size, busAct_invalid s, rfl⟩
    · exact hE _ _ _
  case cgWr v => exact ⟨_, rfl, _, _, _, _, .cgWrite v, rfl⟩
  case cgRd => exact ⟨_, rfl, _, _, _, _, .cgRead, rfl⟩
  case evtinWr v => exact ⟨_, rfl, _, _, _, _, .evtin _ _, rfl⟩
  case evtinRd => exact ⟨_, rfl, _, _, _, _, .evtin _ _, rfl⟩
  case cfgBadOffset off acc =>
    refine ⟨_, rfl, ?_⟩
    split
    · exact ⟨_, off, acc, 4, busAct_invalid s, rfl⟩
    · exact hE _ _ _
  case noPeriph off acc =>
    refine ⟨_, rfl, ?_⟩
    split
    · exact ⟨_, off, acc, 4, busAct_invalid s, rfl⟩
    · exact hE _ _ _
  case periphOffNoop i w acc =>
    refine ⟨_, rfl, ?_⟩
    split
    · exact hE _ _ _
    · split
      · exact ⟨_, _, acc, 4, PeriphAct.bus (pid := 0) (.offNoop acc), rfl⟩
      · exact hE _ _ _
  case customAccess i w acc =>
    refine ⟨_, rfl, ?_⟩
    split
    · exact hE _ _ _
    · split
      · exact ⟨_, _, acc, 4, .periph _ _ (periphRun_customAccess ‹_› _ _ _), rfl⟩
      · exact hE _ _ _
  case rxSlotEmpty i w acc =>
    refine ⟨_, rfl, ?_⟩
    split
    · exact hE _ _ _
    · split
      · exact ⟨_, _, acc, 4, PeriphAct.bus (pid := 0) (.slotEmpty _), rfl⟩
      · exact hE _ _ _
  case txSlotEmpty i w acc =>
    refine ⟨_, rfl, ?_⟩
    split
    · exact hE _ _ _
    · split
      · exact ⟨_, _, acc, 4, PeriphAct.bus (pid := 0) (.slotEmpty _), rfl⟩
      · exact hE _ _ _
  case rxAddrWr i v => exact ⟨_, rfl, busNext_regAccess fun c h => PeriphAct.bus (.addrWr c v h rfl)⟩
  case rxAddrRd i => exact ⟨_, rfl, busNext_regAccess fun c h => PeriphAct.bus (.addrRd c h rfl)⟩
  case rxSizeWr i v => exact ⟨_, rfl, busNext_regAccess fun c h => PeriphAct.bus (.sizeWr c v h rfl)⟩
  case rxSizeRd i => exact ⟨_, rfl, busNext_regAccess fun c h => PeriphAct.bus (.sizeRd c h rfl)⟩
  case rxConfigWr i v => exact ⟨_, rfl, busNext_regAccess fun c h => PeriphAct.bus (.configWr c v h rfl)⟩
  case rxConfigRd i => exact ⟨_, rfl, busNext_regAccess fun c h => PeriphAct.bus (.configRd c h rfl)⟩
  case rxBadOffset i w acc =>
    refine ⟨_, rfl, ?_⟩
    split
    · exact busNext_regAccess fun _ _ => busAct_invalid s
    · exact hE _ _ _
  case txAddrWr i v => exact ⟨_, rfl, busNext_regAccess fun c h => PeriphAct.bus (.addrWr c v h rfl)⟩
  case txAddrRd i => exact ⟨_, rfl, busNext_regAccess fun c h => PeriphAct.bus (.addrRd c h rfl)⟩
  case txSizeWr i v => exact ⟨_, rfl, busNext_regAccess fun c h => PeriphAct.bus (.sizeWr c v h rfl)⟩
  case txSizeRd i => exact ⟨_, rfl, busNext_regAccess fun c h => PeriphAct.bus (.sizeRd c h rfl)⟩
  case txConfigWr i v => exact ⟨_, rfl, busNext_regAccess fun c h => PeriphAct.bus (.configWr c v h rfl)⟩
  case txConfigRd i => exact ⟨_, rfl, busNext_regAccess fun c h => PeriphAct.bus (.configRd c h rfl)⟩
  case txBadOffset i w acc =>
    refine ⟨_, rfl, ?_⟩
    split
    · exact busNext_regAccess fun _ _ => busAct_invalid s
    · exact hE _ _ _
  all_goals cases hb

/-- Everything an executed operation can do, one case a rule. -/
inductive ExecCase (s : State) : Instr → State → Prop where
  | bus (i : Instr) (t : State) (hb : IsBus i) (h : BusNext s t) : ExecCase s i t
  | pushTx (c : ChanId) (bytes : List Byte) (hd : s.cfg.dirOf c = some .tx) :
      ExecCase s (.pushBytes c bytes) (s.refuse (.pushNotRx c))
  | push (c : ChanId) (bytes : List Byte) (hd : s.cfg.dirOf c = some .rx) :
      ExecCase s (.pushBytes c bytes) (s.pushBytes c bytes)
  | popRx (c : ChanId) (hd : s.cfg.dirOf c = some .rx) : ExecCase s (.rdqPop c) (s.refuse (.popNotTx c))
  | pop (c : ChanId) (w : Quad) (rest : List Quad) (hd : s.cfg.dirOf c = some .tx) (hq : (s.chan c).rdq = w :: rest) :
      ExecCase s (.rdqPop c) (s.popWord c w rest)
  | promote (c : ChanId) (hd : (s.cfg.dirOf c).isSome = true) (hp : (s.chan c).promo = true) :
      ExecCase s (.promote c) (s.promote c)
  | loop (h : s.loopDue = true) : ExecCase s .ctrlLoop s.ctrlLoop
  | tick (h : s.loopDue = false) : ExecCase s .tick { s with now := s.now + 1 }
  | deassert : ExecCase s (.reset false) s
  | reset (hq : s.quiescent = true) : ExecCase s (.reset true) s.resetBlock
  | resetRefused (hq : s.quiescent = false) : ExecCase s (.reset true) (s.refuse .resetNotQuiescent)
  | prepareRefused (c : ChanId) (hd : (s.cfg.dirOf c).isSome = true) (hn : s.nextChunk c = none) :
      ExecCase s (.prepareNextChunk c) (s.refuse (.prepareNoActive c))
  | prepare (c : ChanId) (x : Transfer) (hd : s.cfg.dirOf c = some .tx) (ha : (s.chan c).active = some x) :
      ExecCase s (.prepareNextChunk c) (s.advanceChunk c)
  | deliver (c : ChanId) (rdata : Quad) (hd : s.cfg.dirOf c = some .tx) :
      ExecCase s (.deliverChunk c rdata) (s.deliverChunk c rdata).state
  | finalize (c : ChanId) (hd : (s.cfg.dirOf c).isSome = true) (ha : (s.chan c).active.isSome = true) :
      ExecCase s (.finalize c) (s.finalize c)
  | ready (c : ChanId) (hd : (s.cfg.dirOf c).isSome = true) : ExecCase s (.channelReady c) (s.channelReady c)
  | post (req : Req) (hd : req.dir = .write) : ExecCase s (.postWrite req) (s.postWrite req)
  | enqueue (c : ChanId) (hd : (s.cfg.dirOf c).isSome = true) :
      ExecCase s (.enqueueTransfer c) (s.enqueueTransfer c).state
  | flush (c : ChanId) (x : Transfer) (hd : s.cfg.dirOf c = some .rx) (ha : (s.chan c).active = some x)
      (h1 : 1 ≤ (s.chan c).asm.length) (h4 : (s.chan c).asm.length ≤ 4) : ExecCase s (.flush c) (s.flush c x)
  | setOn (p : Fin 32) (b : Bool) (h : (s.cfg.periph p).isSome = true) : ExecCase s (.periphSetOn p b) (s.setOn p b)

theorem onChannel_next {s t : State} {c : ChanId} {act : Dir → Host.Outcome State Fault Refusal}
    (h : s.onChannel c act = .next t) : ∃ d, s.cfg.dirOf c = some d ∧ act d = .next t := by
  unfold State.onChannel at h
  cases hd : s.cfg.dirOf c with
  | none => rw [hd] at h; cases h
  | some d => rw [hd] at h; exact ⟨d, rfl, h⟩

/-- The cases of `exec`. -/
theorem exec_cases {i : Instr} {s t : State} (h : exec i s = .next t) : ExecCase s i t := by
  by_cases hb : IsBus i
  · obtain ⟨t', h', hn⟩ := exec_bus hb s
    rw [h] at h'
    cases h'
    exact .bus i t hb hn
  cases i
  case pushBytes c bytes =>
    obtain ⟨d, hd, h⟩ := onChannel_next h
    cases d <;> cases h
    · exact .push c bytes hd
    · exact .pushTx c bytes hd
  case rdqPop c =>
    obtain ⟨d, hd, h⟩ := onChannel_next h
    cases d
    · cases h; exact .popRx c hd
    · cases hq : (s.chan c).rdq with
      | nil => simp [hq, queuePop] at h
      | cons w rest =>
        simp only [hq, queuePop] at h
        cases h
        exact .pop c w rest hd hq
  case promote c =>
    obtain ⟨d, hd, h⟩ := onChannel_next h
    split at h
    · cases h; exact .promote c (by simp [hd]) ‹_›
    · cases h
  case ctrlLoop =>
    simp only [exec, execCtrlLoop] at h
    split at h
    · cases h; exact .loop ‹_›
    · cases h
  case tick =>
    simp only [exec, execTick] at h
    split at h
    · cases h
    · cases h; exact .tick (by simpa using ‹¬ s.loopDue = true›)
  case reset active =>
    simp only [exec, execReset] at h
    cases h
    cases active
    · exact .deassert
    · simp only [State.resetPulse]
      cases hq : s.quiescent
      · simpa using ExecCase.resetRefused hq
      · simpa using ExecCase.reset hq
  case prepareNextChunk c =>
    obtain ⟨d, hd, h⟩ := onChannel_next h
    cases hn : s.nextChunk c with
    | none => rw [hn] at h; cases h; exact .prepareRefused c (by simp [hd]) hn
    | some ch =>
      rw [hn] at h
      cases h
      unfold State.nextChunk at hn
      split at hn
      · rename_i hx
        cases ha : (s.chan c).active with
        | none => simp [ha] at hn
        | some x => exact .prepare c x hx ha
      · cases hn
  case deliverChunk c rdata =>
    obtain ⟨d, hd, h⟩ := onChannel_next h
    cases d <;> cases h
    exact .deliver c rdata hd
  case finalize c =>
    obtain ⟨d, hd, h⟩ := onChannel_next h
    split at h
    · cases h; exact .finalize c (by simp [hd]) ‹_›
    · cases h
  case channelReady c =>
    obtain ⟨d, hd, h⟩ := onChannel_next h
    cases h
    exact .ready c (by simp [hd])
  case postWrite req =>
    simp only [exec, execPostWrite] at h
    split at h
    · cases h; exact .post req ‹_›
    · cases h
  case enqueueTransfer c =>
    obtain ⟨d, hd, h⟩ := onChannel_next h
    cases h
    exact .enqueue c (by simp [hd])
  case flush c =>
    obtain ⟨d, hd, h⟩ := onChannel_next h
    split at h
    · rename_i x ha
      split at h
      · rename_i hl
        cases h
        exact .flush c x hd ha hl.1 hl.2
      · cases h
    · cases h
  case periphSetOn p b =>
    simp only [exec, execPeriphSetOn] at h
    cases hp : s.cfg.periph p with
    | none => rw [hp] at h; cases h
    | some q => rw [hp] at h; cases h; exact .setOn p b (by simp [hp])
  all_goals exact absurd rfl hb

/-- A step of the machine is one executed operation, in the state after the fetch (00_scope R9). -/
theorem step_cases {s t : State} (h : step s = .next t) :
    s.refused = none ∧ ExecCase s.afterFetch s.upcomingInstr t := by
  unfold step at h
  split at h
  · split at h
    · cases h
    · exact ⟨‹_›, exec_cases h⟩
  · cases h

/-- Everything one agent's step can do (00_scope R9): the cases of `exec` without the calls between components. -/
inductive AgentCase (s : State) : State → Prop where
  | bus (t : State) (h : BusNext s t) : AgentCase s t
  | pushTx (c : ChanId) (hd : s.cfg.dirOf c = some .tx) : AgentCase s (s.refuse (.pushNotRx c))
  | push (c : ChanId) (bytes : List Byte) (hd : s.cfg.dirOf c = some .rx) : AgentCase s (s.pushBytes c bytes)
  | popRx (c : ChanId) (hd : s.cfg.dirOf c = some .rx) : AgentCase s (s.refuse (.popNotTx c))
  | pop (c : ChanId) (w : Quad) (rest : List Quad) (hd : s.cfg.dirOf c = some .tx) (hq : (s.chan c).rdq = w :: rest) :
      AgentCase s (s.popWord c w rest)
  | promote (c : ChanId) (hd : (s.cfg.dirOf c).isSome = true) (hp : (s.chan c).promo = true) : AgentCase s (s.promote c)
  | loop (h : s.loopDue = true) : AgentCase s s.ctrlLoop
  | tick (h : s.loopDue = false) : AgentCase s { s with now := s.now + 1 }
  | deassert : AgentCase s s
  | reset (hq : s.quiescent = true) : AgentCase s s.resetBlock
  | resetRefused (hq : s.quiescent = false) : AgentCase s (s.refuse .resetNotQuiescent)

theorem isBus_decodeBus (cfg : Cfg) (on : Fin 32 → Bool) (off : Word) (acc : Acc) (size : Nat) :
    IsBus (decodeBus cfg on off acc size) := by
  unfold IsBus decodeBus decodeRxWindow decodeTxWindow
  cases acc <;> (repeat' split) <;> rfl

/-- A step of the machine is one agent's step, in the state after the fetch (00_scope R9). -/
theorem step_agentCases {s t : State} (h : step s = .next t) : s.refused = none ∧ AgentCase s.afterFetch t := by
  obtain ⟨h1, h2⟩ := step_cases h
  refine ⟨h1, ?_⟩
  unfold State.upcomingInstr at h2
  cases hc : s.upcoming with
  | bus off acc size =>
    rw [hc] at h2
    have hb := isBus_decodeBus s.cfg s.isOn off acc size
    change ExecCase _ (decodeBus s.cfg s.isOn off acc size) t at h2
    generalize decodeBus s.cfg s.isOn off acc size = i at hb h2
    cases h2 with
    | bus _ _ _ hn => exact .bus t hn
    | _ => cases hb
  | _ =>
    rw [hc] at h2
    simp only [decode] at h2
    cases h2 <;>
      first
        | exact absurd (‹_› : IsBus _) (fun h => by cases h)
        | exact .pushTx _ ‹_› | exact .push _ _ ‹_› | exact .popRx _ ‹_› | exact .pop _ _ _ ‹_› ‹_›
        | exact .promote _ ‹_› ‹_› | exact .loop ‹_› | exact .tick ‹_› | exact .deassert | exact .reset ‹_›
        | exact .resetRefused ‹_›

end Sys2Proof.Machine.Laws
end

