-- ==== Sys2Proof/Laws/Frames.lean ====
section
/-! SUPPORT. What no operation but the tick changes, and what every operation only adds to: time, configuration, history,
sticky faults and the refusal mark; and which channel an operation can touch. -/
namespace Sys2Proof.Machine.Laws
open Sys2Proof.Laws

/-- The configuration and the cycle are equal, the history only grows, no fault and no refusal mark is lost
(00_scope R17, 10_state R42, 60_exceptions R284, R285). -/
structure StickyFrame (s t : State) : Prop where
  cfg     : t.cfg = s.cfg
  now     : t.now = s.now
  hist    : ∃ evs, t.hist = s.hist ++ evs
  faults  : ∀ f ∈ s.faults, f ∈ t.faults
  refused : ∀ k, s.refused = some k → t.refused = some k

theorem StickyFrame.refl (s : State) : StickyFrame s s := ⟨rfl, rfl, ⟨[], by simp⟩, fun _ h => h, fun _ h => h⟩

theorem StickyFrame.trans {s t u : State} (h : StickyFrame s t) (g : StickyFrame t u) : StickyFrame s u := by
  obtain ⟨e1, h1⟩ := h.hist
  obtain ⟨e2, h2⟩ := g.hist
  exact ⟨g.cfg.trans h.cfg, g.now.trans h.now, ⟨e1 ++ e2, by rw [h2, h1, List.append_assoc]⟩,
    fun f hf => g.faults f (h.faults f hf), fun k hk => g.refused k (h.refused k hk)⟩

/-- The frame sees five fields only. -/
theorem stickyFrame_of_eq {s t : State} (h1 : t.cfg = s.cfg) (h2 : t.now = s.now) (h3 : t.hist = s.hist)
    (h4 : t.faults = s.faults) (h5 : t.refused = s.refused) : StickyFrame s t :=
  ⟨h1, h2, ⟨[], by simp [h3]⟩, fun f hf => h4 ▸ hf, fun k hk => h5 ▸ hk⟩

theorem DrainFrame.sticky {s t : State} (h : DrainFrame s t) : StickyFrame s t := by
  obtain ⟨e, h1, _⟩ := h.hist
  exact ⟨h.cfg, h.now, ⟨e, h1⟩, fun f hf => h.faults ▸ hf, h.refused⟩

theorem IssueFrame.sticky {s t : State} (h : IssueFrame s t) : StickyFrame s t := by
  obtain ⟨e, h1, _⟩ := h.hist
  exact ⟨h.cfg, h.now, ⟨e, h1⟩, h.faults, h.refused⟩

theorem stickyFrame_raise (s : State) (k : FaultKind) : StickyFrame s (s.raise k) :=
  ⟨rfl, rfl, ⟨[], by simp⟩, fun f hf => (mem_raise_faults s k f).2 (.inl hf), fun _ h => h⟩

theorem stickyFrame_emit (s : State) (ev : Event) : StickyFrame s (s.emit ev) :=
  ⟨rfl, rfl, ⟨[ev], rfl⟩, fun _ h => h, fun _ h => h⟩

theorem stickyFrame_setChan (s : State) (c : ChanId) (ch : Chan) : StickyFrame s (s.setChan c ch) :=
  (drainFrame_setChan s c ch).sticky

theorem stickyFrame_refuse (s : State) (k : RefusalKind) : StickyFrame s (s.refuse k) := (drainFrame_refuse s k).sticky

theorem stickyFrame_log (s : State) (k : LogKind) : StickyFrame s (s.log k) := stickyFrame_emit s _

theorem stickyFrame_logIfFull (s : State) (q : QueueId) (d : Bool) : StickyFrame s (s.logIfFull q d) := by
  cases d
  · exact StickyFrame.refl s
  · exact stickyFrame_log s _

theorem stickyFrame_enqueueRecord (s : State) (c : ChanId) (addr size : Option Word) (width : BitVec 2) (cont : Bool) :
    StickyFrame s (s.enqueueRecord c addr size width cont).state := by
  unfold State.enqueueRecord
  split
  · exact stickyFrame_refuse s _
  · split
    · exact stickyFrame_refuse s _
    · unfold State.requestPromotion State.busyUpdate State.pushPending
      exact (((((stickyFrame_setChan s c _).trans (stickyFrame_setChan _ c _)).trans
        (stickyFrame_logIfFull _ _ _)).trans (stickyFrame_setChan _ c _)).trans (stickyFrame_emit _ _)).trans
        (stickyFrame_setChan _ c _)

theorem stickyFrame_configWr (s : State) (c : ChanId) (v : Word) : StickyFrame s (s.configWr c v).state := by
  unfold State.configWr
  split
  · exact StickyFrame.refl s
  · split
    · exact stickyFrame_log s _
    · split
      · rw [flow_reply_state]
        exact (stickyFrame_setChan s c _).trans (stickyFrame_enqueueRecord (s.storeConfig c v) c _ _ _ _)
      · exact stickyFrame_setChan s c _

/-- An access undone leaves the history longer by logs. -/
theorem StickyFrame.undone {s t : State} (_ : StickyFrame s t) : StickyFrame s (s.undone t) :=
  ⟨rfl, rfl, ⟨_, rfl⟩, fun _ h => h, fun _ h => h⟩

theorem stickyFrame_periphAct {pid : Fin 32} {s : State} {r : Reply} (h : PeriphAct pid s r) : StickyFrame s r.state := by
  cases h with
  | invalid => exact StickyFrame.refl s
  | offNoop acc => cases acc <;> exact stickyFrame_of_eq rfl rfl rfl rfl rfl
  | slotEmpty off => exact stickyFrame_log s _
  | addrWr c v _ _ => exact stickyFrame_setChan s c _
  | addrRd c _ _ => unfold State.addrRd State.stagedRd; split <;> exact stickyFrame_of_eq rfl rfl rfl rfl rfl
  | sizeWr c v _ _ => exact stickyFrame_setChan s c _
  | sizeRd c _ _ => unfold State.sizeRd State.stagedRd; split <;> exact stickyFrame_of_eq rfl rfl rfl rfl rfl
  | configWr c v _ _ => exact stickyFrame_configWr s c v
  | configRd c _ _ => exact StickyFrame.refl s
  | transfer c base size width cont _ _ =>
    unfold State.handlerTransfer
    split
    · exact stickyFrame_log s _
    · rw [flow_reply_state]; exact stickyFrame_enqueueRecord s c _ _ _ _

/-- The event ends a register access. -/
def endsAccess : Event → Bool
  | .bus _ _ _ _ => true
  | .log _ => false
  | .mem _ _ _ => false
  | .complete _ => false
  | .busy _ _ => false
  | .txdata _ _ => false
  | .reset => false

/-- The history is longer by events that end no register access. -/
def AddsNoBus (s t : State) : Prop := ∃ evs, t.hist = s.hist ++ evs ∧ ∀ e ∈ evs, endsAccess e = false

theorem AddsNoBus.of_hist_eq {s t : State} (h : t.hist = s.hist) : AddsNoBus s t := ⟨[], by simp [h], by simp⟩

theorem AddsNoBus.one {s t : State} {ev : Event} (h : t.hist = s.hist ++ [ev]) (he : endsAccess ev = false) : AddsNoBus s t :=
  ⟨[ev], h, by simpa using he⟩

theorem AddsNoBus.trans {s t u : State} (h : AddsNoBus s t) (g : AddsNoBus t u) : AddsNoBus s u := by
  obtain ⟨e1, h1, h2⟩ := h
  obtain ⟨e2, g1, g2⟩ := g
  exact ⟨e1 ++ e2, by rw [g1, h1, List.append_assoc], fun e he => (List.mem_append.1 he).elim (h2 e) (g2 e)⟩

theorem AddsNoBus.undone {s t : State} (h : AddsNoBus s t) : AddsNoBus s (s.undone t) := by
  obtain ⟨evs, h1, h2⟩ := h
  exact ⟨_, undone_hist h1, fun e he => h2 e (List.mem_filter.1 he).1⟩

theorem addsNoBus_enqueueRecord (s : State) (c : ChanId) (addr size : Option Word) (width : BitVec 2) (cont : Bool) :
    AddsNoBus s (s.enqueueRecord c addr size width cont).state := by
  unfold State.enqueueRecord
  split
  · exact .of_hist_eq rfl
  · split
    · exact .of_hist_eq rfl
    · have hl : ∀ (u : State) (q : QueueId) (d : Bool), AddsNoBus u (u.logIfFull q d) := fun u q d => by
        cases d
        · exact .of_hist_eq rfl
        · exact .one rfl rfl
      have hs : ∀ (u : State) (ch : Chan), AddsNoBus u (u.setChan c ch) := fun u ch => .of_hist_eq rfl
      have he : ∀ (u : State) (v : Busy), AddsNoBus u (u.emit (.busy c v)) := fun u v => .one rfl rfl
      unfold State.requestPromotion State.busyUpdate State.pushPending
      exact (((((hs s _).trans (hs _ _)).trans (hl _ _ _)).trans (hs _ _)).trans (he _ _)).trans (hs _ _)

/-- Only the register-access entry emits BUS events (43_controller R235). -/
theorem addsNoBus_periphAct {pid : Fin 32} {s : State} {r : Reply} (h : PeriphAct pid s r) : AddsNoBus s r.state := by
  cases h with
  | offNoop acc => cases acc <;> exact .of_hist_eq rfl
  | slotEmpty off => exact .one rfl rfl
  | addrRd c _ _ => unfold State.addrRd State.stagedRd; split <;> exact .of_hist_eq rfl
  | sizeRd c _ _ => unfold State.sizeRd State.stagedRd; split <;> exact .of_hist_eq rfl
  | configWr c v _ _ =>
    unfold State.configWr
    split
    · exact .of_hist_eq rfl
    · split
      · exact .one rfl rfl
      · split
        · rw [flow_reply_state]
          exact AddsNoBus.trans (t := s.storeConfig c v) (.of_hist_eq rfl) (addsNoBus_enqueueRecord _ c _ _ _ _)
        · exact .of_hist_eq rfl
  | transfer c base size width cont _ _ =>
    unfold State.handlerTransfer
    split
    · exact .one rfl rfl
    · rw [flow_reply_state]; exact addsNoBus_enqueueRecord s c _ _ _ _
  | _ => exact .of_hist_eq rfl

theorem addsNoBus_periphRun {pid : Fin 32} {s : State} {r : Reply} (h : PeriphRun pid s r) : AddsNoBus s r.state :=
  h.lift AddsNoBus AddsNoBus.trans AddsNoBus.undone addsNoBus_periphAct

theorem stickyFrame_busAct {s : State} {r : Reply} (h : BusAct s r) : StickyFrame s r.state := by
  cases h with
  | cgWrite v =>
    rw [cgWrite_eq]
    exact (cgLoop_eq s.cg v 32 { s with cg := v }) ▸ stickyFrame_of_eq rfl rfl rfl rfl rfl
  | cgRead => exact StickyFrame.refl s
  | evtin off acc => exact (stickyFrame_log s _).trans (stickyFrame_raise _ _)
  | periph pid r h => exact h.lift StickyFrame StickyFrame.trans StickyFrame.undone stickyFrame_periphAct

theorem stickyFrame_close (r : Reply) (off : Word) (acc : Acc) (size : Nat) :
    StickyFrame r.state (r.close off acc size) := by
  unfold Reply.close
  split
  · exact stickyFrame_emit _ _
  · exact StickyFrame.refl _

theorem stickyFrame_busNext {s t : State} (h : BusNext s t) : StickyFrame s t := by
  obtain ⟨r, off, acc, size, hr, rfl⟩ := h
  exact (stickyFrame_busAct hr).trans (stickyFrame_close r off acc size)

theorem stickyFrame_postWrite (s : State) (req : Req) : StickyFrame s (s.postWrite req) :=
  stickyFrame_of_eq rfl rfl rfl rfl rfl

theorem stickyFrame_channelReady (s : State) (c : ChanId) : StickyFrame s (s.channelReady c) := by
  unfold State.channelReady
  split
  · exact stickyFrame_of_eq rfl rfl rfl rfl rfl
  · exact StickyFrame.refl s

theorem stickyFrame_flush (s : State) (c : ChanId) (x : Transfer) : StickyFrame s (s.flush c x) := by
  unfold State.flush
  split
  · exact ((stickyFrame_setChan s c _).trans (stickyFrame_postWrite _ _)).trans (drainFrame_finalize _ c).sticky
  · exact (stickyFrame_setChan s c _).trans (stickyFrame_postWrite _ _)

theorem stickyFrame_pushBytes (s : State) (c : ChanId) (bytes : List Byte) : StickyFrame s (s.pushBytes c bytes) := by
  unfold State.pushBytes
  split
  · exact stickyFrame_log s _
  · split
    · exact stickyFrame_log s _
    · split
      · exact stickyFrame_refuse s _
      · split
        · exact (stickyFrame_setChan s c _).trans (stickyFrame_flush _ c _)
        · exact stickyFrame_setChan s c _

theorem stickyFrame_promote (s : State) (c : ChanId) : StickyFrame s (s.promote c) := by
  unfold State.promote
  split
  · exact (stickyFrame_setChan s c _).trans (stickyFrame_channelReady _ c)
  · exact stickyFrame_setChan s c _

theorem stickyFrame_ctrlLoop (s : State) : StickyFrame s s.ctrlLoop := by
  obtain ⟨u, hu, e⟩ := ctrlLoop_frame s
  have h : StickyFrame s (runStart s) := stickyFrame_of_eq rfl rfl rfl rfl rfl
  rw [e]
  exact (h.trans hu.sticky).trans (stickyFrame_of_eq rfl rfl rfl rfl rfl)

theorem stickyFrame_resetBlock (s : State) : StickyFrame s s.resetBlock := by
  rw [(resetBlock_spec s).1]
  exact ⟨rfl, rfl, ⟨_, List.append_assoc _ _ _⟩, fun _ h => h, fun _ h => h⟩

/-- Every operation but the tick. -/
theorem stickyFrame_exec {i : Instr} {s t : State} (h : exec i s = .next t) (hi : i ≠ .tick) : StickyFrame s t := by
  cases exec_cases h with
  | bus _ _ _ hn => exact stickyFrame_busNext hn
  | pushTx => exact stickyFrame_refuse s _
  | push => exact stickyFrame_pushBytes s _ _
  | popRx => exact stickyFrame_refuse s _
  | pop c w rest => exact (stickyFrame_setChan s c _).trans (stickyFrame_emit _ _)
  | promote => exact stickyFrame_promote s _
  | loop => exact stickyFrame_ctrlLoop s
  | tick => exact absurd rfl hi
  | deassert => exact StickyFrame.refl s
  | reset => exact stickyFrame_resetBlock s
  | resetRefused => exact stickyFrame_refuse s _
  | prepareRefused => exact stickyFrame_refuse s _
  | prepare => exact stickyFrame_setChan s _ _
  | deliver => exact (drainFrame_deliverChunk s _ _).sticky
  | finalize => exact (drainFrame_finalize s _).sticky
  | ready => exact stickyFrame_channelReady s _
  | post => exact stickyFrame_postWrite s _
  | enqueue => exact stickyFrame_enqueueRecord s _ _ _ _ _
  | flush => exact stickyFrame_flush s _ _
  | setOn => exact stickyFrame_of_eq rfl rfl rfl rfl rfl

/-- The tick changes the cycle only (43_controller R260). -/
theorem exec_tick {s t : State} (h : exec .tick s = .next t) : t = { s with now := s.now + 1 } := by
  cases exec_cases h with
  | bus _ _ hb _ => cases hb
  | tick => rfl

/-! Which channel an operation touches (10_state R67). -/

theorem OtherChansSame.refl (c : ChanId) (s : State) : OtherChansSame c s s := ⟨fun _ _ => rfl, fun _ => rfl⟩

theorem otherChansSame_finalize (s : State) (c : ChanId) : OtherChansSame c s (s.finalize c) := by
  refine ⟨fun c' hc => ?_, (drainFrame_finalize s c).isOn⟩
  have hp : (s.pushFree c).chan c' = s.chan c' := by
    unfold State.pushFree
    split <;> simp [hc]
  simp [State.finalize, State.requestPromotion, State.busyUpdate, hc, hp]

theorem otherChansSame_deliverChunk (s : State) (c : ChanId) (rdata : Quad) :
    OtherChansSame c s (s.deliverChunk c rdata).state := by
  unfold State.deliverChunk State.pushRdq
  split
  · exact otherChansSame_of_periphs (OtherChansSame.refl c s) rfl
  · split
    · exact otherChansSame_trans (otherChansSame_trans (otherChansSame_setChan s c _) (otherChansSame_setChan _ c _))
        (otherChansSame_finalize _ c)
    · exact otherChansSame_trans (otherChansSame_setChan s c _) (otherChansSame_setChan _ c _)

theorem otherChansSame_enqueueRecord (s : State) (c : ChanId) (addr size : Option Word) (width : BitVec 2) (cont : Bool) :
    OtherChansSame c s (s.enqueueRecord c addr size width cont).state := by
  unfold State.enqueueRecord
  split
  · exact otherChansSame_of_periphs (OtherChansSame.refl c s) rfl
  · split
    · exact otherChansSame_of_periphs (OtherChansSame.refl c s) rfl
    · refine ⟨fun c' hc => ?_, fun p => ?_⟩ <;>
        simp [State.requestPromotion, State.busyUpdate, State.pushPending, *]

theorem otherChansSame_enqueueTransfer (s : State) (c : ChanId) : OtherChansSame c s (s.enqueueTransfer c).state :=
  otherChansSame_enqueueRecord s c _ _ _ _

theorem otherChansSame_configWr (s : State) (c : ChanId) (v : Word) : OtherChansSame c s (s.configWr c v).state := by
  unfold State.configWr
  split
  · exact OtherChansSame.refl c s
  · split
    · exact otherChansSame_of_periphs (OtherChansSame.refl c s) rfl
    · split
      · rw [flow_reply_state]
        exact otherChansSame_trans (otherChansSame_setChan s c _) (otherChansSame_enqueueTransfer _ c)
      · exact otherChansSame_setChan s c _

theorem otherChansSame_channelReady (s : State) (c d : ChanId) : OtherChansSame d s (s.channelReady c) := by
  unfold State.channelReady
  split
  · exact otherChansSame_of_periphs (OtherChansSame.refl d s) rfl
  · exact OtherChansSame.refl d s

theorem otherChansSame_promote (s : State) (c : ChanId) : OtherChansSame c s (s.promote c) := by
  unfold State.promote
  split
  · exact otherChansSame_trans (otherChansSame_setChan s c _) (otherChansSame_channelReady _ c c)
  · exact otherChansSame_setChan s c _

theorem otherChansSame_flush (s : State) (c : ChanId) (x : Transfer) : OtherChansSame c s (s.flush c x) := by
  unfold State.flush
  split
  · exact otherChansSame_trans (otherChansSame_of_periphs (otherChansSame_setChan s c _) rfl)
      (otherChansSame_finalize _ c)
  · exact otherChansSame_of_periphs (otherChansSame_setChan s c _) rfl

theorem otherChansSame_pushBytes (s : State) (c : ChanId) (bytes : List Byte) :
    OtherChansSame c s (s.pushBytes c bytes) := by
  have hr := OtherChansSame.refl c s
  unfold State.pushBytes
  split
  · exact otherChansSame_of_periphs hr (log_periphs s _)
  · split
    · exact otherChansSame_of_periphs hr (log_periphs s _)
    · split
      · exact otherChansSame_of_periphs hr (refuse_periphs s _)
      · split
        · exact otherChansSame_trans (otherChansSame_setChan s c _) (otherChansSame_flush _ c _)
        · exact otherChansSame_setChan s c _

end Sys2Proof.Machine.Laws
end

