-- ==== Sys2Proof/Laws/Invariant.lean ====
section
/-! SUPPORT. The invariant of the block, piece by piece: what each operation keeps of one channel's part (`ChanOk`), of the
controller's part and of the schedule. -/
namespace Sys2Proof.Machine.Laws
open Sys2Proof.Laws

/-- `ChanInv` of a channel record, given its direction and how many of its reads are in flight. -/
structure ChanOk (d : Option Dir) (n : Nat) (c : ChanId) (ch : Chan) : Prop where
  records : ch.free + ch.pending.length + (if ch.active.isSome then 1 else 0) = 2
  pending : ∀ t ∈ ch.pending, FreshTransfer c t
  active  : ∀ t, ch.active = some t → RunningTransfer c t
  asmRx   : ∀ t, ch.active = some t → d = some .rx → ch.asm.length < min 4 t.remaining
  asmIdle : ch.active = none ∨ d ≠ some .rx → ch.asm = []
  rdqTx   : d ≠ some .tx → ch.rdq = []
  reads   : ∀ t, ch.active = some t → t.received + 4 * n ≤ 4 * chunks (t.total - t.remaining)
  idle    : ch.active = none → n = 0
  unfinished : ∀ t, ch.active = some t → t.received < t.total
  readsTx : d ≠ some .tx → n = 0

theorem chanInv_iff (s : State) (c : ChanId) : ChanInv s c ↔ ChanOk (s.cfg.dirOf c) (inflightOf s c) c (s.chan c) :=
  ⟨fun h => ⟨h.records, h.pending, h.active, h.asmRx, h.asmIdle, h.rdqTx, h.reads, h.idle, h.unfinished, h.readsTx⟩,
   fun h => ⟨h.records, h.pending, h.active, h.asmRx, h.asmIdle, h.rdqTx, h.reads, h.idle, h.unfinished, h.readsTx⟩⟩

section
variable {d : Option Dir} {n : Nat} {c : ChanId} {ch : Chan} {x : Transfer}

/-- The registers, the busy/full signal and the promotion request are free. -/
theorem ChanOk.registers (h : ChanOk d n c ch) (a z : Option Word) (k : Bool) (w : BitVec 2) (b : Busy) (p : Bool) :
    ChanOk d n c { ch with addr := a, size := z, contCfg := k, widthCfg := w, busy := b, promo := p } :=
  ⟨h.records, h.pending, h.active, h.asmRx, h.asmIdle, h.rdqTx, h.reads, h.idle, h.unfinished, h.readsTx⟩

theorem ChanOk.free_lt (h : ChanOk d n c ch) (ha : ch.active = some x) : ch.free < 2 := by
  have := h.records; simp [ha] at this; omega

theorem ChanOk.pending_lt (h : ChanOk d n c ch) (hf : 0 < ch.free) : ch.pending.length < 2 := by
  have := h.records; omega

/-- 41_channel R176: the record an enable builds is fresh. -/
theorem freshTransfer_new {addr size : Option Word} (width : BitVec 2) (cont : Bool)
    (hr : stagingRefusal c addr size = none) : FreshTransfer c (newTransfer c addr size width cont) := by
  obtain ⟨a, z, h1, h2, h3, h4, h5⟩ := (stagingRefusal_eq_none_iff _ _ _).1 hr
  refine ⟨rfl, rfl, rfl, ?_, rfl, ?_, ?_⟩ <;> simp only [newTransfer, h1, h2, Option.getD_some]
  · omega
  · exact h4
  · exact h5

/-- 41_channel R176. -/
theorem ChanOk.enqueue (h : ChanOk d n c ch) {addr size : Option Word} (width : BitVec 2) (cont : Bool)
    (hr : stagingRefusal c addr size = none) (hf : 0 < ch.free) (b : Busy) :
    ChanOk d n c { ch with
      free := ch.free - 1, pending := ch.pending ++ [newTransfer c addr size width cont], busy := b, promo := true } := by
  refine ⟨?_, ?_, h.active, h.asmRx, h.asmIdle, h.rdqTx, h.reads, h.idle, h.unfinished, h.readsTx⟩
  · have := h.records; simp only [List.length_append, List.length_singleton]; omega
  · intro t ht
    rcases List.mem_append.1 ht with ht | ht
    · exact h.pending t ht
    · rw [List.mem_singleton.1 ht]; exact freshTransfer_new width cont hr

theorem runningTransfer_of_fresh (h : FreshTransfer c x) : RunningTransfer c x :=
  ⟨h.owner, h.some1, by rw [h.whole], by rw [h.start]; exact h.aligned, by rw [h.start, h.whole]; exact h.noWrap,
    .inr (by rw [h.whole]; simp)⟩

/-- 41_channel R181. -/
theorem ChanOk.promote (h : ChanOk d n c ch) {rest : List Transfer} (ha : ch.active = none) (hp : ch.pending = x :: rest) :
    ChanOk d n c { ch with promo := false, active := some x, pending := rest } := by
  have hx : FreshTransfer c x := h.pending x (by simp [hp])
  have hn : n = 0 := h.idle ha
  have h1 := hx.some1
  have hasm : ch.asm = [] := h.asmIdle (.inl ha)
  refine ⟨?_, fun t ht => h.pending t (by simp [hp, ht]), fun t ht => ?_, fun t ht _ => ?_, fun _ => hasm, h.rdqTx,
    fun t ht => ?_, fun e => (by cases e), fun t ht => ?_, h.readsTx⟩
  · have := h.records; simp [ha, hp] at this ⊢; omega
  · cases ht; exact runningTransfer_of_fresh hx
  · cases ht; simp [hasm, hx.whole]; omega
  · cases ht; simp [hx.none0, hn]
  · cases ht; rw [hx.none0]; omega

/-- 41_channel R190, assembly. -/
theorem ChanOk.assemble (h : ChanOk d n c ch) (hd : d = some .rx) (ha : ch.active = some x) {bytes : List Byte}
    (hl : ch.asm.length + bytes.length < min 4 x.remaining) : ChanOk d n c { ch with asm := ch.asm ++ bytes } := by
  refine ⟨h.records, h.pending, h.active, fun t ht _ => ?_, fun e => ?_, h.rdqTx, h.reads, h.idle, h.unfinished, h.readsTx⟩
  · simp only [ha] at ht; cases ht; simpa using hl
  · rcases e with e | e
    · simp [ha] at e
    · exact absurd hd e

theorem chunks_sub_four {m : Nat} (h : 4 ≤ m) : chunks m = chunks (m - 4) + 1 := by
  unfold chunks; omega

/-- A transfer whose next whole window is taken (41_channel R191, R195). -/
theorem runningTransfer_advance (h : RunningTransfer c x) (h4 : 4 ≤ x.remaining) :
    RunningTransfer c { x with cur := x.cur + 4, remaining := x.remaining - 4 } := by
  have hb := h.bound
  have hw := h.noWrap
  have e := chunks_sub_four h4
  have ea := h.aligned
  have e4 : (x.cur + 4).toNat = (x.cur.toNat + 4) % 2 ^ 32 := by rw [BitVec.toNat_add]; rfl
  refine ⟨h.owner, h.some1, by simp only; omega, ?_, ?_, ?_⟩
  · simp only [e4]; omega
  · simp only [e4]; omega
  · right
    have := h.whole
    rcases this with h0 | h0
    · omega
    · simp only; omega

/-- 41_channel R191, a flush of a whole window before the end. -/
theorem ChanOk.flushMore (h : ChanOk d n c ch) (hd : d = some .rx) (ha : ch.active = some x) (h4 : 4 < x.remaining) :
    ChanOk d n c { ch with asm := [], active := some { x with cur := x.cur + 4, remaining := x.remaining - 4 } } := by
  have hn : n = 0 := h.readsTx (by simp [hd])
  refine ⟨?_, h.pending, fun t ht => ?_, fun t ht _ => ?_, fun _ => rfl, h.rdqTx, fun t ht => ?_, fun e => (by cases e),
    fun t ht => ?_, h.readsTx⟩
  · simpa [ha] using h.records
  · cases ht; exact runningTransfer_advance (h.active x ha) (by omega)
  · cases ht; simp; omega
  · cases ht
    have := h.reads x ha
    have hb := (h.active x ha).bound
    simp only [hn, chunks] at this ⊢
    omega
  · cases ht; exact h.unfinished x ha

/-- 41_channel R205: a finished transfer, with none of its reads in flight. -/
theorem ChanOk.finish (h : ChanOk d n c ch) (ha : ch.active = some x) (rdq : List Quad) (hq : d ≠ some .tx → rdq = [])
    (b : Busy) : ChanOk d 0 c { ch with asm := [], active := none, free := ch.free + 1, rdq := rdq, busy := b, promo := true } := by
  refine ⟨?_, h.pending, fun t ht => (by cases ht), fun t ht => (by cases ht), fun _ => rfl, hq, fun t ht => (by cases ht),
    fun _ => rfl, fun t ht => (by cases ht), fun _ => rfl⟩
  have := h.records; simp [ha] at this ⊢; omega

/-- 41_channel R197. -/
theorem ChanOk.pop (h : ChanOk d n c ch) (hd : d = some .tx) (rest : List Quad) : ChanOk d n c { ch with rdq := rest } :=
  ⟨h.records, h.pending, h.active, h.asmRx, h.asmIdle, fun e => absurd hd e, h.reads, h.idle, h.unfinished, h.readsTx⟩

/-- The transfer after its next chunk is prepared (41_channel R195). -/
def advanced (x : Transfer) : Transfer := { x with cur := x.cur + 4, remaining := x.remaining - min 4 x.remaining }

theorem runningTransfer_advanced (h : RunningTransfer c x) : RunningTransfer c (advanced x) := by
  by_cases h4 : 4 ≤ x.remaining
  · have : advanced x = { x with cur := x.cur + 4, remaining := x.remaining - 4 } := by
      simp [advanced, Nat.min_eq_left h4]
    rw [this]; exact runningTransfer_advance h h4
  · have e4 : (x.cur + 4).toNat = (x.cur.toNat + 4) % 2 ^ 32 := by rw [BitVec.toNat_add]; rfl
    have e0 : x.remaining - min 4 x.remaining = 0 := by omega
    have ea := h.aligned
    have hlt := (x.cur + 4).isLt
    refine ⟨h.owner, h.some1, ?_, ?_, ?_, ?_⟩ <;> simp only [advanced, e0]
    · omega
    · rw [e4]; omega
    · simp [chunks] at hlt ⊢; omega
    · exact .inl trivial

/-- 41_channel R195 in the loop's step 2: the read is in flight (`m = n + 1`) or lost (`m = n`). -/
theorem ChanOk.advance (h : ChanOk d n c ch) (hd : d = some .tx) (ha : ch.active = some x) (hr : 0 < x.remaining)
    {m : Nat} (hm : m ≤ n + 1) : ChanOk d m c { ch with active := some (advanced x) } := by
  have hx := h.active x ha
  have hasm : ch.asm = [] := h.asmIdle (.inr (by simp [hd]))
  refine ⟨?_, h.pending, fun t ht => ?_, fun t ht e => (by rw [hd] at e; cases e), fun _ => hasm, h.rdqTx, fun t ht => ?_,
    fun e => (by cases e), fun t ht => ?_, fun e => absurd hd e⟩
  · simpa [ha] using h.records
  · cases ht; exact runningTransfer_advanced hx
  · cases ht
    have h1 := h.reads x ha
    have hb := hx.bound
    have hw := hx.whole
    simp only [advanced, chunks] at h1 ⊢
    omega
  · cases ht; exact h.unfinished x ha

/-- 41_channel R196, when words are still to come. -/
theorem ChanOk.deliverMore (h : ChanOk d (n + 1) c ch) (hd : d = some .tx) (ha : ch.active = some x)
    (hx : x.received + 4 < x.total) (rdq : List Quad) :
    ChanOk d n c { ch with active := some { x with received := x.received + 4 }, rdq := rdq } := by
  have hr := h.active x ha
  refine ⟨?_, h.pending, fun t ht => ?_, fun t ht e => (by rw [hd] at e; cases e), fun _ => h.asmIdle (.inr (by simp [hd])),
    fun e => absurd hd e, fun t ht => ?_, fun e => (by cases e), fun t ht => ?_, fun e => absurd hd e⟩
  · simpa [ha] using h.records
  · cases ht; exact ⟨hr.owner, hr.some1, hr.bound, hr.aligned, hr.noWrap, hr.whole⟩
  · cases ht; have := h.reads x ha; simp only; omega
  · cases ht; exact hx

/-- The last word of a transfer is the only one in flight, and the transfer has no chunk left (41_channel R196). -/
theorem ChanOk.last_alone (h : ChanOk d (n + 1) c ch) (ha : ch.active = some x) (hx : x.total ≤ x.received + 4) :
    n = 0 ∧ x.remaining = 0 := by
  have h1 := h.reads x ha
  have h2 := (h.active x ha).bound
  have h3 := (h.active x ha).whole
  simp only [chunks] at h1
  omega

/-- A channel with a read in flight has an active transfer and is TX (10_state R56). -/
theorem ChanOk.active_of_reads (h : ChanOk d (n + 1) c ch) : d = some .tx ∧ ∃ x, ch.active = some x := by
  constructor
  · by_contra hd; have := h.readsTx hd; omega
  · cases ha : ch.active with
    | none => have := h.idle ha; omega
    | some x => exact ⟨x, rfl⟩

/-- 70_reset_and_hazards R311, R312, of a quiescent channel. -/
theorem ChanOk.reset (h : ChanOk d n c ch) (hq : chanQuiescent ch = true) : ChanOk d n c (resetChan d ch) := by
  simp only [chanQuiescent, Bool.and_eq_true, Option.isNone_iff_eq_none, List.isEmpty_iff] at hq
  obtain ⟨⟨⟨⟨h1, h2⟩, h3⟩, h4⟩, h5⟩ := hq
  refine ⟨?_, h.pending, fun t ht => (by cases ht), fun t ht => (by cases ht), fun _ => ?_, h.rdqTx, fun t ht => (by cases ht),
    fun _ => h.idle h1, fun t ht => (by cases ht), h.readsTx⟩
  · simpa [resetChan, h1] using h.records
  · simp [resetChan, h3]

/-- A channel as constructed (10_state R45). -/
theorem chanOk_init (d : Option Dir) (c : ChanId) : ChanOk d 0 c Chan.init := by
  refine ⟨by simp [Chan.init, Config.poolCap], fun t ht => (by cases ht), fun t ht => (by cases ht), fun t ht => (by cases ht),
    fun _ => rfl, fun _ => rfl, fun t ht => (by cases ht), fun _ => rfl, fun t ht => (by cases ht), fun _ => rfl⟩

end

/-! The block without its schedule. -/

/-- A queued write is one the block may issue (20_memory R91, R96, R97). -/
def WriteOk (cfg : Cfg) (r : Req) : Prop :=
  r.dir = .write ∧ r.data.length = r.size ∧ 1 ≤ r.size ∧ r.size ≤ 4 ∧ r.addr.toNat % 4 = 0
    ∧ r.addr.toNat + r.size ≤ 2 ^ 32 ∧ cfg.dirOf r.tag = some .rx

/-- `Inv` without the wake-up and the order of the pipeline. -/
structure CoreInv (s : State) : Prop where
  chans    : ∀ c, ChanOk (s.cfg.dirOf c) (inflightOf s c) c (s.chan c)
  buffers  : s.rbfree + s.inflight.length = s.cfg.nrb
  readyNodup : s.ready.Nodup
  readyTx  : ∀ c ∈ s.ready, s.cfg.dirOf c = some .tx ∧ ∃ t, (s.chan c).active = some t ∧ 0 < t.remaining
  writes   : ∀ r ∈ s.wq, WriteOk s.cfg r
  flags    : FlagsFollowCg s
  faultsNodup : s.faults.Nodup

theorem core_of_inv {s : State} (h : Inv s) : CoreInv s :=
  ⟨fun c => (chanInv_iff s c).1 (h.chans c), h.buffers, h.readyNodup, h.readyTx, h.writes, h.flags, h.faultsNodup⟩

/-- Work outstanding has a run scheduled (43_controller R254, R257, R263). -/
structure WakeInv (s : State) : Prop where
  work : s.wq ≠ [] ∨ s.ready ≠ [] → s.wake ≠ none
  read : ∀ e ∈ s.inflight, ∃ t, s.wake = some t ∧ t ≤ e.ts

theorem wakeInv_of_inv {s : State} (h : Inv s) : WakeInv s := ⟨h.wakeWork, h.wakeRead⟩

theorem inv_of {s : State} (h : CoreInv s) (hs : ScheduleInv s) (hw : WakeInv s) : Inv s :=
  ⟨fun c => (chanInv_iff s c).2 (h.chans c), h.buffers, h.readyNodup, h.readyTx, h.writes, h.flags, h.faultsNodup, hs,
    hw.work, hw.read⟩

/-- The core sees the configuration, the channels, the flags and the controller's queues only. -/
theorem CoreInv.of_eq {s t : State} (h : CoreInv s) (h1 : t.cfg = s.cfg) (h2 : t.periphs = s.periphs)
    (h3 : t.inflight = s.inflight) (h4 : t.rbfree = s.rbfree) (h5 : t.ready = s.ready) (h6 : t.wq = s.wq)
    (h7 : t.cg = s.cg) (h8 : t.faults = s.faults) : CoreInv t := by
  have hi : ∀ c, inflightOf t c = inflightOf s c := fun c => by simp [inflightOf, h3]
  refine ⟨fun c => ?_, ?_, h5 ▸ h.readyNodup, fun c hc => ?_, fun r hr => ?_, fun p hp => ?_, h8 ▸ h.faultsNodup⟩
  · rw [h1, hi, chan_of_periphs_eq h2]; exact h.chans c
  · rw [h4, h3, h1]; exact h.buffers
  · rw [h1, chan_of_periphs_eq h2]; exact h.readyTx c (h5 ▸ hc)
  · rw [h1]; exact h.writes r (h6 ▸ hr)
  · rw [isOn_of_periphs_eq h2, h7]; exact h.flags p (h1 ▸ hp)

/-- One channel changes, and keeps its own part. -/
theorem CoreInv.setChan {s : State} (h : CoreInv s) {c : ChanId} {ch : Chan}
    (hc : ChanOk (s.cfg.dirOf c) (inflightOf s c) c ch)
    (hr : c ∈ s.ready → ∃ t, ch.active = some t ∧ 0 < t.remaining) : CoreInv (s.setChan c ch) := by
  refine ⟨fun c' => ?_, h.buffers, h.readyNodup, fun c' hc' => ?_, h.writes, fun p hp => ?_, h.faultsNodup⟩
  · by_cases e : c' = c
    · subst e; rw [chan_setChan_self]; exact hc
    · rw [chan_setChan_ne _ _ e]; exact h.chans c'
  · refine ⟨(h.readyTx c' hc').1, ?_⟩
    by_cases e : c' = c
    · subst e; rw [chan_setChan_self]; exact hr hc'
    · rw [chan_setChan_ne _ _ e]; exact (h.readyTx c' hc').2
  · rw [isOn_setChan]; exact h.flags p hp

theorem CoreInv.emit {s : State} (h : CoreInv s) (ev : Event) : CoreInv (s.emit ev) := h.of_eq rfl rfl rfl rfl rfl rfl rfl rfl
theorem CoreInv.log {s : State} (h : CoreInv s) (k : LogKind) : CoreInv (s.log k) := h.emit _
theorem CoreInv.refuse {s : State} (h : CoreInv s) (k : RefusalKind) : CoreInv (s.refuse k) :=
  h.of_eq rfl rfl rfl rfl rfl rfl rfl rfl

/-- 60_exceptions R284: the sticky faults are a set (log entry 15). -/
theorem faults_nodup_raise {s : State} (h : s.faults.Nodup) (k : FaultKind) : (s.raise k).faults.Nodup := by
  simp only [State.raise]
  split
  · exact h
  · rename_i hk
    rw [List.nodup_append]
    exact ⟨h, by simp, fun a ha b hb => by rw [List.mem_singleton.1 hb]; exact fun e => hk (e ▸ ha)⟩

theorem CoreInv.raise {s : State} (h : CoreInv s) (k : FaultKind) : CoreInv (s.raise k) :=
  ⟨h.chans, h.buffers, h.readyNodup, h.readyTx, h.writes, h.flags, faults_nodup_raise h.faultsNodup k⟩

/-- Registers, busy/full signal and promotion request of a channel. -/
theorem CoreInv.registers {s : State} (h : CoreInv s) (c : ChanId) (a z : Option Word) (k : Bool) (w : BitVec 2) (b : Busy)
    (p : Bool) :
    CoreInv (s.setChan c { s.chan c with addr := a, size := z, contCfg := k, widthCfg := w, busy := b, promo := p }) :=
  h.setChan ((h.chans c).registers a z k w b p) (fun hr => (h.readyTx c hr).2)

theorem CoreInv.enqueueRecord {s : State} (h : CoreInv s) (c : ChanId) (addr size : Option Word) (width : BitVec 2)
    (cont : Bool) : CoreInv (s.enqueueRecord c addr size width cont).state := by
  cases hr : stagingRefusal c addr size with
  | some k => rw [enqueueRecord_refused width cont hr]; exact h.refuse k
  | none =>
    by_cases hf : (s.chan c).free = 0
    · rw [enqueueRecord_empty width cont hr hf]; exact h.refuse _
    · have hf : 0 < (s.chan c).free := by omega
      rw [enqueueRecord_eq width cont hr hf ((h.chans c).pending_lt hf)]
      exact (h.setChan ((h.chans c).enqueue width cont hr hf _) (fun hc => (h.readyTx c hc).2)).emit _

theorem CoreInv.enqueue {s : State} (h : CoreInv s) (c : ChanId) : CoreInv (s.enqueueTransfer c).state :=
  h.enqueueRecord c _ _ _ _

theorem CoreInv.storeConfig {s : State} (h : CoreInv s) (c : ChanId) (v : Word) : CoreInv (s.storeConfig c v) :=
  h.registers c _ _ _ _ _ _

theorem CoreInv.configWr {s : State} (h : CoreInv s) (c : ChanId) (v : Word) : CoreInv (s.configWr c v).state := by
  unfold State.configWr
  split
  · exact h
  · split
    · exact h.log _
    · split
      · rw [flow_reply_state]; exact (h.storeConfig c v).enqueue c
      · exact h.storeConfig c v

/-- 43_controller R237 with 10_state R61: the flags follow the mask. -/
theorem CoreInv.cgWrite {s : State} (h : CoreInv s) (hwf : s.cfg.wf = true) (v : Word) : CoreInv (s.cgWrite v).state := by
  have e : (s.cgWrite v).state = { s with cg := v, periphs := (s.cgWrite v).state.periphs } := by
    rw [cgWrite_eq]; exact cgLoop_eq s.cg v 32 { s with cg := v }
  have hc : ∀ c, (s.cgWrite v).state.chan c = s.chan c := fun c => by
    rw [cgWrite_eq]; exact cgLoop_chan s.cg v 32 { s with cg := v } c
  have hcfg : (s.cgWrite v).state.cfg = s.cfg := by rw [e]
  have hin : ∀ c, inflightOf (s.cgWrite v).state c = inflightOf s c := fun c => by rw [e]; rfl
  have hcg : (s.cgWrite v).state.cg = v := by rw [e]
  refine ⟨fun c => ?_, ?_, ?_, fun c hr => ?_, fun r hr => ?_, fun p hp => ?_, ?_⟩
  · rw [hcfg, hin, hc]; exact h.chans c
  · rw [e]; exact h.buffers
  · rw [e]; exact h.readyNodup
  · rw [hcfg, hc]; exact h.readyTx c (by rw [e] at hr; exact hr)
  · rw [hcfg]; exact h.writes r (by rw [e] at hr; exact hr)
  · rw [hcfg] at hp
    rw [cgWrite_isOn, hcg]
    split
    · rfl
    · rename_i hn
      have ht := table_cid hwf hp
      have hn : s.cg.getLsbD p.cid.val = v.getLsbD p.cid.val := by
        by_contra hne; exact hn ⟨hne, p, ht, rfl⟩
      rw [h.flags p hp, hn]
  · rw [e]; exact h.faultsNodup

theorem CoreInv.periphAct {pid : Fin 32} {s : State} {r : Reply} (ha : PeriphAct pid s r) (h : CoreInv s) :
    CoreInv r.state := by
  cases ha with
  | invalid => exact h
  | offNoop acc => cases acc; exacts [h.of_eq rfl rfl rfl rfl rfl rfl rfl rfl, h]
  | slotEmpty off => exact h.log _
  | addrWr c v _ _ => exact h.registers c _ _ _ _ _ _
  | addrRd c _ _ =>
    unfold State.addrRd State.stagedRd
    split; exacts [h, h.of_eq rfl rfl rfl rfl rfl rfl rfl rfl]
  | sizeWr c v _ _ => exact h.registers c _ _ _ _ _ _
  | sizeRd c _ _ =>
    unfold State.sizeRd State.stagedRd
    split; exacts [h, h.of_eq rfl rfl rfl rfl rfl rfl rfl rfl]
  | configWr c v _ _ => exact h.configWr c v
  | configRd c _ _ => exact h
  | transfer c base size width cont _ _ =>
    unfold State.handlerTransfer
    split
    · exact h.log _
    · rw [flow_reply_state]; exact h.enqueueRecord c _ _ _ _

/-- Every register access keeps the core. -/
theorem CoreInv.bus {s t : State} (h : CoreInv s) (hwf : s.cfg.wf = true) (hb : BusNext s t) : CoreInv t := by
  obtain ⟨r, off, acc, size, ha, rfl⟩ := hb
  have hr : CoreInv r.state := by
    cases ha with
    | cgWrite v => exact h.cgWrite hwf v
    | cgRead => exact h
    | evtin off acc => exact (h.log _).raise _
    | periph pid r hp =>
      exact hp.lift (fun a b => CoreInv a → CoreInv b) (fun f g ha => g (f ha))
        (fun _ ha => ha.of_eq rfl rfl rfl rfl rfl rfl rfl rfl) CoreInv.periphAct h
  unfold Reply.close
  split
  · exact hr.emit _
  · exact hr

theorem CoreInv.wake {s : State} (h : CoreInv s) (w : Option Nat) : CoreInv { s with wake := w } :=
  h.of_eq rfl rfl rfl rfl rfl rfl rfl rfl

/-- 41_channel R181, 43_controller R245: a promoted TX channel was not ready before. -/
theorem CoreInv.promote {s : State} (h : CoreInv s) (c : ChanId) : CoreInv (s.promote c) := by
  by_cases hi : (s.chan c).active.isSome = true ∨ (s.chan c).pending = []
  · rw [promote_idle hi]; exact h.registers c _ _ _ _ _ _
  · simp only [not_or, Bool.not_eq_true, Option.isSome_eq_false_iff, Option.isNone_iff_eq_none] at hi
    obtain ⟨x, rest, hp⟩ := List.exists_cons_of_ne_nil hi.2
    have hnr : c ∉ s.ready := fun hc => by
      obtain ⟨_, t, ht, _⟩ := h.readyTx c hc
      rw [hi.1] at ht; cases ht
    rw [promote_eq hi.1 hp]
    have h1 := h.setChan ((h.chans c).promote hi.1 hp) (fun hc => absurd hc hnr)
    by_cases hd : s.cfg.dirOf c = some .tx
    · rw [channelReady_tx (s := s.setChan c _) hd]
      refine ⟨h1.chans, h1.buffers, ?_, fun c' hc' => ?_, h1.writes, h1.flags, h1.faultsNodup⟩
      · show (s.ready ++ [c]).Nodup
        rw [List.nodup_append]
        exact ⟨h.readyNodup, by simp, fun a ha b hb => by rw [List.mem_singleton.1 hb]; exact fun e => hnr (e ▸ ha)⟩
      · rcases List.mem_append.1 hc' with hc' | hc'
        · exact h1.readyTx c' hc'
        · rw [List.mem_singleton.1 hc']
          have hx := ((h.chans c).pending x (by simp [hp]))
          refine ⟨hd, x, ?_, by have := hx.some1; have := hx.whole; omega⟩
          show ((s.setChan c _).chan c).active = some x
          rw [chan_setChan_self]
    · rw [channelReady_not_tx (s := s.setChan c _) (by simpa using hd)]; exact h1

/-- A posted write keeps the core (43_controller R246). -/
theorem CoreInv.postWrite {s : State} (h : CoreInv s) {r : Req} (hr : WriteOk s.cfg r) : CoreInv (s.postWrite r) := by
  rw [postWrite_eq]
  refine ⟨h.chans, h.buffers, h.readyNodup, h.readyTx, fun r' hr' => ?_, h.flags, h.faultsNodup⟩
  rcases List.mem_append.1 hr' with hr' | hr'
  · exact h.writes r' hr'
  · rw [List.mem_singleton.1 hr']; exact hr

/-- 41_channel R190, R191. -/
theorem CoreInv.pushBytes {s : State} (h : CoreInv s) {c : ChanId} (hd : s.cfg.dirOf c = some .rx) (bytes : List Byte) :
    CoreInv (s.pushBytes c bytes) := by
  cases ha : (s.chan c).active with
  | none => simp only [State.pushBytes, ha]; exact h.log _
  | some x =>
    have hc := h.chans c
    have hx := hc.active x ha
    have hl := hc.asmRx x ha hd
    have hnr : c ∉ s.ready := fun hr => by have := (h.readyTx c hr).1; rw [hd] at this; cases this
    have hn : inflightOf s c = 0 := hc.readsTx (by simp [hd])
    have hq : (s.chan c).rdq = [] := hc.rdqTx (by simp [hd])
    by_cases h1 : 4 < (s.chan c).asm.length + bytes.length
    · simp only [State.pushBytes, ha, Config.asmWindow, if_pos h1]; exact h.log _
    by_cases h2 : x.remaining < (s.chan c).asm.length + bytes.length
    · simp only [State.pushBytes, ha, Config.asmWindow, if_neg h1, if_pos h2]; exact h.refuse _
    by_cases h3 : (s.chan c).asm.length + bytes.length = 4 ∨ (s.chan c).asm.length + bytes.length = x.remaining
    · rw [pushBytes_flush ha (by omega) (by omega) h3]
      have hlen : ((s.chan c).asm ++ bytes).length = (s.chan c).asm.length + bytes.length := List.length_append
      have hw : WriteOk s.cfg (flushReq c x ((s.chan c).asm ++ bytes)) := by
        have hno := hx.noWrap
        refine ⟨rfl, rfl, ?_, ?_, hx.aligned, ?_, hd⟩ <;> simp only [flushReq, hlen]
        · omega
        · omega
        · simp only [chunks] at hno; omega
      by_cases h4 : (s.chan c).asm.length + bytes.length < x.remaining
      · have h44 : (s.chan c).asm.length + bytes.length = 4 := by omega
        rw [flush_more (by simp only [chan_setChan_self, hlen]; exact h4)]
        simp only [chan_setChan_self, setChan_setChan, hlen, h44, flushAdvance]
        exact (h.setChan (hc.flushMore hd ha (by omega)) (fun hr => absurd hr hnr)).postWrite hw
      · rw [flush_last (by simp only [chan_setChan_self, hlen]; omega)
          (by simp only [chan_setChan_self]; exact hc.free_lt ha)]
        simp only [chan_setChan_self, setChan_setChan]
        have hf := hc.finish ha [] (fun _ => rfl) .available
        rw [← hq] at hf
        exact (((h.setChan (by rw [hn]; exact hf) (fun hr => absurd hr hnr)).postWrite hw).emit _).emit _
    · rw [pushBytes_assemble ha (by omega) (by omega)]
      exact h.setChan (hc.assemble hd ha (by omega)) (fun hr => absurd hr hnr)

/-- 70_reset_and_hazards R310 to R314. -/
theorem CoreInv.resetBlock {s : State} (h : CoreInv s) (hq : s.quiescent = true) :
    CoreInv s.resetBlock := by
  obtain ⟨e, h1, h2, h3, _⟩ := resetBlock_spec s
  have hcfg : s.resetBlock.cfg = s.cfg := by rw [e]
  have hin : ∀ c, inflightOf s.resetBlock c = inflightOf s c := fun c => by rw [e]; rfl
  have hq' : ∀ c ∈ s.cfg.channels, chanQuiescent (s.chan c) = true := by
    simp only [State.quiescent, Bool.and_eq_true, List.all_eq_true] at hq
    exact hq.1.1.1.1
  have hrd : s.resetBlock.ready = [] := by
    simp only [State.quiescent, Bool.and_eq_true, List.isEmpty_iff] at hq
    rw [e]; exact hq.1.1.2
  refine ⟨fun c => ?_, ?_, ?_, fun c hr => ?_, fun r hr => ?_, fun p hp => ?_, ?_⟩
  · rw [hcfg, hin]
    by_cases hc : c ∈ s.cfg.channels
    · rw [h1 c hc]; exact (h.chans c).reset (hq' c hc)
    · rw [h2 c hc]; exact h.chans c
  · rw [e]; exact h.buffers
  · rw [e]; exact h.readyNodup
  · rw [hrd] at hr; cases hr
  · rw [hcfg]; exact h.writes r (by rw [e] at hr; exact hr)
  · rw [hcfg] at hp
    have hcg : s.resetBlock.cg = 0 := by rw [e]
    rw [h3 p hp, hcg]; simp
  · rw [e]; exact h.faultsNodup

end Sys2Proof.Machine.Laws
end

