-- ==== Sys2Proof/Laws/Operands.lean ====
section
/-! SUPPORT. The bits of a CONFIG read value (30_encoding R131, R142) and the byte places of a request (20_memory R94). -/
namespace Sys2Proof.Machine.Laws

/-- One bit, shifted to its place. -/
theorem getLsbD_bitWord_shift (b : Bool) (k j : Nat) :
    (bitWord b <<< k).getLsbD j = (decide (j < 32) && (b && decide (j = k))) := by
  cases b
  · simp [bitWord]
  · simp only [bitWord, if_true, BitVec.getLsbD_shiftLeft]
    by_cases hj : j < 32 <;> by_cases hk : j < k <;> simp [hj, hk] <;> omega

/-- The width field, shifted to its place. -/
theorem getLsbD_width_shift (w : BitVec 2) (k j : Nat) :
    ((w.setWidth 32) <<< k).getLsbD j = (decide (j < 32) && (decide (k ≤ j) && w.getLsbD (j - k))) := by
  simp only [BitVec.getLsbD_shiftLeft, BitVec.getLsbD_setWidth]
  by_cases hj : j < 32
  · by_cases hk : j < k
    · simp [hj, hk, Nat.not_le.2 hk]
    · have h1 : j - k < 32 := by omega
      simp [hj, hk, Nat.not_lt.1 hk, h1]
  · simp [hj]

/-- Every bit of a CONFIG read value. -/
theorem getLsbD_cfgReadValue (l : Layout) (pend slot : Bool) (w : BitVec 2) (cont : Bool) (j : Nat) :
    (cfgReadValue l pend slot w cont).getLsbD j =
      (decide (j < 32) && ((pend && decide (j = l.pendingBit)) || (slot && decide (j = l.enBit))
        || (decide (l.widthLo ≤ j) && w.getLsbD (j - l.widthLo)) || (cont && decide (j = l.contBit)))) := by
  simp only [cfgReadValue, BitVec.getLsbD_or, getLsbD_bitWord_shift, getLsbD_width_shift, ← Bool.and_or_distrib_left]

/-- The width field is two bits wide. -/
theorem getLsbD_width_of_far (w : BitVec 2) {k j : Nat} (h : j ≠ k) (h' : j ≠ k + 1) :
    (decide (k ≤ j) && w.getLsbD (j - k)) = false := by
  by_cases hk : k ≤ j
  · simp [hk]; exact BitVec.getLsbD_of_ge w (j - k) (by omega)
  · simp [hk]

/-- One cell a byte. -/
theorem length_cellsFrom (a : Nat) (l : List Byte) : (cellsFrom a l).length = l.length := by
  induction l generalizing a with
  | nil => rfl
  | cons b r ih => simp [cellsFrom, ih]

/-- Byte `k` stands at `a + k`. -/
theorem getElem?_cellsFrom (l : List Byte) (a k : Nat) (hk : k < l.length) :
    (cellsFrom a l)[k]? = some (a + k, l[k]) := by
  induction l generalizing a k with
  | nil => simp at hk
  | cons b r ih =>
    cases k with
    | zero => rfl
    | succ k =>
      simp only [cellsFrom, List.getElem?_cons_succ]
      rw [ih (a + 1) k (by simpa using hk)]
      simp; omega

end Sys2Proof.Machine.Laws
end

