-- ==== Sys2Proof/Laws/Leaves.lean ====
section
/-! SUPPORT. What a register access of a channel leaves, in the terms of Safety: one lemma for each shared operation. -/
namespace Sys2Proof.Machine.Laws

/-- The event that ends a 4-byte access (43_controller R235). -/
theorem close_answered (r : Reply) (off : Word) (acc : Acc) : r.close off acc 4 = r.state.answered off acc r.resp := by
  unfold Reply.close State.answered
  cases r.resp <;> rfl

/-- Storing what a channel holds changes nothing. -/
theorem setChan_self (s : State) (c : ChanId) : s.setChan c (s.chan c) = s := by
  refine state_ext rfl rfl (periphs_ext (fun c' => ?_) fun p => isOn_setChan s c _ p) rfl rfl rfl rfl rfl rfl rfl rfl rfl rfl
    rfl rfl rfl
  by_cases h : c' = c
  · subst h; exact chan_setChan_self s c' _
  · exact chan_setChan_ne _ _ h

/-- 41_channel R176: the refusals of `enqueue_transfer` in their order, else the transfer queued, on channel `c` with record
`ch`. -/
theorem enqueueRecord_leaves (s : State) (c : ChanId) (ch : Chan) (addr size : Option Word) (w : BitVec 2) (k : Bool)
    (hf : 0 < ch.free) (hp : ch.pending.length < 2) :
    EnqueueLeaves s c ch addr size w k ((s.setChan c ch).enqueueRecord c addr size w k).reply.state
      ((s.setChan c ch).enqueueRecord c addr size w k).reply.resp := by
  have hc : (s.setChan c ch).chan c = ch := chan_setChan_self s c ch
  have ref : ∀ x, stagingRefusal c addr size = some x →
      RefusedLeaves s c ch x ((s.setChan c ch).enqueueRecord c addr size w k).reply.state
        ((s.setChan c ch).enqueueRecord c addr size w k).reply.resp := by
    intro x hx
    rw [enqueueRecord_refused w k hx]
    exact ⟨rfl, hc, ⟨fun c' h => chan_setChan_ne _ _ h, fun p => isOn_setChan s c ch p⟩, rfl, rfl⟩
  unfold EnqueueLeaves
  cases addr with
  | none => exact ref _ rfl
  | some a =>
    cases size with
    | none => exact ref _ rfl
    | some z =>
      dsimp only
      split
      · exact ref _ (by simp [stagingRefusal, *])
      · split
        · exact ref _ (by simp [stagingRefusal, *])
        · split
          · rename_i h1 h2 h3
            refine ref _ ?_
            unfold stagingRefusal
            dsimp only
            rw [if_neg h1, if_neg h2, if_pos (by simpa [chunks] using h3)]
          · rename_i h1 h2 h3
            have hr : stagingRefusal c (some a) (some z) = none :=
              (stagingRefusal_eq_none_iff _ _ _).2 ⟨a, z, rfl, rfl, by omega, by omega, by simpa [chunks] using h3⟩
            rw [enqueueRecord_eq w k hr (by rw [hc]; exact hf) (by rw [hc]; exact hp)]
            refine ⟨rfl, ⟨⟨fun c' h => ?_, fun p => ?_⟩, rfl⟩, ?_, ?_⟩
            · simp [chan_setChan_ne _ _ h]
            · simp
            · simp [newTransfer]
            · simp

/-- 41_channel R175: a CONFIG write, all its outcomes. -/
theorem configWr_leaves (s : State) (c : ChanId) (v : Word) (h : (s.chan c).pending.length < 2 ∨ (s.chan c).free = 0) :
    ConfigWriteLeaves s c v (s.configWr c v).state (s.configWr c v).resp := by
  unfold ConfigWriteLeaves State.configWr cfgClear cfgEn
  by_cases h1 : v.getLsbD s.cfg.layout.clearBit = true
  · simp [h1]
  · by_cases h2 : v.getLsbD s.cfg.layout.enBit = true
    · by_cases h3 : (s.chan c).free = 0
      · simp only [h1, h2, h3, if_true, and_self]
        exact ⟨rfl, rfl⟩
      · have e := enqueueRecord_leaves s c (storedChan s.cfg.layout (s.chan c) v) (s.chan c).addr (s.chan c).size
          (v.extractLsb' s.cfg.layout.widthLo 2) (v.getLsbD s.cfg.layout.contBit) (Nat.pos_of_ne_zero h3)
          (h.resolve_right h3)
        have e2 : (s.storeConfig c v).enqueueTransfer c
            = (s.setChan c (storedChan s.cfg.layout (s.chan c) v)).enqueueRecord c (s.chan c).addr (s.chan c).size
                (v.extractLsb' s.cfg.layout.widthLo 2) (v.getLsbD s.cfg.layout.contBit) := by
          simp [State.enqueueTransfer, State.storeConfig, cfgWidth, cfgCont, storedChan]
        simp only [h1, h2, h3, and_false, if_true, if_false, Bool.false_eq_true, Bool.true_eq_false]
        rw [e2]
        exact e
    · simp [h1, h2, State.storeConfig, onlyChan_setChan, storedChan, cfgCont, cfgWidth]

/-- 41_channel R177, 30_encoding R131: the bits of the CONFIG read value. -/
theorem isConfigWord_configValue {l : Layout} (h : l.bitsWf = true) (ch : Chan) : IsConfigWord l ch (configValue l ch) := by
  simp only [Layout.bitsWf, Layout.configBits, Bool.and_eq_true, decide_eq_true_eq, List.all_cons, List.all_nil,
    List.nodup_cons, List.mem_cons, not_or, List.not_mem_nil, not_false_eq_true, List.nodup_nil, and_true] at h
  obtain ⟨⟨⟨n1, n2, n3, n4, _⟩, ⟨_, n7, n8, _⟩, ⟨n10, n11, _⟩, ⟨n13, _⟩, _⟩, b1, b2, b3, b4, b5, _⟩ := h
  refine ⟨?_, ?_, ?_, ?_, fun b hb => ?_⟩ <;> simp only [configValue]
  · rw [getLsbD_cfgReadValue, getLsbD_width_of_far _ n1 n2]
    simp [b1, n3, n4]
  · apply BitVec.eq_of_getLsbD_eq
    intro j hj
    rw [BitVec.getLsbD_extractLsb', getLsbD_cfgReadValue]
    have : j = 0 ∨ j = 1 := by omega
    rcases this with rfl | rfl <;> simp [b2, b3, n7, n8, n10, n11, Ne.symm n1, Ne.symm n2]
  · rw [getLsbD_cfgReadValue, getLsbD_width_of_far _ (Ne.symm n7) (Ne.symm n10)]
    simp [b4, n13, Ne.symm n3, slotAvailable]
  · rw [getLsbD_cfgReadValue, getLsbD_width_of_far _ (Ne.symm n8) (Ne.symm n11)]
    simp only [b5, Ne.symm n13, Ne.symm n4, nothingQueued]
    cases ch.pending <;> simp
  · simp only [List.mem_cons, List.not_mem_nil, or_false, not_or] at hb
    rw [getLsbD_cfgReadValue, getLsbD_width_of_far _ hb.2.1 hb.2.2.1]
    simp [hb]

theorem stagedRd_leaves (s : State) (r : Option Word) : StagedReadLeaves s r (s.stagedRd r).state (s.stagedRd r).resp := by
  cases r with
  | none => exact ⟨rfl, _, rfl, fun _ h => by cases h⟩
  | some a => exact ⟨rfl, a, rfl, fun _ h => Option.some.inj h⟩

/-- 41_channel R171 to R178: an access to any register offset of a channel. -/
theorem channelAccess_leaves {s : State} (hb : s.cfg.layout.bitsWf = true) (c : ChanId) (r : Nat) (acc : Acc)
    (h : (s.chan c).pending.length < 2 ∨ (s.chan c).free = 0) :
    RegisterLeaves s c r acc (s.channelAccess c r acc).state (s.channelAccess c r acc).resp := by
  unfold RegisterLeaves State.channelAccess
  split
  · cases acc with
    | rd => exact stagedRd_leaves s _
    | wr v => exact ⟨onlyChan_setChan s c _, rfl, chan_setChan_self s c _, rfl⟩
  · split
    · cases acc with
      | rd => exact stagedRd_leaves s _
      | wr v => exact ⟨onlyChan_setChan s c _, rfl, chan_setChan_self s c _, rfl⟩
    · split
      · cases acc with
        | rd => exact ⟨rfl, _, rfl, isConfigWord_configValue hb _⟩
        | wr v => exact configWr_leaves s c v h
      · exact ⟨rfl, rfl⟩

/-- 60_exceptions R281: a register access of a channel that answers INVALID changes nothing. -/
theorem registerLeaves_invalid {s t : State} {c : ChanId} {r : Nat} {acc : Acc}
    (h : RegisterLeaves s c r acc t (some .invalid)) : t = s := by
  unfold RegisterLeaves at h
  split at h
  · cases acc <;> simp [StagedReadLeaves] at h
  · split at h
    · cases acc <;> simp [StagedReadLeaves] at h
    · split at h
      · cases acc with
        | rd => simp at h
        | wr v =>
          simp only [ConfigWriteLeaves] at h
          split at h
          · exact h.1
          · split at h
            · simp at h
            · split at h
              · simp at h
              · simp only [EnableLeaves, EnqueueLeaves] at h
                repeat' split at h
                all_goals simp [RefusedLeaves] at h
      · exact h.1

/-- 30_encoding R121: a write is not answered with a word, a read not without one. -/
theorem registerLeaves_word {s t : State} {c : ChanId} {r : Nat} {acc : Acc} {x : Resp}
    (h : RegisterLeaves s c r acc t (some x)) : (acc = .rd → x ≠ .ok) ∧ (acc ≠ .rd → ∀ d, x ≠ .okData d) := by
  unfold RegisterLeaves at h
  split at h
  · cases acc <;> simp_all [StagedReadLeaves]
    grind
  · split at h
    · cases acc <;> simp_all [StagedReadLeaves]
      grind
    · split at h
      · cases acc with
        | rd => simp at h; grind
        | wr v =>
          simp only [ConfigWriteLeaves, EnableLeaves, EnqueueLeaves, RefusedLeaves] at h
          repeat' split at h
          all_goals simp_all
      · simp_all

/-- A handler that hands one register access on answers as that register does (log entry 12). -/
theorem answered_last {s t : State} {c : ChanId} {r : Nat} {a acc : Acc} {resp : Option Resp}
    (h : RegisterLeaves s c r a t resp) (ha : a = .rd ↔ acc = .rd) :
    (Reply.mk t resp).answered s acc .last = Reply.mk t resp := by
  cases resp with
  | none => rfl
  | some x =>
    obtain ⟨h1, h2⟩ := registerLeaves_word h
    cases x with
    | invalid => rw [registerLeaves_invalid h]; simp [Reply.answered, State.invalidAccess]
    | ok => cases acc with
      | rd => exact absurd rfl (h1 (ha.2 rfl))
      | wr v => rfl
    | okData d => cases acc with
      | rd => rfl
      | wr v => exact absurd rfl (h2 (fun e => by cases ha.1 e) d)

end Sys2Proof.Machine.Laws
end

