-- ==== Sys2Proof/Laws/Loop.lean ====
section
/-! SUPPORT. The controller's run in a state that meets the invariant: it never refuses, step 1 or 2 issues, step 3 delivers
the reads that are due, step 4 re-arms (43_controller R250 to R254). -/
namespace Sys2Proof.Machine.Laws
open Sys2Proof.Laws

/-! The ordered queue (40_latency_queue R163). -/

theorem pushOrdered_perm {α : Type} (ts : α → Nat) (x : α) (q : List α) : (pushOrdered ts x q).Perm (x :: q) := by
  induction q with
  | nil => exact .refl _
  | cons e rest ih =>
    unfold pushOrdered
    split
    · exact .refl _
    · exact (ih.cons e).trans (.swap x e rest)

theorem pushOrdered_sorted {α : Type} (ts : α → Nat) (x : α) {q : List α} (h : q.Pairwise (fun a b => ts a ≤ ts b)) :
    (pushOrdered ts x q).Pairwise (fun a b => ts a ≤ ts b) := by
  induction q with
  | nil => simp [pushOrdered]
  | cons e rest ih =>
    rw [List.pairwise_cons] at h
    unfold pushOrdered
    split
    · rename_i hlt
      refine List.pairwise_cons.2 ⟨fun b hb => ?_, List.pairwise_cons.2 h⟩
      rcases List.mem_cons.1 hb with rfl | hb
      · omega
      · have := h.1 b hb; omega
    · rename_i hge
      refine List.pairwise_cons.2 ⟨fun b hb => ?_, ih h.2⟩
      rcases List.mem_cons.1 ((pushOrdered_perm ts x rest).mem_iff.1 hb) with rfl | hb
      · omega
      · exact h.1 b hb

/-- An item due later does not stand before the items that are due now. -/
theorem pushOrdered_filter {α : Type} (ts : α → Nat) (x : α) (q : List α) (n : Nat) (h : n < ts x) :
    (pushOrdered ts x q).filter (fun e => decide (ts e ≤ n)) = q.filter (fun e => decide (ts e ≤ n)) := by
  have hx : decide (ts x ≤ n) = false := by simp; omega
  induction q with
  | nil => simp [pushOrdered, hx]
  | cons e rest ih =>
    unfold pushOrdered
    split
    · simp [List.filter, hx]
    · simp only [List.filter_cons, ih]

/-! Steps 1 and 2. -/

/-- What the issue step leaves (43_controller R251, R252). -/
structure Issued (s t : State) : Prop where
  core    : CoreInv t
  rdq     : ∀ c, (t.chan c).rdq = (s.chan c).rdq
  reads   : t.inflight = s.inflight ∨ ∃ e, s.now < e.ts ∧ t.inflight = pushOrdered InFlight.ts e s.inflight
  refused : t.refused = s.refused
  hist    : ∃ evs, t.hist = s.hist ++ evs ∧ ∀ e ∈ evs, e.isQueueFull = false

theorem memIssue_eq (s : State) (req : Req) :
    s.memIssue req = { s with answers := (s.memIssue req).answers, draws := (s.memIssue req).draws
                              hist := s.hist ++ [.mem req s.nextAnswer s.now] } := by
  cases h : s.answers <;> simp [State.memIssue, State.takeAnswer, h, State.emit]

theorem CoreInv.memIssue {s : State} (h : CoreInv s) (req : Req) : CoreInv (s.memIssue req) := by
  rw [memIssue_eq]; exact h.of_eq rfl rfl rfl rfl rfl rfl rfl rfl

theorem issued_write {s : State} (h : CoreInv s) {req : Req} {rest : List Req} (hw : s.wq = req :: rest) :
    Issued s (s.issueWrite req rest) := by
  have h0 : CoreInv { s with wq := rest } :=
    ⟨h.chans, h.buffers, h.readyNodup, h.readyTx, fun r hr => h.writes r (by rw [hw]; exact List.mem_cons_of_mem _ hr),
      h.flags, h.faultsNodup⟩
  have h1 := h0.memIssue req
  unfold State.issueWrite
  cases hn : s.nextAnswer with
  | accept lat rdata =>
    refine ⟨h1, fun c => ?_, .inl ?_, ?_, [.mem req s.nextAnswer s.now], ?_, by simp [Event.isQueueFull]⟩ <;>
      rw [memIssue_eq] <;> rfl
  | reject =>
    refine ⟨(h1.log _).raise _, fun c => ?_, .inl ?_, ?_,
      [.mem req s.nextAnswer s.now, .log (.writeRejected req)], ?_, by simp [Event.isQueueFull]⟩ <;>
      rw [memIssue_eq] <;> simp [State.raise, State.log, State.emit, State.chan, State.nextAnswer]
  | pending =>
    refine ⟨(h1.log _).raise _, fun c => ?_, .inl ?_, ?_,
      [.mem req s.nextAnswer s.now, .log (.unimplementedResponse req)], ?_, by simp [Event.isQueueFull]⟩ <;>
      rw [memIssue_eq] <;> simp [State.raise, State.log, State.emit, State.chan, State.nextAnswer]

/-- The core of a state that a read of channel `c` leaves: in flight, or lost with its buffer returned. -/
theorem coreInv_of_read {s t : State} (h : CoreInv s) {c : ChanId} {rest : List ChanId} {x : Transfer}
    (hr : s.ready = c :: rest) (hb : 0 < s.rbfree) (ha : (s.chan c).active = some x)
    (h1 : t.cfg = s.cfg) (h2 : ∀ c', t.chan c' = if c' = c then { s.chan c with active := some (advanced x) } else s.chan c')
    (h3 : ∀ p, t.isOn p = s.isOn p) (h4 : t.cg = s.cg) (h5 : t.wq = s.wq) (h6 : t.faults.Nodup)
    (h7 : t.ready = if x.remaining ≤ 4 then rest else rest ++ [c])
    (h8 : (t.rbfree = s.rbfree - 1 ∧ ∃ e : InFlight, e.c = c ∧ t.inflight = pushOrdered InFlight.ts e s.inflight)
      ∨ (t.rbfree = s.rbfree ∧ t.inflight = s.inflight)) : CoreInv t := by
  have hnd := h.readyNodup
  rw [hr] at hnd
  have hnc : c ∉ rest := (List.nodup_cons.1 hnd).1
  obtain ⟨hd, y, hy, hpos⟩ := h.readyTx c (by simp [hr])
  rw [ha] at hy
  cases hy
  refine ⟨fun c' => ?_, ?_, ?_, fun c' hc' => ?_, fun r hq => ?_, fun p hp => ?_, h6⟩
  · rw [h1, h2]
    have hin : inflightOf t c' = inflightOf s c' ∨ (c' = c ∧ inflightOf t c' = inflightOf s c' + 1) := by
      rcases h8 with ⟨_, e, he, hi⟩ | ⟨_, hi⟩
      · simp only [inflightOf, hi, (pushOrdered_perm InFlight.ts e s.inflight).countP_eq, List.countP_cons, he]
        by_cases hc : c = c'
        · right; simp [hc]
        · left; simp [hc]
      · left; simp [inflightOf, hi]
    by_cases hc : c' = c
    · subst hc
      simp only [if_true]
      refine (h.chans c').advance hd ha hpos ?_
      rcases hin with hin | ⟨_, hin⟩ <;> omega
    · simp only [if_neg hc]
      rcases hin with hin | ⟨e, _⟩
      · rw [hin]; exact h.chans c'
      · exact absurd e hc
  · have := h.buffers
    rw [h1]
    rcases h8 with ⟨hf, e, _, hi⟩ | ⟨hf, hi⟩
    · rw [hf, hi, (pushOrdered_perm InFlight.ts e s.inflight).length_eq]; simp only [List.length_cons]; omega
    · rw [hf, hi]; exact this
  · rw [h7]
    split
    · exact (List.nodup_cons.1 hnd).2
    · rw [List.nodup_append]
      exact ⟨(List.nodup_cons.1 hnd).2, by simp,
        fun a ha b hb => by rw [List.mem_singleton.1 hb]; exact fun e => hnc (e ▸ ha)⟩
  · rw [h1, h2]
    rw [h7] at hc'
    by_cases hc : c' = c
    · subst hc
      simp only [if_true]
      refine ⟨hd, advanced x, rfl, ?_⟩
      split at hc'
      · exact absurd hc' hnc
      · simp only [advanced]; omega
    · simp only [if_neg hc]
      refine h.readyTx c' ?_
      rw [hr]
      split at hc'
      · exact List.mem_cons_of_mem _ hc'
      · rcases List.mem_append.1 hc' with hc' | hc'
        · exact List.mem_cons_of_mem _ hc'
        · exact absurd (List.mem_singleton.1 hc') hc
  · rw [h1]; exact h.writes r (h5 ▸ hq)
  · rw [h3, h4]; exact h.flags p (h1 ▸ hp)

theorem pushBuffer_of_lt {s : State} (h : s.rbfree < s.cfg.nrb) : s.pushBuffer = { s with rbfree := s.rbfree + 1 } :=
  if_pos h

/-- Step 2 issues (43_controller R252). -/
theorem issued_read {s : State} (h : CoreInv s) {c : ChanId} {rest : List ChanId} (hr : s.ready = c :: rest)
    (hb : 0 < s.rbfree) : ∃ t, s.issueRead c rest = .cont t ∧ Issued s t := by
  obtain ⟨hd, x, ha, hpos⟩ := h.readyTx c (by simp [hr])
  have hnb : s.rbfree - 1 < s.cfg.nrb := by have := h.buffers; omega
  unfold State.issueRead
  rw [nextChunk_eq hd ha]
  generalize hreq : ({ addr := x.cur, size := 4, dir := .read, data := [], tag := c } : Req) = req
  refine ⟨_, rfl, ?_⟩
  have hadv : ∀ u : State, (u.chan c).active = some x →
      u.advanceChunk c = u.setChan c { u.chan c with active := some (advanced x) } := fun u hu => by
    rw [advanceChunk_eq hu]; rfl
  dsimp only
  rw [hadv { s with ready := rest, rbfree := s.rbfree - 1 } ha]
  generalize hu : State.cedeTurn (State.setChan { s with ready := rest, rbfree := s.rbfree - 1 } c
    { State.chan { s with ready := rest, rbfree := s.rbfree - 1 } c with active := some (advanced x) }) c
    (decide (x.remaining ≤ 4)) = u
  have e : u = { s with
      ready := if x.remaining ≤ 4 then rest else rest ++ [c]
      rbfree := s.rbfree - 1
      periphs := (s.setChan c { s.chan c with active := some (advanced x) }).periphs } := by
    rw [← hu]
    by_cases hl : x.remaining ≤ 4 <;> simp only [State.cedeTurn, hl, decide_true, decide_false, if_true, if_false] <;> rfl
  have hchan : ∀ (v : State) (c' : ChanId), v.periphs = (s.setChan c { s.chan c with active := some (advanced x) }).periphs →
      v.chan c' = if c' = c then { s.chan c with active := some (advanced x) } else s.chan c' := fun v c' hv => by
    rw [chan_of_periphs_eq hv, chan_setChan]
  have hon : ∀ (v : State) (p : Fin 32), v.periphs = (s.setChan c { s.chan c with active := some (advanced x) }).periphs →
      v.isOn p = s.isOn p := fun v p hv => by rw [isOn_of_periphs_eq hv, isOn_setChan]
  have hrdq : ∀ (v : State) (c' : ChanId), v.periphs = (s.setChan c { s.chan c with active := some (advanced x) }).periphs →
      (v.chan c').rdq = (s.chan c').rdq := fun v c' hv => by
    rw [hchan v c' hv]; split
    · rename_i hc; rw [hc]
    · rfl
  have hans : u.nextAnswer = s.nextAnswer := by rw [e]; rfl
  have hm := memIssue_eq u req
  cases hn : s.nextAnswer with
  | accept lat rdata =>
    have hp : ((u.memIssue req).readAnswered c req (.accept lat rdata)).periphs
        = (s.setChan c { s.chan c with active := some (advanced x) }).periphs := by
      rw [State.readAnswered, hm, e]; rfl
    refine ⟨coreInv_of_read h hr hb ha ?_ (fun c' => hchan _ c' hp) (fun p => hon _ p hp) ?_ ?_ ?_ ?_ (.inl ⟨?_, ?_⟩),
      fun c' => hrdq _ c' hp, .inr ?_, ?_, [.mem req s.nextAnswer s.now], ?_, by simp [Event.isQueueFull]⟩
    · rw [State.readAnswered, hm, e]; rfl
    · rw [State.readAnswered, hm, e]; rfl
    · rw [State.readAnswered, hm, e]; rfl
    · rw [State.readAnswered, hm, e]; exact h.faultsNodup
    · rw [State.readAnswered, hm, e]; rfl
    · rw [State.readAnswered, hm, e]; rfl
    · rw [State.readAnswered, hm, e]; exact ⟨_, rfl, rfl⟩
    · rw [State.readAnswered, hm, e]; exact ⟨{ ts := s.now + lat + 1, c := c, req := req, rdata := rdata }, by simp only; omega, rfl⟩
    · rw [State.readAnswered, hm, e]; rfl
    · rw [← hans, State.readAnswered, hm, e]; rfl
  | reject =>
    have hpb : (u.memIssue req).pushBuffer = { u.memIssue req with rbfree := s.rbfree } := by
      rw [pushBuffer_of_lt (by rw [hm, e]; exact hnb)]
      have : (u.memIssue req).rbfree + 1 = s.rbfree := by rw [hm, e]; show s.rbfree - 1 + 1 = _; omega
      rw [this]
    have hp : ((u.memIssue req).readAnswered c req .reject).periphs
        = (s.setChan c { s.chan c with active := some (advanced x) }).periphs := by
      rw [State.readAnswered, hpb, hm, e]; rfl
    refine ⟨coreInv_of_read h hr hb ha ?_ (fun c' => hchan _ c' hp) (fun p => hon _ p hp) ?_ ?_ ?_ ?_ (.inr ⟨?_, ?_⟩),
      fun c' => hrdq _ c' hp, .inl ?_, ?_, [.mem req s.nextAnswer s.now], ?_, by simp [Event.isQueueFull]⟩
    · rw [State.readAnswered, hpb, hm, e]; rfl
    · rw [State.readAnswered, hpb, hm, e]; rfl
    · rw [State.readAnswered, hpb, hm, e]; rfl
    · rw [State.readAnswered, hpb, hm, e]; exact faults_nodup_raise h.faultsNodup _
    · rw [State.readAnswered, hpb, hm, e]; rfl
    · rw [State.readAnswered, hpb, hm, e]; rfl
    · rw [State.readAnswered, hpb, hm, e]; rfl
    · rw [State.readAnswered, hpb, hm, e]; rfl
    · rw [State.readAnswered, hpb, hm, e]; rfl
    · rw [← hans, State.readAnswered, hpb, hm, e]; rfl
  | pending =>
    have hpb : (u.memIssue req).pushBuffer = { u.memIssue req with rbfree := s.rbfree } := by
      rw [pushBuffer_of_lt (by rw [hm, e]; exact hnb)]
      have : (u.memIssue req).rbfree + 1 = s.rbfree := by rw [hm, e]; show s.rbfree - 1 + 1 = _; omega
      rw [this]
    have hp : ((u.memIssue req).readAnswered c req .pending).periphs
        = (s.setChan c { s.chan c with active := some (advanced x) }).periphs := by
      rw [State.readAnswered, hpb, hm, e]; rfl
    refine ⟨coreInv_of_read h hr hb ha ?_ (fun c' => hchan _ c' hp) (fun p => hon _ p hp) ?_ ?_ ?_ ?_ (.inr ⟨?_, ?_⟩),
      fun c' => hrdq _ c' hp, .inl ?_, ?_, [.mem req s.nextAnswer s.now, .log (.unimplementedResponse req)], ?_,
      by simp [Event.isQueueFull]⟩
    · rw [State.readAnswered, hpb, hm, e]; rfl
    · rw [State.readAnswered, hpb, hm, e]; rfl
    · rw [State.readAnswered, hpb, hm, e]; rfl
    · rw [State.readAnswered, hpb, hm, e]; apply faults_nodup_raise; exact h.faultsNodup
    · rw [State.readAnswered, hpb, hm, e]; rfl
    · rw [State.readAnswered, hpb, hm, e]; rfl
    · rw [State.readAnswered, hpb, hm, e]; rfl
    · rw [State.readAnswered, hpb, hm, e]; rfl
    · rw [State.readAnswered, hpb, hm, e]; rfl
    · rw [← hans, State.readAnswered, hpb, hm, e]
      simp [State.raise, State.log, State.emit, State.nextAnswer]

/-- Steps 1 and 2 never refuse (43_controller R250; 60_exceptions R282, X08). -/
theorem issued_issueOne {s : State} (h : CoreInv s) : ∃ t, s.issueOne = .cont t ∧ Issued s t := by
  have hs : Issued s s := ⟨h, fun _ => rfl, .inl rfl, rfl, [], by simp, by simp⟩
  unfold State.issueOne
  cases hw : s.wq with
  | cons req rest => exact ⟨_, rfl, issued_write h hw⟩
  | nil =>
    cases hr : s.ready with
    | nil => exact ⟨s, rfl, hs⟩
    | cons c rest =>
      by_cases hb : 0 < s.rbfree
      · simp only [if_pos hb]; exact issued_read h hr hb
      · simp only [if_neg hb]; exact ⟨s, rfl, hs⟩


/-! Step 3. -/

/-- What the drain leaves (43_controller R253, 20_memory R105). -/
structure Drained (s t : State) : Prop where
  core    : CoreInv t
  rdq     : ∀ c, (t.chan c).rdq = (s.chan c).rdq ++ wordsOf c (s.inflight.filter (fun e => decide (e.ts ≤ s.now)))
  reads   : t.inflight = s.inflight.filter (fun e => decide (s.now < e.ts))
  refused : t.refused = s.refused
  hist    : ∃ evs, t.hist = s.hist ++ evs ∧ ∀ e ∈ evs, e.isQueueFull = false

/-- One delivery (43_controller R253, 41_channel R196). -/
theorem core_deliver {s : State} (h : CoreInv s) {e : InFlight} {rest : List InFlight} (hi : s.inflight = e :: rest) :
    ∃ t, ({ s with inflight := rest }.pushBuffer).deliverChunk e.c e.rdata = .cont t ∧ CoreInv t
      ∧ (∀ c, (t.chan c).rdq = (s.chan c).rdq ++ if e.c = c then [e.rdata] else [])
      ∧ t.inflight = rest ∧ t.now = s.now ∧ t.refused = s.refused
      ∧ ∃ evs, t.hist = s.hist ++ evs ∧ ∀ e ∈ evs, e.isQueueFull = false := by
  have hb := h.buffers
  rw [hi, List.length_cons] at hb
  have hpb : ({ s with inflight := rest } : State).pushBuffer = { s with inflight := rest, rbfree := s.rbfree + 1 } :=
    pushBuffer_of_lt (s := { s with inflight := rest }) (by show s.rbfree < s.cfg.nrb; omega)
  rw [hpb]
  generalize hu : ({ s with inflight := rest, rbfree := s.rbfree + 1 } : State) = u
  have huc : ∀ c, u.chan c = s.chan c := fun c => by rw [← hu]; rfl
  have hun : ∀ c, inflightOf s c = inflightOf u c + if e.c = c then 1 else 0 := fun c => by
    rw [← hu]; simp [inflightOf, hi, List.countP_cons]
  have hok := h.chans e.c
  have hn : inflightOf s e.c = inflightOf u e.c + 1 := by rw [hun]; simp
  rw [hn] at hok
  obtain ⟨hd, x, ha⟩ := hok.active_of_reads
  have hua : (u.chan e.c).active = some x := by rw [huc]; exact ha
  have key : ∀ (ch : Chan) (v : State), ChanOk (s.cfg.dirOf e.c) (inflightOf u e.c) e.c ch →
      (e.c ∈ s.ready → ∃ t, ch.active = some t ∧ 0 < t.remaining) →
      v = { u.setChan e.c ch with hist := v.hist } → CoreInv v := by
    intro ch v hch hr hv
    have hvc : ∀ c, v.chan c = if c = e.c then ch else s.chan c := fun c => by
      rw [chan_of_periphs_eq (s := u.setChan e.c ch) (by rw [hv]), chan_setChan, huc]
    have hvn : ∀ c, inflightOf v c = inflightOf u c := fun c => by rw [hv]; rfl
    have hvcfg : v.cfg = s.cfg := by rw [hv, ← hu]; rfl
    refine ⟨fun c => ?_, ?_, ?_, fun c hc => ?_, fun r hq => ?_, fun p hp => ?_, ?_⟩
    · rw [hvc, hvn, hvcfg]
      by_cases hc : c = e.c
      · subst hc; simp only [if_true]; exact hch
      · have := hun c
        rw [if_neg (fun hx => hc hx.symm)] at this
        simp only [if_neg hc]
        rw [← Nat.add_zero (inflightOf u c), ← this]
        exact h.chans c
    · rw [hv, ← hu]; show s.rbfree + 1 + rest.length = s.cfg.nrb; omega
    · rw [hv, ← hu]; exact h.readyNodup
    · have hc : c ∈ s.ready := by rw [hv, ← hu] at hc; exact hc
      rw [hvcfg, hvc]
      refine ⟨(h.readyTx c hc).1, ?_⟩
      by_cases hx : c = e.c
      · subst hx; simp only [if_true]; exact hr hc
      · simp only [if_neg hx]; exact (h.readyTx c hc).2
    · rw [hvcfg]; exact h.writes r (by rw [hv, ← hu] at hq; exact hq)
    · have h1 : v.isOn p.cid = s.isOn p.cid := by
        rw [isOn_of_periphs_eq (s := u.setChan e.c ch) (by rw [hv]), isOn_setChan, ← hu]; rfl
      have h2 : v.cg = s.cg := by rw [hv, ← hu]; rfl
      rw [h1, h2]; exact h.flags p (hvcfg ▸ hp)
    · rw [hv, ← hu]; exact h.faultsNodup
  have hrdq : ∀ (rdq : List Quad) (ch : Chan) (v : State), v = { u.setChan e.c ch with hist := v.hist } →
      ch.rdq = (s.chan e.c).rdq ++ [e.rdata] →
      ∀ c, (v.chan c).rdq = (s.chan c).rdq ++ if e.c = c then [e.rdata] else [] := by
    intro _ ch v hv hq c
    rw [chan_of_periphs_eq (s := u.setChan e.c ch) (by rw [hv]), chan_setChan, huc]
    by_cases hc : c = e.c
    · subst hc; simp [hq]
    · have hc' : ¬ e.c = c := fun hx => hc hx.symm
      simp only [hc, hc', if_false, List.append_nil]
  by_cases hx : x.received + 4 < x.total
  · rw [deliverChunk_more hua hx]
    have hch := hok.deliverMore hd ha hx ((s.chan e.c).rdq ++ [e.rdata])
    rw [huc]
    refine ⟨_, rfl, key _ _ hch (fun hc => ?_) rfl, hrdq [] _ _ rfl rfl, ?_, ?_, ?_, [], ?_, by simp⟩
    · obtain ⟨_, y, hy, hp⟩ := h.readyTx _ hc
      rw [ha] at hy; cases hy
      exact ⟨_, rfl, hp⟩
    · rw [← hu]; rfl
    · rw [← hu]; rfl
    · rw [← hu]; rfl
    · rw [← hu]; simp [State.setChan]
  · have hl : x.total ≤ x.received + 4 := by omega
    obtain ⟨hn0, hr0⟩ := hok.last_alone ha hl
    rw [deliverChunk_last hua hl (by rw [huc]; exact hok.free_lt ha)]
    have hasm : (s.chan e.c).asm = [] := hok.asmIdle (.inr (by simp [hd]))
    have hch := hok.finish ha ((s.chan e.c).rdq ++ [e.rdata]) (fun hne => absurd hd hne) .available
    rw [← hn0] at hch
    have hch' : ChanOk (s.cfg.dirOf e.c) (inflightOf u e.c) e.c { s.chan e.c with
        active := none, rdq := (s.chan e.c).rdq ++ [e.rdata], free := (s.chan e.c).free + 1, busy := .available
        promo := true } := by
      rw [← hasm] at hch; exact hch
    rw [huc]
    refine ⟨_, rfl, key _ _ hch' (fun hc => ?_) rfl, hrdq [] _ _ rfl rfl, ?_, ?_, ?_,
      [.busy e.c .available, .complete e.c], ?_, by simp [Event.isQueueFull]⟩
    · obtain ⟨_, y, hy, hp⟩ := h.readyTx _ hc
      rw [ha] at hy; cases hy; omega
    · rw [← hu]; rfl
    · rw [← hu]; rfl
    · rw [← hu]; rfl
    · rw [← hu]; simp [State.setChan, State.emit]

/-- Step 3 never refuses and delivers what is due (43_controller R253; 60_exceptions R282, X09). -/
theorem drained_drainEntries (es : List InFlight) {s : State} (h : CoreInv s) (hs : InflightSorted s) (he : s.inflight = es) :
    ∃ t, drainEntries es s = .cont t ∧ Drained s t := by
  induction es generalizing s with
  | nil => exact ⟨s, rfl, h, fun c => by simp [he, wordsOf], by simp [he], rfl, [], by simp, by simp⟩
  | cons e rest ih =>
    have hso := hs
    rw [InflightSorted, he, List.pairwise_cons] at hso
    by_cases ht : e.ts ≤ s.now
    · obtain ⟨t, h1, h2, h3, h4, h5, h6, evs, h7, h8⟩ := core_deliver h he
      obtain ⟨u, g1, g2⟩ := ih h2 (by rw [InflightSorted, h4]; exact hso.2) h4
      refine ⟨u, ?_, g2.core, fun c => ?_, ?_, by rw [g2.refused, h6], ?_⟩
      · rw [drainEntries, if_pos ht, h1]; exact g1
      · rw [g2.rdq, h3, he, h4, h5]
        by_cases hc : e.c = c <;> simp [wordsOf, ht, hc]
      · rw [g2.reads, he, h4, h5, List.filter_cons, if_neg (by simp; omega)]
      · obtain ⟨evs', h9, h10⟩ := g2.hist
        exact ⟨evs ++ evs', by rw [h9, h7, List.append_assoc],
          fun e he => (List.mem_append.1 he).elim (h8 e) (h10 e)⟩
    · have hlate : ∀ a ∈ s.inflight, s.now < a.ts := by
        intro a ha'
        rw [he] at ha'
        rcases List.mem_cons.1 ha' with rfl | ha'
        · omega
        · have := hso.1 a ha'; omega
      refine ⟨s, by rw [drainEntries, if_neg ht], h, fun c => ?_, ?_, rfl, [], by simp, by simp⟩
      · rw [List.filter_eq_nil_iff.2 (fun a ha' => by have := hlate a ha'; simp; omega)]; simp [wordsOf]
      · exact (List.filter_eq_self.2 (fun a ha' => by simpa using hlate a ha')).symm

/-! The run. -/

/-- What a run leaves (43_controller R250 to R254): the state before the re-arm is `u`. -/
structure Ran (s t : State) : Prop where
  core    : CoreInv t
  rdq     : ∀ c, (t.chan c).rdq = (s.chan c).rdq ++ wordsOf c (s.inflight.filter (fun e => decide (e.ts ≤ s.now)))
  later   : ∀ e ∈ t.inflight, s.now < e.ts
  kept    : ∀ e ∈ s.inflight, s.now < e.ts → e ∈ t.inflight
  sorted  : InflightSorted t
  refused : t.refused = s.refused
  hist    : ∃ evs, t.hist = s.hist ++ evs ∧ ∀ e ∈ evs, e.isQueueFull = false
  now     : t.now = s.now
  lastrun : t.lastrun = some s.now
  wake    : t.wake = (match t.inflight, decide (t.wq ≠ [] ∨ (t.ready ≠ [] ∧ 0 < t.rbfree)) with
      | [], false => none
      | [], true => some (s.now + 1)
      | e :: _, false => some e.ts
      | e :: _, true => some (min e.ts (s.now + 1)))

theorem ran_ctrlLoop {s : State} (h : CoreInv s) (hs : InflightSorted s) : Ran s s.ctrlLoop := by
  have h0 : CoreInv (runStart s) := h.of_eq rfl rfl rfl rfl rfl rfl rfl rfl
  obtain ⟨t, h1, h2⟩ := issued_issueOne h0
  have hf := issueFrame_issueOne (runStart s)
  rw [h1] at hf
  have hts : InflightSorted t := by
    rcases h2.reads with hr | ⟨e, _, hr⟩
    · rw [InflightSorted, hr]; exact hs
    · rw [InflightSorted, hr]; exact pushOrdered_sorted _ _ hs
  have htn : t.now = s.now := hf.now
  obtain ⟨u, h3, h4⟩ := drained_drainEntries t.inflight h2.core hts rfl
  have hd := drainFrame_drainEntries t.inflight t
  rw [h3] at hd
  have hun : u.now = s.now := hd.now.trans htn
  have hul : u.lastrun = some s.now := hd.lastrun.trans hf.lastrun
  have huw : u.wake = none := hd.wake.trans hf.wake
  have e : s.ctrlLoop = u.rearm := by
    have e1 : s.ctrlLoop = (((runStart s).issueOne.andThen State.drain).andThen (fun t => .cont t.rearm)).state := rfl
    have e2 : State.drain t = .cont u := h3
    rw [e1, h1, flow_cont_andThen, e2]; rfl
  have er := rearm_eq u
  have ew := rearm_wake huw
  rw [e, er]
  refine ⟨h4.core.wake _, fun c => ?_, fun a ha => ?_, fun a ha hlt => ?_, ?_, ?_, ?_, hun, hul, ?_⟩
  · show (u.chan c).rdq = _
    rw [h4.rdq, h2.rdq, htn]
    have : t.inflight.filter (fun e => decide (e.ts ≤ s.now)) = s.inflight.filter (fun e => decide (e.ts ≤ s.now)) := by
      rcases h2.reads with hr | ⟨a, hlt, hr⟩
      · rw [hr]; rfl
      · rw [hr]; exact pushOrdered_filter InFlight.ts a s.inflight s.now hlt
    rw [this]; rfl
  · have ha : a ∈ u.inflight := ha
    rw [h4.reads, htn] at ha
    simpa using (List.mem_filter.1 ha).2
  · show a ∈ u.inflight
    rw [h4.reads, htn]
    refine List.mem_filter.2 ⟨?_, by simpa using hlt⟩
    rcases h2.reads with hr | ⟨b, _, hr⟩
    · rw [hr]; exact ha
    · rw [hr]; exact (pushOrdered_perm _ _ _).mem_iff.2 (List.mem_cons_of_mem _ ha)
  · show u.inflight.Pairwise _
    rw [h4.reads]; exact hts.filter _
  · show u.refused = s.refused
    rw [h4.refused, h2.refused]; rfl
  · obtain ⟨e1, g1, g2⟩ := h2.hist
    obtain ⟨e2, g3, g4⟩ := h4.hist
    refine ⟨e1 ++ e2, ?_, fun a ha => (List.mem_append.1 ha).elim (g2 a) (g4 a)⟩
    show u.hist = _
    rw [g3, g1, List.append_assoc]; rfl
  · show u.rearm.wake = _
    rw [hun] at ew
    exact ew

end Sys2Proof.Machine.Laws
end

