-- ==== Sys2Proof/Laws/Past.lean ====
section
/-! SUPPORT. The history is never read (00_scope R17): every operation commutes with putting events before it. -/
namespace Sys2Proof.Machine.Laws

section
variable (s : State) (h : List Event)

@[simp] theorem withPast_cfg : (s.withPast h).cfg = s.cfg := rfl
@[simp] theorem withPast_now : (s.withPast h).now = s.now := rfl
@[simp] theorem withPast_periphs : (s.withPast h).periphs = s.periphs := rfl
@[simp] theorem withPast_cg : (s.withPast h).cg = s.cg := rfl
@[simp] theorem withPast_rbfree : (s.withPast h).rbfree = s.rbfree := rfl
@[simp] theorem withPast_inflight : (s.withPast h).inflight = s.inflight := rfl
@[simp] theorem withPast_wq : (s.withPast h).wq = s.wq := rfl
@[simp] theorem withPast_ready : (s.withPast h).ready = s.ready := rfl
@[simp] theorem withPast_wake : (s.withPast h).wake = s.wake := rfl
@[simp] theorem withPast_lastrun : (s.withPast h).lastrun = s.lastrun := rfl
@[simp] theorem withPast_faults : (s.withPast h).faults = s.faults := rfl
@[simp] theorem withPast_refused : (s.withPast h).refused = s.refused := rfl
@[simp] theorem withPast_agenda : (s.withPast h).agenda = s.agenda := rfl
@[simp] theorem withPast_draws : (s.withPast h).draws = s.draws := rfl
@[simp] theorem withPast_chan (c : ChanId) : (s.withPast h).chan c = s.chan c := rfl
@[simp] theorem withPast_isOn (p : Fin 32) : (s.withPast h).isOn p = s.isOn p := rfl
@[simp] theorem withPast_nextDraw : (s.withPast h).nextDraw = s.nextDraw := rfl
@[simp] theorem withPast_nextAnswer : (s.withPast h).nextAnswer = s.nextAnswer := rfl
@[simp] theorem withPast_loopDue : (s.withPast h).loopDue = s.loopDue := rfl
@[simp] theorem withPast_quiescent : (s.withPast h).quiescent = s.quiescent := rfl
@[simp] theorem withPast_reach (i : Nat) (sl : Slot) : (s.withPast h).reach i sl = s.reach i sl := rfl
@[simp] theorem withPast_nextChunk (c : ChanId) : (s.withPast h).nextChunk c = s.nextChunk c := rfl
@[simp] theorem withPast_rxOff (i r : Nat) : (s.withPast h).rxOff i r = s.rxOff i r := rfl
@[simp] theorem withPast_txOff (i r : Nat) : (s.withPast h).txOff i r = s.txOff i r := rfl
@[simp] theorem withPast_setChan (c : ChanId) (ch : Chan) :
    (s.withPast h).setChan c ch = (s.setChan c ch).withPast h := rfl
@[simp] theorem withPast_setOn (p : Fin 32) (b : Bool) : (s.withPast h).setOn p b = (s.setOn p b).withPast h := rfl
@[simp] theorem withPast_emit (ev : Event) : (s.withPast h).emit ev = (s.emit ev).withPast h := by
  simp [State.withPast, State.emit]
@[simp] theorem withPast_log (k : LogKind) : (s.withPast h).log k = (s.log k).withPast h := withPast_emit s h _
@[simp] theorem withPast_raise (k : FaultKind) : (s.withPast h).raise k = (s.raise k).withPast h := rfl
@[simp] theorem withPast_refuse (k : RefusalKind) : (s.withPast h).refuse k = (s.refuse k).withPast h := rfl
@[simp] theorem withPast_takeDraw : (s.withPast h).takeDraw = s.takeDraw.withPast h := rfl
@[simp] theorem withPast_requestWake (t : Nat) : (s.withPast h).requestWake t = (s.requestWake t).withPast h := rfl
@[simp] theorem withPast_stimulusWake : (s.withPast h).stimulusWake = s.stimulusWake.withPast h := rfl
@[simp] theorem withPast_pushWrite (r : Req) : (s.withPast h).pushWrite r = (s.pushWrite r).withPast h := rfl
@[simp] theorem withPast_pushReady (c : ChanId) : (s.withPast h).pushReady c = (s.pushReady c).withPast h := rfl
@[simp] theorem withPast_pushInflight (e : InFlight) :
    (s.withPast h).pushInflight e = (s.pushInflight e).withPast h := rfl
@[simp] theorem withPast_takeAnswer : (s.withPast h).takeAnswer = s.takeAnswer.withPast h := by
  cases s with
  | mk cfg now periphs cg rbfree inflight wq ready wake lastrun faults refused hist agenda answers draws =>
    cases answers <;> rfl
@[simp] theorem withPast_logIfFull (q : QueueId) (d : Bool) :
    (s.withPast h).logIfFull q d = (s.logIfFull q d).withPast h := by
  cases d <;> simp [State.logIfFull]
@[simp] theorem withPast_pushPending (c : ChanId) (t : Transfer) :
    (s.withPast h).pushPending c t = (s.pushPending c t).withPast h := by
  simp [State.pushPending]
@[simp] theorem withPast_pushRdq (c : ChanId) (w : Quad) : (s.withPast h).pushRdq c w = (s.pushRdq c w).withPast h := rfl
@[simp] theorem withPast_pushFree (c : ChanId) : (s.withPast h).pushFree c = (s.pushFree c).withPast h := by
  by_cases hf : (s.chan c).free < Config.poolCap <;> simp [State.pushFree, hf]
@[simp] theorem withPast_pushBuffer : (s.withPast h).pushBuffer = s.pushBuffer.withPast h := by
  by_cases hf : s.rbfree < s.cfg.nrb
  · have e : ∀ u : State, u.rbfree < u.cfg.nrb → u.pushBuffer = { u with rbfree := u.rbfree + 1 } := fun u hu => if_pos hu
    rw [e s hf, e (s.withPast h) hf]; rfl
  · simp [State.pushBuffer, hf]
@[simp] theorem withPast_memIssue (r : Req) : (s.withPast h).memIssue r = (s.memIssue r).withPast h := by
  simp [State.memIssue]
@[simp] theorem withPast_finalize (c : ChanId) : (s.withPast h).finalize c = (s.finalize c).withPast h := by
  simp [State.finalize, State.busyUpdate, State.requestPromotion]
@[simp] theorem withPast_postWrite (r : Req) : (s.withPast h).postWrite r = (s.postWrite r).withPast h := rfl
@[simp] theorem withPast_channelReady (c : ChanId) : (s.withPast h).channelReady c = (s.channelReady c).withPast h := by
  by_cases hd : s.cfg.dirOf c = some .tx <;> simp [State.channelReady, hd]
@[simp] theorem withPast_promote (c : ChanId) : (s.withPast h).promote c = (s.promote c).withPast h := by
  simp only [State.promote, withPast_chan]
  split <;> simp
@[simp] theorem withPast_flush (c : ChanId) (x : Transfer) : (s.withPast h).flush c x = (s.flush c x).withPast h := by
  by_cases hr : (flushAdvance x (s.chan c).asm.length).remaining = 0 <;> simp [State.flush, hr]
@[simp] theorem withPast_pushBytes (c : ChanId) (bytes : List Byte) :
    (s.withPast h).pushBytes c bytes = (s.pushBytes c bytes).withPast h := by
  cases ha : (s.chan c).active with
  | none => simp [State.pushBytes, ha]
  | some x =>
    simp only [State.pushBytes, withPast_chan, ha, withPast_setChan, withPast_flush, withPast_log, withPast_refuse]
    by_cases h1 : Config.asmWindow < (s.chan c).asm.length + bytes.length
    · simp only [if_pos h1]
    · by_cases h2 : x.remaining < (s.chan c).asm.length + bytes.length
      · simp only [if_neg h1, if_pos h2]
      · simp only [if_neg h1, if_neg h2, apply_ite (State.withPast · h)]
@[simp] theorem withPast_popWord (c : ChanId) (w : Quad) (rest : List Quad) :
    (s.withPast h).popWord c w rest = (s.popWord c w rest).withPast h := by
  simp [State.popWord]
@[simp] theorem withPast_advanceChunk (c : ChanId) :
    (s.withPast h).advanceChunk c = (s.advanceChunk c).withPast h := rfl

/-- Events put before the history of the state a rule leaves. -/
def flowPast (f : Flow) : Flow :=
  match f with
  | .cont s => .cont (s.withPast h)
  | .halted s => .halted (s.withPast h)

@[simp] theorem flowPast_state (f : Flow) : (flowPast h f).state = f.state.withPast h := by cases f <;> rfl

theorem withPast_deliverChunk (c : ChanId) (rdata : Quad) :
    (s.withPast h).deliverChunk c rdata = flowPast h (s.deliverChunk c rdata) := by
  cases ha : (s.chan c).active with
  | none => simp [State.deliverChunk, ha, flowPast]
  | some x =>
    by_cases hr : x.total ≤ x.received + Config.readSize <;> simp [State.deliverChunk, ha, hr, flowPast]

theorem withPast_enqueueRecord (c : ChanId) (addr size : Option Word) (width : BitVec 2) (cont : Bool) :
    (s.withPast h).enqueueRecord c addr size width cont = flowPast h (s.enqueueRecord c addr size width cont) := by
  cases hr : stagingRefusal c addr size with
  | some k => simp [State.enqueueRecord, hr, flowPast]
  | none =>
    by_cases hf : (s.chan c).free = 0 <;>
      simp [State.enqueueRecord, hr, hf, flowPast, State.busyUpdate, State.requestPromotion]

theorem withPast_enqueueTransfer (c : ChanId) :
    (s.withPast h).enqueueTransfer c = flowPast h (s.enqueueTransfer c) := withPast_enqueueRecord s h c _ _ _ _

theorem withPast_drainEntries (es : List InFlight) :
    drainEntries es (s.withPast h) = flowPast h (drainEntries es s) := by
  induction es generalizing s with
  | nil => rfl
  | cons e rest ih =>
    by_cases he : e.ts ≤ s.now
    · have e1 : drainEntries (e :: rest) s = (({ s with inflight := rest }.pushBuffer).deliverChunk e.c e.rdata).andThen
          (drainEntries rest) := if_pos he
      have e2 : drainEntries (e :: rest) (s.withPast h)
          = (((({ s with inflight := rest } : State).withPast h).pushBuffer).deliverChunk e.c e.rdata).andThen
            (drainEntries rest) := if_pos he
      rw [e1, e2, withPast_pushBuffer, withPast_deliverChunk]
      cases State.deliverChunk (State.pushBuffer { s with inflight := rest }) e.c e.rdata with
      | cont t => exact ih t
      | halted t => rfl
    · have e1 : ∀ u : State, u.now = s.now → drainEntries (e :: rest) u = .cont u := fun u hu =>
        if_neg (by rw [hu]; exact he)
      rw [e1 s rfl, e1 (s.withPast h) rfl]; rfl

@[simp] theorem withPast_cedeTurn (c : ChanId) (l : Bool) :
    (s.withPast h).cedeTurn c l = (s.cedeTurn c l).withPast h := by
  cases l <;> simp [State.cedeTurn]

theorem withPast_readAnswered (c : ChanId) (req : Req) (a : MemAnswer) :
    (s.withPast h).readAnswered c req a = (s.readAnswered c req a).withPast h := by
  cases a <;> simp [State.readAnswered]

theorem withPast_issueOne : (s.withPast h).issueOne = flowPast h s.issueOne := by
  have hW : ∀ req rest, (s.withPast h).issueWrite req rest = (s.issueWrite req rest).withPast h := by
    intro req rest
    have e : ∀ u : State, u.issueWrite req rest = (match u.nextAnswer with
      | .accept _ _ => { u with wq := rest }.memIssue req
      | .reject => (({ u with wq := rest }.memIssue req).log (.writeRejected req)).raise (.writeRejected req)
      | .pending => (({ u with wq := rest }.memIssue req).log (.unimplementedResponse req)).raise (.asyncResponse req)) :=
      fun _ => rfl
    have hq : ({ s.withPast h with wq := rest } : State) = ({ s with wq := rest } : State).withPast h := rfl
    rw [e, e, withPast_nextAnswer, hq]
    cases s.nextAnswer <;> simp
  have hR : ∀ c rest, (s.withPast h).issueRead c rest = flowPast h (s.issueRead c rest) := by
    intro c rest
    have hr : ({ s.withPast h with ready := rest, rbfree := (s.withPast h).rbfree - 1 } : State)
      = ({ s with ready := rest, rbfree := s.rbfree - 1 } : State).withPast h := rfl
    cases hn : s.nextChunk c with
    | none => simp only [State.issueRead, withPast_nextChunk, hn, hr, withPast_refuse, flowPast]
    | some ch =>
      simp only [State.issueRead, withPast_nextChunk, hn, hr, withPast_advanceChunk, withPast_cedeTurn,
        withPast_memIssue, withPast_readAnswered, withPast_nextAnswer, flowPast]
  cases hw : s.wq with
  | cons req rest => simp only [State.issueOne, withPast_wq, hw, hW, flowPast]
  | nil =>
    cases hd : s.ready with
    | nil => simp only [State.issueOne, withPast_wq, withPast_ready, hw, hd, flowPast]
    | cons c rest =>
      by_cases hb : 0 < s.rbfree <;>
        simp only [State.issueOne, withPast_wq, withPast_ready, withPast_rbfree, hw, hd, hb, if_true, if_false, hR, flowPast]

@[simp] theorem withPast_rearm : (s.withPast h).rearm = s.rearm.withPast h := by
  have e1 : ∀ u : State, (u.wq.isEmpty = false ∨ u.canRead = true) → u.rearmNext = u.requestWake (u.now + 1) :=
    fun _ hu => if_pos hu
  have e2 : ∀ u : State, ¬ (u.wq.isEmpty = false ∨ u.canRead = true) → u.rearmNext = u := fun _ hu => if_neg hu
  have hn : (s.withPast h).rearmNext = s.rearmNext.withPast h := by
    by_cases hc : s.wq.isEmpty = false ∨ s.canRead = true
    · rw [e1 s hc, e1 (s.withPast h) hc]; rfl
    · rw [e2 s hc, e2 (s.withPast h) hc]
  cases hq : queuePeek s.inflight <;> simp [State.rearm, hq, hn]

@[simp] theorem withPast_ctrlLoop : (s.withPast h).ctrlLoop = s.ctrlLoop.withPast h := by
  have hs : runStart (s.withPast h) = (runStart s).withPast h := rfl
  have e : ∀ u : State, u.ctrlLoop = (((runStart u).issueOne.andThen State.drain).andThen
    (fun t => .cont t.rearm)).state := fun _ => rfl
  rw [e, e, hs, withPast_issueOne]
  cases (runStart s).issueOne with
  | halted t => rfl
  | cont t =>
    simp only [flowPast, flow_cont_andThen]
    have hd : State.drain (t.withPast h) = flowPast h (State.drain t) := withPast_drainEntries t h t.inflight
    rw [hd]
    cases State.drain t with
    | halted u => rfl
    | cont u => simp [flowPast]

@[simp] theorem withPast_resetBlock : (s.withPast h).resetBlock = s.resetBlock.withPast h := by
  have h1 : ∀ (ps : List PeriphCfg) (u : State), ps.foldl (fun t p => t.setOn p.cid false) (u.withPast h)
      = (ps.foldl (fun t p => t.setOn p.cid false) u).withPast h := by
    intro ps
    induction ps with
    | nil => intro u; rfl
    | cons a r ih => intro u; exact ih (u.setOn a.cid false)
  have h2 : ∀ (cs : List ChanId) (u : State), cs.foldl State.channelReset (u.withPast h)
      = (cs.foldl State.channelReset u).withPast h := by
    intro cs
    induction cs with
    | nil => intro u; rfl
    | cons a r ih =>
      intro u
      have : (u.withPast h).channelReset a = (u.channelReset a).withPast h := by simp [channelReset_eq]
      rw [List.foldl_cons, List.foldl_cons, this]
      exact ih _
  have e : ∀ u : State, u.resetBlock = (u.cfg.channels.foldl State.channelReset
    (u.cfg.periphs.foldl (fun t p => t.setOn p.cid false) { u with cg := 0, wake := none })).emit .reset := fun _ => rfl
  rw [e, e]
  have h0 : ({ s.withPast h with cg := 0, wake := none } : State)
    = ({ s with cg := 0, wake := none } : State).withPast h := rfl
  rw [h0, withPast_cfg, h1, h2, withPast_emit]

/-- Events put before the history a reply leaves. -/
def replyPast (r : Reply) : Reply := { state := r.state.withPast h, resp := r.resp }

@[simp] theorem replyPast_close (r : Reply) (off : Word) (acc : Acc) (size : Nat) :
    (replyPast h r).close off acc size = (r.close off acc size).withPast h := by
  cases hr : r.resp <;> simp [Reply.close, replyPast, hr]

theorem withPast_cgWrite (v : Word) : (s.withPast h).cgWrite v = replyPast h (s.cgWrite v) := by
  have hb : ∀ (u : State) (i : Nat) (old : Word), State.cgBit old v (u.withPast h) i
      = (State.cgBit old v u i).withPast h := by
    intro u i old
    by_cases hb : old.getLsbD i = v.getLsbD i
    · simp [State.cgBit, hb]
    · cases ht : u.cfg.table i with
      | none => simp [State.cgBit, hb, ht]
      | some p => by_cases hp : p.cid.val = i <;> simp [State.cgBit, hb, ht, hp]
  have hl : ∀ (ns : List Nat) (old : Word) (u : State), ns.foldl (State.cgBit old v) (u.withPast h)
      = (ns.foldl (State.cgBit old v) u).withPast h := by
    intro ns old
    induction ns with
    | nil => intro u; rfl
    | cons a r ih => intro u; rw [List.foldl_cons, List.foldl_cons, hb]; exact ih _
  have e : ∀ u : State, u.cgWrite v = { state := (List.range 32).foldl (State.cgBit u.cg v) { u with cg := v }
                                        resp := some .ok } := fun _ => rfl
  have h0 : ({ s.withPast h with cg := v } : State) = ({ s with cg := v } : State).withPast h := rfl
  rw [e, e, h0, withPast_cg, hl]
  rfl

theorem withPast_configWr (c : ChanId) (v : Word) : (s.withPast h).configWr c v = replyPast h (s.configWr c v) := by
  have hs : (s.withPast h).storeConfig c v = (s.storeConfig c v).withPast h := rfl
  by_cases h1 : cfgClear s.cfg.layout v = true
  · simp [State.configWr, h1, replyPast]
  · by_cases h2 : cfgEn s.cfg.layout v = true
    · by_cases h3 : (s.chan c).free = 0
      · simp [State.configWr, h1, h2, h3, replyPast]
      · cases hf : (s.storeConfig c v).enqueueTransfer c <;>
          simp [State.configWr, h1, h2, h3, hs, withPast_enqueueTransfer, hf, replyPast, flowPast]
    · simp [State.configWr, h1, h2, hs, replyPast]

theorem withPast_addrWr (c : ChanId) (v : Word) : (s.withPast h).addrWr c v = replyPast h (s.addrWr c v) := rfl
theorem withPast_sizeWr (c : ChanId) (v : Word) : (s.withPast h).sizeWr c v = replyPast h (s.sizeWr c v) := rfl
theorem withPast_configRd (c : ChanId) : (s.withPast h).configRd c = replyPast h (s.configRd c) := rfl
theorem withPast_addrRd (c : ChanId) : (s.withPast h).addrRd c = replyPast h (s.addrRd c) := by
  simp only [State.addrRd, State.stagedRd, withPast_chan]
  split <;> rfl
theorem withPast_sizeRd (c : ChanId) : (s.withPast h).sizeRd c = replyPast h (s.sizeRd c) := by
  simp only [State.sizeRd, State.stagedRd, withPast_chan]
  split <;> rfl

theorem withPast_channelAccess (c : ChanId) (r : Nat) (acc : Acc) :
    (s.withPast h).channelAccess c r acc = replyPast h (s.channelAccess c r acc) := by
  have hi : ({ state := s.withPast h, resp := some .invalid } : Reply)
    = replyPast h { state := s, resp := some .invalid } := rfl
  cases acc <;>
    simp only [State.channelAccess, withPast_cfg, withPast_addrWr, withPast_sizeWr, withPast_configWr, withPast_addrRd,
      withPast_sizeRd, withPast_configRd, apply_ite (replyPast h), hi]

theorem withPast_invalid : (s.withPast h).invalidAccess = replyPast h s.invalidAccess := rfl
theorem withPast_cgRead : (s.withPast h).cgRead = replyPast h s.cgRead := rfl
theorem withPast_evtin (off : Word) (acc : Acc) : (s.withPast h).evtinAccess off acc = replyPast h (s.evtinAccess off acc) := by
  simp [State.evtinAccess, replyPast]
theorem withPast_offNoop (acc : Acc) : (s.withPast h).offNoop acc = replyPast h (s.offNoop acc) := by
  cases acc <;> rfl
theorem withPast_slotEmpty (off : Word) : (s.withPast h).slotEmpty off = replyPast h (s.slotEmpty off) := by
  simp [State.slotEmpty, replyPast]

@[simp] theorem flowPast_reply (f : Flow) : (flowPast h f).reply = replyPast h f.reply := by cases f <;> rfl

theorem withPast_handlerTransfer (c : ChanId) (base size : Word) (width : BitVec 2) (cont : Bool) :
    (s.withPast h).handlerTransfer c base size width cont = replyPast h (s.handlerTransfer c base size width cont) := by
  by_cases hf : (s.chan c).free = 0
  · simp [State.handlerTransfer, hf, replyPast]
  · simp [State.handlerTransfer, hf, withPast_enqueueRecord]

theorem withPast_onSlot (p : PeriphCfg) (sl : Slot) (off : Word) {f g : ChanId → Reply} (hfg : ∀ c, f c = replyPast h (g c)) :
    (s.withPast h).onSlot p sl off f = replyPast h (s.onSlot p sl off g) := by
  simp only [State.onSlot, hfg, withPast_slotEmpty, apply_ite (replyPast h)]

theorem withPast_handlerOp (p : PeriphCfg) (off : Word) (acc : Acc) (op : HandlerOp) :
    (s.withPast h).handlerOp p off acc op = replyPast h (s.handlerOp p off acc op) := by
  cases op with
  | pass sl r => exact withPast_onSlot s h p sl off fun c => withPast_channelAccess s h c r acc
  | reg sl r a => exact withPast_onSlot s h p sl off fun c => withPast_channelAccess s h c r a
  | transfer sl base size width cont => exact withPast_onSlot s h p sl off fun c => withPast_handlerTransfer s h c _ _ _ _

theorem replyPast_handlerOps (p : PeriphCfg) (off : Word) (acc : Acc) (ops : List HandlerOp) (r : Reply) :
    handlerOps p off acc ops (replyPast h r) = replyPast h (handlerOps p off acc ops r) := by
  induction ops generalizing r with
  | nil => rfl
  | cons op ops ih =>
    obtain ⟨u, x⟩ := r
    cases x with
    | none => rfl
    | some x =>
      show handlerOps p off acc ops ((u.withPast h).handlerOp p off acc op) = _
      rw [withPast_handlerOp, ih]
      rfl

theorem withPast_undone (t : State) : (s.withPast h).undone (t.withPast h) = (s.undone t).withPast h := by
  simp [State.undone, State.withPast, List.drop_append, List.drop_eq_nil_of_le (Nat.le_add_right h.length s.hist.length)]

theorem replyPast_answered (r : Reply) (acc : Acc) (x : HandlerResp) :
    (replyPast h r).answered (s.withPast h) acc x = replyPast h (r.answered s acc x) := by
  obtain ⟨u, y⟩ := r
  cases y with
  | none => rfl
  | some y =>
    cases x <;> cases y <;> cases acc <;> simp [Reply.answered, replyPast, withPast_undone, withPast_invalid] <;> rfl

theorem withPast_customAccess (p : PeriphCfg) (off : Word) (w : Nat) (acc : Acc) :
    (s.withPast h).customAccess p off w acc = replyPast h (s.customAccess p off w acc) := by
  have ha : (s.withPast h).handlerAct p w acc = s.handlerAct p w acc := rfl
  have hb : (s.withPast h).afterHandler p = (s.afterHandler p).withPast h := by
    cases hp : p.handler <;> simp [State.afterHandler, hp]
  simp only [State.customAccess, ha, hb, withPast_invalid]
  split
  · rfl
  · rw [replyPast_handlerOps, replyPast_answered]

theorem withPast_periphAccess (p : PeriphCfg) (off : Word) (w : Nat) (acc : Acc) :
    (s.withPast h).periphAccess p off w acc = replyPast h (s.periphAccess p off w acc) := by
  simp only [State.periphAccess, withPast_isOn, withPast_cfg, withPast_offNoop, withPast_customAccess,
    withPast_onSlot s h p _ off (fun c => withPast_channelAccess s h c _ acc), apply_ite (replyPast h)]

/-- 00_scope R17, for a register access. -/
theorem withPast_busEntry (off : Word) (acc : Acc) (size : Nat) :
    (s.withPast h).busEntry off acc size = (s.busEntry off acc size).withPast h := by
  have hc : (s.withPast h).configAccess off acc = replyPast h (s.configAccess off acc) := by
    cases acc <;>
      simp only [State.configAccess, withPast_cfg, withPast_cgWrite, withPast_cgRead, withPast_evtin, withPast_invalid,
        apply_ite (replyPast h)]
  have hr : (s.withPast h).channelRegionAccess off acc = replyPast h (s.channelRegionAccess off acc) := by
    cases ht : s.cfg.table (s.cfg.layout.periphId off) <;>
      simp only [State.channelRegionAccess, withPast_cfg, ht, withPast_invalid, withPast_periphAccess]
  rw [State.busEntry, State.busEntry, ← replyPast_close]
  simp only [withPast_cfg, hc, hr, withPast_invalid, apply_ite (replyPast h)]

end

/-- 00_scope R17: an operation does the same whatever the history. -/
def outcomePast (h : List Event) (o : Host.Outcome State Fault Refusal) : Host.Outcome State Fault Refusal :=
  match o with
  | .next t => .next (t.withPast h)
  | .fault f => .fault f
  | .refused r => .refused r

end Sys2Proof.Machine.Laws
end

