-- ==== Sys2Proof/Laws/PerInstr.lean ====
section
/-! SUPPORT. Per instruction: in the default layout, the offset a well-formed BUS row is encoded at has the row's bits of
opcode_table.json, `match` under `mask` (30_encoding R127, R143). -/
namespace Sys2Proof.Laws

/-- 30_encoding R143: `off & mask = match`. -/
def RegisterMap.Statement (i : Instr) : Prop :=
  ∀ (cfg : Cfg) (off : Word) (acc : Acc) (size : Nat) (m k : Word), cfg.layout = Layout.default → i.wf cfg = true →
    encode cfg i = some (.bus off acc size) → tableRow i = some (m, k) → off &&& k = m

/-- The low seven bits of a window's offset are the window offset (30_encoding R124). -/
theorem windowAddr_low (i w : Nat) : Layout.default.windowAddr i w &&& 0x7F = BitVec.ofNat 32 w &&& 0x7F := by
  apply BitVec.eq_of_toNat_eq
  simp only [Layout.windowAddr, Layout.default, BitVec.toNat_and, BitVec.toNat_ofNat]
  have h : ∀ x : Nat, x &&& BitVec.toNat (0x7F : Word) = x % 128 := fun x => Nat.and_two_pow_sub_one_eq_mod x 7
  rw [h, h]
  omega

/-- A mask inside the low seven bits sees the window offset only. -/
theorem windowAddr_mask (i w : Nat) (k : Word) (hk : 0x7F &&& k = k) :
    Layout.default.windowAddr i w &&& k = BitVec.ofNat 32 w &&& k := by
  rw [← hk, ← BitVec.and_assoc, windowAddr_low, BitVec.and_assoc]

theorem window_below_10 : ∀ w : Fin 0x10, BitVec.ofNat 32 w.val &&& 0x70 = 0x00 := by decide
theorem window_tx : ∀ w : Fin 0x10, BitVec.ofNat 32 (0x10 + w.val) &&& 0x70 = 0x10 := by decide
theorem config_region : ∀ w : Fin 0x80, BitVec.ofNat 32 w.val &&& 0xFFFFFF80 = 0 := by decide

theorem RegisterMap.badSize (off : Word) (acc : Acc) (size : Nat) : RegisterMap.Statement (.badSize off acc size) := by
  intro cfg off' acc' size' m k hl hw he ht
  cases ht
  cases he
  simp

theorem RegisterMap.cgWr (v : Word) : RegisterMap.Statement (.cgWr v) := by
  intro cfg off' acc' size' m k hl hw he ht
  cases ht
  cases he
  rw [hl]; rfl

theorem RegisterMap.cgRd : RegisterMap.Statement .cgRd := by
  intro cfg off' acc' size' m k hl hw he ht
  cases ht
  cases he
  rw [hl]; rfl

theorem RegisterMap.evtinWr (v : Word) : RegisterMap.Statement (.evtinWr v) := by
  intro cfg off' acc' size' m k hl hw he ht
  cases ht
  cases he
  rw [hl]; rfl

theorem RegisterMap.evtinRd : RegisterMap.Statement .evtinRd := by
  intro cfg off' acc' size' m k hl hw he ht
  cases ht
  cases he
  rw [hl]; rfl

theorem RegisterMap.cfgBadOffset (off : Word) (acc : Acc) : RegisterMap.Statement (.cfgBadOffset off acc) := by
  intro cfg off' acc' size' m k hl hw he ht
  cases ht
  cases he
  have h : off.toNat < 0x80 := by
    have h1 := (of_decide_eq_true hw).1
    rwa [hl] at h1
  have := config_region ⟨off.toNat, h⟩
  simpa using this

theorem RegisterMap.noPeriph (off : Word) (acc : Acc) : RegisterMap.Statement (.noPeriph off acc) := by
  intro cfg off' acc' size' m k hl hw he ht
  cases ht
  cases he
  simp

theorem RegisterMap.periphOffNoop (id w : Nat) (acc : Acc) : RegisterMap.Statement (.periphOffNoop id w acc) := by
  intro cfg off' acc' size' m k hl hw he ht
  cases ht
  cases he
  simp

theorem RegisterMap.customAccess (id w : Nat) (acc : Acc) : RegisterMap.Statement (.customAccess id w acc) := by
  intro cfg off' acc' size' m k hl hw he ht
  cases ht
  cases he
  simp

theorem RegisterMap.rxSlotEmpty (id w : Nat) (acc : Acc) : RegisterMap.Statement (.rxSlotEmpty id w acc) := by
  intro cfg off' acc' size' m k hl hw he ht
  cases ht
  cases he
  simp only [Instr.wf, Bool.and_eq_true, decide_eq_true_eq, hl] at hw
  rw [hl, windowAddr_mask id w _ rfl]
  exact window_below_10 ⟨w, hw.2⟩

theorem RegisterMap.txSlotEmpty (id w : Nat) (acc : Acc) : RegisterMap.Statement (.txSlotEmpty id w acc) := by
  intro cfg off' acc' size' m k hl hw he ht
  cases ht
  cases he
  simp only [Instr.wf, Bool.and_eq_true, decide_eq_true_eq, hl, Layout.default] at hw
  rw [hl, windowAddr_mask id w _ rfl]
  have h := window_tx ⟨w - 0x10, by omega⟩
  rwa [show 0x10 + (w - 0x10) = w from by omega] at h

theorem RegisterMap.rxAddrWr (id : Nat) (v : Word) : RegisterMap.Statement (.rxAddrWr id v) := by
  intro cfg off' acc' size' m k hl hw he ht
  cases ht
  cases he
  rw [hl, windowAddr_mask id _ _ rfl]
  rfl

theorem RegisterMap.rxAddrRd (id : Nat) : RegisterMap.Statement (.rxAddrRd id) := by
  intro cfg off' acc' size' m k hl hw he ht
  cases ht
  cases he
  rw [hl, windowAddr_mask id _ _ rfl]
  rfl

theorem RegisterMap.rxSizeWr (id : Nat) (v : Word) : RegisterMap.Statement (.rxSizeWr id v) := by
  intro cfg off' acc' size' m k hl hw he ht
  cases ht
  cases he
  rw [hl, windowAddr_mask id _ _ rfl]
  rfl

theorem RegisterMap.rxSizeRd (id : Nat) : RegisterMap.Statement (.rxSizeRd id) := by
  intro cfg off' acc' size' m k hl hw he ht
  cases ht
  cases he
  rw [hl, windowAddr_mask id _ _ rfl]
  rfl

theorem RegisterMap.rxConfigWr (id : Nat) (v : Word) : RegisterMap.Statement (.rxConfigWr id v) := by
  intro cfg off' acc' size' m k hl hw he ht
  cases ht
  cases he
  rw [hl, windowAddr_mask id _ _ rfl]
  rfl

theorem RegisterMap.rxConfigRd (id : Nat) : RegisterMap.Statement (.rxConfigRd id) := by
  intro cfg off' acc' size' m k hl hw he ht
  cases ht
  cases he
  rw [hl, windowAddr_mask id _ _ rfl]
  rfl

theorem RegisterMap.rxBadOffset (id w : Nat) (acc : Acc) : RegisterMap.Statement (.rxBadOffset id w acc) := by
  intro cfg off' acc' size' m k hl hw he ht
  cases ht
  cases he
  simp only [Instr.wf, Bool.and_eq_true, decide_eq_true_eq, hl] at hw
  rw [hl, windowAddr_mask id w _ rfl]
  exact window_below_10 ⟨w, hw.2.1⟩

theorem RegisterMap.txAddrWr (id : Nat) (v : Word) : RegisterMap.Statement (.txAddrWr id v) := by
  intro cfg off' acc' size' m k hl hw he ht
  cases ht
  cases he
  rw [hl, windowAddr_mask id _ _ rfl]
  rfl

theorem RegisterMap.txAddrRd (id : Nat) : RegisterMap.Statement (.txAddrRd id) := by
  intro cfg off' acc' size' m k hl hw he ht
  cases ht
  cases he
  rw [hl, windowAddr_mask id _ _ rfl]
  rfl

theorem RegisterMap.txSizeWr (id : Nat) (v : Word) : RegisterMap.Statement (.txSizeWr id v) := by
  intro cfg off' acc' size' m k hl hw he ht
  cases ht
  cases he
  rw [hl, windowAddr_mask id _ _ rfl]
  rfl

theorem RegisterMap.txSizeRd (id : Nat) : RegisterMap.Statement (.txSizeRd id) := by
  intro cfg off' acc' size' m k hl hw he ht
  cases ht
  cases he
  rw [hl, windowAddr_mask id _ _ rfl]
  rfl

theorem RegisterMap.txConfigWr (id : Nat) (v : Word) : RegisterMap.Statement (.txConfigWr id v) := by
  intro cfg off' acc' size' m k hl hw he ht
  cases ht
  cases he
  rw [hl, windowAddr_mask id _ _ rfl]
  rfl

theorem RegisterMap.txConfigRd (id : Nat) : RegisterMap.Statement (.txConfigRd id) := by
  intro cfg off' acc' size' m k hl hw he ht
  cases ht
  cases he
  rw [hl, windowAddr_mask id _ _ rfl]
  rfl

theorem RegisterMap.txBadOffset (id w : Nat) (acc : Acc) : RegisterMap.Statement (.txBadOffset id w acc) := by
  intro cfg off' acc' size' m k hl hw he ht
  cases ht
  cases he
  simp only [Instr.wf, Bool.and_eq_true, decide_eq_true_eq, hl, Layout.default] at hw
  rw [hl, windowAddr_mask id w _ rfl]
  have h := window_tx ⟨w - 0x10, by omega⟩
  rwa [show 0x10 + (w - 0x10) = w from by omega] at h

theorem RegisterMap.pushBytes (c : ChanId) (bytes : List Byte) : RegisterMap.Statement (.pushBytes c bytes) := by
  intro cfg off acc size m k hl hw he ht
  cases ht

theorem RegisterMap.rdqPop (c : ChanId) : RegisterMap.Statement (.rdqPop c) := by
  intro cfg off acc size m k hl hw he ht
  cases ht

theorem RegisterMap.promote (c : ChanId) : RegisterMap.Statement (.promote c) := by
  intro cfg off acc size m k hl hw he ht
  cases ht

theorem RegisterMap.ctrlLoop : RegisterMap.Statement .ctrlLoop := by
  intro cfg off acc size m k hl hw he ht
  cases ht

theorem RegisterMap.tick : RegisterMap.Statement .tick := by
  intro cfg off acc size m k hl hw he ht
  cases ht

theorem RegisterMap.reset (active : Bool) : RegisterMap.Statement (.reset active) := by
  intro cfg off acc size m k hl hw he ht
  cases ht

theorem RegisterMap.prepareNextChunk (c : ChanId) : RegisterMap.Statement (.prepareNextChunk c) := by
  intro cfg off acc size m k hl hw he ht
  cases ht

theorem RegisterMap.deliverChunk (c : ChanId) (rdata : Quad) : RegisterMap.Statement (.deliverChunk c rdata) := by
  intro cfg off acc size m k hl hw he ht
  cases ht

theorem RegisterMap.finalize (c : ChanId) : RegisterMap.Statement (.finalize c) := by
  intro cfg off acc size m k hl hw he ht
  cases ht

theorem RegisterMap.channelReady (c : ChanId) : RegisterMap.Statement (.channelReady c) := by
  intro cfg off acc size m k hl hw he ht
  cases ht

theorem RegisterMap.postWrite (req : Req) : RegisterMap.Statement (.postWrite req) := by
  intro cfg off acc size m k hl hw he ht
  cases ht

theorem RegisterMap.enqueueTransfer (c : ChanId) : RegisterMap.Statement (.enqueueTransfer c) := by
  intro cfg off acc size m k hl hw he ht
  cases ht

theorem RegisterMap.flush (c : ChanId) : RegisterMap.Statement (.flush c) := by
  intro cfg off acc size m k hl hw he ht
  cases ht

theorem RegisterMap.periphSetOn (p : Fin 32) (b : Bool) : RegisterMap.Statement (.periphSetOn p b) := by
  intro cfg off acc size m k hl hw he ht
  cases ht

end Sys2Proof.Laws
end

