-- ==== Sys2Proof/Laws/Schedule.lean ====
section
/-! SUPPORT. The event schedule: which steps touch the queues and the wake-up, and how (43_controller R250, R254, R260,
R263). -/
namespace Sys2Proof.Machine.Laws
open Sys2Proof.Laws

/-- Time, the controller's queues and the wake-up are equal. -/
structure QueuesSame (s t : State) : Prop where
  now      : t.now = s.now
  lastrun  : t.lastrun = s.lastrun
  inflight : t.inflight = s.inflight
  wq       : t.wq = s.wq
  ready    : t.ready = s.ready
  wake     : t.wake = s.wake

/-- A stimulus woke the controller (43_controller R263); work may have joined its queues. -/
structure Stimulated (s t : State) : Prop where
  now      : t.now = s.now
  lastrun  : t.lastrun = s.lastrun
  inflight : t.inflight = s.inflight
  wake     : t.wake = some (earliest s.wake (stimulusCycle s))

theorem QueuesSame.refl (s : State) : QueuesSame s s := ⟨rfl, rfl, rfl, rfl, rfl, rfl⟩

theorem QueuesSame.trans {s t u : State} (h : QueuesSame s t) (g : QueuesSame t u) : QueuesSame s u :=
  ⟨g.now.trans h.now, g.lastrun.trans h.lastrun, g.inflight.trans h.inflight, g.wq.trans h.wq, g.ready.trans h.ready,
    g.wake.trans h.wake⟩

theorem queuesSame_setChan (s : State) (c : ChanId) (ch : Chan) : QueuesSame s (s.setChan c ch) :=
  ⟨rfl, rfl, rfl, rfl, rfl, rfl⟩
theorem queuesSame_emit (s : State) (ev : Event) : QueuesSame s (s.emit ev) := ⟨rfl, rfl, rfl, rfl, rfl, rfl⟩
theorem queuesSame_refuse (s : State) (k : RefusalKind) : QueuesSame s (s.refuse k) := ⟨rfl, rfl, rfl, rfl, rfl, rfl⟩

theorem queuesSame_pushFree (s : State) (c : ChanId) : QueuesSame s (s.pushFree c) := by
  unfold State.pushFree
  split
  · exact queuesSame_setChan s c _
  · exact queuesSame_emit s _

theorem queuesSame_finalize (s : State) (c : ChanId) : QueuesSame s (s.finalize c) := by
  unfold State.finalize State.requestPromotion State.busyUpdate
  exact (((((queuesSame_pushFree s c).trans (queuesSame_setChan _ c _)).trans (queuesSame_setChan _ c _)).trans
    (queuesSame_emit _ _)).trans (queuesSame_emit _ _)).trans (queuesSame_setChan _ c _)

theorem queuesSame_enqueueRecord (s : State) (c : ChanId) (addr size : Option Word) (width : BitVec 2) (cont : Bool) :
    QueuesSame s (s.enqueueRecord c addr size width cont).state := by
  unfold State.enqueueRecord
  split
  · exact queuesSame_refuse s _
  · split
    · exact queuesSame_refuse s _
    · have hl : ∀ (u : State) (q : QueueId) (d : Bool), QueuesSame u (u.logIfFull q d) := by
        intro u q d
        cases d
        · exact QueuesSame.refl u
        · exact queuesSame_emit u _
      unfold State.requestPromotion State.busyUpdate State.pushPending
      exact (((((queuesSame_setChan s c _).trans (queuesSame_setChan _ c _)).trans (hl _ _ _)).trans
        (queuesSame_setChan _ c _)).trans (queuesSame_emit _ _)).trans (queuesSame_setChan _ c _)

theorem queuesSame_periphAct {pid : Fin 32} {s : State} {r : Reply} (h : PeriphAct pid s r) : QueuesSame s r.state := by
  cases h with
  | invalid => exact .refl s
  | offNoop acc => cases acc <;> exact ⟨rfl, rfl, rfl, rfl, rfl, rfl⟩
  | slotEmpty off => exact queuesSame_emit s _
  | addrWr c v _ _ => exact queuesSame_setChan s c _
  | addrRd c _ _ => unfold State.addrRd State.stagedRd; split <;> exact ⟨rfl, rfl, rfl, rfl, rfl, rfl⟩
  | sizeWr c v _ _ => exact queuesSame_setChan s c _
  | sizeRd c _ _ => unfold State.sizeRd State.stagedRd; split <;> exact ⟨rfl, rfl, rfl, rfl, rfl, rfl⟩
  | configWr c v _ _ =>
    unfold State.configWr
    split
    · exact .refl s
    · split
      · exact queuesSame_emit s _
      · split
        · rw [flow_reply_state]
          exact (queuesSame_setChan s c _).trans (queuesSame_enqueueRecord (s.storeConfig c v) c _ _ _ _)
        · exact queuesSame_setChan s c _
  | configRd c _ _ => exact .refl s
  | transfer c base size width cont _ _ =>
    unfold State.handlerTransfer
    split
    · exact queuesSame_emit s _
    · rw [flow_reply_state]; exact queuesSame_enqueueRecord s c _ _ _ _

theorem queuesSame_busNext {s t : State} (h : BusNext s t) : QueuesSame s t := by
  obtain ⟨r, off, acc, size, ha, rfl⟩ := h
  have hr : QueuesSame s r.state := by
    cases ha with
    | cgWrite v => rw [cgWrite_eq]; exact (cgLoop_eq s.cg v 32 { s with cg := v }) ▸ ⟨rfl, rfl, rfl, rfl, rfl, rfl⟩
    | cgRead => exact .refl s
    | evtin off acc => exact ⟨rfl, rfl, rfl, rfl, rfl, rfl⟩
    | periph pid r h => exact h.lift QueuesSame QueuesSame.trans (fun _ => ⟨rfl, rfl, rfl, rfl, rfl, rfl⟩) queuesSame_periphAct
  unfold Reply.close
  split
  · exact hr.trans (queuesSame_emit _ _)
  · exact hr

theorem stimulated_postWrite (s : State) (req : Req) : Stimulated s (s.postWrite req) := by
  rw [postWrite_eq]; exact ⟨rfl, rfl, rfl, rfl⟩

theorem Stimulated.of_same {s t u : State} (h : QueuesSame s t) (g : Stimulated t u) : Stimulated s u := by
  refine ⟨g.now.trans h.now, g.lastrun.trans h.lastrun, g.inflight.trans h.inflight, ?_⟩
  rw [g.wake, h.wake]
  simp only [stimulusCycle, h.lastrun, h.now]

theorem Stimulated.then_same {s t u : State} (h : Stimulated s t) (g : QueuesSame t u) : Stimulated s u :=
  ⟨g.now.trans h.now, g.lastrun.trans h.lastrun, g.inflight.trans h.inflight, g.wake.trans h.wake⟩

theorem stimulated_flush (s : State) (c : ChanId) (x : Transfer) : Stimulated s (s.flush c x) := by
  unfold State.flush
  split
  · exact ((stimulated_postWrite _ _).of_same (queuesSame_setChan s c _)).then_same (queuesSame_finalize _ c)
  · exact (stimulated_postWrite _ _).of_same (queuesSame_setChan s c _)

/-- How an agent's step touches the queues and the wake-up. -/
theorem agent_queues {s t : State} (h : AgentCase s t) :
    QueuesSame s t ∨ Stimulated s t ∨ (s.loopDue = true ∧ t = s.ctrlLoop)
    ∨ (s.loopDue = false ∧ t = { s with now := s.now + 1 }) ∨ (s.quiescent = true ∧ t = s.resetBlock) := by
  cases h with
  | bus _ h => exact .inl (queuesSame_busNext h)
  | pushTx c _ => exact .inl (queuesSame_refuse s _)
  | push c bytes _ =>
    unfold State.pushBytes
    split
    · exact .inl (queuesSame_emit s _)
    · split
      · exact .inl (queuesSame_emit s _)
      · split
        · exact .inl (queuesSame_refuse s _)
        · split
          · exact .inr (.inl ((stimulated_flush _ c _).of_same (queuesSame_setChan s c _)))
          · exact .inl (queuesSame_setChan s c _)
  | popRx c _ => exact .inl (queuesSame_refuse s _)
  | pop c w rest _ _ => exact .inl ((queuesSame_setChan s c _).trans (queuesSame_emit _ _))
  | promote c _ _ =>
    by_cases hi : (s.chan c).active.isSome = true ∨ (s.chan c).pending = []
    · rw [promote_idle hi]; exact .inl (queuesSame_setChan s c _)
    · simp only [not_or, Bool.not_eq_true, Option.isSome_eq_false_iff, Option.isNone_iff_eq_none] at hi
      obtain ⟨x, rest, hp⟩ := List.exists_cons_of_ne_nil hi.2
      rw [promote_eq hi.1 hp]
      by_cases hd : s.cfg.dirOf c = some .tx
      · rw [channelReady_tx (s := s.setChan c _) hd]; exact .inr (.inl ⟨rfl, rfl, rfl, rfl⟩)
      · rw [channelReady_not_tx (s := s.setChan c _) (by simpa using hd)]; exact .inl (queuesSame_setChan s c _)
  | loop h => exact .inr (.inr (.inl ⟨h, rfl⟩))
  | tick h => exact .inr (.inr (.inr (.inl ⟨h, rfl⟩)))
  | deassert => exact .inl (.refl s)
  | reset h => exact .inr (.inr (.inr (.inr ⟨h, rfl⟩)))
  | resetRefused _ => exact .inl (queuesSame_refuse s _)

theorem ScheduleInv_of_same {s t : State} (h : ScheduleInv s) (g : QueuesSame s t) : ScheduleInv t := by
  refine ⟨?_, ?_, ?_, ?_⟩
  · rw [InflightSorted, g.inflight]; exact h.sorted
  · rw [g.wake, g.now]; exact h.wakeFuture
  · rw [g.lastrun, g.now]; exact h.runPast
  · rw [g.lastrun, g.now, g.wake]; exact h.onePerCycle

theorem ScheduleInv_of_stimulated {s t : State} (h : ScheduleInv s) (g : Stimulated s t) : ScheduleInv t := by
  have hc : s.now ≤ stimulusCycle s := by unfold stimulusCycle; split <;> omega
  refine ⟨?_, ?_, ?_, ?_⟩
  · rw [InflightSorted, g.inflight]; exact h.sorted
  · rw [g.wake, g.now]
    intro t ht
    cases ht
    unfold earliest
    split
    · exact hc
    · rename_i t0 hw; have := h.wakeFuture t0 hw; omega
  · rw [g.lastrun, g.now]; exact h.runPast
  · rw [g.lastrun, g.now, g.wake]
    intro hl he
    have hn := h.onePerCycle hl
    have hs : stimulusCycle s = s.now + 1 := by simp [stimulusCycle, hl]
    simp only [Option.some.injEq, earliest, hs] at he
    split at he
    · omega
    · rename_i t0 hw
      have := h.wakeFuture t0 hw
      exact hn (by rw [hw]; congr 1; omega)

/-- 43_controller R260: the tick. -/
theorem ScheduleInv_of_tick {s : State} (h : ScheduleInv s) (hd : s.loopDue = false) :
    ScheduleInv { s with now := s.now + 1 } := by
  refine ⟨h.sorted, fun t ht => ?_, fun r hr => ?_, fun hl => ?_⟩
  · have ht : s.wake = some t := ht
    have h1 : ¬ t ≤ s.now := by simpa [State.loopDue, ht] using hd
    show s.now + 1 ≤ t; omega
  · have := h.runPast r hr; show r ≤ s.now + 1; omega
  · have := h.runPast _ hl; simp only at this; omega

/-! The run, in any state whose pipeline is sorted. -/

theorem sorted_issueOne {s : State} (h : InflightSorted s) : InflightSorted s.issueOne.state := by
  have hm : ∀ (u : State) (r : Req), (u.memIssue r).inflight = u.inflight := fun u r => by rw [memIssue_eq]
  unfold State.issueOne
  split
  · unfold State.issueWrite
    split <;> simp only [InflightSorted, flow_state_cont, State.raise, State.log, State.emit, hm] <;> exact h
  · split
    · split
      · unfold State.issueRead
        split
        · exact h
        · have hc : ∀ (u : State) (c : ChanId) (l : Bool), (u.cedeTurn c l).inflight = u.inflight := fun u c l => by
            cases l <;> rfl
          have hb : ∀ u : State, u.pushBuffer.inflight = u.inflight := fun u => by
            unfold State.pushBuffer; split <;> rfl
          cases s.nextAnswer with
          | accept lat rdata =>
            simp only [State.readAnswered, flow_state_cont, InflightSorted]
            refine pushOrdered_sorted InFlight.ts _ ?_
            rw [hm, hc]; exact h
          | reject => simp only [State.readAnswered, flow_state_cont, InflightSorted, State.raise, hb, hm, hc]; exact h
          | pending =>
            simp only [State.readAnswered, flow_state_cont, InflightSorted, State.raise, State.log, State.emit, hb, hm, hc]
            exact h
      · exact h
    · exact h

/-- A finished drain leaves the reads that are not due, still sorted. -/
theorem sorted_drainEntries (es : List InFlight) {s : State} (hs : es.Pairwise (fun a b => a.ts ≤ b.ts))
    (he : s.inflight = es) : InflightSorted (drainEntries es s).state
      ∧ ∀ u, drainEntries es s = .cont u → ∀ e ∈ u.inflight, s.now < e.ts := by
  induction es generalizing s with
  | nil =>
    refine ⟨by simp [drainEntries, InflightSorted, he], fun u hu e hm => ?_⟩
    cases hu; simp [he] at hm
  | cons e rest ih =>
    have hs' := List.pairwise_cons.1 hs
    simp only [drainEntries]
    split
    · have hp : ∀ u : State, u.pushBuffer.inflight = u.inflight ∧ u.pushBuffer.now = u.now := fun u => by
        unfold State.pushBuffer; split <;> exact ⟨rfl, rfl⟩
      have hq : ∀ (u : State) (c : ChanId) (d : Quad), (u.deliverChunk c d).state.inflight = u.inflight
          ∧ (u.deliverChunk c d).state.now = u.now := fun u c d => by
        unfold State.deliverChunk State.pushRdq
        split
        · exact ⟨rfl, rfl⟩
        · split
          · exact ⟨(queuesSame_finalize _ _).inflight, (queuesSame_finalize _ _).now⟩
          · exact ⟨rfl, rfl⟩
      have h1 := hq (State.pushBuffer { s with inflight := rest }) e.c e.rdata
      rw [(hp _).1, (hp _).2] at h1
      cases hd : State.deliverChunk (State.pushBuffer { s with inflight := rest }) e.c e.rdata with
      | cont t =>
        rw [hd] at h1
        have h2 : t.inflight = rest := h1.1
        have h3 : t.now = s.now := h1.2
        rw [flow_cont_andThen, ← h3]
        exact ih hs'.2 h2
      | halted t =>
        rw [hd] at h1
        have h2 : t.inflight = rest := h1.1
        exact ⟨by rw [flow_halted_andThen, flow_state_halted, InflightSorted, h2]; exact hs'.2, fun u hu => by cases hu⟩
    · rename_i hlt
      refine ⟨by rw [flow_state_cont, InflightSorted, he]; exact hs, fun u hu a ha => ?_⟩
      cases hu
      rw [he] at ha
      rcases List.mem_cons.1 ha with rfl | ha
      · omega
      · have := hs'.1 a ha; omega

/-- 43_controller R250, R254: a run keeps the schedule sound. -/
theorem scheduleInv_ctrlLoop {s : State} (h : InflightSorted s) : ScheduleInv s.ctrlLoop := by
  have hi := sorted_issueOne (s := runStart s) h
  have hf := issueFrame_issueOne (runStart s)
  have fin : ∀ u : State, InflightSorted u → u.now = s.now → u.lastrun = some s.now → u.wake = none → ScheduleInv u := by
    intro u h1 h2 h3 h4
    refine ⟨h1, fun t ht => (by rw [h4] at ht; cases ht), fun r hr => ?_, fun _ => by rw [h4]; simp⟩
    rw [h3] at hr; cases hr; omega
  rcases ctrlLoop_cases s with ⟨t, h1, h2⟩ | ⟨t, u, h1, h2, h3⟩ | ⟨t, u, h1, h2, h3⟩
  · rw [h1] at hi hf
    rw [h2]; exact fin t hi hf.now hf.lastrun hf.wake
  · rw [h1] at hi hf
    have hd := drainFrame_drainEntries t.inflight t
    have hs := (sorted_drainEntries t.inflight hi rfl).1
    rw [show drainEntries t.inflight t = _ from h2] at hd hs
    rw [h3]
    exact fin u hs (hd.now.trans hf.now) (hd.lastrun.trans hf.lastrun) (hd.wake.trans hf.wake)
  · rw [h1] at hi hf
    have hd := drainFrame_drainEntries t.inflight t
    have hs := sorted_drainEntries t.inflight hi rfl
    rw [show drainEntries t.inflight t = _ from h2] at hd hs
    have hn : u.now = s.now := hd.now.trans hf.now
    have hw : u.wake = none := hd.wake.trans hf.wake
    have hl : u.lastrun = some s.now := hd.lastrun.trans hf.lastrun
    have htn : t.now = s.now := hf.now
    have hlate := hs.2 u rfl
    have ew := rearm_wake hw
    have hfut : ∀ t, u.rearm.wake = some t → s.now < t := by
      intro t ht
      rw [ew] at ht
      cases hq : u.inflight with
      | nil =>
        rw [hq] at ht
        split at ht <;> simp_all
        omega
      | cons e rest =>
        have := hlate e (by rw [hq]; exact List.mem_cons_self)
        rw [hq] at ht
        split at ht <;> simp_all
        omega
    rw [h3, rearm_eq u]
    refine ⟨hs.1, fun t ht => ?_, fun r hr => ?_, fun _ he => ?_⟩
    · have := hfut t ht; show u.now ≤ t; omega
    · have hr : u.lastrun = some r := hr
      rw [hl] at hr; cases hr; show s.now ≤ u.now; omega
    · have := hfut _ he; simp only at this; omega

/-! The clock-gate mask and the flags (10_state R61). -/

/-- The mask and every flag are equal. -/
structure FlagsSame (s t : State) : Prop where
  cg   : t.cg = s.cg
  isOn : ∀ p, t.isOn p = s.isOn p

theorem FlagsSame.refl (s : State) : FlagsSame s s := ⟨rfl, fun _ => rfl⟩

theorem FlagsSame.trans {s t u : State} (h : FlagsSame s t) (g : FlagsSame t u) : FlagsSame s u :=
  ⟨g.cg.trans h.cg, fun p => (g.isOn p).trans (h.isOn p)⟩

theorem flagsSame_setChan (s : State) (c : ChanId) (ch : Chan) : FlagsSame s (s.setChan c ch) := ⟨rfl, isOn_setChan s c ch⟩

theorem flagsSame_emit (s : State) (ev : Event) : FlagsSame s (s.emit ev) := ⟨rfl, fun _ => rfl⟩

theorem flagsSame_enqueueRecord (s : State) (c : ChanId) (addr size : Option Word) (width : BitVec 2) (cont : Bool) :
    FlagsSame s (s.enqueueRecord c addr size width cont).state := by
  refine ⟨?_, (otherChansSame_enqueueRecord s c addr size width cont).2⟩
  unfold State.enqueueRecord
  split
  · rfl
  · split
    · rfl
    · simp only [flow_state_cont, State.requestPromotion, State.busyUpdate, State.pushPending, State.logIfFull]
      split <;> rfl

theorem flagsSame_periphAct {pid : Fin 32} {s : State} {r : Reply} (h : PeriphAct pid s r) : FlagsSame s r.state := by
  cases h with
  | invalid => exact .refl s
  | offNoop acc => cases acc <;> exact ⟨rfl, fun _ => rfl⟩
  | slotEmpty off => exact flagsSame_emit s _
  | addrWr c v _ _ => exact flagsSame_setChan s c _
  | addrRd c _ _ => unfold State.addrRd State.stagedRd; split <;> exact ⟨rfl, fun _ => rfl⟩
  | sizeWr c v _ _ => exact flagsSame_setChan s c _
  | sizeRd c _ _ => unfold State.sizeRd State.stagedRd; split <;> exact ⟨rfl, fun _ => rfl⟩
  | configWr c v _ _ =>
    unfold State.configWr
    split
    · exact .refl s
    · split
      · exact flagsSame_emit s _
      · split
        · rw [flow_reply_state]
          exact (flagsSame_setChan s c _).trans (flagsSame_enqueueRecord (s.storeConfig c v) c _ _ _ _)
        · exact flagsSame_setChan s c _
  | configRd c _ _ => exact .refl s
  | transfer c base size width cont _ _ =>
    unfold State.handlerTransfer
    split
    · exact flagsSame_emit s _
    · rw [flow_reply_state]; exact flagsSame_enqueueRecord s c _ _ _ _

theorem flagsSame_flush (s : State) (c : ChanId) (x : Transfer) : FlagsSame s (s.flush c x) := by
  refine ⟨?_, (otherChansSame_flush s c x).2⟩
  have h : ∀ u : State, (u.pushFree c).cg = u.cg := fun u => by unfold State.pushFree; split <;> rfl
  unfold State.flush
  split
  · exact h _
  · rfl

/-- The flags and the mask change in a clock-gate write and in a reset only. -/
theorem agent_flags {s t : State} (h : AgentCase s t) :
    FlagsSame s t ∨ (∃ v off acc size, t = (s.cgWrite v).close off acc size)
    ∨ (s.quiescent = true ∧ t = s.resetBlock) := by
  cases h with
  | bus _ hb =>
    obtain ⟨r, off, acc, size, ha, rfl⟩ := hb
    have close : FlagsSame s r.state → FlagsSame s (r.close off acc size) := by
      intro hr
      unfold Reply.close
      split
      · exact hr.trans (flagsSame_emit _ _)
      · exact hr
    cases ha with
    | cgWrite v => exact .inr (.inl ⟨v, off, acc, size, rfl⟩)
    | cgRead => exact .inl (close (.refl s))
    | evtin _ _ => exact .inl (close ⟨rfl, fun _ => rfl⟩)
    | periph pid r h => exact .inl (close (h.lift FlagsSame FlagsSame.trans (fun _ => ⟨rfl, fun _ => rfl⟩) flagsSame_periphAct))
  | pushTx c _ => exact .inl ⟨rfl, fun _ => rfl⟩
  | push c bytes _ =>
    left
    unfold State.pushBytes
    split
    · exact flagsSame_emit s _
    · split
      · exact flagsSame_emit s _
      · split
        · exact ⟨rfl, fun _ => rfl⟩
        · split
          · exact (flagsSame_setChan s c _).trans (flagsSame_flush _ c _)
          · exact flagsSame_setChan s c _
  | popRx c _ => exact .inl ⟨rfl, fun _ => rfl⟩
  | pop c w rest _ _ => exact .inl ((flagsSame_setChan s c _).trans (flagsSame_emit _ _))
  | promote c _ _ =>
    left
    refine ⟨?_, (otherChansSame_promote s c).2⟩
    unfold State.promote
    split
    · unfold State.channelReady; split <;> rfl
    · rfl
  | loop _ =>
    obtain ⟨u, a, b⟩ := ctrlLoop_frame s
    left
    rw [b]
    exact ⟨a.cg, a.isOn⟩
  | tick _ => exact .inl ⟨rfl, fun _ => rfl⟩
  | deassert => exact .inl (.refl s)
  | reset hq => exact .inr (.inr ⟨hq, rfl⟩)
  | resetRefused _ => exact .inl ⟨rfl, fun _ => rfl⟩

/-- No agent's step changes the configuration (00_scope R10). -/
theorem agent_cfg {s t : State} (h : AgentCase s t) : t.cfg = s.cfg := by
  cases h with
  | bus _ hb => exact (stickyFrame_busNext hb).cfg
  | pushTx c _ => rfl
  | push c bytes _ => exact (stickyFrame_pushBytes s c bytes).cfg
  | popRx c _ => rfl
  | pop c w rest _ _ => rfl
  | promote c _ _ => exact (stickyFrame_promote s c).cfg
  | loop _ => exact (stickyFrame_ctrlLoop s).cfg
  | tick _ => rfl
  | deassert => rfl
  | reset _ => exact (stickyFrame_resetBlock s).cfg
  | resetRefused _ => rfl

end Sys2Proof.Machine.Laws
end

