-- ==== Sys2Proof/Laws/Run.lean ====
section
/-! SUPPORT. What a controller run never touches: every channel's registers, queued transfers and assembled bytes, and every
channel that is not first in the ready queue and has no read due (43_controller R250 to R253). -/
namespace Sys2Proof.Machine.Laws

/-- The registers, queued transfers and assembled bytes of every channel are equal. -/
def RegsSame (s t : State) : Prop := (∀ c, (t.chan c).addr = (s.chan c).addr ∧ (t.chan c).size = (s.chan c).size
          ∧ (t.chan c).contCfg = (s.chan c).contCfg ∧ (t.chan c).widthCfg = (s.chan c).widthCfg
          ∧ (t.chan c).pending = (s.chan c).pending ∧ (t.chan c).asm = (s.chan c).asm)

theorem regsSame_of_periphs {s t : State} (e : t.periphs = s.periphs) : RegsSame s t := fun c => by rw [chan_of_periphs_eq e]; exact ⟨rfl, rfl, rfl, rfl, rfl, rfl⟩

theorem RegsSame.trans {s t u : State} (h : RegsSame s t) (g : RegsSame t u) : RegsSame s u := fun c => by
  obtain ⟨a,b,d,e,f,i⟩ := h c
  obtain ⟨a',b',d',e',f',i'⟩ := g c
  exact ⟨a'.trans a, b'.trans b, d'.trans d, e'.trans e, f'.trans f, i'.trans i⟩

theorem regsSame_setChan (s : State) (c) (ch : Chan) (h : ch.addr = (s.chan c).addr ∧ ch.size = (s.chan c).size
          ∧ ch.contCfg = (s.chan c).contCfg ∧ ch.widthCfg = (s.chan c).widthCfg
          ∧ ch.pending = (s.chan c).pending ∧ ch.asm = (s.chan c).asm) : RegsSame s (s.setChan c ch) := fun c' => by
  rw [chan_setChan]; split
  · rename_i e; rw [e]; exact h
  · exact ⟨rfl, rfl, rfl, rfl, rfl, rfl⟩

theorem regsSame_pushFree (s : State) (c) : RegsSame s (s.pushFree c) := by
  unfold State.pushFree
  split
  · exact regsSame_setChan _ _ _ ⟨rfl, rfl, rfl, rfl, rfl, rfl⟩
  · exact regsSame_of_periphs rfl

theorem RegsSame.setChan {s t : State} (h : RegsSame s t) (c) (ch : Chan) (hc : ch.addr = (t.chan c).addr ∧ ch.size = (t.chan c).size
          ∧ ch.contCfg = (t.chan c).contCfg ∧ ch.widthCfg = (t.chan c).widthCfg
          ∧ ch.pending = (t.chan c).pending ∧ ch.asm = (t.chan c).asm) : RegsSame s (t.setChan c ch) := RegsSame.trans h (regsSame_setChan t c ch hc)

theorem RegsSame.emit {s t : State} (h : RegsSame s t) (ev) : RegsSame s (t.emit ev) := RegsSame.trans h (regsSame_of_periphs rfl)

theorem RegsSame.finalize {s t : State} (h : RegsSame s t) (c) : RegsSame s (t.finalize c) := by
  unfold State.finalize State.requestPromotion State.busyUpdate
  refine RegsSame.setChan (RegsSame.emit (RegsSame.emit (RegsSame.setChan (RegsSame.setChan (RegsSame.trans h (regsSame_pushFree t c)) c _ ?_) c _ ?_) _) _) c _ ?_ <;> exact ⟨rfl, rfl, rfl, rfl, rfl, rfl⟩

theorem run_deliverChunk (s : State) (c d) : RegsSame s (s.deliverChunk c d).state ∧ (s.deliverChunk c d).state.now = s.now ∧ ∀ c', c' ≠ c → (s.deliverChunk c d).state.chan c' = s.chan c' := by
  refine ⟨?_, (drainFrame_deliverChunk s c d).now, (otherChansSame_deliverChunk s c d).1⟩
  unfold State.deliverChunk State.pushRdq
  split
  · exact regsSame_of_periphs rfl
  · split
    · refine RegsSame.finalize (RegsSame.setChan (RegsSame.setChan (regsSame_of_periphs rfl) c _ ?_) c _ ?_) c <;> exact ⟨rfl, rfl, rfl, rfl, rfl, rfl⟩
    · refine RegsSame.setChan (RegsSame.setChan (regsSame_of_periphs rfl) c _ ?_) c _ ?_ <;> exact ⟨rfl, rfl, rfl, rfl, rfl, rfl⟩

theorem run_drainEntries (es) (s : State) : RegsSame s (drainEntries es s).state ∧ ∀ c, (∀ e ∈ es, e.c = c → s.now < e.ts) → (drainEntries es s).state.chan c = s.chan c := by
  induction es generalizing s with
  | nil => exact ⟨regsSame_of_periphs rfl, fun _ _ => rfl⟩
  | cons e rest ih =>
    simp only [drainEntries]
    split
    · rename_i hle
      obtain ⟨a, b, d⟩ := run_deliverChunk (State.pushBuffer { s with inflight := rest }) e.c e.rdata
      have hp : (State.pushBuffer { s with inflight := rest }).periphs = s.periphs := by unfold State.pushBuffer; split <;> rfl
      have hn : (State.pushBuffer { s with inflight := rest }).now = s.now := by unfold State.pushBuffer; split <;> rfl
      have hoth : ∀ c, (∀ e' ∈ e :: rest, e'.c = c → s.now < e'.ts) → (State.deliverChunk (State.pushBuffer { s with inflight := rest }) e.c e.rdata).state.chan c = s.chan c := by
        intro c hc
        rw [d c (fun h => by have := hc e (by simp) h.symm; omega), chan_of_periphs_eq hp]
      cases hd : State.deliverChunk (State.pushBuffer { s with inflight := rest }) e.c e.rdata with
      | cont t =>
        rw [hd] at a b d hoth
        have := ih t
        refine ⟨RegsSame.trans (RegsSame.trans (regsSame_of_periphs hp) a) this.1, fun c hc => ?_⟩
        have hb : t.now = s.now := b.trans hn
        exact (this.2 c (fun e' he h => by rw [hb]; exact hc e' (by simp [he]) h)).trans (hoth c hc)
      | halted t =>
        rw [hd] at a b d hoth
        exact ⟨RegsSame.trans (regsSame_of_periphs hp) a, hoth⟩
    · exact ⟨regsSame_of_periphs rfl, fun _ _ => rfl⟩

theorem run_issueOne (s : State) : RegsSame s s.issueOne.state ∧ (∀ c, s.ready.head? ≠ some c → s.issueOne.state.chan c = s.chan c) ∧ (s.issueOne.state.inflight = s.inflight ∨ ∃ e, s.now < e.ts ∧ s.issueOne.state.inflight = pushOrdered InFlight.ts e s.inflight) := by
  have hm : ∀ (u : State) (r : Req), (u.memIssue r).periphs = u.periphs := fun u r => by rw [memIssue_eq]
  have hmi : ∀ (u : State) (r : Req), (u.memIssue r).inflight = u.inflight := fun u r => by rw [memIssue_eq]
  have hmn : ∀ (u : State) (r : Req), (u.memIssue r).now = u.now := fun u r => by rw [memIssue_eq]
  have hb : ∀ u : State, u.pushBuffer.periphs = u.periphs := fun u => by
    unfold State.pushBuffer; split <;> rfl
  have hbi : ∀ u : State, u.pushBuffer.inflight = u.inflight := fun u => by
    unfold State.pushBuffer; split <;> rfl
  have hcd : ∀ (u : State) (c : ChanId) (l : Bool), (u.cedeTurn c l).periphs = u.periphs ∧ (u.cedeTurn c l).inflight = u.inflight ∧ (u.cedeTurn c l).now = u.now := fun u c l => by
            cases l <;> exact ⟨rfl, rfl, rfl⟩
  have same : ∀ t : State, t.periphs = s.periphs → t.inflight = s.inflight → RegsSame s t ∧ (∀ c, s.ready.head? ≠ some c → t.chan c = s.chan c) ∧ (t.inflight = s.inflight ∨ ∃ e, s.now < e.ts ∧ t.inflight = pushOrdered InFlight.ts e s.inflight) := 
    fun t h g => ⟨regsSame_of_periphs h, fun c _ => chan_of_periphs_eq h c, .inl g⟩
  unfold State.issueOne
  split
  · unfold State.issueWrite
    split <;> exact same _ (by simp only [flow_state_cont, State.raise, State.log, State.emit, hm]) (by simp only [flow_state_cont, State.raise, State.log, State.emit, hmi])
  · split
    · rename_i c0 rest0 hready
      split
      · unfold State.issueRead
        split
        · exact same _ rfl rfl
        · rename_i ch _
          have h1 : RegsSame s ({ s with ready := rest0, rbfree := s.rbfree - 1 }.advanceChunk c0) := 
            RegsSame.trans (regsSame_of_periphs (t := { s with ready := rest0, rbfree := s.rbfree - 1 }) rfl) (regsSame_setChan _ c0 _ ⟨rfl, rfl, rfl, rfl, rfl, rfl⟩)
          have h2 : ∀ c, s.ready.head? ≠ some c → ({ s with ready := rest0, rbfree := s.rbfree - 1 }.advanceChunk c0).chan c = s.chan c := by
            intro c hc
            rw [hready] at hc
            show State.chan (State.setChan _ _ _) c = _
            rw [chan_setChan_ne _ _ (fun h => hc (by simp [h]))]; rfl
          have fin : ∀ t : State, t.periphs = ({ s with ready := rest0, rbfree := s.rbfree - 1 }.advanceChunk c0).periphs → RegsSame s t ∧ ∀ c, s.ready.head? ≠ some c → t.chan c = s.chan c := 
            fun t h => ⟨RegsSame.trans h1 (regsSame_of_periphs h), fun c hc => by rw [chan_of_periphs_eq h]; exact h2 c hc⟩
          cases s.nextAnswer with
          | accept lat rd =>
            obtain ⟨a, b⟩ := fin (State.readAnswered (((({ s with ready := rest0, rbfree := s.rbfree - 1 }.advanceChunk c0).cedeTurn c0 ch.last).memIssue
      ch.req)) c0 ch.req (.accept lat rd)) (by simp only [State.readAnswered, State.pushInflight, hm, hcd])
            refine ⟨a, b, .inr ⟨{ ts := s.now + lat + 1, c := c0, req := ch.req, rdata := rd }, ?_, ?_⟩⟩
            · simp only; omega
            · simp only [State.readAnswered, flow_state_cont, State.pushInflight, queuePushOrdered, hmi, hcd, hmn]
              rfl
          | reject =>
            obtain ⟨a, b⟩ := fin (State.readAnswered (((({ s with ready := rest0, rbfree := s.rbfree - 1 }.advanceChunk c0).cedeTurn c0 ch.last).memIssue
      ch.req)) c0 ch.req (.reject)) (by simp only [State.readAnswered, State.raise, hb, hm, hcd])
            refine ⟨a, b, .inl ?_⟩
            simp only [State.readAnswered, flow_state_cont, State.raise, hbi, hmi, hcd]; rfl
          | pending =>
            obtain ⟨a, b⟩ := fin (State.readAnswered (((({ s with ready := rest0, rbfree := s.rbfree - 1 }.advanceChunk c0).cedeTurn c0 ch.last).memIssue
      ch.req)) c0 ch.req (.pending)) (by simp only [State.readAnswered, State.raise, State.log, State.emit, hb, hm, hcd])
            refine ⟨a, b, .inl ?_⟩
            simp only [State.readAnswered, flow_state_cont, State.raise, State.log, State.emit, hbi, hmi, hcd]; rfl
      · exact same _ rfl rfl
    · exact same _ rfl rfl

end Sys2Proof.Machine.Laws
end

