-- ==== Sys2Proof/Tests/Slice0.lean ====
section
/-! SUPPORT. Tests. Expected results come from the vectors and programs of spec/95_test_vectors.md (their id stands in each
comment) or from the register map of 30_encoding R127; the witnesses show that the statements' hypotheses can be met. -/
namespace Sys2Proof.Tests
open Sys2Proof.Machine Sys2Proof.Machine.Laws

/-! ## Helpers -/

/-- The channels of CFG-A. -/
def rx0 : ChanId := { pid := 0, slot := .rx }
def tx0 : ChanId := { pid := 0, slot := .tx }
def rx1 : ChanId := { pid := 1, slot := .rx }
def rx2 : ChanId := { pid := 2, slot := .rx }
def tx2 : ChanId := { pid := 2, slot := .tx }

/-- CFG-A with every peripheral on. -/
def allOn : State := (((({ State.reset with cg := 7 } : State).setOn 0 true).setOn 1 true).setOn 2 true)

/-- Change one channel. -/
def chanIs (s : State) (c : ChanId) (f : Chan → Chan) : State := s.setChan c (f (s.chan c))

/-- The next state; the state itself where there is none. -/
def run (i : Instr) (s : State) : State :=
  match exec i s with
  | .next t => t
  | .fault _ => s
  | .refused _ => s

/-- The state after a register access through `step`. -/
def access (off : Word) (acc : Acc) (size : Nat) (s : State) : State :=
  match step (s.schedule (.bus off acc size)) with
  | .next t => t
  | .fault _ => s
  | .refused _ => s

/-- The response of the access that ended last. -/
def lastResp (s : State) : Option Resp :=
  match s.hist.getLast? with
  | some (.bus _ _ _ r) => some r
  | _ => none

/-- A transfer record, as 95_test_vectors section 0 writes it. -/
def T (base cur : Word) (total remaining received : Nat) (c : ChanId) : Transfer :=
  { base := base, cur := cur, total := total, remaining := remaining, received := received, width := 0, cont := false
    owner := c }

/-- Channel `c` with active transfer `x` and free count 1. -/
def running (s : State) (c : ChanId) (x : Transfer) : State :=
  chanIs s c (fun ch => { ch with active := some x, free := 1 })

/-! ## Well-formedness: each check refuses an ill-formed term -/

/-- The default layout is well-formed, and so is CFG-A (95_test_vectors section 0). -/
theorem test_wf_accepts : Layout.default.wf = true ∧ Layout.default.bitsWf = true ∧ Cfg.vectors.wf = true := by decide

theorem test_layout_wf_refuses :
    ({ Layout.default with periphStride := 0 } : Layout).wf = false
    ∧ ({ Layout.default with offCg := 0x80 } : Layout).wf = false
    ∧ ({ Layout.default with offEvtin := 0x80 } : Layout).wf = false
    ∧ ({ Layout.default with offEvtin := 0x0 } : Layout).wf = false
    ∧ ({ Layout.default with customWindowStart := 0x8 } : Layout).wf = false
    ∧ ({ Layout.default with periphStride := 0x1F } : Layout).wf = false
    ∧ ({ Layout.default with offSize := 0x0 } : Layout).wf = false
    ∧ ({ Layout.default with offConfig := 0x0 } : Layout).wf = false
    ∧ ({ Layout.default with offConfig := 0x4 } : Layout).wf = false
    ∧ ({ Layout.default with offAddr := 0x10 } : Layout).wf = false
    ∧ ({ Layout.default with offSize := 0x10 } : Layout).wf = false
    ∧ ({ Layout.default with offConfig := 0x10 } : Layout).wf = false
    ∧ ({ Layout.default with customWindowStart := 0x18 } : Layout).wf = false := by decide

theorem test_layout_bits_refuse :
    ({ Layout.default with enBit := 2 } : Layout).bitsWf = false
    ∧ ({ Layout.default with widthLo := 31 } : Layout).bitsWf = false := by decide

theorem test_periph_wf_refuses :
    PeriphCfg.wf 4 { cid := 0, ids := 0, rx := true, tx := true, custom := none, handler := .rows [] } = false
    ∧ PeriphCfg.wf 4 { cid := 3, ids := 2, rx := true, tx := true, custom := none, handler := .rows [] } = false
    ∧ PeriphCfg.wf 4 { cid := 0, ids := 1, rx := false, tx := false, custom := none, handler := .rows [] } = false := by decide

theorem test_cfg_wf_refuses :
    ({ Cfg.vectors with np := 33 } : Cfg).wf = false ∧ ({ Cfg.vectors with np := 2 } : Cfg).wf = false
    ∧ ({ Cfg.vectors with periphs := [], np := 0 } : Cfg).wf = false
    ∧ ({ Cfg.vectors with nrb := 0 } : Cfg).wf = false
    ∧ ({ Cfg.vectors with
          periphs := [{ cid := 0, ids := 2, rx := true, tx := true, custom := none, handler := .rows [] },
                      { cid := 1, ids := 1, rx := true, tx := true, custom := none, handler := .rows [] }] } : Cfg).wf = false
    ∧ ({ Cfg.vectors with layout := { Layout.default with offSize := 0 } } : Cfg).wf = false
    ∧ ({ Cfg.vectors with layout := { Layout.default with clearBit := 32 } } : Cfg).wf = false
    ∧ ({ Cfg.vectors with layout := { Layout.default with channelRegionStart := 0xFFFFFF80 } } : Cfg).wf = false := by decide

/-- 00_scope R10: bounds, a peripheral outside `[0, NP)`, overlapping id ranges; R12: no construction of such a
configuration. -/
theorem test_cfg_valid_refuses :
    ({ Cfg.vectors with np := 33 } : Cfg).valid = false ∧ ({ Cfg.vectors with periphs := [], np := 0 } : Cfg).valid = false
    ∧ ({ Cfg.vectors with nrb := 0 } : Cfg).valid = false ∧ ({ Cfg.vectors with np := 2 } : Cfg).valid = false
    ∧ ({ Cfg.vectors with
          periphs := [{ cid := 0, ids := 2, rx := true, tx := true, custom := none, handler := .rows [] },
                      { cid := 1, ids := 1, rx := true, tx := true, custom := none, handler := .rows [] }] } : Cfg).valid = false
    ∧ State.construct { Cfg.vectors with nrb := 0 } = none ∧ State.construct Cfg.vectors = some State.reset := by decide

/-- 00_scope R12: such a configuration has no step. -/
theorem test_step_refuses_invalid_configuration :
    step (State.init { Cfg.vectors with nrb := 0 }) = .refused .invalidConfiguration := by rfl

/-- Operands that name nothing, a size of 4, an offset of another row. CFG-A: id 1 has no tx slot, id 3 no peripheral. -/
theorem test_bus_wf_refuses :
    (Instr.badSize 0 .rd 4).wf Cfg.vectors = false
    ∧ (Instr.cfgBadOffset 0x004 .rd).wf Cfg.vectors = false ∧ (Instr.cfgBadOffset 0x080 .rd).wf Cfg.vectors = false
    ∧ (Instr.noPeriph 0x07C .rd).wf Cfg.vectors = false ∧ (Instr.noPeriph 0x100 .rd).wf Cfg.vectors = false
    ∧ (Instr.periphOffNoop 3 0 .rd).wf Cfg.vectors = false ∧ (Instr.periphOffNoop 0 0x80 .rd).wf Cfg.vectors = false
    ∧ (Instr.customAccess 3 0x20 .rd).wf Cfg.vectors = false ∧ (Instr.customAccess 0 0x1F .rd).wf Cfg.vectors = false
    ∧ (Instr.rxSlotEmpty 0 0 .rd).wf Cfg.vectors = false ∧ (Instr.txSlotEmpty 0 0x10 .rd).wf Cfg.vectors = false
    ∧ (Instr.txSlotEmpty 1 0x20 .rd).wf Cfg.vectors = false := by decide

theorem test_register_wf_refuses :
    (Instr.rxAddrWr 3 0).wf Cfg.vectors = false ∧ (Instr.rxAddrRd 3).wf Cfg.vectors = false
    ∧ (Instr.rxSizeWr 3 0).wf Cfg.vectors = false ∧ (Instr.rxSizeRd 3).wf Cfg.vectors = false
    ∧ (Instr.rxConfigWr 3 0).wf Cfg.vectors = false ∧ (Instr.rxConfigRd 3).wf Cfg.vectors = false
    ∧ (Instr.rxBadOffset 0 0x08 .rd).wf Cfg.vectors = false ∧ (Instr.rxBadOffset 3 0x0C .rd).wf Cfg.vectors = false
    ∧ (Instr.txAddrWr 1 0).wf Cfg.vectors = false ∧ (Instr.txAddrRd 1).wf Cfg.vectors = false
    ∧ (Instr.txSizeWr 1 0).wf Cfg.vectors = false ∧ (Instr.txSizeRd 1).wf Cfg.vectors = false
    ∧ (Instr.txConfigWr 1 0).wf Cfg.vectors = false ∧ (Instr.txConfigRd 1).wf Cfg.vectors = false
    ∧ (Instr.txBadOffset 0 0x18 .rd).wf Cfg.vectors = false ∧ (Instr.txBadOffset 1 0x1C .rd).wf Cfg.vectors = false := by
  decide

/-- The custom slots of CFG-A are unpopulated. -/
theorem test_port_and_internal_wf_refuse :
    let c : ChanId := { pid := 0, slot := .custom }
    (Instr.pushBytes c []).wf Cfg.vectors = false ∧ (Instr.rdqPop c).wf Cfg.vectors = false
    ∧ (Instr.promote c).wf Cfg.vectors = false ∧ (Instr.prepareNextChunk c).wf Cfg.vectors = false
    ∧ (Instr.deliverChunk rx0 0).wf Cfg.vectors = false ∧ (Instr.finalize c).wf Cfg.vectors = false
    ∧ (Instr.channelReady c).wf Cfg.vectors = false ∧ (Instr.enqueueTransfer c).wf Cfg.vectors = false
    ∧ (Instr.postWrite { addr := 0, size := 1, dir := .read, data := [0], tag := rx0 }).wf Cfg.vectors = false
    ∧ (Instr.postWrite { addr := 0, size := 2, dir := .write, data := [0], tag := rx0 }).wf Cfg.vectors = false
    ∧ (Instr.postWrite { addr := 0, size := 0, dir := .write, data := [], tag := rx0 }).wf Cfg.vectors = false
    ∧ (Instr.postWrite { addr := 0, size := 1, dir := .write, data := [0], tag := c }).wf Cfg.vectors = false
    ∧ (Instr.flush tx0).wf Cfg.vectors = false ∧ (Instr.periphSetOn 3 true).wf Cfg.vectors = false
    ∧ (Call.pushBytes c []).wf Cfg.vectors = false ∧ (Call.rdqPop c).wf Cfg.vectors = false
    ∧ (Call.promote c).wf Cfg.vectors = false := by decide

/-- The on/off part of the guards. -/
theorem test_flags_ok_refuses :
    (Instr.periphOffNoop 0 0 .rd).flagsOk Cfg.vectors (fun _ => true) = false
    ∧ (Instr.rxAddrRd 0).flagsOk Cfg.vectors (fun _ => false) = false
    ∧ (Instr.customAccess 0 0x20 .rd).flagsOk Cfg.vectors (fun _ => false) = false := by decide

/-! ## Decoding, by words of the register map (30_encoding R127; 95_test_vectors section 0) -/

/-- Every peripheral of CFG-A on. -/
def dec (off : Word) (acc : Acc) (size : Nat) : Instr := decode Cfg.vectors (fun _ => true) (.bus off acc size)

theorem test_decode_config_region :
    dec 0x000 (.wr 5) 4 = .cgWr 5 ∧ dec 0x000 .rd 4 = .cgRd ∧ dec 0x004 (.wr 1) 4 = .evtinWr 1 ∧ dec 0x004 .rd 4 = .evtinRd
    ∧ dec 0x008 .rd 4 = .cfgBadOffset 0x008 .rd ∧ dec 0x07C (.wr 1) 4 = .cfgBadOffset 0x07C (.wr 1)
    ∧ dec 0x000 .rd 2 = .badSize 0x000 .rd 2 := by decide

theorem test_decode_no_peripheral :
    dec 0x200 .rd 4 = .noPeriph 0x200 .rd ∧ dec 0x280 .rd 4 = .noPeriph 0x280 .rd
    ∧ dec 0xFFFFFFFC .rd 4 = .noPeriph 0xFFFFFFFC .rd := by decide

theorem test_decode_rx :
    dec 0x080 (.wr 1) 4 = .rxAddrWr 0 1 ∧ dec 0x100 .rd 4 = .rxAddrRd 1 ∧ dec 0x184 (.wr 1) 4 = .rxSizeWr 2 1
    ∧ dec 0x084 .rd 4 = .rxSizeRd 0 ∧ dec 0x108 (.wr 1) 4 = .rxConfigWr 1 1 ∧ dec 0x188 .rd 4 = .rxConfigRd 2
    ∧ dec 0x08C .rd 4 = .rxBadOffset 0 0xC .rd ∧ dec 0x082 .rd 4 = .rxBadOffset 0 0x2 .rd := by decide

theorem test_decode_tx :
    dec 0x090 (.wr 1) 4 = .txAddrWr 0 1 ∧ dec 0x190 .rd 4 = .txAddrRd 2 ∧ dec 0x194 (.wr 1) 4 = .txSizeWr 2 1
    ∧ dec 0x094 .rd 4 = .txSizeRd 0 ∧ dec 0x198 (.wr 1) 4 = .txConfigWr 2 1 ∧ dec 0x098 .rd 4 = .txConfigRd 0
    ∧ dec 0x09C .rd 4 = .txBadOffset 0 0x1C .rd := by decide

theorem test_decode_rest :
    dec 0x110 .rd 4 = .txSlotEmpty 1 0x10 .rd ∧ dec 0x0A0 .rd 4 = .customAccess 0 0x20 .rd
    ∧ decode Cfg.vectors (fun _ => false) (.bus 0x18C .rd 4) = .periphOffNoop 2 0xC .rd
    ∧ decode Cfg.vectors (fun _ => false) (.pushBytes rx0 [1]) = .pushBytes rx0 [1]
    ∧ decode Cfg.vectors (fun _ => false) (.rdqPop tx0) = .rdqPop tx0
    ∧ decode Cfg.vectors (fun _ => false) (.promote tx0) = .promote tx0
    ∧ decode Cfg.vectors (fun _ => false) .ctrlLoop = .ctrlLoop ∧ decode Cfg.vectors (fun _ => false) .tick = .tick
    ∧ decode Cfg.vectors (fun _ => false) (.reset true) = .reset true := by decide

/-- A tx-only peripheral: its rx slot is unpopulated (42_peripheral_group R226). -/
def cfgTxOnly : Cfg :=
  { Cfg.vectors with periphs := [{ cid := 0, ids := 1, rx := false, tx := true, custom := none, handler := .rows [] }] }

theorem test_decode_rx_slot_empty :
    decode cfgTxOnly (fun _ => true) (.bus 0x088 (.wr 0x10) 4) = .rxSlotEmpty 0 0x8 (.wr 0x10) := by decide

/-- The table word of an access: bits 31..0 the offset, all bits above zero a 4-byte write of 0 (log entry 2); a read, a
size and data in the bits above. -/
theorem test_table_words :
    decodeTableWord 32 0x090 = some (.periphOffNoop 0 0x10 (.wr 0)) ∧ decodeTableWord 7 0x004 = some (.evtinWr 0)
    ∧ callOfTableWord 96 (bitsOfBus 0x084 (.wr 0x1234) 4) = .bus 0x084 (.wr 0x1234) 4
    ∧ callOfTableWord 96 (bitsOfBus 0x188 .rd 2) = .bus 0x188 .rd 2 := by decide

/-! ## Instructions -/

/-- DEC1. -/
theorem test_bad_size : lastResp (access 0x000 .rd 2 allOn) = some .invalid := by decide
/-- DEC4. -/
theorem test_bad_size_changes_nothing : (access 0x000 (.wr 0x4) 8 allOn).cg = 7 := by decide
/-- L1-2 step 1. -/
theorem test_cg_write_turns_on : (access 0x000 (.wr 0x4) 4 State.reset).isOn 2 = true := by decide
/-- CG4. -/
theorem test_cg_write_turns_off :
    (access 0x000 (.wr 0x8) 4 (access 0x000 (.wr 0x80000004) 4 State.reset)).isOn 2 = false := by decide
/-- CG2. -/
theorem test_cg_read : lastResp (access 0x000 .rd 4 (access 0x000 (.wr 0x80000004) 4 State.reset))
    = some (.okData 0x80000004) := by decide

/-- CFG-B of V-DEC: one peripheral with canonical id 0 and ids [0,2). -/
def cfgB : Cfg :=
  { Cfg.vectors with
    np := 2, periphs := [{ cid := 0, ids := 2, rx := true, tx := true, custom := none, handler := .rows [] }] }

/-- MID1: bit 1 is no canonical id. -/
theorem test_multi_id_other_bit : (access 0x000 (.wr 0x2) 4 (State.init cfgB)).isOn 0 = false
    ∧ (access 0x000 (.wr 0x2) 4 (State.init cfgB)).cg = 0x2 := by decide
/-- MID3: id 1 reaches the same rx channel. -/
theorem test_multi_id_same_channel :
    (access 0x100 (.wr 0x1000) 4 ((State.init cfgB).setOn 0 true)).chan rx0
      = { Chan.init with addr := some 0x1000 } := by decide

/-- DEC6. -/
theorem test_evtin_write : lastResp (access 0x004 (.wr 0x1) 4 allOn) = some .invalid
    ∧ (access 0x004 (.wr 0x1) 4 allOn).faults = [.evtinUnsupported 0x004 (.wr 0x1)] := by decide
/-- DEC7: a second fault entry. -/
theorem test_evtin_read :
    (access 0x004 .rd 4 (access 0x004 (.wr 0x1) 4 allOn)).faults
      = [.evtinUnsupported 0x004 (.wr 0x1), .evtinUnsupported 0x004 .rd] := by decide
/-- DEC9, DEC10. -/
theorem test_cfg_bad_offset : lastResp (access 0x002 .rd 4 allOn) = some .invalid
    ∧ lastResp (access 0x07C (.wr 0x1) 4 allOn) = some .invalid := by decide
/-- DEC11, DEC13. -/
theorem test_no_periph : lastResp (access 0x200 .rd 4 allOn) = some .invalid
    ∧ lastResp (access 0xFFFFFFFC .rd 4 allOn) = some .invalid := by decide
/-- DEC23: CLEAR set while off. -/
theorem test_periph_off_write : lastResp (access 0x188 (.wr 0x40) 4 State.reset) = some .ok := by decide
/-- DEC21. -/
theorem test_periph_off_queues_nothing :
    (access 0x198 (.wr 0x10) 4 State.reset).chan tx2 = Chan.init
    ∧ (access 0x198 (.wr 0x10) 4 State.reset).refused = none := by decide
/-- DEC17. -/
theorem test_custom_access : lastResp (access 0x0FC .rd 4 allOn) = some .invalid
    ∧ (access 0x0FC .rd 4 allOn).hist.length = 1 := by decide
/-- 42_peripheral_group R226. -/
theorem test_rx_slot_empty :
    (access 0x088 (.wr 0x10) 4 ((State.init cfgTxOnly).setOn 0 true)).hist
      = [.log (.invalidAccess 0x088), .bus 0x088 (.wr 0x10) 4 .invalid] := by decide
/-- DEC14. -/
theorem test_tx_slot_empty :
    (access 0x110 .rd 4 allOn).hist = [.log (.invalidAccess 0x110), .bus 0x110 .rd 4 .invalid] := by decide

/-- REG1. -/
theorem test_rx_addr_write : (access 0x080 (.wr 0x1000) 4 allOn).chan rx0 = { Chan.init with addr := some 0x1000 } := by
  decide
/-- REG3. -/
theorem test_rx_addr_read : lastResp (access 0x080 .rd 4 (access 0x080 (.wr 0x1001) 4 allOn))
    = some (.okData 0x1001) := by decide
/-- REG2. -/
theorem test_rx_size_write : ((access 0x084 (.wr 0xFFFFFFFF) 4 allOn).chan rx0).size = some 0xFFFFFFFF := by decide
/-- REG2. -/
theorem test_rx_size_read : lastResp (access 0x084 .rd 4 (access 0x084 (.wr 0xFFFFFFFF) 4 allOn))
    = some (.okData 0xFFFFFFFF) := by decide

/-- A channel with ADDR and SIZE staged. -/
def staged (s : State) (c : ChanId) (a z : Word) : State :=
  chanIs s c (fun ch => { ch with addr := some a, size := some z })

/-- REG16. -/
theorem test_rx_config_enable :
    (access 0x088 (.wr 0x13) 4 (staged allOn rx0 0x1000 10)).chan rx0
      = { Chan.init with
          addr := some 0x1000, size := some 10, contCfg := true, widthCfg := 1, free := 1
          pending := [{ base := 0x1000, cur := 0x1000, total := 10, remaining := 10, received := 0, width := 1, cont := true
                        owner := rx0 }]
          busy := .available, promo := true } := by decide
/-- REG20. -/
theorem test_rx_config_third_enable :
    (access 0x088 (.wr 0x13) 4 (chanIs allOn rx0 (fun ch => { ch with free := 0 }))).chan rx0
      = { Chan.init with free := 0 } := by decide
/-- REG17. -/
theorem test_rx_config_read_queued :
    lastResp (access 0x088 .rd 4 (access 0x088 (.wr 0x13) 4 (staged allOn rx0 0x1000 10))) = some (.okData 0x13) := by decide
/-- REG4. -/
theorem test_rx_config_read_idle : lastResp (access 0x088 .rd 4 (access 0x088 (.wr 0x07) 4 allOn))
    = some (.okData 0x37) := by decide
/-- DEC18, DEC19. -/
theorem test_rx_bad_offset : lastResp (access 0x08C .rd 4 allOn) = some .invalid
    ∧ lastResp (access 0x082 .rd 4 allOn) = some .invalid := by decide
/-- P2 step 2. -/
theorem test_tx_addr_write : (access 0x090 (.wr 0x2000) 4 allOn).chan tx0 = { Chan.init with addr := some 0x2000 } := by
  decide
/-- P2 step 2, read back (41_channel R172). -/
theorem test_tx_addr_read : lastResp (access 0x090 .rd 4 (access 0x090 (.wr 0x2000) 4 allOn))
    = some (.okData 0x2000) := by decide
/-- P2 step 3. -/
theorem test_tx_size_write : (access 0x094 (.wr 6) 4 allOn).chan tx0 = { Chan.init with size := some 6 } := by decide
/-- P2 step 3, read back (41_channel R174). -/
theorem test_tx_size_read : lastResp (access 0x194 .rd 4 (access 0x194 (.wr 6) 4 allOn)) = some (.okData 6) := by decide
/-- REG23. -/
theorem test_tx_config_own_registers :
    (access 0x098 (.wr 0x10) 4 (staged allOn rx0 0x1000 8)).refused = some (.unwrittenStaging tx0) := by decide
/-- REG14. -/
theorem test_tx_config_wrap :
    (access 0x098 (.wr 0x10) 4 (staged allOn tx0 0xFFFFFFFC 5)).refused = some (.addressWrap tx0 0xFFFFFFFC 5) := by decide
/-- DEC26. -/
theorem test_tx_config_read : lastResp (access 0x098 .rd 4 allOn) = some (.okData 0x30) := by decide
/-- DEC20. -/
theorem test_tx_bad_offset : lastResp (access 0x09C .rd 4 allOn) = some .invalid := by decide

/-- RX2. -/
theorem test_push_flush :
    (run (.pushBytes rx0 [1, 2, 3, 4]) (running allOn rx0 (T 0x1000 0x1000 10 10 0 rx0))).wq
      = [{ addr := 0x1000, size := 4, dir := .write, data := [1, 2, 3, 4], tag := rx0 }] := by decide
/-- RX6: the window is checked before the overrun. -/
theorem test_push_window :
    (run (.pushBytes rx0 [1, 2, 3, 4]) (chanIs (running allOn rx0 (T 0x1000 0x1000 3 3 0 rx0)) rx0
      (fun ch => { ch with asm := [9] }))).hist = [.log (.pushWindowOverflow rx0 4)] := by decide
/-- TX7. -/
theorem test_rdq_pop :
    (run (.rdqPop tx0) (chanIs allOn tx0 (fun ch => { ch with rdq := [#v[0xA0, 0xA1, 0xA2, 0xA3]] }))).hist = [.txdata tx0 #v[0xA0, 0xA1, 0xA2, 0xA3]] := by
  decide
/-- TX9. -/
theorem test_rdq_pop_rx : (run (.rdqPop rx0) allOn).refused = some (.popNotTx rx0) := by decide

/-- A queued transfer with a promotion request. -/
def queued (s : State) (c : ChanId) : State :=
  chanIs s c (fun ch => { ch with free := 1, pending := [T 0x2000 0x2000 6 6 0 c], promo := true })

/-- SM2, TX. -/
theorem test_promote_tx : (run (.promote tx0) (queued allOn tx0)).ready = [tx0]
    ∧ (run (.promote tx0) (queued allOn tx0)).wake = some 0 := by decide
/-- SM4: a transfer is active. -/
theorem test_promote_active :
    (run (.promote rx0) (running (queued allOn rx0) rx0 (T 0x1000 0x1000 4 4 0 rx0))).chan rx0
      = { (running (queued allOn rx0) rx0 (T 0x1000 0x1000 4 4 0 rx0)).chan rx0 with promo := false } := by decide

/-- CTL2: cycle 5, tx0 with 8 bytes left, answer ACCEPT(2, 0). -/
def ctl2 : State :=
  { running allOn tx0 (T 0x2000 0x2000 8 8 0 tx0) with
    now := 5, wake := some 5, ready := [tx0], answers := [.accept 2 0] }

theorem test_loop_read_issue : (run .ctrlLoop ctl2).rbfree = 1 ∧ (run .ctrlLoop ctl2).ready = [tx0]
    ∧ (run .ctrlLoop ctl2).wake = some 6 ∧ (run .ctrlLoop ctl2).inflight.map InFlight.ts = [8] := by decide
/-- CTL9. -/
theorem test_loop_write_rejected :
    let w : Req := { addr := 0x1000, size := 4, dir := .write, data := [1, 2, 3, 4], tag := rx0 }
    let s : State := { allOn with now := 5, wake := some 5, wq := [w, w], answers := [.reject] }
    (run .ctrlLoop s).faults = [.writeRejected w] ∧ (run .ctrlLoop s).wq = [w] ∧ (run .ctrlLoop s).wake = some 6 := by decide
/-- WK6. -/
theorem test_tick : (run .tick { allOn with now := 3, wake := some 4 }).now = 4 := by decide
/-- WK5. -/
theorem test_tick_blocked : (run .tick { allOn with now := 3, wake := some 3 }).now = 3 := by decide
/-- RST2. -/
theorem test_reset :
    let s := chanIs { allOn with now := 9 } rx0 (fun ch => { ch with
      contCfg := true, widthCfg := 2, addr := some 0x1000, size := some 8, busy := .available })
    (run (.reset true) s).chan rx0 = Chan.init ∧ (run (.reset true) s).cg = 0 ∧ (run (.reset true) s).isOn 0 = false
      ∧ (run (.reset true) s).now = 9 := by decide
/-- RST3. -/
theorem test_reset_active :
    (run (.reset true) (running allOn rx0 (T 0x1000 0x1000 4 4 0 rx0))).refused = some .resetNotQuiescent := by decide
/-- TX2: the second chunk of 6 bytes. -/
theorem test_prepare_next_chunk :
    ((run (.prepareNextChunk tx0) (running allOn tx0 (T 0x2000 0x2004 6 2 0 tx0))).chan tx0).active
      = some (T 0x2000 0x2008 6 0 0 tx0)
    ∧ (running allOn tx0 (T 0x2000 0x2004 6 2 0 tx0)).nextChunk tx0
      = some { req := { addr := 0x2004, size := 4, dir := .read, data := [], tag := tx0 }, last := true } := by decide
/-- TX6. -/
theorem test_deliver_chunk :
    (run (.deliverChunk tx0 #v[4, 5, 6, 7]) (chanIs (running allOn tx0 (T 0x2000 0x2008 6 0 4 tx0)) tx0
      (fun ch => { ch with rdq := [#v[0, 1, 2, 3]] }))).chan tx0
      = { Chan.init with rdq := [#v[0, 1, 2, 3], #v[4, 5, 6, 7]], busy := .available, promo := true } := by decide
/-- SM5. -/
theorem test_finalize :
    (run (.finalize rx0) (chanIs (running (queued allOn rx0) rx0 (T 0x1000 0x1000 4 0 0 rx0)) rx0
      (fun ch => { ch with free := 0, promo := false }))).chan rx0
      = { (queued allOn rx0).chan rx0 with busy := .available } := by decide
/-- WK8. -/
theorem test_channel_ready :
    (run (.channelReady tx0) { allOn with now := 3, lastrun := some 3 }).ready = [tx0]
    ∧ (run (.channelReady tx0) { allOn with now := 3, lastrun := some 3 }).wake = some 4 := by decide
/-- WK1. -/
theorem test_post_write :
    (run (.postWrite { addr := 0, size := 1, dir := .write, data := [7], tag := rx0 })
      { allOn with now := 3, lastrun := some 2 }).wake = some 3 := by decide
/-- REG12: a zero size is refused before the alignment. -/
theorem test_enqueue_transfer_order :
    (run (.enqueueTransfer rx0) (staged allOn rx0 0x1002 0)).refused = some (.zeroSize rx0) := by decide
/-- RX13 and L1-1 step 11: two bytes, the transfer's last. -/
theorem test_flush :
    let s := chanIs { running allOn rx0 (T 0x1000 0x1008 10 2 0 rx0) with lastrun := some 0 } rx0
      (fun ch => { ch with asm := [0x99, 0xAA] })
    (run (.flush rx0) s).wq = [{ addr := 0x1008, size := 2, dir := .write, data := [0x99, 0xAA], tag := rx0 }]
      ∧ (run (.flush rx0) s).wake = some 1 ∧ (run (.flush rx0) s).hist = [.busy rx0 .available, .complete rx0] := by decide
/-- 42_peripheral_group R227. -/
theorem test_periph_set_on : (run (.periphSetOn 1 false) allOn).isOn 1 = false
    ∧ (run (.periphSetOn 1 false) allOn).isOn 0 = true := by decide

/-- LQ3, LQ4: insertion in timestamp order, after equal timestamps. -/
theorem test_push_ordered : pushOrdered id 6 [5, 7] = [5, 6, 7]
    ∧ pushOrdered Prod.fst (5, 2) [(5, 0), (5, 1)] = [(5, 0), (5, 1), (5, 2)] ∧ pushOrdered id 3 [5] = [3, 5] := by decide
/-- L1-1: the words of 0x1000 and of the two-byte tail. -/
theorem test_little_endian : bytesWord [0x11, 0x22, 0x33, 0x44] = 0x44332211 ∧ bytesWord [0x99, 0xAA] = 0x0000AA99 := by
  decide
/-- The fetched table word is the first step after reset (log entry 2): CG write of 0. -/
theorem test_first_step : (step (State.reset.withFetchWord 32 0x000))
    = .next (State.reset.emit (.bus 0x000 (.wr 0) 4 .ok)) := by rfl

/-! ## Witnesses: for each statement with hypotheses, a state and operands that meet them together -/

theorem reaches_of {s : State} {i : Nat} {sl : Slot} {c : ChanId} (h : s.reach i sl = some c) : Reaches s i sl c :=
  (reach_eq_some_iff s i sl c).1 h

/-- The first, a middle and the last row, and the windows' ends. -/
theorem test_witness_DecodeOfEncodeIsIdentity :
    Cfg.vectors.wf = true
    ∧ (Instr.badSize 0xFFFFFFFF .rd 0).wf Cfg.vectors = true ∧ (Instr.cfgBadOffset 0x07F .rd).wf Cfg.vectors = true
    ∧ (Instr.noPeriph 0x200 .rd).wf Cfg.vectors = true
    ∧ (Instr.periphOffNoop 2 0x7F .rd).wf Cfg.vectors = true
    ∧ (Instr.periphOffNoop 2 0x7F .rd).flagsOk Cfg.vectors (fun _ => false) = true
    ∧ (Instr.customAccess 0 0x7F .rd).wf Cfg.vectors = true ∧ (Instr.rxConfigWr 2 0x10).wf Cfg.vectors = true
    ∧ (Instr.rxConfigWr 2 0x10).flagsOk Cfg.vectors (fun _ => true) = true
    ∧ encode Cfg.vectors (.rxConfigWr 2 0x10) = some (.bus 0x188 (.wr 0x10) 4)
    ∧ (Instr.rxBadOffset 0 0x0F .rd).wf Cfg.vectors = true ∧ (Instr.txBadOffset 0 0x1F .rd).wf Cfg.vectors = true
    ∧ (Instr.rxSlotEmpty 0 0x0F .rd).wf cfgTxOnly = true ∧ (Instr.txSlotEmpty 1 0x1F .rd).wf Cfg.vectors = true := by decide

theorem test_witness_EveryAccessSelectsOneRow : Cfg.vectors.wf = true ∧ cfgTxOnly.wf = true ∧ cfgB.wf = true := by decide

theorem test_witness_StepRunsDecodedOperation :
    (State.init { Cfg.vectors with nrb := 0 }).cfg.valid = false ∧ State.reset.cfg.valid = true
    ∧ ({ State.reset with refused := some .resetNotQuiescent } : State).refused = some .resetNotQuiescent
    ∧ State.reset.refused = none ∧ State.reset.agenda = []
    ∧ (State.reset.schedule .tick).refused = none ∧ (State.reset.schedule .tick).agenda = [.tick] := by decide

theorem test_witness_FreeRunningBlockNeverStops : allOn.cfg.valid = true ∧ allOn.refused = none ∧ allOn.agenda = [] := by decide

theorem test_witness_BadSizeAndBadConfigOffsetAreInvalid :
    (3 : Nat) ≠ 4 ∧ (5 : Nat) ≠ 4 ∧ ((0x07F : Word).toNat < State.reset.cfg.layout.channelRegionStart)
    ∧ (0x07F : Word).toNat ≠ State.reset.cfg.layout.offCg ∧ (0x07F : Word).toNat ≠ State.reset.cfg.layout.offEvtin := by decide

theorem test_witness_ClockGateWriteInformsChangedBits : State.reset.cfg.wf = true := by decide

theorem test_witness_NonexistentPeripheralIsInvalid :
    State.reset.cfg.layout.channelRegionStart ≤ (0x200 : Word).toNat
    ∧ State.reset.cfg.table (State.reset.cfg.layout.periphId 0x200) = none
    ∧ State.reset.cfg.np ≤ State.reset.cfg.layout.periphId 0x280
    ∧ State.reset.cfg.np ≤ State.reset.cfg.layout.periphId 0xFFFFFFFC := by decide

theorem test_witness_OffPeripheralAccessIsNoop :
    State.reset.cfg.table 2 = some { cid := 2, ids := 1, rx := true, tx := true, custom := none, handler := .rows [] }
    ∧ State.reset.isOn 2 = false ∧ State.reset.cfg.layout.channelRegionStart ≤ (0x1FF : Word).toNat
    ∧ State.reset.cfg.layout.periphId 0x1FF = 2 := by decide

/-- CFG-A for the tx slot, a tx-only peripheral for the rx slot; the windows' ends. -/
theorem test_witness_UnpopulatedSlotIsLoggedAndInvalid :
    allOn.cfg.table 1 = some { cid := 1, ids := 1, rx := true, tx := false, custom := none, handler := .rows [] }
    ∧ allOn.isOn 1 = true
    ∧ ({ cid := 1, ids := 1, rx := true, tx := false, custom := none, handler := .rows [] } : PeriphCfg).slotDir .tx = none
    ∧ allOn.cfg.layout.txWindowStart ≤ 0x10 ∧ 0x1F < allOn.cfg.layout.customWindowStart
    ∧ ((State.init cfgTxOnly).setOn 0 true).isOn 0 = true
    ∧ cfgTxOnly.table 0 = some { cid := 0, ids := 1, rx := false, tx := true, custom := none, handler := .rows [] }
    ∧ ({ cid := 0, ids := 1, rx := false, tx := true, custom := none, handler := .rows [] } : PeriphCfg).slotDir .rx = none
    ∧ 0x0F < cfgTxOnly.layout.txWindowStart := by decide

/-- A peripheral with a custom receive channel and a handler of each kind; its tx slot is unpopulated. -/
def customP : PeriphCfg :=
  { cid := 0, ids := 1, rx := true, tx := false, custom := some .rx
    handler := .rows
      [{ w := 0x20, write := true, act := { ops := [.pass .custom 0], resp := .last } },
       { w := 0x24, write := true, act := { ops := [.pass .custom 4], resp := .last } },
       { w := 0x28, write := true, act := { ops := [.pass .custom 8], resp := .last } },
       { w := 0x28, write := false, act := { ops := [.pass .custom 8], resp := .last } },
       { w := 0x30, write := true, act := { ops := [.reg .custom 0 (.wr 0x40), .reg .custom 4 (.wr 6)], resp := .last } },
       { w := 0x34, write := true, act := { ops := [.transfer .custom 0x40 6 0 false], resp := .last } },
       { w := 0x38, write := true, act := { ops := [.pass .tx 0], resp := .last } },
       { w := 0x3C, write := true, act := { ops := [.reg .custom 0 (.wr 0x40), .transfer .custom 0x40 6 0 false], resp := .invalid } },
       { w := 0x40, write := true, act := { ops := [.reg .custom 0 (.wr 0x40), .reg .tx 0 (.wr 1)], resp := .last } },
       { w := 0x70, write := false, act := { ops := [], resp := .okData 0xAB } },
       { w := 0x74, write := false, act := { ops := [], resp := .device } },
       { w := 0x78, write := true, act := { ops := [], resp := .invalid } },
       { w := 0x7C, write := true, act := { ops := [], resp := .device } }] }
def customS : State := (State.init { Cfg.vectors with periphs := [customP] }).setOn 0 true
def cu0 : ChanId := { pid := 0, slot := .custom }

/-- The same with a concrete handler: its reaction is a free value. -/
def concreteP : PeriphCfg := { customP with handler := .concrete }
def concreteS : State := (State.init { Cfg.vectors with periphs := [concreteP] }).setOn 0 true

/-- The default handler, and an access that a handler with rows does not accept. -/
theorem test_witness_InvalidCustomAccessChangesOnlyHistory :
    allOn.cfg.wf = true
    ∧ allOn.cfg.table 0 = some { cid := 0, ids := 1, rx := true, tx := true, custom := none, handler := .rows [] }
    ∧ allOn.isOn 0 = true ∧ allOn.cfg.layout.customWindowStart ≤ 0x20
    ∧ customS.cfg.wf = true ∧ customS.cfg.table 0 = some customP ∧ customS.isOn 0 = true
    ∧ lastResp (run (.customAccess 0 0x40 (.wr 1)) customS) = some .invalid
    ∧ customS.handlerAct customP 0x20 .rd = none ∧ customS.handlerAct customP 0x7F (.wr 1) = none := by decide

/-- A reaction for each clause; the custom slot populated with a free record, the tx slot unpopulated, an exhausted pool. -/
theorem test_witness_AcceptingCustomHandlerReachesItsChannels :
    customS.cfg.wf = true ∧ customS.cfg.table 0 = some customP ∧ customS.isOn customP.cid = true
    ∧ customS.cfg.layout.customWindowStart ≤ 0x20
    ∧ customS.handlerAct customP 0x78 (.wr 5) = some { ops := [], resp := .invalid }
    ∧ customS.handlerAct customP 0x7C (.wr 5) = some { ops := [], resp := .device }
    ∧ customS.handlerAct customP 0x70 .rd = some { ops := [], resp := .okData 0xAB }
    ∧ customS.handlerAct customP 0x74 .rd = some { ops := [], resp := .device }
    ∧ customS.handlerAct customP 0x28 (.wr 5) = some { ops := [.pass .custom 8], resp := .last }
    ∧ customS.handlerAct customP 0x28 .rd = some { ops := [.pass .custom 8], resp := .last }
    ∧ customS.handlerAct customP 0x38 (.wr 5) = some { ops := [.pass .tx 0], resp := .last }
    ∧ customS.handlerAct customP 0x30 (.wr 5) = some { ops := [.reg .custom customS.cfg.layout.offAddr (.wr 0x40),
        .reg .custom customS.cfg.layout.offSize (.wr 6)], resp := .last }
    ∧ customS.handlerAct customP 0x34 (.wr 5) = some { ops := [.transfer .custom 0x40 6 0 false], resp := .last }
    ∧ (customP.slotDir .custom).isSome = true ∧ customP.slotDir .tx = none
    ∧ 0 < (customS.chan cu0).free ∧ (customS.chan cu0).pending.length < 2
    ∧ ((chanIs customS cu0 (fun ch => { ch with free := 0 })).chan cu0).free = 0 := by decide

/-- A concrete handler that accepts, and one that does not, meet the premises too: its reaction is unconstrained. -/
theorem test_witness_concrete_handler :
    concreteS.cfg.wf = true ∧ concreteS.cfg.table 0 = some concreteP ∧ concreteS.isOn concreteP.cid = true
    ∧ concreteS.handlerAct concreteP 0x20 .rd = Config.customHandler 0 0 0x20 .rd (concreteS.periphs.get 0) :=
  ⟨by decide, by decide, by decide, rfl⟩

/-- Log entry 12; 41_channel R171, R173, R175, R177: the custom channel is staged, enabled and read through its handler. -/
theorem test_custom_handler_reaches_channel :
    (access 0x0A0 (.wr 0x1234) 4 customS).chan cu0 = { Chan.init with addr := some 0x1234 } := by decide
theorem test_custom_handler_enables_channel :
    let s := access 0x0A8 (.wr 0x10) 4 (access 0x0A4 (.wr 6) 4 (access 0x0A0 (.wr 0x40) 4 customS))
    ((s.chan cu0).pending = [T 0x40 0x40 6 6 0 cu0] ∧ (s.chan cu0).free = 1 ∧ (s.chan cu0).promo = true)
    ∧ lastResp s = some .ok ∧ lastResp (access 0x0A8 .rd 4 s) = some (.okData 0x10) := by decide

/-- 42_peripheral_group R225: a transfer that the handler builds; R226: it reaches for an unpopulated slot. -/
theorem test_custom_handler_builds_transfer :
    ((access 0x0B4 (.wr 0) 4 customS).chan cu0).pending = [T 0x40 0x40 6 6 0 cu0]
    ∧ ((access 0x0B4 (.wr 0) 4 customS).chan cu0).addr = none := by decide
theorem test_custom_handler_unpopulated_slot :
    (access 0x0B8 (.wr 1) 4 customS).hist = [.log (.invalidAccess 0x0B8), .bus 0x0B8 (.wr 1) 4 .invalid] := by decide

/-- 60_exceptions R281: answered INVALID, the staged word and the queued transfer are undone, only the log stays. -/
theorem test_custom_handler_invalid_undoes :
    (access 0x0BC (.wr 1) 4 customS).chan cu0 = Chan.init
    ∧ (access 0x0BC (.wr 1) 4 customS).hist = [.bus 0x0BC (.wr 1) 4 .invalid]
    ∧ (access 0x0C0 (.wr 1) 4 customS).chan cu0 = Chan.init
    ∧ (access 0x0C0 (.wr 1) 4 customS).hist = [.log (.invalidAccess 0x0C0), .bus 0x0C0 (.wr 1) 4 .invalid] := by decide

/-- ADDR, SIZE and CONFIG of rx(0) and tx(2), and their other offsets. -/
theorem test_witness_Reaches : Reaches allOn 0 .rx rx0 ∧ Reaches allOn 2 .tx tx2 :=
  ⟨reaches_of (by decide), reaches_of (by decide)⟩

theorem test_witness_OtherChannelOffsetsAreInvalid :
    Reaches allOn 0 .rx rx0 ∧ Reaches allOn 2 .tx tx2
    ∧ 0x0F < allOn.cfg.layout.txWindowStart ∧ 0x01 ≠ allOn.cfg.layout.offAddr ∧ 0x0F ≠ allOn.cfg.layout.offSize
    ∧ 0x0F ≠ allOn.cfg.layout.offConfig
    ∧ allOn.cfg.layout.txWindowStart ≤ 0x11 ∧ 0x1F < allOn.cfg.layout.customWindowStart
    ∧ 0x1F - allOn.cfg.layout.txWindowStart ≠ allOn.cfg.layout.offConfig :=
  ⟨reaches_of (by decide), reaches_of (by decide), by decide, by decide, by decide, by decide, by decide, by decide,
    by decide⟩

theorem test_witness_AddrWriteStagesWord : Reaches allOn 0 .rx rx0 ∧ Reaches allOn 2 .tx tx2 := test_witness_Reaches
theorem test_witness_SizeWriteStagesWord : Reaches allOn 0 .rx rx0 ∧ Reaches allOn 2 .tx tx2 := test_witness_Reaches

theorem test_witness_AddrReadReturnsStagedWord :
    Reaches (staged allOn rx0 0x1001 0) 0 .rx rx0 ∧ ((staged allOn rx0 0x1001 0).chan rx0).addr = some 0x1001
    ∧ Reaches (staged allOn tx2 0x1001 0) 2 .tx tx2 ∧ ((staged allOn tx2 0x1001 0).chan tx2).addr = some 0x1001 :=
  ⟨reaches_of (by decide), by decide, reaches_of (by decide), by decide⟩

theorem test_witness_SizeReadReturnsStagedWord :
    Reaches (staged allOn rx0 0 0xFFFFFFFF) 0 .rx rx0 ∧ ((staged allOn rx0 0 0xFFFFFFFF).chan rx0).size = some 0xFFFFFFFF
    ∧ Reaches (staged allOn tx2 0 0) 2 .tx tx2 ∧ ((staged allOn tx2 0 0).chan tx2).size = some 0 :=
  ⟨reaches_of (by decide), by decide, reaches_of (by decide), by decide⟩

theorem test_witness_ConfigReadReturnsFieldsAndStatus :
    allOn.cfg.layout.bitsWf = true ∧ Reaches allOn 0 .rx rx0 ∧ Reaches allOn 2 .tx tx2 :=
  ⟨by decide, test_witness_Reaches.1, test_witness_Reaches.2⟩

/-- CLEAR alone and with EN; EN with no free record; neither. -/
theorem test_witness_ConfigWriteRejectsDropsOrStores :
    (0x40 : Word).getLsbD allOn.cfg.layout.clearBit = true ∧ (0x53 : Word).getLsbD allOn.cfg.layout.clearBit = true
    ∧ (0x13 : Word).getLsbD allOn.cfg.layout.clearBit = false ∧ (0x13 : Word).getLsbD allOn.cfg.layout.enBit = true
    ∧ ((chanIs allOn rx0 (fun ch => { ch with free := 0 })).chan rx0).free = 0
    ∧ Reaches (chanIs allOn rx0 (fun ch => { ch with free := 0 })) 0 .rx rx0
    ∧ (0x07 : Word).getLsbD allOn.cfg.layout.clearBit = false ∧ (0x07 : Word).getLsbD allOn.cfg.layout.enBit = false
    ∧ Reaches allOn 0 .rx rx0 ∧ Reaches allOn 2 .tx tx2 :=
  ⟨by decide, by decide, by decide, by decide, by decide, reaches_of (by decide), by decide, by decide,
    test_witness_Reaches.1, test_witness_Reaches.2⟩

/-- REG13: the range ends at 2^32; REG14 one word beyond; unaligned, zero and unwritten registers. -/
theorem test_witness_EnableQueuesTransferOrIsRefused :
    let s := staged allOn rx0 0xFFFFFFFC 4
    (0x10 : Word).getLsbD s.cfg.layout.clearBit = false ∧ (0x10 : Word).getLsbD s.cfg.layout.enBit = true
    ∧ 0 < (s.chan rx0).free ∧ (s.chan rx0).pending.length < 2 ∧ (s.chan rx0).addr = some 0xFFFFFFFC
    ∧ (s.chan rx0).size = some 4 ∧ 0 < (4 : Word).toNat ∧ (0xFFFFFFFC : Word).toNat % 4 = 0
    ∧ (0xFFFFFFFC : Word).toNat + 4 * (((4 : Word).toNat + 3) / 4) ≤ 2 ^ 32
    ∧ ((staged allOn tx0 0xFFFFFFFC 5).chan tx0).size = some 5
    ∧ 2 ^ 32 < (0xFFFFFFFC : Word).toNat + 4 * (((5 : Word).toNat + 3) / 4)
    ∧ ((staged allOn tx0 0x1002 5).chan tx0).addr = some 0x1002 ∧ (0x1002 : Word).toNat % 4 ≠ 0
    ∧ ((staged allOn tx0 0x1002 0).chan tx0).size = some 0 ∧ (allOn.chan tx0).addr = none ∧ Reaches s 0 .rx rx0
    ∧ Reaches (staged allOn tx0 0x1002 0) 0 .tx tx0 :=
  ⟨by decide, by decide, by decide, by decide, by decide, by decide, by decide, by decide, by decide, by decide, by decide,
    by decide, by decide, by decide, by decide, reaches_of (by decide), reaches_of (by decide)⟩

/-- Unwritten, zero size, unaligned, beyond 2^32, and the last range inside. -/
theorem test_witness_EnqueueTransferFollowsStaging :
    (allOn.cfg.dirOf rx0).isSome = true ∧ 0 < (allOn.chan rx0).free ∧ (allOn.chan rx0).pending.length < 2
    ∧ (allOn.chan rx0).addr = none
    ∧ ((staged allOn rx0 0x1002 0).chan rx0).size = some 0
    ∧ (0x1002 : Word).toNat % 4 ≠ 0
    ∧ 2 ^ 32 < (0xFFFFFFFC : Word).toNat + 4 * (((5 : Word).toNat + 3) / 4)
    ∧ ¬ 2 ^ 32 < (0xFFFFFFFC : Word).toNat + 4 * (((4 : Word).toNat + 3) / 4) := by decide

theorem test_witness_PromotionStartsPendingTransfer :
    allOn.cfg.dirOf tx0 = some .tx ∧ (allOn.chan tx0).promo = false
    ∧ ((queued allOn tx0).chan tx0).promo = true ∧ ((queued allOn tx0).chan tx0).active = none
    ∧ ((queued allOn tx0).chan tx0).pending = [T 0x2000 0x2000 6 6 0 tx0]
    ∧ ((running (queued allOn tx0) tx0 (T 0 0 4 4 0 tx0)).chan tx0).active.isSome = true
    ∧ ((running (queued allOn tx0) tx0 (T 0 0 4 4 0 tx0)).chan tx0).promo = true := by decide

/-- 5 bytes on an empty window; 3 bytes for 2. -/
theorem test_witness_PushChecksInOrder :
    let s := running allOn rx0 (T 0x1000 0x1000 2 2 0 rx0)
    allOn.cfg.dirOf tx0 = some .tx ∧ allOn.cfg.dirOf rx0 = some .rx ∧ (allOn.chan rx0).active = none
    ∧ (s.chan rx0).active = some (T 0x1000 0x1000 2 2 0 rx0)
    ∧ 4 < (s.chan rx0).asm.length + ([1, 2, 3, 4, 5] : List Byte).length
    ∧ (s.chan rx0).asm.length + ([1, 2, 3] : List Byte).length ≤ 4
    ∧ (T 0x1000 0x1000 2 2 0 rx0).remaining < (s.chan rx0).asm.length + ([1, 2, 3] : List Byte).length := by decide

theorem test_witness_PushAssemblesBytes :
    let s := running allOn rx0 (T 0x1000 0x1000 4 4 0 rx0)
    s.cfg.dirOf rx0 = some .rx ∧ (s.chan rx0).active = some (T 0x1000 0x1000 4 4 0 rx0)
    ∧ (s.chan rx0).asm.length + ([1, 2, 3] : List Byte).length < 4
    ∧ (s.chan rx0).asm.length + ([1, 2, 3] : List Byte).length < (T 0x1000 0x1000 4 4 0 rx0).remaining := by decide

theorem test_witness_PushOfFullWindowPostsWord :
    let s := running allOn rx0 (T 0x1000 0x1000 5 5 0 rx0)
    s.cfg.dirOf rx0 = some .rx ∧ (s.chan rx0).active = some (T 0x1000 0x1000 5 5 0 rx0)
    ∧ (s.chan rx0).asm.length + ([1, 2, 3, 4] : List Byte).length = 4 ∧ 4 < (T 0x1000 0x1000 5 5 0 rx0).remaining := by decide

theorem test_witness_PushOfLastBytesFinalizes :
    let s := running allOn rx0 (T 0x1000 0x1000 4 4 0 rx0)
    s.cfg.dirOf rx0 = some .rx ∧ (s.chan rx0).active = some (T 0x1000 0x1000 4 4 0 rx0)
    ∧ (s.chan rx0).asm.length + ([1, 2, 3, 4] : List Byte).length = (T 0x1000 0x1000 4 4 0 rx0).remaining
    ∧ (T 0x1000 0x1000 4 4 0 rx0).remaining ≤ 4 ∧ (s.chan rx0).free < 2 := by decide

/-- One byte of a longer transfer, and the last four. -/
theorem test_witness_FlushPostsAssembledBytes :
    let s := chanIs (running allOn rx0 (T 0x1000 0x1000 5 5 0 rx0)) rx0 (fun ch => { ch with asm := [1] })
    let u := chanIs (running allOn rx0 (T 0x1000 0x1000 4 4 0 rx0)) rx0 (fun ch => { ch with asm := [1, 2, 3, 4] })
    s.cfg.dirOf rx0 = some .rx ∧ (s.chan rx0).active = some (T 0x1000 0x1000 5 5 0 rx0) ∧ 1 ≤ (s.chan rx0).asm.length
    ∧ (s.chan rx0).asm.length ≤ 4 ∧ (s.chan rx0).free < 2 ∧ ¬ 5 ≤ (s.chan rx0).asm.length
    ∧ (u.chan rx0).active = some (T 0x1000 0x1000 4 4 0 rx0) ∧ (u.chan rx0).asm.length ≤ 4
    ∧ 4 ≤ (u.chan rx0).asm.length := by decide

theorem test_witness_RequestBytesAreLittleEndian : ([1, 2, 3, 4] : List Byte).length ≤ 4 ∧ 3 < ([1, 2, 3, 4] : List Byte).length
    ∧ (7 : Nat) < 8 ∧ 8 * ([1, 2, 3, 4] : List Byte).length ≤ 32 := by decide

theorem test_witness_PrepareNextChunkAdvancesTransfer :
    allOn.cfg.dirOf rx0 = some .rx ∧ allOn.cfg.dirOf tx0 = some .tx ∧ (allOn.chan tx0).active = none
    ∧ ((running allOn tx0 (T 0x2000 0x2000 4 4 0 tx0)).chan tx0).active = some (T 0x2000 0x2000 4 4 0 tx0) := by decide

/-- The last word at its boundary, and one before it. -/
theorem test_witness_DeliverChunkQueuesWordAndFinalizes :
    allOn.cfg.dirOf tx0 = some .tx ∧ (allOn.chan tx0).active = none
    ∧ ((running allOn tx0 (T 0x2000 0x2004 4 0 0 tx0)).chan tx0).active = some (T 0x2000 0x2004 4 0 0 tx0)
    ∧ ((running allOn tx0 (T 0x2000 0x2004 4 0 0 tx0)).chan tx0).free < 2
    ∧ (T 0x2000 0x2004 4 0 0 tx0).total ≤ (T 0x2000 0x2004 4 0 0 tx0).received + 4
    ∧ ¬ (T 0x2000 0x2008 5 0 0 tx0).total ≤ (T 0x2000 0x2008 5 0 0 tx0).received + 4 := by decide

theorem test_witness_PopTakesFirstWord :
    allOn.cfg.dirOf rx0 = some .rx ∧ allOn.cfg.dirOf tx0 = some .tx ∧ (allOn.chan tx0).rdq = []
    ∧ ((chanIs allOn tx0 (fun ch => { ch with rdq := [#v[1, 2, 3, 4]] })).chan tx0).rdq = [#v[1, 2, 3, 4]] := by decide

theorem test_witness_FinalizeReturnsRecordAndCompletes :
    let s := running allOn rx0 (T 0x1000 0x1004 4 0 0 rx0)
    (s.cfg.dirOf rx0).isSome = true ∧ (s.chan rx0).active.isSome = true ∧ (s.chan rx0).free < 2 := by decide

theorem test_witness_StimuliJoinQueuesAndWakeController :
    allOn.cfg.dirOf rx0 = some .rx ∧ allOn.cfg.dirOf tx0 = some .tx
    ∧ ({ addr := 0, size := 1, dir := .write, data := [7], tag := rx0 } : Req).dir = .write := by decide

/-- WK3, and no wake-up. -/
theorem test_witness_WakeRequestsCoalesce :
    allOn.wake = none ∧ ({ allOn with wake := some 9 } : State).wake = some 9
    ∧ (({ allOn with wake := some 9 } : State).requestWake 4).wake = some 4 := by decide

/-- Due at its cycle, not due one before. -/
theorem test_witness_TickAdvancesCycleUnlessRunDue :
    (∃ t, ({ allOn with now := 3, wake := some 3 } : State).wake = some t ∧ t ≤ 3)
    ∧ ¬ (∃ t, ({ allOn with now := 3, wake := some 4 } : State).wake = some t ∧ t ≤ 3) := by
  refine ⟨⟨3, rfl, Nat.le_refl 3⟩, ?_⟩
  rintro ⟨t, h, ht⟩
  cases h
  omega

/-- CTL12: cycle 6, tx0's only read due, tx2 first in the ready queue with its last chunk, answer ACCEPT(0). -/
def ctl12 : State :=
  { running (running allOn tx0 (T 0x2000 0x2004 4 0 0 tx0)) tx2 (T 0x3000 0x3000 4 4 0 tx2) with
    now := 6, wake := some 6, rbfree := 1, ready := [tx2]
    inflight := [{ ts := 6, c := tx0, req := { addr := 0x2000, size := 4, dir := .read, data := [], tag := tx0 }
                   rdata := #v[1, 2, 3, 4] }]
    answers := [.accept 0 #v[5, 6, 7, 8]], agenda := [.ctrlLoop] }

/-- CTL12. -/
theorem test_loop_issue_then_drain : (run .ctrlLoop ctl12).rbfree = 1 ∧ (run .ctrlLoop ctl12).wake = some 7
    ∧ (run .ctrlLoop ctl12).inflight.map InFlight.c = [tx2]
    ∧ ((run .ctrlLoop ctl12).chan tx0).rdq = [#v[1, 2, 3, 4]] := by decide

theorem chan_reset (c : ChanId) : State.reset.chan c = Chan.init := by
  have h : State.reset.periphs.get c.pid = Periph.init := by simp [State.reset, State.init, Vector.get]
  unfold State.chan
  rw [h]
  cases c.slot <;> rfl

theorem chan_ctl12 (c : ChanId) : ctl12.chan c =
    if c = tx2 then { Chan.init with active := some (T 0x3000 0x3000 4 4 0 tx2), free := 1 }
    else if c = tx0 then { Chan.init with active := some (T 0x2000 0x2004 4 0 0 tx0), free := 1 }
    else Chan.init := by
  have ha : ∀ c, allOn.chan c = Chan.init := fun c => by
    show ((((_ : State).setOn 0 true).setOn 1 true).setOn 2 true).chan c = _
    rw [chan_setOn, chan_setOn, chan_setOn]; exact chan_reset c
  have h : ctl12.chan c = (running (running allOn tx0 (T 0x2000 0x2004 4 0 0 tx0)) tx2 (T 0x3000 0x3000 4 4 0 tx2)).chan c :=
    rfl
  rw [h]
  simp only [running, chanIs, chan_setChan, ha, if_neg (show tx2 ≠ tx0 by decide)]

/-- A state that meets the invariant, with work in flight, due and ready. -/
theorem test_inv_ctl12 : Inv ctl12 := by
  refine inv_of ⟨fun c => ?_, by decide, by decide, ?_, by simp [ctl12, running, chanIs, allOn, State.reset, State.init], ?_, ?_⟩
    ⟨?_, ?_, ?_, ?_⟩ ⟨?_, ?_⟩
  · rw [chan_ctl12]
    split
    · rename_i h; subst h
      have hd : ctl12.cfg.dirOf tx2 = some .tx := by decide
      have hn : inflightOf ctl12 tx2 = 0 := by decide
      rw [hd, hn]
      refine ⟨rfl, fun t h => (by cases h), fun t h => ?_, fun t h e => (by cases e), fun _ => rfl, fun _ => rfl,
        fun t h => (by cases h; decide), fun h => (by cases h), fun t h => (by cases h; decide), fun _ => rfl⟩
      cases h
      exact ⟨rfl, by decide, by decide, by decide, by decide, by decide⟩
    · split
      · rename_i h; subst h
        have hd : ctl12.cfg.dirOf tx0 = some .tx := by decide
        have hn : inflightOf ctl12 tx0 = 1 := by decide
        rw [hd, hn]
        refine ⟨rfl, fun t h => (by cases h), fun t h => ?_, fun t h e => (by cases e), fun _ => rfl, fun _ => rfl,
          fun t h => (by cases h; decide), fun h => (by cases h), fun t h => (by cases h; decide), fun e => absurd rfl e⟩
        cases h
        exact ⟨rfl, by decide, by decide, by decide, by decide, by decide⟩
      · rename_i h
        have hn : inflightOf ctl12 c = 0 := by
          have : ¬ tx0 = c := fun e => h e.symm
          simp [inflightOf, ctl12, this]
        rw [hn]
        exact chanOk_init _ _
  · intro c hc
    have hc : c = tx2 := by simpa [ctl12] using hc
    subst hc
    exact ⟨by decide, T 0x3000 0x3000 4 4 0 tx2, by decide, by decide⟩
  · show ∀ p ∈ ctl12.cfg.periphs, ctl12.isOn p.cid = ctl12.cg.getLsbD p.cid.val
    decide
  · decide
  · show ctl12.inflight.Pairwise _; decide
  · intro t h; cases h; decide
  · intro r h; cases h
  · intro h; cases h
  · intro _ h; cases h
  · intro e he
    have he : e.ts = 6 := by simp [ctl12] at he; rw [he]
    exact ⟨6, rfl, by omega⟩

theorem test_witness_ControllerRunsWhenDue : (∃ t, ctl12.wake = some t ∧ t ≤ ctl12.now)
    ∧ ¬ (∃ t, State.reset.wake = some t ∧ t ≤ State.reset.now) :=
  ⟨⟨6, rfl, Nat.le_refl 6⟩, fun ⟨_, h, _⟩ => by cases h⟩

theorem test_witness_RunIssuesAtMostOneRequest : ∃ t, exec .ctrlLoop ctl12 = .next t := ⟨_, rfl⟩

theorem test_witness_RunIssuesQueuedWriteFirst :
    let w : Req := { addr := 0x1000, size := 4, dir := .write, data := [1, 2, 3, 4], tag := rx0 }
    let s : State := { ctl12 with wq := [w, w] }
    s.loopDue = true ∧ s.wq = w :: [w] ∧ s.ready ≠ [] := by decide

theorem test_witness_RunIssuesOneChunkAndCedesTurn :
    ctl12.loopDue = true ∧ ctl12.wq = [] ∧ ctl12.ready = tx2 :: [] ∧ 0 < ctl12.rbfree ∧ ctl12.cfg.dirOf tx2 = some .tx
    ∧ (ctl12.chan tx2).active = some (T 0x3000 0x3000 4 4 0 tx2) := by decide

theorem test_witness_RunDeliversMaturedReadsInOrder :
    ctl12.cfg.wf = true ∧ Inv ctl12 ∧ ∃ t, exec .ctrlLoop ctl12 = .next t := ⟨by decide, test_inv_ctl12, _, rfl⟩

theorem test_witness_RunRearmsForRemainingWork :
    ctl12.cfg.wf = true ∧ Inv ctl12 ∧ ∃ t, exec .ctrlLoop ctl12 = .next t := ⟨by decide, test_inv_ctl12, _, rfl⟩

/-- Full and not full. -/
theorem test_witness_QueuePushesAppendOrInsertInOrder :
    (some 1 : Option Nat) = some ctl12.inflight.length ∧ (some 2 : Option Nat) ≠ some ctl12.inflight.length
    ∧ (none : Option Nat) ≠ some ctl12.inflight.length ∧ ctl12.inflight.Pairwise (fun a b => a.ts ≤ b.ts) := by decide

theorem test_witness_ResetNeedsQuiescence : ctl12.quiescent = false := by decide

theorem test_witness_QuiescentResetLeavesResetValues :
    State.reset.quiescent = true ∧ RecordsConserved State.reset
    ∧ State.reset.rbfree + State.reset.inflight.length = State.reset.cfg.nrb :=
  ⟨by decide, fun c => by rw [chan_reset]; rfl, by decide⟩

theorem test_witness_OnlyTickAdvancesTime : (∃ t, exec .tick State.reset = .next t) ∧ ∃ t, exec .ctrlLoop ctl12 = .next t :=
  ⟨⟨_, rfl⟩, _, rfl⟩

theorem test_witness_HistoryIsAppendOnly : ∃ t, exec .ctrlLoop ctl12 = .next t := ⟨_, rfl⟩

theorem test_witness_FaultsAndRefusalMarkAreSticky :
    let s : State := { ctl12 with faults := [.evtinUnsupported 4 .rd], refused := some .resetNotQuiescent }
    (∃ t, exec .ctrlLoop s = .next t) ∧ .evtinUnsupported 4 .rd ∈ s.faults ∧ s.refused = some .resetNotQuiescent :=
  ⟨⟨_, rfl⟩, by decide, rfl⟩

theorem test_witness_FlagsAreWrittenByClockGateAndResetOnly :
    (State.reset.cfg.periph 2).isSome = true ∧ State.reset.cfg.wf = true
    ∧ (Instr.cgWr 4).wf State.reset.cfg = true ∧ (Instr.cgWr 4).flagsOk State.reset.cfg State.reset.isOn = true
    ∧ (∃ t, exec (.cgWr 4) State.reset = .next t) ∧ (run (.cgWr 4) State.reset).isOn 2 ≠ State.reset.isOn 2 :=
  ⟨by decide, by decide, by decide, by decide, ⟨_, rfl⟩, by decide⟩

theorem test_witness_ChannelOperationsTouchOneChannel :
    (∃ t, exec (.pushBytes rx0 []) allOn = .next t) ∧ (∃ t, exec (.promote tx0) (queued allOn tx0) = .next t)
    ∧ (∃ t, exec (.channelReady tx0) allOn = .next t) ∧ ∃ t, exec (.deliverChunk tx0 #v[1, 2, 3, 4]) ctl12 = .next t :=
  ⟨⟨_, rfl⟩, ⟨_, rfl⟩, ⟨_, rfl⟩, _, rfl⟩

theorem test_witness_StepConservesRecords : RecordsConserved ctl12 ∧ ∃ t, step ctl12 = .next t :=
  ⟨fun c => (test_inv_ctl12.chans c).records, _, rfl⟩

theorem test_witness_StepKeepsFlagsFollowingCg : ctl12.cfg.wf = true ∧ FlagsFollowCg ctl12 ∧ ∃ t, step ctl12 = .next t :=
  ⟨by decide, test_inv_ctl12.flags, _, rfl⟩

theorem test_witness_StepKeepsSchedule : ScheduleInv ctl12 ∧ ∃ t, step ctl12 = .next t := ⟨test_inv_ctl12.schedule, _, rfl⟩

theorem test_witness_StepKeepsInvariant : ctl12.cfg.wf = true ∧ Inv ctl12 ∧ ∃ t, step ctl12 = .next t :=
  ⟨by decide, test_inv_ctl12, _, rfl⟩

/-- Both sides of validity. -/
theorem test_witness_ConstructionStateIsResetState :
    Cfg.vectors.valid = true ∧ ({ Cfg.vectors with nrb := 0 } : Cfg).valid = false := by decide

theorem test_witness_InvariantHoldsAtReset : Cfg.vectors.wf = true := by decide

theorem test_witness_UnreachableRefusalsStayUnreached : ctl12.cfg.wf = true ∧ Inv ctl12 ∧ ∃ t, step ctl12 = .next t :=
  test_witness_StepKeepsInvariant

end Sys2Proof.Tests
end

section
/-! The scope family: a step runs the operation its next call decodes to (O5), the history is append-only (O50) and never
read (O51). -/
namespace Sys2Proof.Machine.Scope
open Sys2Proof.Machine.Laws

/-! ## The step and its call (00_scope R9, R16) -/

theorem step_of_invalid {s : State} (hv : s.cfg.valid = false) : step s = .refused .invalidConfiguration := by
  simp [step, hv]

theorem step_of_marked {s : State} {k : RefusalKind} (hv : s.cfg.valid = true) (hr : s.refused = some k) :
    step s = .refused (.marked k) := by
  simp [step, hv, hr]

theorem step_of_unmarked {s : State} (hv : s.cfg.valid = true) (hr : s.refused = none) :
    step s = exec s.upcomingInstr s.afterFetch := by
  simp [step, hv, hr]

theorem upcoming_of_cons {s : State} {c : Call} {rest : List Call} (ha : s.agenda = c :: rest) : s.upcoming = c := by
  simp [State.upcoming, ha]

theorem upcoming_of_nil {s : State} (ha : s.agenda = []) :
    s.upcoming = if s.enabled (Config.nextCall s.draws) = true then Config.nextCall s.draws
      else if s.loopDue = true then Call.ctrlLoop else Call.tick := by
  simp [State.upcoming, ha, State.ownCall]

theorem afterFetch_of_cons {s : State} {c : Call} {rest : List Call} (ha : s.agenda = c :: rest) :
    s.afterFetch = { s with agenda := rest } := by
  simp [State.afterFetch, ha]

theorem afterFetch_of_nil {s : State} (ha : s.agenda = []) : s.afterFetch = { s with draws := s.draws + 1 } := by
  simp [State.afterFetch, ha]

theorem step_of_agenda_cons {s : State} {c : Call} {rest : List Call} (hv : s.cfg.valid = true) (hr : s.refused = none)
    (ha : s.agenda = c :: rest) : step s = exec (decode s.cfg s.isOn c) { s with agenda := rest } := by
  rw [step_of_unmarked hv hr, State.upcomingInstr, upcoming_of_cons ha, afterFetch_of_cons ha]

/-- Settles O5: one equation of `step` per case; a fetched table word is the head of the agenda, and once it has left the
agenda the state is the one before the fetch. -/
theorem stepRunsDecodedOperation : Obligations.StepRunsDecodedOperation := by
  intro s
  refine ⟨step_of_invalid, fun k => step_of_marked, fun c rest => step_of_agenda_cons, fun hv hr ha => ?_,
    fun nbits w hv hr => ?_⟩
  · rw [step_of_unmarked hv hr, State.upcomingInstr, upcoming_of_nil ha, afterFetch_of_nil ha]
  · exact step_of_agenda_cons (s := s.withFetchWord nbits w) hv hr rfl

/-! ## The history only grows (00_scope R17) -/

/-- Settles O50: every operation but the tick has the sticky frame, and the tick changes the cycle only. -/
theorem historyIsAppendOnly : Obligations.HistoryIsAppendOnly := by
  intro i s t h
  by_cases hi : i = .tick
  · subst hi
    rw [exec_tick h]
    exact ⟨[], (List.append_nil _).symm⟩
  · exact (stickyFrame_exec h hi).hist

/-! ## The history is never read (00_scope R17) -/

section
variable (s : State) (h : List Event)

theorem withPast_regAccess (i : Nat) (sl : Slot) (off : Word) (acc : Acc) {f g : ChanId → Reply}
    (hfg : ∀ c, f c = replyPast h (g c)) :
    (s.withPast h).regAccess i sl off acc f = (s.regAccess i sl off acc g).withPast h := by
  cases hr : s.reach i sl <;>
    simp only [State.regAccess, withPast_reach, hr, hfg, replyPast_close, withPast_busEntry]

theorem withPast_onChannel (c : ChanId) {f g : Dir → Host.Outcome State Fault Refusal}
    (hfg : ∀ d, f d = outcomePast h (g d)) : (s.withPast h).onChannel c f = outcomePast h (s.onChannel c g) := by
  cases hd : s.cfg.dirOf c <;> simp only [State.onChannel, withPast_cfg, hd, hfg, outcomePast]

@[simp] theorem withPast_resetPulse (active : Bool) :
    (s.withPast h).resetPulse active = (s.resetPulse active).withPast h := by
  simp only [State.resetPulse, withPast_quiescent, withPast_resetBlock, withPast_refuse, apply_ite (State.withPast · h)]

theorem withPast_upcomingInstr : (s.withPast h).upcomingInstr = s.upcomingInstr := rfl

theorem withPast_afterFetch : (s.withPast h).afterFetch = s.afterFetch.withPast h := by
  cases ha : s.agenda <;> simp only [State.afterFetch, withPast_agenda, ha] <;> rfl

/-- An operation that is stuck where its rule does not enable it. -/
theorem outcomePast_enabled (P : Prop) [Decidable P] {u t : State} (hu : u = t.withPast h) (f : Fault) :
    (if P then .next u else .fault f) = outcomePast h (if P then .next t else .fault f) := by
  by_cases hp : P <;> simp [hp, hu, outcomePast]

/-- A row whose guard `P` decides between its own reply and the register-access entry. -/
theorem withPast_guardedAccess (P : Prop) [Decidable P] {f g : Reply} (hfg : f = replyPast h g) (off : Word) (acc : Acc)
    (size : Nat) :
    (if P then f.close off acc size else (s.withPast h).busEntry off acc size)
      = (if P then g.close off acc size else s.busEntry off acc size).withPast h := by
  simp only [hfg, replyPast_close, withPast_busEntry, apply_ite (State.withPast · h)]

/-- The BUS rows, decided by the controller, by the peripheral group, or by a channel's register (30_encoding R120). -/
theorem withPast_exec_bus {i : Instr} (hb : IsBus i) : exec i (s.withPast h) = outcomePast h (exec i s) := by
  cases i
  case badSize off acc size => exact congrArg _ (withPast_guardedAccess s h _ (withPast_invalid s h) off acc size)
  case cgWr v => simp only [exec, execCgWr, withPast_cfg, withPast_cgWrite, replyPast_close, outcomePast]
  case cgRd => simp only [exec, execCgRd, withPast_cfg, withPast_cgRead, replyPast_close, outcomePast]
  case evtinWr v => simp only [exec, execEvtinWr, withPast_cfg, withPast_evtin, replyPast_close, outcomePast]
  case evtinRd => simp only [exec, execEvtinRd, withPast_cfg, withPast_evtin, replyPast_close, outcomePast]
  case cfgBadOffset off acc => exact congrArg _ (withPast_guardedAccess s h _ (withPast_invalid s h) off acc 4)
  case noPeriph off acc => exact congrArg _ (withPast_guardedAccess s h _ (withPast_invalid s h) off acc 4)
  case periphOffNoop i w acc =>
    cases ht : s.cfg.table i <;>
      simp only [exec, execPeriphOffNoop, withPast_cfg, withPast_isOn, ht, withPast_offNoop, replyPast_close,
        withPast_busEntry, apply_ite (State.withPast · h), outcomePast]
  case customAccess i w acc =>
    cases ht : s.cfg.table i <;>
      simp only [exec, execCustomAccess, withPast_cfg, withPast_isOn, ht, withPast_customAccess, replyPast_close,
        withPast_busEntry, apply_ite (State.withPast · h), outcomePast]
  case rxSlotEmpty i w acc =>
    cases ht : s.cfg.table i <;>
      simp only [exec, execRxSlotEmpty, withPast_cfg, withPast_isOn, ht, withPast_slotEmpty, replyPast_close,
        withPast_busEntry, apply_ite (State.withPast · h), outcomePast]
  case txSlotEmpty i w acc =>
    cases ht : s.cfg.table i <;>
      simp only [exec, execTxSlotEmpty, withPast_cfg, withPast_isOn, ht, withPast_slotEmpty, replyPast_close,
        withPast_busEntry, apply_ite (State.withPast · h), outcomePast]
  case rxAddrWr i v => exact congrArg _ (withPast_regAccess s h i .rx _ _ fun c => withPast_addrWr s h c v)
  case rxAddrRd i => exact congrArg _ (withPast_regAccess s h i .rx _ _ fun c => withPast_addrRd s h c)
  case rxSizeWr i v => exact congrArg _ (withPast_regAccess s h i .rx _ _ fun c => withPast_sizeWr s h c v)
  case rxSizeRd i => exact congrArg _ (withPast_regAccess s h i .rx _ _ fun c => withPast_sizeRd s h c)
  case rxConfigWr i v => exact congrArg _ (withPast_regAccess s h i .rx _ _ fun c => withPast_configWr s h c v)
  case rxConfigRd i => exact congrArg _ (withPast_regAccess s h i .rx _ _ fun c => withPast_configRd s h c)
  case rxBadOffset i w acc =>
    have hr := withPast_regAccess s h i .rx (s.rxOff i w) acc fun _ => withPast_invalid s h
    simp only [exec, execRxBadOffset, withPast_cfg, withPast_rxOff, hr, withPast_busEntry, outcomePast,
      apply_ite (State.withPast · h)]
  case txAddrWr i v => exact congrArg _ (withPast_regAccess s h i .tx _ _ fun c => withPast_addrWr s h c v)
  case txAddrRd i => exact congrArg _ (withPast_regAccess s h i .tx _ _ fun c => withPast_addrRd s h c)
  case txSizeWr i v => exact congrArg _ (withPast_regAccess s h i .tx _ _ fun c => withPast_sizeWr s h c v)
  case txSizeRd i => exact congrArg _ (withPast_regAccess s h i .tx _ _ fun c => withPast_sizeRd s h c)
  case txConfigWr i v => exact congrArg _ (withPast_regAccess s h i .tx _ _ fun c => withPast_configWr s h c v)
  case txConfigRd i => exact congrArg _ (withPast_regAccess s h i .tx _ _ fun c => withPast_configRd s h c)
  case txBadOffset i w acc =>
    have hr := withPast_regAccess s h i .tx (s.cfg.layout.windowAddr i w) acc fun _ => withPast_invalid s h
    simp only [exec, execTxBadOffset, withPast_cfg, hr, withPast_busEntry, outcomePast, apply_ite (State.withPast · h)]
  all_goals cases hb

/-- 00_scope R17, for every operation. -/
theorem withPast_exec (i : Instr) : exec i (s.withPast h) = outcomePast h (exec i s) := by
  by_cases hb : IsBus i
  · exact withPast_exec_bus s h hb
  cases i
  case pushBytes c bytes =>
    refine withPast_onChannel s h c fun d => ?_
    cases d with
    | rx => exact congrArg _ (withPast_pushBytes s h c bytes)
    | tx => rfl
  case rdqPop c =>
    refine withPast_onChannel s h c fun d => ?_
    cases d with
    | rx => rfl
    | tx =>
      cases hq : (s.chan c).rdq with
      | nil => simp only [withPast_chan, hq, queuePop, outcomePast]
      | cons w rest => simp only [withPast_chan, hq, queuePop, withPast_popWord, outcomePast]
  case promote c => exact withPast_onChannel s h c fun _ => outcomePast_enabled h _ (withPast_promote s h c) _
  case ctrlLoop => exact outcomePast_enabled h _ (withPast_ctrlLoop s h) _
  case tick => cases hl : s.loopDue <;> simp only [exec, execTick, withPast_loopDue, hl] <;> rfl
  case reset active => exact congrArg _ (withPast_resetPulse s h active)
  case prepareNextChunk c =>
    refine withPast_onChannel s h c fun _ => ?_
    cases hn : s.nextChunk c <;> simp only [withPast_nextChunk, hn, withPast_refuse, withPast_advanceChunk, outcomePast]
  case deliverChunk c rdata =>
    refine withPast_onChannel s h c fun d => ?_
    cases d with
    | rx => rfl
    | tx => simp only [withPast_deliverChunk, flowPast_state, outcomePast]
  case finalize c => exact withPast_onChannel s h c fun _ => outcomePast_enabled h _ (withPast_finalize s h c) _
  case channelReady c => exact withPast_onChannel s h c fun _ => congrArg _ (withPast_channelReady s h c)
  case postWrite req => exact outcomePast_enabled h _ (withPast_postWrite s h req) _
  case enqueueTransfer c =>
    refine withPast_onChannel s h c fun _ => ?_
    simp only [withPast_enqueueTransfer, flowPast_state, outcomePast]
  case flush c =>
    refine withPast_onChannel s h c fun d => ?_
    cases d with
    | tx => rfl
    | rx =>
      cases ha : (s.chan c).active with
      | none => simp only [withPast_chan, ha, outcomePast]
      | some x =>
        simp only [withPast_chan, ha]
        exact outcomePast_enabled h _ (withPast_flush s h c x) _
  case periphSetOn p b =>
    cases hp : s.cfg.periph p <;> simp only [exec, execPeriphSetOn, withPast_cfg, hp, withPast_setOn, outcomePast]
  all_goals exact absurd rfl hb

/-- 00_scope R17, for a step. -/
theorem withPast_step : step (s.withPast h) = outcomePast h (step s) := by
  cases hv : s.cfg.valid with
  | false => rw [step_of_invalid hv, step_of_invalid (s := s.withPast h) hv]; rfl
  | true =>
    cases hr : s.refused with
    | some k => rw [step_of_marked hv hr, step_of_marked (s := s.withPast h) hv hr]; rfl
    | none =>
      rw [step_of_unmarked hv hr, step_of_unmarked (s := s.withPast h) hv hr, withPast_upcomingInstr,
        withPast_afterFetch, withPast_exec]

end

/-- Settles O51: with another past the step has the same outcome, with that past before the next state's history. -/
theorem historyIsNeverRead : Obligations.HistoryIsNeverRead := by
  intro s h
  have hs := withPast_step s h
  cases ho : step s <;> simp only [ho, outcomePast] at hs <;> exact hs

end Sys2Proof.Machine.Scope
end

section
/-! The state family: time (O49), which state an operation touches (O54), construction and reset (O48), and what every step
keeps: the flags following CG (O56), the transfer records (O55), the block's invariant (O58), which holds at construction
(O59). -/
namespace Sys2Proof.Machine.BlockState
open Sys2Proof.Laws Sys2Proof.Machine.Laws

/-! ## Time and touched channels (10_state R42, R67) -/

/-- Settles O49: the tick is the one operation outside the frame that keeps the cycle. -/
theorem onlyTickAdvancesTime : Obligations.OnlyTickAdvancesTime := by
  refine ⟨rfl, fun i s t h => ?_⟩
  by_cases hi : i = .tick
  · subst hi
    rw [exec_tick h, if_pos rfl]
  · rw [if_neg hi]
    exact (stickyFrame_exec h hi).now

theorem exec_cfg {i : Instr} {s t : State} (h : exec i s = .next t) : t.cfg = s.cfg := by
  by_cases hi : i = .tick
  · subst hi
    rw [exec_tick h]
  · exact (stickyFrame_exec h hi).cfg

/-- The operation is one of the nine that name channel `c` (10_state R67). -/
def NamesChannel (c : ChanId) (i : Instr) : Prop :=
  (∃ bytes, i = .pushBytes c bytes) ∨ i = .rdqPop c ∨ i = .promote c ∨ i = .prepareNextChunk c
    ∨ (∃ d, i = .deliverChunk c d) ∨ i = .finalize c ∨ i = .channelReady c ∨ i = .enqueueTransfer c ∨ i = .flush c

theorem otherChansSame_refuse (s : State) (c : ChanId) (k : RefusalKind) : OtherChansSame c s (s.refuse k) :=
  otherChansSame_of_periphs (OtherChansSame.refl c s) rfl

theorem otherChansSame_exec {c : ChanId} {i : Instr} {s t : State} (hi : NamesChannel c i) (h : exec i s = .next t) :
    OtherChansSame c s t := by
  rcases hi with ⟨bytes, rfl⟩ | rfl | rfl | rfl | ⟨d, rfl⟩ | rfl | rfl | rfl | rfl <;> cases exec_cases h
  case pushTx => exact otherChansSame_refuse s c _
  case push => exact otherChansSame_pushBytes s c bytes
  case popRx => exact otherChansSame_refuse s c _
  case pop => exact otherChansSame_of_periphs (otherChansSame_setChan s c _) rfl
  case promote => exact otherChansSame_promote s c
  case prepareRefused => exact otherChansSame_refuse s c _
  case prepare => exact otherChansSame_setChan s c _
  case deliver => exact otherChansSame_deliverChunk s c d
  case finalize => exact otherChansSame_finalize s c
  case ready => exact otherChansSame_channelReady s c c
  case enqueue => exact otherChansSame_enqueueTransfer s c
  case flush => exact otherChansSame_flush s c _
  all_goals cases ‹IsBus _›

/-- Settles O54: the frame of each of the nine operations, and the configuration under every operation. -/
theorem channelOperationsTouchOneChannel : Obligations.ChannelOperationsTouchOneChannel :=
  ⟨fun _ _ _ _ => otherChansSame_exec, fun _ _ _ => exec_cfg⟩

/-! ## Construction and reset (10_state R73, 00_scope R10, R12) -/

/-- 00_scope R10: what construction checks. -/
theorem cfg_valid_iff (cfg : Cfg) : cfg.valid = true ↔ 1 ≤ cfg.np ∧ cfg.np ≤ 32 ∧ 1 ≤ cfg.nrb
    ∧ (∀ p ∈ cfg.periphs, 1 ≤ p.ids ∧ p.cid.val + p.ids ≤ cfg.np ∧ (p.rx = true ∨ p.tx = true ∨ p.custom.isSome = true))
    ∧ cfg.periphs.Pairwise (fun p q => p.cid.val + p.ids ≤ q.cid.val ∨ q.cid.val + q.ids ≤ p.cid.val) := by
  simp only [Cfg.valid, PeriphCfg.wf, Bool.and_eq_true, decide_eq_true_eq, List.all_eq_true, and_assoc]

theorem construct_eq_some_iff (cfg : Cfg) (s : State) :
    State.construct cfg = some s ↔ cfg.valid = true ∧ s = State.init cfg := by
  unfold State.construct
  split <;> simp [*, eq_comm]

@[simp] theorem chan_init (cfg : Cfg) (c : ChanId) : (State.init cfg).chan c = Chan.init := by
  have hp : (State.init cfg).periphs.get c.pid = Periph.init := by simp [State.init, Vector.get]
  unfold State.chan
  rw [hp]
  cases c.slot <;> rfl

@[simp] theorem isOn_init (cfg : Cfg) (p : Fin 32) : (State.init cfg).isOn p = false := by
  have hp : (State.init cfg).periphs.get p = Periph.init := by simp [State.init, Vector.get]
  unfold State.isOn
  rw [hp]
  rfl

theorem quiescent_init (cfg : Cfg) : (State.init cfg).quiescent = true := by
  simp only [State.quiescent, chan_init, Bool.and_eq_true, List.all_eq_true]
  exact ⟨⟨⟨⟨fun _ _ => rfl, rfl⟩, rfl⟩, rfl⟩, rfl⟩

theorem exec_reset_of_quiescent {s : State} (hq : s.quiescent = true) : exec (.reset true) s = .next s.resetBlock := by
  simp [exec, execReset, State.resetPulse, hq]

/-- 10_state R73: a reset pulse reproduces the construction state. -/
theorem onlyHist_resetBlock_init (cfg : Cfg) : OnlyHist (State.init cfg) (State.init cfg).resetBlock := by
  obtain ⟨e, hin, hout, hoff, hsame⟩ := resetBlock_spec (State.init cfg)
  have hc : ∀ c, (State.init cfg).resetBlock.chan c = (State.init cfg).chan c := fun c => by
    by_cases hm : c ∈ cfg.channels
    · rw [hin c hm, chan_init]
      simp [resetChan, Chan.init]
    · exact hout c hm
  have ho : ∀ q, (State.init cfg).resetBlock.isOn q = (State.init cfg).isOn q := fun q => by
    by_cases hm : ∃ p ∈ cfg.periphs, p.cid = q
    · obtain ⟨p, hp, rfl⟩ := hm
      rw [hoff p hp, isOn_init]
    · exact hsame q fun p hp he => hm ⟨p, hp, he⟩
  unfold OnlyHist
  rw [e, periphs_ext hc ho]
  rfl

/-- Settles O48: construction succeeds exactly for a valid configuration, and the construction state is quiescent, so a reset
pulse is carried out and rewrites each field with the value it has. -/
theorem constructionStateIsResetState : Obligations.ConstructionStateIsResetState := by
  refine ⟨rfl, fun cfg => ⟨fun h => ?_, fun s h => ?_, chan_init cfg, isOn_init cfg, rfl, rfl, rfl, rfl, rfl, rfl, rfl, rfl,
    rfl, rfl, rfl, _, exec_reset_of_quiescent (quiescent_init cfg), onlyHist_resetBlock_init cfg⟩⟩
  · exact (construct_eq_some_iff cfg _).2 ⟨(cfg_valid_iff cfg).2 h, rfl⟩
  · obtain ⟨hv, rfl⟩ := (construct_eq_some_iff cfg s).1 h
    exact ⟨rfl, (cfg_valid_iff cfg).1 hv⟩

theorem inv_init (cfg : Cfg) : Inv (State.init cfg) := by
  refine inv_of ⟨fun c => ?_, rfl, .nil, nofun, nofun, fun p _ => ?_, .nil⟩
    ⟨.nil, nofun, nofun, nofun⟩ ⟨fun h => ?_, nofun⟩
  · rw [chan_init]
    exact chanOk_init _ c
  · rw [isOn_init]
    exact (BitVec.getLsbD_zero).symm
  · rcases h with h | h <;> exact absurd rfl h

/-- Settles O59: no channel has a transfer and every queue of the controller is empty. -/
theorem invariantHoldsAtReset : Obligations.InvariantHoldsAtReset :=
  ⟨by decide, fun cfg _ => inv_init cfg⟩

/-! ## The fetch (log entry 1) -/

theorem afterFetch_eq (s : State) :
    s.afterFetch = { s with agenda := s.afterFetch.agenda, draws := s.afterFetch.draws } := by
  unfold State.afterFetch
  split <;> rfl

@[simp] theorem afterFetch_cfg (s : State) : s.afterFetch.cfg = s.cfg := by rw [afterFetch_eq]
@[simp] theorem afterFetch_periphs (s : State) : s.afterFetch.periphs = s.periphs := by rw [afterFetch_eq]
@[simp] theorem afterFetch_cg (s : State) : s.afterFetch.cg = s.cg := by rw [afterFetch_eq]

theorem queuesSame_afterFetch (s : State) : QueuesSame s s.afterFetch := by
  rw [afterFetch_eq]
  exact ⟨rfl, rfl, rfl, rfl, rfl, rfl⟩

theorem flagsSame_afterFetch (s : State) : FlagsSame s s.afterFetch :=
  ⟨afterFetch_cg s, isOn_of_periphs_eq (afterFetch_periphs s)⟩

theorem coreInv_afterFetch {s : State} (h : CoreInv s) : CoreInv s.afterFetch := by
  rw [afterFetch_eq]
  exact h.of_eq rfl rfl rfl rfl rfl rfl rfl rfl

/-! ## The flags follow CG (10_state R61) -/

theorem flagsFollowCg_of_same {s t : State} (h : FlagsFollowCg s) (g : FlagsSame s t) (hc : t.cfg = s.cfg) :
    FlagsFollowCg t := fun p hp => by
  rw [g.isOn, g.cg]
  exact h p (hc ▸ hp)

theorem flagsSame_close (r : Reply) (off : Word) (acc : Acc) (size : Nat) : FlagsSame r.state (r.close off acc size) := by
  unfold Reply.close
  split
  · exact flagsSame_emit _ _
  · exact .refl _

/-- 43_controller R237: a canonical id's flag is written when its bit changes, and follows the old mask otherwise. -/
theorem flagsFollowCg_cgWrite {s : State} (hwf : s.cfg.wf = true) (h : FlagsFollowCg s) (v : Word) :
    FlagsFollowCg (s.cgWrite v).state := by
  have e : (s.cgWrite v).state = { s with cg := v, periphs := (s.cgWrite v).state.periphs } := by
    rw [cgWrite_eq]
    exact cgLoop_eq s.cg v 32 { s with cg := v }
  have hcfg : (s.cgWrite v).state.cfg = s.cfg := by rw [e]
  have hcg : (s.cgWrite v).state.cg = v := by rw [e]
  intro p hp
  rw [hcfg] at hp
  rw [hcg, cgWrite_isOn, h p hp]
  by_cases hb : s.cg.getLsbD p.cid.val = v.getLsbD p.cid.val
  · rw [if_neg fun hn => hn.1 hb, hb]
  · rw [if_pos ⟨hb, p, table_cid hwf hp, rfl⟩]

/-- 70_reset_and_hazards R314: mask and flags are cleared together. -/
theorem flagsFollowCg_resetBlock (s : State) : FlagsFollowCg s.resetBlock := by
  obtain ⟨e, -, -, hoff, -⟩ := resetBlock_spec s
  have hcfg : s.resetBlock.cfg = s.cfg := by rw [e]
  have hcg : s.resetBlock.cg = 0 := by rw [e]
  intro p hp
  rw [hoff p (hcfg ▸ hp), hcg]
  simp

theorem flagsFollowCg_agent {s t : State} (hwf : s.cfg.wf = true) (h : FlagsFollowCg s) (ha : AgentCase s t) :
    FlagsFollowCg t := by
  rcases agent_flags ha with hs | ⟨v, off, acc, size, rfl⟩ | ⟨-, rfl⟩
  · exact flagsFollowCg_of_same h hs (agent_cfg ha)
  · exact flagsFollowCg_of_same (flagsFollowCg_cgWrite hwf h v) (flagsSame_close _ off acc size)
      (stickyFrame_close _ off acc size).cfg
  · exact flagsFollowCg_resetBlock s

/-- Settles O56: mask and flags change in a clock-gate write and in a reset only, and both keep them together. -/
theorem stepKeepsFlagsFollowingCg : Obligations.StepKeepsFlagsFollowingCg := by
  intro s t hwf h hst
  exact flagsFollowCg_agent (by rwa [afterFetch_cfg]) (flagsFollowCg_of_same h (flagsSame_afterFetch s) (afterFetch_cfg s))
    (step_agentCases hst).2

/-! ## The transfer records (10_state R56 (b)) -/

/-- The records of a channel: free, pending and active. -/
def recordCount (ch : Chan) : Nat :=
  ch.free + ch.pending.length + if ch.active.isSome then 1 else 0

theorem recordCount_of_active {ch : Chan} {x : Transfer} (ha : ch.active = some x) :
    recordCount ch = ch.free + ch.pending.length + 1 := by
  simp [recordCount, ha]

theorem recordCount_of_idle {ch : Chan} (ha : ch.active = none) : recordCount ch = ch.free + ch.pending.length := by
  simp [recordCount, ha]

section
variable {s t : State} (h : RecordsConserved s)
include h

theorem records_chan (c : ChanId) : recordCount (s.chan c) = 2 := h c

theorem records_of_periphs (e : t.periphs = s.periphs) : RecordsConserved t := fun c => by
  rw [chan_of_periphs_eq e]
  exact h c

theorem records_setChan {c : ChanId} {ch : Chan} (hc : recordCount ch = 2) : RecordsConserved (s.setChan c ch) := by
  intro c'
  rw [chan_setChan]
  split
  · exact hc
  · exact h c'

/-- 41_channel R205: the active record goes back to the pool, which has room for it. -/
theorem records_finalize {c : ChanId} {x : Transfer} (ha : (s.chan c).active = some x) : RecordsConserved (s.finalize c) := by
  have hc := records_chan h c
  rw [recordCount_of_active ha] at hc
  rw [finalize_eq (by omega)]
  refine records_of_periphs (records_setChan h ?_) rfl
  rw [recordCount_of_idle rfl]
  simp only
  omega

/-- Only the contents of the active record change. -/
theorem records_setActive {c : ChanId} {x : Transfer} (ha : (s.chan c).active = some x) {ch : Chan} {y : Transfer}
    (hf : ch.free = (s.chan c).free) (hp : ch.pending = (s.chan c).pending) (hy : ch.active = some y) :
    RecordsConserved (s.setChan c ch) := by
  refine records_setChan h ?_
  rw [recordCount_of_active hy, hf, hp, ← recordCount_of_active ha]
  exact h c

/-- 41_channel R196. -/
theorem records_deliverChunk (c : ChanId) (rdata : Quad) : RecordsConserved (s.deliverChunk c rdata).state := by
  cases ha : (s.chan c).active with
  | none =>
    rw [deliverChunk_none ha]
    exact records_of_periphs h rfl
  | some x =>
    by_cases hx : x.received + 4 < x.total
    · rw [deliverChunk_more ha hx]
      exact records_setActive h ha rfl rfl rfl
    · have hc := records_chan h c
      rw [recordCount_of_active ha] at hc
      rw [deliverChunk_last ha (by omega) (by omega)]
      refine records_of_periphs (records_setChan h ?_) rfl
      rw [recordCount_of_idle rfl]
      simp only
      omega

end

/-- 43_controller R253. -/
theorem records_drainEntries (es : List InFlight) {s : State} (h : RecordsConserved s) :
    RecordsConserved (drainEntries es s).state := by
  induction es generalizing s with
  | nil => exact h
  | cons e rest ih =>
    unfold drainEntries
    split
    · have hd := records_deliverChunk
        (records_of_periphs (t := ({ s with inflight := rest } : State).pushBuffer) h (pushBuffer_periphs _)) e.c e.rdata
      cases he : ({ s with inflight := rest } : State).pushBuffer.deliverChunk e.c e.rdata with
      | cont t =>
        rw [he] at hd
        exact ih hd
      | halted t =>
        rw [he] at hd
        exact hd
    · exact h

theorem records_drain {s : State} (h : RecordsConserved s) : RecordsConserved s.drain.state :=
  records_drainEntries s.inflight h

theorem issueWrite_periphs (s : State) (req : Req) (rest : List Req) : (s.issueWrite req rest).periphs = s.periphs := by
  unfold State.issueWrite
  split <;> simp

theorem readAnswered_periphs (s : State) (c : ChanId) (req : Req) (ans : MemAnswer) :
    (s.readAnswered c req ans).periphs = s.periphs := by
  cases ans <;> simp [State.readAnswered]

theorem stagedRd_periphs (s : State) (r : Option Word) : (s.stagedRd r).state.periphs = s.periphs := by
  cases r <;> rfl

section
variable {s t : State} (h : RecordsConserved s)
include h

/-- 41_channel R195. -/
theorem records_advanceChunk (c : ChanId) : RecordsConserved (s.advanceChunk c) := by
  refine records_setChan h ?_
  have hc := records_chan h c
  simpa [recordCount] using hc

/-- 43_controller R252. -/
theorem records_issueRead (c : ChanId) (rest : List ChanId) : RecordsConserved (s.issueRead c rest).state := by
  unfold State.issueRead
  split
  · exact records_of_periphs h rfl
  · have ha := records_advanceChunk (records_of_periphs (t := { s with ready := rest, rbfree := s.rbfree - 1 }) h rfl) c
    refine records_of_periphs ha ?_
    rw [flow_state_cont, readAnswered_periphs, memIssue_periphs, cedeTurn_periphs]

/-- 43_controller R251, R252. -/
theorem records_issueOne : RecordsConserved s.issueOne.state := by
  unfold State.issueOne
  split
  · exact records_of_periphs h (issueWrite_periphs s _ _)
  · split
    · split
      · exact records_issueRead h _ _
      · exact h
    · exact h

/-- 43_controller R250. -/
theorem records_ctrlLoop : RecordsConserved s.ctrlLoop := by
  have hi := records_issueOne (records_of_periphs (t := runStart s) h rfl)
  rcases ctrlLoop_cases s with ⟨t, hi1, e⟩ | ⟨t, u, hi1, hd1, e⟩ | ⟨t, u, hi1, hd1, e⟩ <;> rw [hi1] at hi <;> rw [e]
  · exact hi
  · have hd := records_drain hi
    rwa [flow_state_cont, hd1] at hd
  · have hd := records_drain hi
    rw [flow_state_cont, hd1] at hd
    exact records_of_periphs hd (rearm_periphs u)

/-- 41_channel R176: a queued record comes from the pool. -/
theorem records_enqueueRecord (c : ChanId) (addr size : Option Word) (width : BitVec 2) (cont : Bool) :
    RecordsConserved (s.enqueueRecord c addr size width cont).state := by
  cases hr : stagingRefusal c addr size with
  | some k =>
    rw [enqueueRecord_refused width cont hr]
    exact records_of_periphs h rfl
  | none =>
    by_cases hf : (s.chan c).free = 0
    · rw [enqueueRecord_empty width cont hr hf]
      exact records_of_periphs h rfl
    · have hc := records_chan h c
      simp only [recordCount] at hc
      rw [enqueueRecord_eq width cont hr (by omega) (by omega)]
      refine records_of_periphs (records_setChan h ?_) rfl
      simp only [recordCount, List.length_append, List.length_singleton]
      omega

/-- 41_channel R175. -/
theorem records_storeConfig (c : ChanId) (v : Word) : RecordsConserved (s.storeConfig c v) :=
  records_setChan h (records_chan h c)

theorem records_configWr (c : ChanId) (v : Word) : RecordsConserved (s.configWr c v).state := by
  unfold State.configWr
  split
  · exact h
  · split
    · exact records_of_periphs h rfl
    · split
      · rw [flow_reply_state]
        exact records_enqueueRecord (records_storeConfig h c v) c _ _ _ _
      · exact records_storeConfig h c v

theorem records_periphAct {pid : Fin 32} {r : Reply} (ha : PeriphAct pid s r) : RecordsConserved r.state := by
  cases ha with
  | invalid => exact h
  | offNoop acc => cases acc <;> exact records_of_periphs h rfl
  | slotEmpty off => exact records_of_periphs h rfl
  | addrWr c v _ _ => exact records_setChan h (records_chan h c)
  | addrRd c _ _ => exact records_of_periphs h (stagedRd_periphs s _)
  | sizeWr c v _ _ => exact records_setChan h (records_chan h c)
  | sizeRd c _ _ => exact records_of_periphs h (stagedRd_periphs s _)
  | configWr c v _ _ => exact records_configWr h c v
  | configRd c _ _ => exact h
  | transfer c base size width cont _ _ =>
    unfold State.handlerTransfer
    split
    · exact records_of_periphs h rfl
    · rw [flow_reply_state]
      exact records_enqueueRecord h c _ _ _ _

/-- The clock-gate write reaches flags only; every other access is a run of channel operations. -/
theorem records_busNext (hb : BusNext s t) : RecordsConserved t := by
  obtain ⟨r, off, acc, size, ha, rfl⟩ := hb
  have hr : RecordsConserved r.state := by
    cases ha with
    | cgWrite v =>
      intro c
      rw [cgWrite_eq, cgLoop_chan]
      exact h c
    | cgRead => exact h
    | evtin off acc => exact records_of_periphs h rfl
    | periph pid r hp =>
      exact hp.lift (fun a b => RecordsConserved a → RecordsConserved b) (fun f g ha => g (f ha))
        (fun _ ha => records_of_periphs ha rfl) (fun ha hs => records_periphAct hs ha) h
  unfold Reply.close
  split
  · exact records_of_periphs hr rfl
  · exact hr

/-- 41_channel R191. -/
theorem records_flush {c : ChanId} {x : Transfer} (ha : (s.chan c).active = some x) : RecordsConserved (s.flush c x) := by
  by_cases hl : (s.chan c).asm.length < x.remaining
  · rw [flush_more hl]
    refine records_of_periphs ?_ (postWrite_periphs _ _)
    exact records_setActive h ha rfl rfl rfl
  · have hc := records_chan h c
    rw [recordCount_of_active ha] at hc
    rw [flush_last (by omega) (by omega)]
    refine records_of_periphs (records_setChan h ?_) rfl
    rw [recordCount_of_idle rfl]
    simp only
    omega

/-- 41_channel R190. -/
theorem records_pushBytes (c : ChanId) (bytes : List Byte) : RecordsConserved (s.pushBytes c bytes) := by
  unfold State.pushBytes
  split
  · exact records_of_periphs h rfl
  · rename_i x ha
    have hs : RecordsConserved (s.setChan c { s.chan c with asm := (s.chan c).asm ++ bytes }) :=
      records_setActive h ha rfl rfl ha
    split
    · exact records_of_periphs h rfl
    · split
      · exact records_of_periphs h rfl
      · split
        · exact records_flush hs (by rw [chan_setChan_self]; exact ha)
        · exact hs

/-- 41_channel R181: the promoted record leaves the pending queue. -/
theorem records_promote (c : ChanId) : RecordsConserved (s.promote c) := by
  have hc := records_chan h c
  by_cases hi : (s.chan c).active.isSome = true ∨ (s.chan c).pending = []
  · rw [promote_idle hi]
    exact records_setChan h hc
  · simp only [not_or, Bool.not_eq_true, Option.isSome_eq_false_iff, Option.isNone_iff_eq_none] at hi
    obtain ⟨x, rest, hp⟩ := List.exists_cons_of_ne_nil hi.2
    rw [recordCount_of_idle hi.1, hp, List.length_cons] at hc
    rw [promote_eq hi.1 hp]
    refine records_of_periphs (records_setChan h ?_) (channelReady_periphs _ c)
    rw [recordCount_of_active rfl]
    simp only
    omega

/-- 70_reset_and_hazards R311: a quiescent channel has no active record for the reset to drop. -/
theorem records_resetBlock (hq : s.quiescent = true) : RecordsConserved s.resetBlock := by
  obtain ⟨-, hin, hout, -, -⟩ := resetBlock_spec s
  simp only [State.quiescent, Bool.and_eq_true, List.all_eq_true] at hq
  obtain ⟨⟨⟨⟨hch, -⟩, -⟩, -⟩, -⟩ := hq
  intro c
  by_cases hc : c ∈ s.cfg.channels
  · have hi := hch c hc
    simp only [chanQuiescent, Bool.and_eq_true, Option.isNone_iff_eq_none] at hi
    obtain ⟨⟨⟨⟨ha, -⟩, -⟩, -⟩, -⟩ := hi
    have hn := records_chan h c
    rw [recordCount_of_idle ha] at hn
    rw [hin c hc]
    exact (recordCount_of_idle rfl).trans hn
  · rw [hout c hc]
    exact h c

/-- 41_channel R197. -/
theorem records_popWord (c : ChanId) (w : Quad) (rest : List Quad) : RecordsConserved (s.popWord c w rest) := by
  have hs : RecordsConserved (s.setChan c { s.chan c with rdq := rest }) := records_setChan h (records_chan h c)
  exact records_of_periphs hs rfl

theorem records_agent (ha : AgentCase s t) : RecordsConserved t := by
  cases ha with
  | bus _ hb => exact records_busNext h hb
  | pushTx c _ => exact records_of_periphs h rfl
  | push c bytes _ => exact records_pushBytes h c bytes
  | popRx c _ => exact records_of_periphs h rfl
  | pop c w rest _ _ => exact records_popWord h c w rest
  | promote c _ _ => exact records_promote h c
  | loop _ => exact records_ctrlLoop h
  | tick _ => exact records_of_periphs h rfl
  | deassert => exact h
  | reset hq => exact records_resetBlock h hq
  | resetRefused _ => exact records_of_periphs h rfl

end

/-- Settles O55: each operation of a channel moves a record between pool, queue and active place. -/
theorem stepConservesRecords : Obligations.StepConservesRecords := by
  intro s t h hst
  exact records_agent (records_of_periphs h (afterFetch_periphs s)) (step_agentCases hst).2

/-! ## No work without a wake-up (43_controller R254, R257, R263) -/

section
variable {s t : State}

theorem wakeInv_of_same (h : WakeInv s) (g : QueuesSame s t) : WakeInv t := by
  refine ⟨?_, ?_⟩
  · rw [g.wq, g.ready, g.wake]
    exact h.work
  · rw [g.inflight, g.wake]
    exact h.read

/-- 43_controller R262, R263: a stimulus never delays the run that is scheduled. -/
theorem wakeInv_of_stimulated (h : WakeInv s) (g : Stimulated s t) : WakeInv t := by
  refine ⟨fun _ => by simp [g.wake], fun e he => ?_⟩
  rw [g.inflight] at he
  obtain ⟨n, hw, hle⟩ := h.read e he
  refine ⟨_, g.wake, ?_⟩
  rw [hw]
  exact (Nat.min_le_right (stimulusCycle s) n).trans hle

theorem wakeInv_of_idle (h1 : t.wq = []) (h2 : t.ready = []) (h3 : t.inflight = []) : WakeInv t := by
  refine ⟨fun h => ?_, fun e he => ?_⟩
  · rcases h with h | h
    · exact absurd h1 h
    · exact absurd h2 h
  · rw [h3] at he
    cases he

/-- 43_controller R254, 10_state R63: a run that leaves a channel ready for want of a buffer leaves a read in flight. -/
theorem wakeInv_of_ran (hn : 1 ≤ t.cfg.nrb) (h : Ran s t) : WakeInv t := by
  have hw := h.wake
  refine ⟨fun hwork hnone => ?_, fun e he => ?_⟩
  · rw [hnone] at hw
    have hb := h.core.buffers
    cases hi : t.inflight with
    | cons e rest =>
      cases hd : decide (t.wq ≠ [] ∨ (t.ready ≠ [] ∧ 0 < t.rbfree)) <;> rw [hi, hd] at hw <;> cases hw
    | nil =>
      rw [hi, List.length_nil] at hb
      have hd : t.wq ≠ [] ∨ (t.ready ≠ [] ∧ 0 < t.rbfree) := hwork.imp_right fun hr => ⟨hr, by omega⟩
      rw [hi, decide_eq_true hd] at hw
      cases hw
  · have hs := h.sorted
    cases hi : t.inflight with
    | nil =>
      rw [hi] at he
      cases he
    | cons a rest =>
      rw [InflightSorted, hi, List.pairwise_cons] at hs
      rw [hi] at he hw
      have hle : a.ts ≤ e.ts := by
        rcases List.mem_cons.1 he with rfl | hm
        · exact le_rfl
        · exact hs.1 e hm
      cases hd : decide (t.wq ≠ [] ∨ (t.ready ≠ [] ∧ 0 < t.rbfree)) <;> rw [hd] at hw
      · exact ⟨_, hw, hle⟩
      · exact ⟨_, hw, (Nat.min_le_left a.ts _).trans hle⟩

/-- 10_state R72: no queue of the controller holds work. -/
theorem queues_of_quiescent (hq : s.quiescent = true) : s.wq = [] ∧ s.ready = [] ∧ s.inflight = [] := by
  simp only [State.quiescent, Bool.and_eq_true, List.isEmpty_iff] at hq
  obtain ⟨⟨⟨⟨-, hwq⟩, hready⟩, hinflight⟩, -⟩ := hq
  exact ⟨hwq, hready, hinflight⟩

theorem wakeInv_resetBlock (hq : s.quiescent = true) : WakeInv s.resetBlock := by
  obtain ⟨h1, h2, h3⟩ := queues_of_quiescent hq
  have e := (resetBlock_spec s).1
  refine wakeInv_of_idle ?_ ?_ ?_ <;> rw [e] <;> assumption

theorem scheduleInv_resetBlock (h : ScheduleInv s) : ScheduleInv s.resetBlock := by
  rw [(resetBlock_spec s).1]
  exact ⟨h.sorted, nofun, h.runPast, nofun⟩

/-! ## The invariant of the block -/

theorem coreInv_agent (hwf : s.cfg.wf = true) (h : CoreInv s) (hs : InflightSorted s) (ha : AgentCase s t) : CoreInv t := by
  cases ha with
  | bus _ hb => exact h.bus hwf hb
  | pushTx c _ => exact h.refuse _
  | push c bytes hd => exact h.pushBytes hd bytes
  | popRx c _ => exact h.refuse _
  | pop c w rest hd _ => exact (h.setChan ((h.chans c).pop hd rest) fun hr => (h.readyTx c hr).2).emit _
  | promote c _ _ => exact h.promote c
  | loop _ => exact (ran_ctrlLoop h hs).core
  | tick _ => exact h.of_eq rfl rfl rfl rfl rfl rfl rfl rfl
  | deassert => exact h
  | reset hq => exact h.resetBlock hq
  | resetRefused _ => exact h.refuse _

theorem scheduleInv_agent (h : ScheduleInv s) (ha : AgentCase s t) : ScheduleInv t := by
  rcases agent_queues ha with g | g | ⟨-, rfl⟩ | ⟨hd, rfl⟩ | ⟨-, rfl⟩
  · exact ScheduleInv_of_same h g
  · exact ScheduleInv_of_stimulated h g
  · exact scheduleInv_ctrlLoop h.sorted
  · exact ScheduleInv_of_tick h hd
  · exact scheduleInv_resetBlock h

theorem wakeInv_agent (hwf : s.cfg.wf = true) (h : CoreInv s) (hs : InflightSorted s) (hw : WakeInv s)
    (ha : AgentCase s t) : WakeInv t := by
  have hcfg := agent_cfg ha
  rcases agent_queues ha with g | g | ⟨-, rfl⟩ | ⟨-, rfl⟩ | ⟨hq, rfl⟩
  · exact wakeInv_of_same hw g
  · exact wakeInv_of_stimulated hw g
  · obtain ⟨⟨-, -, hn⟩, -⟩ := (cfg_wf_iff s.cfg).1 hwf
    exact wakeInv_of_ran (hcfg ▸ hn) (ran_ctrlLoop h hs)
  · exact ⟨hw.work, hw.read⟩
  · exact wakeInv_resetBlock hq

theorem inv_agent (hwf : s.cfg.wf = true) (h : Inv s) (ha : AgentCase s t) : Inv t :=
  inv_of (coreInv_agent hwf (core_of_inv h) h.schedule.sorted ha) (scheduleInv_agent h.schedule ha)
    (wakeInv_agent hwf (core_of_inv h) h.schedule.sorted (wakeInv_of_inv h) ha)

theorem inv_afterFetch (h : Inv s) : Inv s.afterFetch :=
  inv_of (coreInv_afterFetch (core_of_inv h)) (ScheduleInv_of_same h.schedule (queuesSame_afterFetch s))
    (wakeInv_of_same (wakeInv_of_inv h) (queuesSame_afterFetch s))

end

/-- Settles O58: core, schedule and wake-up are kept by the fetch and by each agent's step. -/
theorem stepKeepsInvariant : Obligations.StepKeepsInvariant := by
  intro s t hwf h hst
  exact inv_agent (by rwa [afterFetch_cfg]) (inv_afterFetch h) (step_agentCases hst).2

end Sys2Proof.Machine.BlockState
end

section
/-! The memory family: the bytes of a request and their places in its word (O31), and the requests a controller run issues
(O40). -/
namespace Sys2Proof.Machine.Memory
open Sys2Proof.Machine.Laws

/-! ## The word of a request's bytes (20_memory R94, 41_channel R192) -/

/-- The bits of a word, byte by byte; a place past the last byte reads 0. -/
theorem getLsbD_bytesWord (l : List Byte) (j : Nat) :
    (bytesWord l).getLsbD j = (decide (j < 32) && (l.getD (j / 8) 0).getLsbD (j % 8)) := by
  induction l generalizing j with
  | nil => simp [bytesWord]
  | cons b rest ih =>
    simp only [bytesWord, BitVec.getLsbD_or, BitVec.getLsbD_setWidth, BitVec.getLsbD_shiftLeft, ih]
    by_cases hj : j < 8
    · simp [hj, Nat.div_eq_of_lt hj, Nat.mod_eq_of_lt hj]
    · have hb : b.getLsbD j = false := BitVec.getLsbD_of_ge b j (by omega)
      have hdiv : j / 8 = (j - 8) / 8 + 1 := by omega
      have hmod : j % 8 = (j - 8) % 8 := by omega
      by_cases h32 : j < 32
      · have h32' : j - 8 < 32 := by omega
        simp [hj, hb, h32, h32', hdiv, hmod]
      · simp [h32]

theorem getLsbD_bytesWord_of_byte {l : List Byte} (h4 : l.length ≤ 4) {k b : Nat} (hk : k < l.length) (hb : b < 8) :
    (bytesWord l).getLsbD (8 * k + b) = (l[k]).getLsbD b := by
  have h32 : 8 * k + b < 32 := by omega
  have hdiv : (8 * k + b) / 8 = k := by omega
  have hmod : (8 * k + b) % 8 = b := by omega
  rw [getLsbD_bytesWord, hdiv, hmod]
  simp [h32, hk]

theorem getLsbD_bytesWord_of_past {l : List Byte} {j : Nat} (h : 8 * l.length ≤ j) :
    (bytesWord l).getLsbD j = false := by
  have hlen : l.length ≤ j / 8 := by omega
  rw [getLsbD_bytesWord]
  simp [hlen]

/-- Settles O31: the cells by their places in the list, the word by its bits. -/
theorem requestBytesAreLittleEndian : Obligations.RequestBytesAreLittleEndian := by
  intro req h4
  refine ⟨length_cellsFrom _ _, fun k hk => ⟨getElem?_cellsFrom _ _ k hk, fun b hb => ?_⟩, fun j hj => ?_⟩
  · exact getLsbD_bytesWord_of_byte h4 hk hb
  · exact getLsbD_bytesWord_of_past hj

/-! ## The requests of a controller run (20_memory R103, 43_controller R250) -/

theorem exec_ctrlLoop {s t : State} (h : exec .ctrlLoop s = .next t) : t = s.ctrlLoop := by
  cases exec_cases h with
  | bus _ _ hb _ => cases hb
  | loop => rfl

/-- The issue step adds one request at most, the drain and the re-arm none. -/
theorem ctrlLoop_hist (s : State) :
    ∃ evs, s.ctrlLoop.hist = s.hist ++ evs ∧ (evs.filter Event.isMem).length ≤ 1 := by
  obtain ⟨u, hframe, heq⟩ := ctrlLoop_frame s
  obtain ⟨evs, hu, hmem⟩ := hframe.hist
  exact ⟨evs, by rw [heq, hu]; rfl, hmem⟩

/-- Settles O40: a completed run is `State.ctrlLoop`, whose frame bounds the requests. -/
theorem runIssuesAtMostOneRequest : Obligations.RunIssuesAtMostOneRequest := by
  intro s t h
  obtain rfl := exec_ctrlLoop h
  exact ctrlLoop_hist s

end Sys2Proof.Machine.Memory
end

section
/-! The encoding family: decoding the call of an operation gives it back (O1), every access selects one row of the opcode
table (O2), and rows written out from the register map (O3). -/
namespace Sys2Proof.Encoding
open Sys2Proof.Laws

/-! ## An access at a window offset of an existing peripheral (30_encoding R124 to R126) -/

theorem periph_of_slotAt {cfg : Cfg} {on : Fin 32 → Bool} {i : Nat} {sl : Slot} {b : Bool} (hs : cfg.slotAt i sl b = true)
    (hf : cfg.flagAt on i true = true) :
    ∃ p, cfg.table i = some p ∧ (p.slotDir sl).isNone = !b ∧ on p.cid = true := by
  obtain ⟨p, ht, hp⟩ := (slotAt_iff cfg i sl b).1 hs
  obtain ⟨q, hq, hon⟩ := (flagAt_iff cfg on i true).1 hf
  obtain rfl : p = q := Option.some.inj (ht.symm.trans hq)
  exact ⟨p, ht, by rw [← hp, Option.not_isSome], hon⟩

section
variable {cfg : Cfg} {on : Fin 32 → Bool} {i : Nat} (hwf : cfg.wf = true)
include hwf

theorem decode_window_of_off (hf : cfg.flagAt on i false = true) {w : Nat} (hw : w < cfg.layout.periphStride) (acc : Acc) :
    decodeBus cfg on (cfg.layout.windowAddr i w) acc 4 = .periphOffNoop i w acc := by
  obtain ⟨p, ht, hon⟩ := (flagAt_iff cfg on i false).1 hf
  rw [decode_window hwf ht hw, if_pos hon]

theorem decode_window_of_custom (hf : cfg.flagAt on i true = true) {w : Nat}
    (hw : cfg.layout.customWindowStart ≤ w ∧ w < cfg.layout.periphStride) (acc : Acc) :
    decodeBus cfg on (cfg.layout.windowAddr i w) acc 4 = .customAccess i w acc := by
  obtain ⟨p, ht, hon⟩ := (flagAt_iff cfg on i true).1 hf
  have hl := (layout_wf_iff _).1 (layout_wf_of_wf hwf)
  rw [decode_window hwf ht hw.2, if_neg (by simp [hon]), if_neg (by omega), if_neg (by omega)]

theorem decode_window_of_rx {b : Bool} (hs : cfg.slotAt i .rx b = true) (hf : cfg.flagAt on i true = true) :
    ∃ p : PeriphCfg, (p.slotDir .rx).isNone = !b ∧ ∀ w acc, w < cfg.layout.txWindowStart →
      decodeBus cfg on (cfg.layout.windowAddr i w) acc 4 = decodeRxWindow cfg.layout p i w acc := by
  obtain ⟨p, ht, hp, hon⟩ := periph_of_slotAt hs hf
  have hl := (layout_wf_iff _).1 (layout_wf_of_wf hwf)
  refine ⟨p, hp, fun w acc hw => ?_⟩
  rw [decode_window hwf ht (by omega), if_neg (by simp [hon]), if_pos hw]

theorem decode_window_of_tx {b : Bool} (hs : cfg.slotAt i .tx b = true) (hf : cfg.flagAt on i true = true) :
    ∃ p : PeriphCfg, (p.slotDir .tx).isNone = !b ∧ ∀ w acc,
      cfg.layout.txWindowStart ≤ w → w < cfg.layout.customWindowStart →
      decodeBus cfg on (cfg.layout.windowAddr i w) acc 4 = decodeTxWindow cfg.layout p i w acc := by
  obtain ⟨p, ht, hp, hon⟩ := periph_of_slotAt hs hf
  have hl := (layout_wf_iff _).1 (layout_wf_of_wf hwf)
  refine ⟨p, hp, fun w acc h1 h2 => ?_⟩
  rw [decode_window hwf ht (by omega), if_neg (by simp [hon]), if_neg (by omega), if_pos h2]

/-- The two configuration registers keep their offsets in a 32-bit word. -/
theorem toNat_configReg :
    (BitVec.ofNat 32 cfg.layout.offCg).toNat = cfg.layout.offCg
      ∧ (BitVec.ofNat 32 cfg.layout.offEvtin).toNat = cfg.layout.offEvtin := by
  have hfit := windows_fit hwf
  obtain ⟨-, hcg, hev, -⟩ := (layout_wf_iff _).1 (layout_wf_of_wf hwf)
  simp only [BitVec.toNat_ofNat]
  exact ⟨Nat.mod_eq_of_lt (by omega), Nat.mod_eq_of_lt (by omega)⟩

end

/-! ## Decoding undoes encoding (30_encoding R127, R143) -/

/-- Settles O1: case by case along the rows of the table. A row behind a window is the decoder's answer at the window offset
that its call carries; a row of the configuration region is told by its offset. -/
theorem decodeOfEncodeIsIdentity : Obligations.DecodeOfEncodeIsIdentity := by
  intro cfg on i c hwf hi hf hc
  have hl := (layout_wf_iff _).1 (layout_wf_of_wf hwf)
  obtain ⟨-, hcg, hev, hne, -, -, has, hac, hsc, ha, hs, hco, hta, hts, htc⟩ := hl
  cases i with
  | prepareNextChunk | deliverChunk | finalize | channelReady | postWrite | enqueueTransfer | flush | periphSetOn => cases hc
  | pushBytes | rdqPop | promote | ctrlLoop | tick | reset => cases hc; rfl
  | badSize off acc size =>
    cases hc
    exact if_pos (of_decide_eq_true hi)
  | cgWr | cgRd | evtinWr | evtinRd =>
    cases hc
    simp [decode, decodeBus, toNat_configReg hwf, hcg, hev, hne.symm]
  | cfgBadOffset off acc =>
    cases hc
    obtain ⟨hoff, hnotCg, hnotEvtin⟩ := of_decide_eq_true hi
    simp [decode, decodeBus, hoff, hnotCg, hnotEvtin]
  | noPeriph off acc =>
    cases hc
    simp only [Instr.wf, Bool.and_eq_true, decide_eq_true_eq, Option.isNone_iff_eq_none] at hi
    obtain ⟨hoff, ht⟩ := hi
    simp [decode, decodeBus, hoff, ht]
  | periphOffNoop i w acc =>
    cases hc
    simp only [Instr.wf, Bool.and_eq_true, decide_eq_true_eq] at hi
    exact decode_window_of_off hwf hf hi.2 acc
  | customAccess i w acc =>
    cases hc
    simp only [Instr.wf, Bool.and_eq_true, decide_eq_true_eq] at hi
    exact decode_window_of_custom hwf hf hi.2 acc
  | rxAddrWr | rxAddrRd | rxSizeWr | rxSizeRd | rxConfigWr | rxConfigRd =>
    cases hc
    obtain ⟨p, hp, hdec⟩ := decode_window_of_rx hwf hi hf
    simp [decode, hdec, decodeRxWindow, hp, ha, hs, hco, has.symm, hac.symm, hsc.symm]
  | txAddrWr | txAddrRd | txSizeWr | txSizeRd | txConfigWr | txConfigRd =>
    cases hc
    obtain ⟨p, hp, hdec⟩ := decode_window_of_tx hwf hi hf
    simp [decode, hdec, decodeTxWindow, hp, hta, hts, htc, has.symm, hac.symm, hsc.symm]
  | rxSlotEmpty i w acc =>
    cases hc
    simp only [Instr.wf, Bool.and_eq_true, decide_eq_true_eq] at hi
    obtain ⟨hslot, hw⟩ := hi
    obtain ⟨p, hp, hdec⟩ := decode_window_of_rx hwf hslot hf
    simp [decode, hdec, decodeRxWindow, hp, hw]
  | rxBadOffset i w acc =>
    cases hc
    simp only [Instr.wf, Bool.and_eq_true, decide_eq_true_eq] at hi
    obtain ⟨hslot, hw, hA, hS, hC⟩ := hi
    obtain ⟨p, hp, hdec⟩ := decode_window_of_rx hwf hslot hf
    simp [decode, hdec, decodeRxWindow, hp, hw, hA, hS, hC]
  | txSlotEmpty i w acc =>
    cases hc
    simp only [Instr.wf, Bool.and_eq_true, decide_eq_true_eq] at hi
    obtain ⟨hslot, hlo, hhi⟩ := hi
    obtain ⟨p, hp, hdec⟩ := decode_window_of_tx hwf hslot hf
    simp [decode, hdec, decodeTxWindow, hp, hlo, hhi]
  | txBadOffset i w acc =>
    cases hc
    simp only [Instr.wf, Bool.and_eq_true, decide_eq_true_eq] at hi
    obtain ⟨hslot, hlo, hhi, hA, hS, hC⟩ := hi
    obtain ⟨p, hp, hdec⟩ := decode_window_of_tx hwf hslot hf
    obtain ⟨r, rfl⟩ := Nat.exists_eq_add_of_le hlo
    rw [Ne, Nat.add_left_cancel_iff] at hA hS hC
    simp [decode, hdec, decodeTxWindow, hp, hhi, hA, hS, hC]

/-! ## Every access has its row (30_encoding R120, R121) -/

/-- Operation `i` stands for the access: it is well-formed, its row's guard admits the flags, and the access is its call. -/
structure StandsFor (cfg : Cfg) (on : Fin 32 → Bool) (off : Word) (acc : Acc) (size : Nat) (i : Instr) : Prop where
  wf    : i.wf cfg = true
  flags : i.flagsOk cfg on = true
  call  : encode cfg i = some (.bus off acc size)

section
variable {cfg : Cfg} {on : Fin 32 → Bool} {i w : Nat} {p : PeriphCfg} (ht : cfg.table i = some p) (acc : Acc)
include ht

theorem standsFor_decodeRxWindow (hon : on p.cid = true) (hw : w < cfg.layout.txWindowStart) :
    StandsFor cfg on (cfg.layout.windowAddr i w) acc 4 (decodeRxWindow cfg.layout p i w acc) := by
  have hflag : cfg.flagAt on i true = true := (flagAt_iff cfg on i true).2 ⟨p, ht, hon⟩
  unfold decodeRxWindow
  split_ifs with hempty haddr hsize hconfig
  · exact ⟨by simp [Instr.wf, Cfg.slotAt, ht, hw, Option.isNone_iff_eq_none.1 hempty], hflag, rfl⟩
  all_goals have hrx : cfg.slotAt i .rx true = true :=
    (slotAt_iff cfg i .rx true).2 ⟨p, ht, by simpa [Option.isSome_iff_ne_none] using hempty⟩
  · subst haddr; cases acc <;> exact ⟨hrx, hflag, rfl⟩
  · subst hsize; cases acc <;> exact ⟨hrx, hflag, rfl⟩
  · subst hconfig; cases acc <;> exact ⟨hrx, hflag, rfl⟩
  · exact ⟨by simp [Instr.wf, hrx, hw, haddr, hsize, hconfig], hflag, rfl⟩

theorem standsFor_decodeTxWindow (hon : on p.cid = true) (hlo : cfg.layout.txWindowStart ≤ w)
    (hhi : w < cfg.layout.customWindowStart) :
    StandsFor cfg on (cfg.layout.windowAddr i w) acc 4 (decodeTxWindow cfg.layout p i w acc) := by
  have hflag : cfg.flagAt on i true = true := (flagAt_iff cfg on i true).2 ⟨p, ht, hon⟩
  obtain ⟨r, rfl⟩ := Nat.exists_eq_add_of_le hlo
  unfold decodeTxWindow
  simp only [Nat.add_sub_cancel_left]
  split_ifs with hempty haddr hsize hconfig
  · exact ⟨by simp [Instr.wf, Cfg.slotAt, ht, hhi, Option.isNone_iff_eq_none.1 hempty], hflag, rfl⟩
  all_goals have htx : cfg.slotAt i .tx true = true :=
    (slotAt_iff cfg i .tx true).2 ⟨p, ht, by simpa [Option.isSome_iff_ne_none] using hempty⟩
  · subst haddr; cases acc <;> exact ⟨htx, hflag, rfl⟩
  · subst hsize; cases acc <;> exact ⟨htx, hflag, rfl⟩
  · subst hconfig; cases acc <;> exact ⟨htx, hflag, rfl⟩
  · exact ⟨by simp [Instr.wf, htx, hhi, haddr, hsize, hconfig], hflag, rfl⟩

/-- 42_peripheral_group R221: the four answers of the decoder at a window offset. -/
theorem standsFor_decode_window (hwf : cfg.wf = true) (hw : w < cfg.layout.periphStride) :
    StandsFor cfg on (cfg.layout.windowAddr i w) acc 4 (decodeBus cfg on (cfg.layout.windowAddr i w) acc 4) := by
  rw [decode_window hwf ht hw]
  split_ifs with hoff hrx htx
  · exact ⟨by simp [Instr.wf, ht, hw], (flagAt_iff cfg on i false).2 ⟨p, ht, hoff⟩, rfl⟩
  all_goals have hon : on p.cid = true := by simpa using hoff
  · exact standsFor_decodeRxWindow ht acc hon hrx
  · exact standsFor_decodeTxWindow ht acc hon (by omega) htx
  · exact ⟨by simpa [Instr.wf, ht, hw] using htx, (flagAt_iff cfg on i true).2 ⟨p, ht, hon⟩, rfl⟩

end

/-- The configuration region, by its offset (43_controller R236, R240). -/
theorem standsFor_decode_config {cfg : Cfg} {off : Word} (hoff : off.toNat < cfg.layout.channelRegionStart)
    (on : Fin 32 → Bool) (acc : Acc) : StandsFor cfg on off acc 4 (decodeBus cfg on off acc 4) := by
  simp only [decodeBus, ne_eq, not_true_eq_false, if_false, if_pos hoff]
  split_ifs with hcg hev
  · cases acc <;> exact ⟨rfl, rfl, by simp [encode, ← hcg]⟩
  · cases acc <;> exact ⟨rfl, rfl, by simp [encode, ← hev]⟩
  · exact ⟨by simp [Instr.wf, hoff, hcg, hev], rfl, rfl⟩

/-- The row the decoder answers stands for the access, in the order of its checks (60_exceptions R287). -/
theorem standsFor_decodeBus {cfg : Cfg} (hwf : cfg.wf = true) (on : Fin 32 → Bool) (off : Word) (acc : Acc) (size : Nat) :
    StandsFor cfg on off acc size (decodeBus cfg on off acc size) := by
  by_cases hsize : size = 4
  case neg =>
    have hrow : decodeBus cfg on off acc size = .badSize off acc size := if_pos hsize
    rw [hrow]
    exact ⟨decide_eq_true hsize, rfl, rfl⟩
  subst hsize
  by_cases hoff : off.toNat < cfg.layout.channelRegionStart
  · exact standsFor_decode_config hoff on acc
  cases ht : cfg.table (cfg.layout.periphId off) with
  | none =>
    have hrow : decodeBus cfg on off acc 4 = .noPeriph off acc := by simp [decodeBus, hoff, ht]
    rw [hrow]
    exact ⟨by simpa [Instr.wf, ht] using hoff, rfl, rfl⟩
  | some p =>
    have hw : cfg.layout.windowOff off < cfg.layout.periphStride :=
      Nat.mod_lt _ ((layout_wf_iff _).1 (layout_wf_of_wf hwf)).1
    have h := standsFor_decode_window (on := on) ht acc hwf hw
    rwa [windowAddr_split _ _ (not_lt.1 hoff)] at h

/-- Settles O2: the decoder's answer stands for the access, and by O1 it is the answer for every operation that does. -/
theorem everyAccessSelectsOneRow : Obligations.EveryAccessSelectsOneRow := by
  intro cfg on off acc size hwf
  obtain ⟨hi, hf, hc⟩ := standsFor_decodeBus hwf on off acc size
  refine ⟨decodeBus cfg on off acc size, ⟨hi, hf, hc⟩, ?_⟩
  rintro i ⟨hi, hf, hc⟩
  exact (decodeOfEncodeIsIdentity cfg on i _ hwf hi hf hc).symm

/-! ## Offsets written out from the register map (30_encoding R127) -/

/-- Settles O3: each clause is one closed run of the decoder. -/
theorem registerMapWordsDecode : Obligations.RegisterMapWordsDecode := by
  unfold Obligations.RegisterMapWordsDecode
  decide

end Sys2Proof.Encoding
end

section
/-! The latency queue family: what the two pushes leave, full and not full (O45). -/
namespace Sys2Proof.Machine.LatencyQueue
open Sys2Proof.Machine.Laws

variable {α : Type} {ts : α → Nat} {cap : Option Nat} {q : List α} {x : α}

/-! ## The capacity check (40_latency_queue R162) -/

theorem queuePush_of_full (h : cap = some q.length) : queuePush cap q x = (q, true) := if_pos h

theorem queuePush_of_room (h : cap ≠ some q.length) : queuePush cap q x = (q ++ [x], false) := if_neg h

theorem queuePushOrdered_of_full (h : cap = some q.length) : queuePushOrdered ts cap q x = (q, true) := if_pos h

theorem queuePushOrdered_of_room (h : cap ≠ some q.length) :
    queuePushOrdered ts cap q x = (pushOrdered ts x q, false) := if_neg h

/-! ## The insertion point (40_latency_queue R163) -/

/-- The leading items whose timestamp is not greater than the new item's. -/
def notLater (ts : α → Nat) (x : α) (q : List α) : List α := q.takeWhile (fun e => decide (ts e ≤ ts x))

/-- The rest of the queue, from the first item whose timestamp is greater. -/
def fromFirstLater (ts : α → Nat) (x : α) (q : List α) : List α := q.dropWhile (fun e => decide (ts e ≤ ts x))

theorem notLater_append_fromFirstLater : notLater ts x q ++ fromFirstLater ts x q = q := List.takeWhile_append_dropWhile

theorem ts_le_of_mem_notLater {e : α} (he : e ∈ notLater ts x q) : ts e ≤ ts x :=
  of_decide_eq_true (List.mem_takeWhile_imp (p := fun e => decide (ts e ≤ ts x)) he)

theorem ts_lt_of_head?_fromFirstLater {e : α} (he : (fromFirstLater ts x q).head? = some e) : ts x < ts e := by
  have h := List.head?_dropWhile_not (fun e => decide (ts e ≤ ts x)) q
  unfold fromFirstLater at he
  rw [he] at h
  simpa using h

/-- The scan from the head passes the items that are not later and stops at the first that is. -/
theorem pushOrdered_eq_notLater_append : pushOrdered ts x q = notLater ts x q ++ x :: fromFirstLater ts x q := by
  induction q with
  | nil => rfl
  | cons e rest ih =>
    by_cases hlt : ts x < ts e
    · simp [pushOrdered, notLater, fromFirstLater, hlt]
    · have hle : ts e ≤ ts x := not_lt.1 hlt
      simpa [pushOrdered, notLater, fromFirstLater, hlt, hle] using ih

/-- Settles O45: by the capacity check, and with room the insertion point is where the leading items that are not later end. -/
theorem queuePushesAppendOrInsertInOrder : Obligations.QueuePushesAppendOrInsertInOrder := by
  intro cap q x
  refine ⟨fun hfull => ⟨queuePush_of_full hfull, queuePushOrdered_of_full hfull⟩, queuePush_of_room, fun hroom => ?_,
    fun s id => ⟨rfl, rfl⟩⟩
  refine ⟨notLater InFlight.ts x q, fromFirstLater InFlight.ts x q, notLater_append_fromFirstLater.symm, ?_,
    fun e => ts_le_of_mem_notLater, fun e => ts_lt_of_head?_fromFirstLater, fun hsorted => ?_⟩
  · rw [queuePushOrdered_of_room hroom, pushOrdered_eq_notLater_append]
  · rw [← pushOrdered_eq_notLater_append]
    exact pushOrdered_sorted InFlight.ts x hsorted

end Sys2Proof.Machine.LatencyQueue
end

section
/-! The channel family: the register rows of a channel (O16 to O23), enqueueing and promotion (O24, O25), receive (O26 to
O30), transmit (O32 to O34) and finalization (O35). -/
namespace Sys2Proof.Machine.Channel
open Sys2Proof.Machine.Laws

/-! ## What an operation on one channel leaves -/

/-- Channel `c` holds `ch`, the events `evs` were added, and nothing else changed. -/
structure UpdatesChan (c : ChanId) (ch : Chan) (evs : List Event) (s t : State) : Prop where
  frame : OnlyChan c s t
  chan  : t.chan c = ch
  hist  : t.hist = s.hist ++ evs

/-- As `UpdatesChan`, and the write request `req` was posted (43_controller R246). -/
structure PostsWrite (c : ChanId) (ch : Chan) (req : Req) (evs : List Event) (s t : State) : Prop where
  frame : OnlyChanWrite c s t
  chan  : t.chan c = ch
  wq    : t.wq = s.wq ++ [req]
  wake  : t.wake = some (earliest s.wake (stimulusCycle s))
  hist  : t.hist = s.hist ++ evs

section
variable {s t : State} {c : ChanId} {ch : Chan} {evs : List Event}

theorem updatesChan_setChan (s : State) (c : ChanId) (ch : Chan) : UpdatesChan c ch [] s (s.setChan c ch) :=
  ⟨onlyChan_setChan s c ch, chan_setChan_self s c ch, by simp⟩

theorem UpdatesChan.emit (h : UpdatesChan c ch evs s t) (ev : Event) : UpdatesChan c ch (evs ++ [ev]) s (t.emit ev) :=
  ⟨onlyChan_emit h.frame ev, h.chan, by simp [h.hist]⟩

theorem UpdatesChan.hist_eq (h : UpdatesChan c ch [] s t) : t.hist = s.hist := by simpa using h.hist

theorem postsWrite_setChan_postWrite (s : State) (c : ChanId) (ch : Chan) (req : Req) :
    PostsWrite c ch req [] s ((s.setChan c ch).postWrite req) where
  frame := ⟨otherChansSame_of_periphs (otherChansSame_setChan s c ch) rfl, rfl⟩
  chan := by simp
  wq := rfl
  wake := by rw [postWrite_eq]; rfl
  hist := by simp

theorem PostsWrite.emit {req : Req} (h : PostsWrite c ch req evs s t) (ev : Event) :
    PostsWrite c ch req (evs ++ [ev]) s (t.emit ev) where
  frame := ⟨otherChansSame_of_periphs h.frame.1 rfl, by rw [h.frame.2]; rfl⟩
  chan := h.chan
  wq := h.wq
  wake := h.wake
  hist := by simp [h.hist]

theorem PostsWrite.hist_eq {req : Req} (h : PostsWrite c ch req [] s t) : t.hist = s.hist := by simpa using h.hist

end

/-! ## The rows, in a state where the channel exists (10_state R45) -/

section
variable {s : State} {c : ChanId} {d : Dir}

theorem onChannel_of_dirOf (hd : s.cfg.dirOf c = some d) (act : Dir → Host.Outcome State Fault Refusal) :
    s.onChannel c act = act d := by
  simp [State.onChannel, hd]

theorem exec_pushBytes_tx (hd : s.cfg.dirOf c = some .tx) (bytes : List Byte) :
    exec (.pushBytes c bytes) s = .next (s.refuse (.pushNotRx c)) := onChannel_of_dirOf hd _

theorem exec_pushBytes_rx (hd : s.cfg.dirOf c = some .rx) (bytes : List Byte) :
    exec (.pushBytes c bytes) s = .next (s.pushBytes c bytes) := onChannel_of_dirOf hd _

theorem exec_rdqPop_rx (hd : s.cfg.dirOf c = some .rx) : exec (.rdqPop c) s = .next (s.refuse (.popNotTx c)) :=
  onChannel_of_dirOf hd _

theorem exec_rdqPop_tx_of_nil (hd : s.cfg.dirOf c = some .tx) (hq : (s.chan c).rdq = []) :
    exec (.rdqPop c) s = .fault (.rdqEmpty c) := by
  simp [exec, execRdqPop, onChannel_of_dirOf hd, hq, queuePop]

theorem exec_rdqPop_tx_of_cons {w : Quad} {rest : List Quad} (hd : s.cfg.dirOf c = some .tx)
    (hq : (s.chan c).rdq = w :: rest) : exec (.rdqPop c) s = .next (s.popWord c w rest) := by
  simp [exec, execRdqPop, onChannel_of_dirOf hd, hq, queuePop]

theorem exec_promote_of_promo (hd : s.cfg.dirOf c = some d) (hp : (s.chan c).promo = true) :
    exec (.promote c) s = .next (s.promote c) := by
  simp [exec, execPromote, onChannel_of_dirOf hd, hp]

theorem exec_promote_of_not_promo (hd : s.cfg.dirOf c = some d) (hp : (s.chan c).promo = false) :
    exec (.promote c) s = .fault (.promotionNotRequested c) := by
  simp [exec, execPromote, onChannel_of_dirOf hd, hp]

theorem exec_prepareNextChunk_of_none (hd : s.cfg.dirOf c = some d) (hn : s.nextChunk c = none) :
    exec (.prepareNextChunk c) s = .next (s.refuse (.prepareNoActive c)) := by
  simp [exec, execPrepareNextChunk, onChannel_of_dirOf hd, hn]

theorem exec_prepareNextChunk_of_some {chunk : Chunk} (hd : s.cfg.dirOf c = some d) (hn : s.nextChunk c = some chunk) :
    exec (.prepareNextChunk c) s = .next (s.advanceChunk c) := by
  simp [exec, execPrepareNextChunk, onChannel_of_dirOf hd, hn]

theorem exec_deliverChunk_tx (hd : s.cfg.dirOf c = some .tx) (rdata : Quad) :
    exec (.deliverChunk c rdata) s = .next (s.deliverChunk c rdata).state := onChannel_of_dirOf hd _

theorem exec_finalize_of_active (hd : s.cfg.dirOf c = some d) (ha : (s.chan c).active.isSome = true) :
    exec (.finalize c) s = .next (s.finalize c) := by
  simp [exec, execFinalize, onChannel_of_dirOf hd, ha]

theorem exec_enqueueTransfer (hd : s.cfg.dirOf c = some d) :
    exec (.enqueueTransfer c) s = .next (s.enqueueTransfer c).state := onChannel_of_dirOf hd _

theorem exec_flush_rx {x : Transfer} (hd : s.cfg.dirOf c = some .rx) (ha : (s.chan c).active = some x)
    (h1 : 1 ≤ (s.chan c).asm.length) (h4 : (s.chan c).asm.length ≤ 4) : exec (.flush c) s = .next (s.flush c x) := by
  simp [exec, execFlush, onChannel_of_dirOf hd, ha, h1, Config.asmWindow, h4]

end

/-! ## ADDR, SIZE and the other offsets (41_channel R171 to R174, R178) -/

section
variable {s : State} {i w : Nat} {c : ChanId}

theorem exec_rxBadOffset (hr : Reaches s i .rx c) (hw : w < s.cfg.layout.txWindowStart) (ha : w ≠ s.cfg.layout.offAddr)
    (hs : w ≠ s.cfg.layout.offSize) (hc : w ≠ s.cfg.layout.offConfig) (acc : Acc) :
    exec (.rxBadOffset i w acc) s = .next (s.emit (.bus (s.cfg.layout.windowAddr i w) acc 4 .invalid)) := by
  simp only [exec, execRxBadOffset]
  rw [if_pos ⟨hw, ha, hs, hc⟩, regAccess_of_reaches hr]
  rfl

theorem exec_txBadOffset (hr : Reaches s i .tx c) (h1 : s.cfg.layout.txWindowStart ≤ w)
    (h2 : w < s.cfg.layout.customWindowStart) (ha : w - s.cfg.layout.txWindowStart ≠ s.cfg.layout.offAddr)
    (hs : w - s.cfg.layout.txWindowStart ≠ s.cfg.layout.offSize)
    (hc : w - s.cfg.layout.txWindowStart ≠ s.cfg.layout.offConfig) (acc : Acc) :
    exec (.txBadOffset i w acc) s = .next (s.emit (.bus (s.cfg.layout.windowAddr i w) acc 4 .invalid)) := by
  simp only [exec, execTxBadOffset]
  rw [if_pos ⟨h1, h2, by omega, by omega, by omega⟩, regAccess_of_reaches hr]
  rfl

end

/-- A read of a staged register, closed by its event. -/
theorem stagedRd_close_leaves (s : State) (r : Option Word) (off : Word) :
    ∃ d, OnlyHistDraws s ((s.stagedRd r).close off .rd 4)
      ∧ ((s.stagedRd r).close off .rd 4).hist = s.hist ++ [.bus off .rd 4 (.okData d)] ∧ ∀ x, r = some x → d = x := by
  cases r with
  | none => exact ⟨s.nextDraw, rfl, rfl, nofun⟩
  | some x => exact ⟨x, rfl, rfl, fun _ => Option.some.inj⟩

/-- A write that stores `ch` in channel `c` and answers OK, closed by its event. -/
theorem updatesChan_close (s : State) (c : ChanId) (ch : Chan) (off : Word) (acc : Acc) :
    UpdatesChan c ch [.bus off acc 4 .ok] s ((Reply.mk (s.setChan c ch) (some .ok)).close off acc 4) :=
  (updatesChan_setChan s c ch).emit _

/-- Settles O16: the row's guard holds, so the reply is INVALID in the unchanged state. -/
theorem otherChannelOffsetsAreInvalid : Obligations.OtherChannelOffsetsAreInvalid := by
  intro s c i w acc
  exact ⟨fun hr hw ha hs hc => ⟨_, exec_rxBadOffset hr hw ha hs hc acc, rfl, rfl⟩,
    fun hr h1 h2 ha hs hc => ⟨_, exec_txBadOffset hr h1 h2 ha hs hc acc, rfl, rfl⟩⟩

/-- Settles O17: both rows store the word in the channel they reach. -/
theorem addrWriteStagesWord : Obligations.AddrWriteStagesWord := by
  intro s c i v
  have stored (off : Word) := updatesChan_close s c { s.chan c with addr := some v } off (.wr v)
  exact ⟨fun hr => ⟨_, exec_rxAddrWr hr v, (stored _).chan, (stored _).frame, (stored _).hist⟩,
    fun hr => ⟨_, exec_txAddrWr hr v, (stored _).chan, (stored _).frame, (stored _).hist⟩⟩

/-- Settles O18: both rows read the staged register of the channel they reach. -/
theorem addrReadReturnsStagedWord : Obligations.AddrReadReturnsStagedWord := by
  intro s c i
  refine ⟨fun hr => ?_, fun hr => ?_⟩
  · obtain ⟨d, hd⟩ := stagedRd_close_leaves s (s.chan c).addr (s.rxOff i s.cfg.layout.offAddr)
    exact ⟨_, d, exec_rxAddrRd hr, hd⟩
  · obtain ⟨d, hd⟩ := stagedRd_close_leaves s (s.chan c).addr (s.txOff i s.cfg.layout.offAddr)
    exact ⟨_, d, exec_txAddrRd hr, hd⟩

/-- Settles O19: both rows store the word in the channel they reach. -/
theorem sizeWriteStagesWord : Obligations.SizeWriteStagesWord := by
  intro s c i v
  have stored (off : Word) := updatesChan_close s c { s.chan c with size := some v } off (.wr v)
  exact ⟨fun hr => ⟨_, exec_rxSizeWr hr v, (stored _).chan, (stored _).frame, (stored _).hist⟩,
    fun hr => ⟨_, exec_txSizeWr hr v, (stored _).chan, (stored _).frame, (stored _).hist⟩⟩

/-- Settles O20: both rows read the staged register of the channel they reach. -/
theorem sizeReadReturnsStagedWord : Obligations.SizeReadReturnsStagedWord := by
  intro s c i
  refine ⟨fun hr => ?_, fun hr => ?_⟩
  · obtain ⟨d, hd⟩ := stagedRd_close_leaves s (s.chan c).size (s.rxOff i s.cfg.layout.offSize)
    exact ⟨_, d, exec_rxSizeRd hr, hd⟩
  · obtain ⟨d, hd⟩ := stagedRd_close_leaves s (s.chan c).size (s.txOff i s.cfg.layout.offSize)
    exact ⟨_, d, exec_txSizeRd hr, hd⟩

/-! ## CONFIG (41_channel R175, R177) -/

section
variable {s : State} {c : ChanId} {v : Word}

theorem configWr_of_clear (h : v.getLsbD s.cfg.layout.clearBit = true) : s.configWr c v = s.invalidAccess := by
  simp [State.configWr, cfgClear, h, State.invalidAccess]

theorem configWr_of_noSlot (hclear : v.getLsbD s.cfg.layout.clearBit = false)
    (hen : v.getLsbD s.cfg.layout.enBit = true) (hfree : (s.chan c).free = 0) :
    s.configWr c v = Reply.mk (s.log (.enqueueNoSlot c)) (some .ok) := by
  simp [State.configWr, cfgClear, hclear, cfgEn, hen, hfree]

theorem configWr_of_disabled (hclear : v.getLsbD s.cfg.layout.clearBit = false)
    (hen : v.getLsbD s.cfg.layout.enBit = false) :
    s.configWr c v = Reply.mk (s.setChan c (storedChan s.cfg.layout (s.chan c) v)) (some .ok) := by
  simp [State.configWr, cfgClear, hclear, cfgEn, hen, State.storeConfig, storedChan, cfgCont, cfgWidth]

/-- An enable, as one case of the CONFIG write. -/
theorem configWr_leaves_of_enabled (hclear : v.getLsbD s.cfg.layout.clearBit = false)
    (hen : v.getLsbD s.cfg.layout.enBit = true) (hfree : 0 < (s.chan c).free) (hpend : (s.chan c).pending.length < 2) :
    EnableLeaves s c v (s.configWr c v).state (s.configWr c v).resp := by
  have h := configWr_leaves s c v (.inl hpend)
  unfold ConfigWriteLeaves at h
  rwa [if_neg (by simp [hclear]), if_neg (by simp [hen]), if_neg hfree.ne'] at h

end

/-- Settles O21: the word is the CONFIG read value of the channel. -/
theorem configReadReturnsFieldsAndStatus : Obligations.ConfigReadReturnsFieldsAndStatus := by
  intro s c i hb
  exact ⟨configValue s.cfg.layout (s.chan c), isConfigWord_configValue hb _,
    fun hr => ⟨_, exec_rxConfigRd hr, rfl, rfl⟩, fun hr => ⟨_, exec_txConfigRd hr, rfl, rfl⟩⟩

/-- Settles O22: one equation of the CONFIG write for each clause, the same for both rows. -/
theorem configWriteRejectsDropsOrStores : Obligations.ConfigWriteRejectsDropsOrStores := by
  intro s c i v
  refine ⟨fun hclear => ?_, fun hclear hen hfree => ?_, fun hclear hen => ?_⟩
  · have e := configWr_of_clear (c := c) hclear
    refine ⟨fun hr => ⟨_, exec_rxConfigWr hr v, ?_⟩, fun hr => ⟨_, exec_txConfigWr hr v, ?_⟩⟩ <;>
      exact e ▸ ⟨rfl, rfl⟩
  · have e := configWr_of_noSlot hclear hen hfree
    refine ⟨fun hr => ⟨_, exec_rxConfigWr hr v, ?_⟩, fun hr => ⟨_, exec_txConfigWr hr v, ?_⟩⟩ <;>
      exact e ▸ ⟨rfl, by simp⟩
  · have stored (off : Word) := updatesChan_close s c (storedChan s.cfg.layout (s.chan c) v) off (.wr v)
    rw [← configWr_of_disabled hclear hen] at stored
    exact ⟨fun hr => ⟨_, exec_rxConfigWr hr v, (stored _).frame, (stored _).chan, (stored _).hist⟩,
      fun hr => ⟨_, exec_txConfigWr hr v, (stored _).frame, (stored _).chan, (stored _).hist⟩⟩

/-- Settles O23: the enabled case of the CONFIG write, whose event follows its response. -/
theorem enableQueuesTransferOrIsRefused : Obligations.EnableQueuesTransferOrIsRefused := by
  intro s c i v hclear hen hfree hpend
  have h := configWr_leaves_of_enabled hclear hen hfree hpend
  exact ⟨fun hr => ⟨_, _, by rw [exec_rxConfigWr hr v, close_answered], h⟩,
    fun hr => ⟨_, _, by rw [exec_txConfigWr hr v, close_answered], h⟩⟩

/-! ## Enqueueing and promotion (41_channel R176, R181) -/

section
variable {s t : State} {c : ChanId} {resp : Option Resp}

theorem enqueueTransfer_leaves (hfree : 0 < (s.chan c).free) (hpend : (s.chan c).pending.length < 2) :
    EnqueueLeaves s c (s.chan c) (s.chan c).addr (s.chan c).size (s.chan c).widthCfg (s.chan c).contCfg
      (s.enqueueTransfer c).state (s.enqueueTransfer c).reply.resp := by
  have h := enqueueRecord_leaves s c (s.chan c) (s.chan c).addr (s.chan c).size (s.chan c).widthCfg (s.chan c).contCfg
    hfree hpend
  rwa [setChan_self, flow_reply_state] at h

theorem enqueueLeaves_of_unwritten {ch : Chan} {addr size : Option Word} {w : BitVec 2} {k : Bool}
    (hu : addr = none ∨ size = none) (h : EnqueueLeaves s c ch addr size w k t resp) :
    RefusedLeaves s c ch (.unwrittenStaging c) t resp := by
  rcases hu with rfl | rfl
  · exact h
  · cases addr <;> exact h

/-- A refusal that leaves the channel as it was changes the mark only. -/
theorem eq_of_refusedLeaves {k : RefusalKind} (h : RefusedLeaves s c (s.chan c) k t resp) :
    t = { s with refused := some (s.refused.getD k) } := by
  obtain ⟨-, hchan, ⟨hother, hon⟩, hmark, ht⟩ := h
  have hp : t.periphs = s.periphs := periphs_ext (fun c' => by
    by_cases hc : c' = c
    · rw [hc, hchan]
    · exact hother c' hc) hon
  rw [ht, hp, hmark]

end

/-- Settles O24: the refusals and the queued transfer of an enable, on the staged registers and the fields stored before. -/
theorem enqueueTransferFollowsStaging : Obligations.EnqueueTransferFollowsStaging := by
  intro s c hd hfree hpend
  obtain ⟨d, hd⟩ := Option.isSome_iff_exists.1 hd
  rw [exec_enqueueTransfer hd]
  have h := enqueueTransfer_leaves hfree hpend
  refine ⟨fun hu => congrArg _ (eq_of_refusedLeaves (enqueueLeaves_of_unwritten hu h)), fun a z ha hz => ?_⟩
  rw [ha, hz] at h
  unfold EnqueueLeaves at h
  dsimp only at h
  by_cases hzero : z.toNat = 0
  · rw [if_pos hzero] at h ⊢
    exact congrArg _ (eq_of_refusedLeaves h)
  rw [if_neg hzero] at h ⊢
  by_cases hunaligned : a.toNat % 4 ≠ 0
  · rw [if_pos hunaligned] at h ⊢
    exact congrArg _ (eq_of_refusedLeaves h)
  rw [if_neg hunaligned] at h ⊢
  by_cases hwrap : 2 ^ 32 < a.toNat + 4 * ((z.toNat + 3) / 4)
  · rw [if_pos hwrap] at h ⊢
    exact congrArg _ (eq_of_refusedLeaves h)
  rw [if_neg hwrap] at h ⊢
  exact ⟨_, rfl, h.2⟩

/-- Settles O25: the two forms of a promotion, then what a channel that becomes ready does by its direction. -/
theorem promotionStartsPendingTransfer : Obligations.PromotionStartsPendingTransfer := by
  intro s c d hd
  refine ⟨exec_promote_of_not_promo hd, fun hp hidle => ?_, fun x rest hp hactive hpend => ?_⟩
  · have h := updatesChan_setChan s c { s.chan c with promo := false }
    rw [exec_promote_of_promo hd hp, promote_idle hidle]
    exact ⟨_, rfl, h.frame, h.hist_eq, h.chan⟩
  · have hother := otherChansSame_setChan s c { s.chan c with promo := false, active := some x, pending := rest }
    rw [exec_promote_of_promo hd hp, promote_eq hactive hpend]
    cases d with
    | rx =>
      rw [channelReady_not_tx (by simp [hd])]
      exact ⟨_, rfl, ⟨hother, rfl⟩, chan_setChan_self s c _, rfl, rfl⟩
    | tx =>
      rw [channelReady_tx (by simpa using hd)]
      exact ⟨_, rfl, ⟨otherChansSame_of_periphs hother rfl, rfl⟩, chan_setChan_self s c _, rfl, rfl⟩

/-! ## Receive (41_channel R190, R191) -/

section
variable {s : State} {c : ChanId} {bytes : List Byte} {x : Transfer}

theorem pushBytes_of_idle (ha : (s.chan c).active = none) : s.pushBytes c bytes = s.log (.pushNoActive c) := by
  simp [State.pushBytes, ha]

theorem pushBytes_of_beyond_window (ha : (s.chan c).active = some x)
    (hw : 4 < (s.chan c).asm.length + bytes.length) :
    s.pushBytes c bytes = s.log (.pushWindowOverflow c bytes.length) := by
  simp [State.pushBytes, ha, Config.asmWindow, hw]

theorem pushBytes_of_beyond_end (ha : (s.chan c).active = some x) (hw : (s.chan c).asm.length + bytes.length ≤ 4)
    (hr : x.remaining < (s.chan c).asm.length + bytes.length) :
    s.pushBytes c bytes = s.refuse (.rxOverrun c bytes.length) := by
  simp [State.pushBytes, ha, Config.asmWindow, hw.not_gt, hr]

/-- 41_channel R191: a flush of a transfer that is not exhausted. -/
theorem postsWrite_flush_more (h : (s.chan c).asm.length < x.remaining) :
    PostsWrite c { s.chan c with asm := [], active := some (flushAdvance x (s.chan c).asm.length) }
      (flushReq c x (s.chan c).asm) [] s (s.flush c x) := by
  rw [flush_more h]
  exact postsWrite_setChan_postWrite s c _ _

/-- 41_channel R191, R205: a flush that exhausts the transfer finalizes it. -/
theorem postsWrite_flush_last (h : x.remaining ≤ (s.chan c).asm.length) (hf : (s.chan c).free < 2) :
    PostsWrite c { s.chan c with asm := [], active := none, free := (s.chan c).free + 1, busy := .available, promo := true }
      (flushReq c x (s.chan c).asm) [.busy c .available, .complete c] s (s.flush c x) := by
  rw [flush_last h hf]
  exact ((postsWrite_setChan_postWrite s c _ _).emit _).emit _

/-- What a state with other assembled bytes in channel `c` posts, the state itself posts. -/
theorem PostsWrite.of_setChan {t : State} {ch ch' : Chan} {req : Req} {evs : List Event}
    (h : PostsWrite c ch req evs (s.setChan c ch') t) : PostsWrite c ch req evs s t where
  frame := ⟨otherChansSame_trans (otherChansSame_setChan s c ch') h.frame.1, h.frame.2⟩
  chan := h.chan
  wq := h.wq
  wake := h.wake
  hist := h.hist

end

/-- Settles O26: one equation of the push for each check. -/
theorem pushChecksInOrder : Obligations.PushChecksInOrder := by
  intro s c bytes
  refine ⟨fun hd => exec_pushBytes_tx hd bytes, fun hd ha => ?_, fun x hd ha hw => ?_, fun x hd ha hw hr => ?_⟩ <;>
    rw [exec_pushBytes_rx hd]
  · rw [pushBytes_of_idle ha]; rfl
  · rw [pushBytes_of_beyond_window ha hw]; rfl
  · rw [pushBytes_of_beyond_end ha hw hr]; rfl

/-- Settles O27: below both bounds the push only assembles. -/
theorem pushAssemblesBytes : Obligations.PushAssemblesBytes := by
  intro s c bytes x hd ha hw hr
  have h := updatesChan_setChan s c { s.chan c with asm := (s.chan c).asm ++ bytes }
  rw [exec_pushBytes_rx hd, pushBytes_assemble ha hw hr]
  exact ⟨_, rfl, h.frame, h.hist_eq, h.chan⟩

/-- Settles O28: the push flushes the four assembled bytes, and bytes of the transfer remain. -/
theorem pushOfFullWindowPostsWord : Obligations.PushOfFullWindowPostsWord := by
  intro s c bytes x hd ha hw hr
  rw [exec_pushBytes_rx hd, pushBytes_flush ha hw.le (by omega) (.inl hw)]
  have h := (postsWrite_flush_more (s := s.setChan c { s.chan c with asm := (s.chan c).asm ++ bytes }) (c := c) (x := x)
    (by simp; omega)).of_setChan
  simp only [chan_setChan_self, flushAdvance, flushReq, List.length_append, hw] at h
  exact ⟨_, rfl, h.frame, h.hist_eq, h.chan, h.wq, h.wake⟩

/-- Settles O29: the push flushes the remaining bytes, which exhausts the transfer. -/
theorem pushOfLastBytesFinalizes : Obligations.PushOfLastBytesFinalizes := by
  intro s c bytes x hd ha hr h4 hf
  rw [exec_pushBytes_rx hd, pushBytes_flush ha (by omega) hr.le (.inr hr)]
  have h := (postsWrite_flush_last (s := s.setChan c { s.chan c with asm := (s.chan c).asm ++ bytes }) (c := c) (x := x)
    (by simp; omega) (by simpa using hf)).of_setChan
  simp only [chan_setChan_self, flushReq, List.length_append, hr] at h
  exact ⟨_, rfl, h.frame, h.chan, h.wq, h.wake, h.hist⟩

/-- Settles O30: by whether the assembled bytes exhaust the transfer. -/
theorem flushPostsAssembledBytes : Obligations.FlushPostsAssembledBytes := by
  intro s c x hd ha h1 h4 hf
  rw [exec_flush_rx hd ha h1 h4]
  split_ifs with hlast
  · have h := postsWrite_flush_last hlast hf
    exact ⟨_, rfl, h.frame, h.wq, h.wake, h.chan, h.hist⟩
  · have h := postsWrite_flush_more (not_le.1 hlast)
    exact ⟨_, rfl, h.frame, h.wq, h.wake, h.chan, h.hist_eq⟩

/-! ## Transmit and finalization (41_channel R195 to R197, R205) -/

theorem nextChunk_eq_none {s : State} {c : ChanId} (h : s.cfg.dirOf c ≠ some .tx ∨ (s.chan c).active = none) :
    s.nextChunk c = none := by
  rcases h with h | h <;> simp [State.nextChunk, h]

/-- Settles O32: by whether there is a next chunk. -/
theorem prepareNextChunkAdvancesTransfer : Obligations.PrepareNextChunkAdvancesTransfer := by
  intro s c d hd
  refine ⟨fun hn => exec_prepareNextChunk_of_none hd (nextChunk_eq_none (hn.imp_left ?_)), fun x htx ha => ?_⟩
  · rintro rfl
    simp [hd]
  · subst htx
    have hchunk := nextChunk_eq hd ha
    have h := updatesChan_setChan s c { s.chan c with
      active := some { x with cur := x.cur + 4, remaining := x.remaining - min 4 x.remaining } }
    rw [exec_prepareNextChunk_of_some hd hchunk, advanceChunk_eq ha]
    exact ⟨hchunk, _, rfl, h.frame, h.hist_eq, h.chan⟩

/-- Settles O33: by whether a transfer is active, then by whether the word is its last. -/
theorem deliverChunkQueuesWordAndFinalizes : Obligations.DeliverChunkQueuesWordAndFinalizes := by
  intro s c rdata hd
  rw [exec_deliverChunk_tx hd]
  refine ⟨fun ha => by rw [deliverChunk_none ha]; rfl, fun x ha hf => ?_⟩
  split_ifs with hlast
  · rw [deliverChunk_last ha hlast hf]
    have h := ((updatesChan_setChan s c { s.chan c with
      active := none, rdq := (s.chan c).rdq ++ [rdata], free := (s.chan c).free + 1, busy := .available
      promo := true }).emit (.busy c .available)).emit (.complete c)
    exact ⟨_, rfl, h.frame, h.chan, h.hist⟩
  · rw [deliverChunk_more ha (not_le.1 hlast)]
    have h := updatesChan_setChan s c { s.chan c with
      active := some { x with received := x.received + 4 }, rdq := (s.chan c).rdq ++ [rdata] }
    exact ⟨_, rfl, h.frame, h.chan, h.hist_eq⟩

/-- Settles O34: by the direction, then by the ready-data queue. -/
theorem popTakesFirstWord : Obligations.PopTakesFirstWord := by
  intro s c
  refine ⟨exec_rdqPop_rx, exec_rdqPop_tx_of_nil, fun w rest hd hq => ?_⟩
  have h := (updatesChan_setChan s c { s.chan c with rdq := rest }).emit (.txdata c w)
  exact ⟨_, exec_rdqPop_tx_of_cons hd hq, h.frame, h.chan, h.hist⟩

/-- Settles O35: finalization is one write of the channel and two events. -/
theorem finalizeReturnsRecordAndCompletes : Obligations.FinalizeReturnsRecordAndCompletes := by
  intro s c hd ha hf
  obtain ⟨d, hd⟩ := Option.isSome_iff_exists.1 hd
  rw [exec_finalize_of_active hd ha, finalize_eq hf]
  have h := ((updatesChan_setChan s c { s.chan c with
    free := (s.chan c).free + 1, active := none, busy := .available, promo := true }).emit (.busy c .available)).emit
      (.complete c)
  exact ⟨_, rfl, h.frame, h.chan, h.hist⟩

end Sys2Proof.Machine.Channel
end

section
/-! The peripheral-group family: an access of a peripheral that is off (O12), of an unpopulated slot (O13), the custom region
and its handler (O14, O15), and which operations change a flag (O53). -/
namespace Sys2Proof.Machine.PeripheralGroup
open Sys2Proof.Laws Sys2Proof.Machine.Laws Sys2Proof.Machine.BlockState

/-! ## The rows behind a peripheral's windows, where their guards hold (42_peripheral_group R222, R225, R226) -/

section
variable {s : State} {p : PeriphCfg} {i w : Nat} (ht : s.cfg.table i = some p) (acc : Acc)
include ht

theorem exec_periphOffNoop (hoff : s.isOn p.cid = false) :
    exec (.periphOffNoop i w acc) s =
      .next ((s.offNoop acc).close (s.cfg.layout.windowAddr i w) acc 4) := by
  simp [exec, execPeriphOffNoop, ht, hoff]

theorem decode_of_off (hoff : s.isOn p.cid = false) {off : Word} (hreg : s.cfg.layout.channelRegionStart ≤ off.toNat)
    (hi : s.cfg.layout.periphId off = i) :
    decode s.cfg s.isOn (.bus off acc 4) = .periphOffNoop i (s.cfg.layout.windowOff off) acc := by
  subst hi
  simp [decode, decodeBus, hreg.not_gt, ht, hoff]

variable (hon : s.isOn p.cid = true)
include hon

theorem exec_rxSlotEmpty (hslot : p.slotDir .rx = none) (hw : w < s.cfg.layout.txWindowStart) :
    exec (.rxSlotEmpty i w acc) s =
      .next ((s.slotEmpty (s.cfg.layout.windowAddr i w)).close (s.cfg.layout.windowAddr i w) acc 4) := by
  simp [exec, execRxSlotEmpty, ht, hon, hslot, hw]

theorem exec_txSlotEmpty (hslot : p.slotDir .tx = none) (hlo : s.cfg.layout.txWindowStart ≤ w)
    (hhi : w < s.cfg.layout.customWindowStart) :
    exec (.txSlotEmpty i w acc) s =
      .next ((s.slotEmpty (s.cfg.layout.windowAddr i w)).close (s.cfg.layout.windowAddr i w) acc 4) := by
  simp [exec, execTxSlotEmpty, ht, hon, hslot, hlo, hhi]

theorem exec_customAccess (hwf : s.cfg.wf = true) (hw : s.cfg.layout.customWindowStart ≤ w) :
    exec (.customAccess i w acc) s =
      .next ((s.customAccess p (s.cfg.layout.windowAddr i w) w acc).close (s.cfg.layout.windowAddr i w) acc 4) := by
  obtain ⟨-, -, -, -, htx, -⟩ := (layout_wf_iff _).1 (layout_wf_of_wf hwf)
  simp [exec, execCustomAccess, ht, hon, hw, htx.trans hw]

end

theorem slotEmpty_close_hist (s : State) (off : Word) (acc : Acc) :
    ((s.slotEmpty off).close off acc 4).hist = s.hist ++ [.log (.invalidAccess off), .bus off acc 4 .invalid] := by
  simp [State.slotEmpty]

/-- Settles O12: the row's guard holds, and the decoder finds the peripheral off before it looks at the window. -/
theorem offPeripheralAccessIsNoop : Obligations.OffPeripheralAccessIsNoop := by
  intro s p i w v ht hoff
  exact ⟨⟨_, exec_periphOffNoop ht (.wr v) hoff, rfl, rfl⟩, ⟨_, s.nextDraw, exec_periphOffNoop ht .rd hoff, rfl, rfl⟩,
    fun off acc => decode_of_off ht acc hoff⟩

/-- Settles O13: the guard of each slot's row holds. -/
theorem unpopulatedSlotIsLoggedAndInvalid : Obligations.UnpopulatedSlotIsLoggedAndInvalid := by
  intro s p i w acc ht hon
  exact ⟨fun hslot hw => ⟨_, exec_rxSlotEmpty ht acc hon hslot hw, rfl, slotEmpty_close_hist s _ acc⟩,
    fun hslot hlo hhi => ⟨_, exec_txSlotEmpty ht acc hon hslot hlo hhi, rfl, slotEmpty_close_hist s _ acc⟩⟩

/-! ## A custom access that ends INVALID (42_peripheral_group R225, 60_exceptions R281) -/

theorem handlerAct_of_rows_nil {p : PeriphCfg} (hp : p.handler = .rows []) (s : State) (w : Nat) (acc : Acc) :
    s.handlerAct p w acc = none := by
  simp [State.handlerAct, hp, handlerRowsAct]

theorem afterHandler_eq (s : State) (p : PeriphCfg) :
    s.afterHandler p = { s with draws := if p.handler = .concrete then s.draws + 1 else s.draws } := by
  cases hp : p.handler <;> simp [State.afterHandler, hp, State.takeDraw]

/-- Undoing an access to the state in which the handler was asked undoes it to the state before. -/
theorem afterHandler_undone (s t : State) (p : PeriphCfg) : (s.afterHandler p).undone t = s.undone t := by
  rw [afterHandler_eq]; rfl

theorem undone_afterHandler (s : State) (p : PeriphCfg) : s.undone (s.afterHandler p) = s.afterHandler p := by
  rw [afterHandler_eq]; simp [State.undone]

section
variable {s : State} {p : PeriphCfg} {w : Nat} {acc : Acc} {off : Word}

theorem customAccess_of_rejects (h : s.handlerAct p w acc = none) :
    s.customAccess p off w acc = (s.afterHandler p).invalidAccess := by
  simp [State.customAccess, h]

/-- 60_exceptions R281: answered INVALID, the access is undone, whether the handler accepted it or not. -/
theorem customAccess_undone (h : (s.customAccess p off w acc).resp = some .invalid) :
    ∃ t, (s.customAccess p off w acc).state = s.undone t := by
  cases ha : s.handlerAct p w acc with
  | none => exact ⟨s.afterHandler p, by rw [customAccess_of_rejects ha, undone_afterHandler]; rfl⟩
  | some act =>
    simp only [State.customAccess, ha] at h ⊢
    exact ⟨_, by rw [answered_invalid h, afterHandler_undone]⟩

end

/-- An access that has added no BUS event of its own ends with one exactly when it responded. -/
theorem responded_of_close_hist {s : State} {r : Reply} {off : Word} {acc : Acc} {size : Nat} {evs : List Event} {x : Resp}
    (hr : AddsNoBus s r.state) (h : (r.close off acc size).hist = s.hist ++ evs ++ [.bus off acc size x]) :
    r.resp = some x ∧ r.state.hist = s.hist ++ evs := by
  obtain ⟨state, resp⟩ := r
  cases resp with
  | none =>
    obtain ⟨added, hadded, hno⟩ := hr
    rw [close_none, hadded, List.append_assoc, List.append_cancel_left_eq] at h
    exact absurd (hno (.bus off acc size x) (by simp [h])) (by simp [endsAccess])
  | some y =>
    obtain ⟨hhist, hlast⟩ := List.append_inj' h rfl
    exact ⟨by simpa using hlast, hhist⟩

/-- Settles O14: a BUS event INVALID says that the access responded so, and then it was undone. -/
theorem invalidCustomAccessChangesOnlyHistory : Obligations.InvalidCustomAccessChangesOnlyHistory := by
  refine ⟨fun s p w acc hp => handlerAct_of_rows_nil hp s w acc, fun s p i w acc hwf ht hon hw => ?_⟩
  rw [exec_customAccess ht acc hon hwf hw]
  refine ⟨fun ha => ?_, _, rfl, fun evs hevs => ?_⟩
  · rw [customAccess_of_rejects ha, afterHandler_eq]
    exact ⟨_, rfl, rfl, rfl, rfl⟩
  · obtain ⟨hresp, hhist⟩ := responded_of_close_hist (addsNoBus_periphRun (periphRun_customAccess ht _ w acc)) hevs
    obtain ⟨t, hundone⟩ := customAccess_undone hresp
    rw [close_answered, hresp, hundone]
    rw [hundone] at hhist
    have hlogs : evs = (t.hist.drop s.hist.length).filter Event.isLog := (List.append_cancel_left hhist).symm
    exact ⟨rfl, fun e he => (List.mem_filter.1 (hlogs ▸ he)).2⟩

/-! ## What an access behind a peripheral's windows can touch (10_state R67) -/

/-- The channels of other peripherals, every flag and the controller are equal. -/
structure PeriphFrame (pid : Fin 32) (s t : State) : Prop where
  chans : ∀ c, c.pid ≠ pid → t.chan c = s.chan c
  isOn  : ∀ q, t.isOn q = s.isOn q
  rest  : t = { s with periphs := t.periphs, hist := t.hist, draws := t.draws, refused := t.refused }

section
variable {pid : Fin 32} {s t u : State}

theorem PeriphFrame.trans (h : PeriphFrame pid s t) (g : PeriphFrame pid t u) : PeriphFrame pid s u :=
  ⟨fun c hc => (g.chans c hc).trans (h.chans c hc), fun q => (g.isOn q).trans (h.isOn q),
    g.rest.trans (by rw [h.rest])⟩

theorem periphFrame_of_periphs_eq (hp : t.periphs = s.periphs)
    (hr : t = { s with periphs := t.periphs, hist := t.hist, draws := t.draws, refused := t.refused }) :
    PeriphFrame pid s t :=
  ⟨fun c _ => chan_of_periphs_eq hp c, isOn_of_periphs_eq hp, hr⟩

theorem periphFrame_of_otherChansSame {c : ChanId} (hc : c.pid = pid) (h : OtherChansSame c s t)
    (hr : t = { s with periphs := t.periphs, hist := t.hist, draws := t.draws, refused := t.refused }) :
    PeriphFrame pid s t :=
  ⟨fun c' hne => h.1 c' fun e => hne (e ▸ hc), h.2, hr⟩

theorem periphFrame_stagedRd (s : State) (r : Option Word) : PeriphFrame pid s (s.stagedRd r).state := by
  cases r <;> exact periphFrame_of_periphs_eq rfl rfl

theorem periphFrame_setChan {c : ChanId} (hc : c.pid = pid) (s : State) (ch : Chan) : PeriphFrame pid s (s.setChan c ch) :=
  periphFrame_of_otherChansSame hc (otherChansSame_setChan s c ch) rfl

theorem periphFrame_log (s : State) (k : LogKind) : PeriphFrame pid s (s.log k) := periphFrame_of_periphs_eq rfl rfl

theorem periphFrame_enqueueRecord {c : ChanId} (hc : c.pid = pid) (s : State) (addr size : Option Word) (width : BitVec 2)
    (cont : Bool) : PeriphFrame pid s (s.enqueueRecord c addr size width cont).state := by
  refine periphFrame_of_otherChansSame hc (otherChansSame_enqueueRecord s c addr size width cont) ?_
  unfold State.enqueueRecord
  split
  · rfl
  · split
    · rfl
    · unfold State.pushPending State.logIfFull
      split <;> rfl

theorem periphFrame_periphAct {r : Reply} (h : PeriphAct pid s r) : PeriphFrame pid s r.state := by
  cases h with
  | invalid | configRd => exact periphFrame_of_periphs_eq rfl rfl
  | offNoop acc => cases acc <;> exact periphFrame_of_periphs_eq rfl rfl
  | slotEmpty off => exact periphFrame_log s _
  | addrWr c v _ hc | sizeWr c v _ hc => exact periphFrame_setChan hc s _
  | addrRd | sizeRd => exact periphFrame_stagedRd s _
  | configWr c v _ hc =>
    unfold State.configWr
    split_ifs
    · exact periphFrame_of_periphs_eq rfl rfl
    · exact periphFrame_log s _
    · rw [flow_reply_state]
      exact (periphFrame_setChan hc s _).trans (periphFrame_enqueueRecord hc _ _ _ _ _)
    · exact periphFrame_setChan hc s _
  | transfer c base size width cont _ hc =>
    unfold State.handlerTransfer
    split_ifs
    · exact periphFrame_log s _
    · rw [flow_reply_state]
      exact periphFrame_enqueueRecord hc s _ _ _ _

theorem periphFrame_undone (s t : State) : PeriphFrame pid s (s.undone t) := periphFrame_of_periphs_eq rfl rfl

theorem periphFrame_periphRun {r : Reply} (h : PeriphRun pid s r) : PeriphFrame pid s r.state :=
  h.lift (PeriphFrame pid) PeriphFrame.trans (fun _ => periphFrame_undone _ _) periphFrame_periphAct

theorem periphFrame_close (r : Reply) (off : Word) (acc : Acc) (size : Nat) :
    PeriphFrame pid r.state (r.close off acc size) := by
  unfold Reply.close
  split <;> exact periphFrame_of_periphs_eq rfl rfl

end

/-! ## What an accepting handler answers (42_peripheral_group R225, log entry 12) -/

/-- The reply of a handler asked in state `u`, whose reaction is `act`. -/
def handlerReply (u : State) (p : PeriphCfg) (off : Word) (acc : Acc) (act : HandlerAct) : Reply :=
  (handlerOps p off acc act.ops u.invalidAccess).answered u acc act.resp

theorem customAccess_of_accepts {s : State} {p : PeriphCfg} {w : Nat} {acc : Acc} {act : HandlerAct}
    (h : s.handlerAct p w acc = some act) (off : Word) :
    s.customAccess p off w acc = handlerReply (s.afterHandler p) p off acc act := by
  simp [State.customAccess, h, handlerReply]

section
variable (u : State) (p : PeriphCfg) (off : Word) (acc : Acc) {act : HandlerAct}

/-! Without operations the handler answers itself. -/

theorem handlerReply_of_no_ops (hops : act.ops = []) :
    handlerReply u p off acc act = u.invalidAccess.answered u acc act.resp := by
  rw [handlerReply, hops, handlerOps]

theorem handlerReply_invalid (hops : act.ops = []) (hresp : act.resp = .invalid ∨ act.resp = .last) :
    handlerReply u p off acc act = u.invalidAccess := by
  rw [handlerReply_of_no_ops u p off acc hops]
  rcases hresp with hresp | hresp <;> simp [hresp, Reply.answered, State.invalidAccess]

theorem handlerReply_write (v : Word) (hops : act.ops = []) (hresp : act.resp = .device ∨ ∃ x, act.resp = .okData x) :
    handlerReply u p off (.wr v) act = Reply.mk u (some .ok) := by
  rw [handlerReply_of_no_ops u p off _ hops]
  rcases hresp with hresp | ⟨x, hresp⟩ <;> rw [hresp] <;> rfl

theorem handlerReply_read_okData {x : Word} (hops : act.ops = []) (hresp : act.resp = .okData x) :
    handlerReply u p off .rd act = Reply.mk u (some (.okData x)) := by
  rw [handlerReply_of_no_ops u p off _ hops, hresp]
  rfl

theorem handlerReply_read_device (hops : act.ops = []) (hresp : act.resp = .device) :
    handlerReply u p off .rd act = Reply.mk u.takeDraw (some (.okData u.nextDraw)) := by
  rw [handlerReply_of_no_ops u p off _ hops, hresp]
  rfl

/-! With operations and the answer of the last one. -/

theorem handlerReply_singleton (op : HandlerOp) :
    handlerReply u p off acc { ops := [op], resp := .last } = (u.handlerOp p off acc op).answered u acc .last := rfl

theorem onSlot_of_unpopulated {sl : Slot} (h : p.slotDir sl = none) (f : ChanId → Reply) :
    u.onSlot p sl off f = u.slotEmpty off := by
  simp [State.onSlot, h]

theorem onSlot_of_populated {sl : Slot} (h : (p.slotDir sl).isSome = true) (f : ChanId → Reply) :
    u.onSlot p sl off f = f { pid := p.cid, slot := sl } := by
  simp [State.onSlot, h]

/-- 42_peripheral_group R226: the log of an unpopulated slot survives the INVALID. -/
theorem answered_slotEmpty : (u.slotEmpty off).answered u acc .last = u.slotEmpty off := by
  have hlog : u.undone (u.log (.invalidAccess off)) = u.log (.invalidAccess off) := by
    simp [State.undone, State.log, State.emit, Event.isLog]
  simp [State.slotEmpty, Reply.answered, hlog, State.invalidAccess]

/-- A write that was refused, or answered OK, is answered so by the handler. -/
theorem answered_last_wr {r : Reply} (v : Word) (h : r.resp = none ∨ r.resp = some .ok) : r.answered u (.wr v) .last = r := by
  obtain ⟨state, resp⟩ := r
  rcases h with rfl | rfl <;> rfl

theorem flow_reply_resp (f : Flow) : f.reply.resp = none ∨ f.reply.resp = some .ok := by
  cases f
  · exact .inr rfl
  · exact .inl rfl

/-- A register access that the handler passes on or makes of its own accord (log entry 12). -/
theorem handlerReply_access {sl : Slot} {r : Nat} {a : Acc}
    (h : (act = { ops := [.pass sl r], resp := .last } ∧ a = acc)
      ∨ (act = { ops := [.reg sl r a], resp := .last } ∧ (a = .rd ↔ acc = .rd))) :
    handlerReply u p off acc act = (u.onSlot p sl off fun c => u.channelAccess c r a).answered u acc .last
      ∧ (a = .rd ↔ acc = .rd) := by
  rcases h with ⟨rfl, rfl⟩ | ⟨rfl, ha⟩
  · exact ⟨rfl, Iff.rfl⟩
  · exact ⟨rfl, ha⟩

section
variable {p} {sl : Slot} (hs : (p.slotDir sl).isSome = true)
include hs

/-- Two operations in their order: ADDR and SIZE of one channel (41_channel R171, R173). -/
theorem handlerReply_addr_size (hne : u.cfg.layout.offAddr ≠ u.cfg.layout.offSize) (v a z : Word) :
    handlerReply u p off (.wr v)
        { ops := [.reg sl u.cfg.layout.offAddr (.wr a), .reg sl u.cfg.layout.offSize (.wr z)], resp := .last } =
      Reply.mk (u.setChan { pid := p.cid, slot := sl }
        { u.chan { pid := p.cid, slot := sl } with addr := some a, size := some z }) (some .ok) := by
  simp [handlerReply, handlerOps, State.invalidAccess, State.handlerOp, onSlot_of_populated _ _ _ hs, State.channelAccess,
    State.addrWr, State.sizeWr, hne.symm, Reply.answered, State.offNoop]

theorem handlerReply_transfer (v base size : Word) (width : BitVec 2) (cont : Bool) :
    handlerReply u p off (.wr v) { ops := [.transfer sl base size width cont], resp := .last } =
      u.handlerTransfer { pid := p.cid, slot := sl } base size width cont := by
  rw [handlerReply_singleton, State.handlerOp, onSlot_of_populated _ _ _ hs]
  refine answered_last_wr u v ?_
  unfold State.handlerTransfer
  split
  · exact .inr rfl
  · exact flow_reply_resp _

end

end

section
variable {s : State} {c : ChanId}

theorem handlerTransfer_of_noSlot (hfree : (s.chan c).free = 0) (base size : Word) (width : BitVec 2) (cont : Bool) :
    s.handlerTransfer c base size width cont = Reply.mk (s.log (.enqueueNoSlot c)) (some .ok) := by
  simp [State.handlerTransfer, hfree]

/-- 41_channel R176: with a free record the transfer is queued or refused as an enable's. -/
theorem handlerTransfer_leaves (hfree : 0 < (s.chan c).free) (hpend : (s.chan c).pending.length < 2) (base size : Word)
    (width : BitVec 2) (cont : Bool) :
    EnqueueLeaves s c (s.chan c) (some base) (some size) width cont (s.handlerTransfer c base size width cont).state
      (s.handlerTransfer c base size width cont).resp := by
  have h := enqueueRecord_leaves s c (s.chan c) (some base) (some size) width cont hfree hpend
  rw [setChan_self] at h
  rwa [State.handlerTransfer, if_neg hfree.ne']

end

/-- The row of an access that the handler accepts (42_peripheral_group R225). -/
theorem exec_customAccess_of_accepts {s : State} {p : PeriphCfg} {i w : Nat} {acc : Acc} {act : HandlerAct}
    (hwf : s.cfg.wf = true) (ht : s.cfg.table i = some p) (hon : s.isOn p.cid = true)
    (hw : s.cfg.layout.customWindowStart ≤ w) (ha : s.handlerAct p w acc = some act) {r : Reply}
    (hr : handlerReply (s.afterHandler p) p (s.cfg.layout.windowAddr i w) acc act = r) :
    exec (.customAccess i w acc) s = .next (r.state.answered (s.cfg.layout.windowAddr i w) acc r.resp) := by
  rw [exec_customAccess ht acc hon hwf hw, customAccess_of_accepts ha, hr, close_answered]

/-- Settles O15: the row closes the handler's reply, and one equation of that reply stands for each clause. -/
theorem acceptingCustomHandlerReachesItsChannels : Obligations.AcceptingCustomHandlerReachesItsChannels := by
  intro s u p i w acc act off hwf ht hon hw ha hu hoff
  obtain ⟨-, -, -, -, -, -, hne, -⟩ := (layout_wf_iff _).1 (layout_wf_of_wf hwf)
  obtain ⟨-, -, -, -, hbits, -⟩ := (cfg_wf_iff _).1 hwf
  have hcfg : u.cfg = s.cfg := by rw [hu]
  have hrun : ∀ r, handlerReply u p off acc act = r →
      exec (.customAccess i w acc) s = .next (r.state.answered off acc r.resp) := by
    rw [hu, hoff, ← afterHandler_eq]
    exact fun r => exec_customAccess_of_accepts hwf ht hon hw ha
  refine ⟨?_, fun hops hresp => hrun _ (handlerReply_invalid u p off acc hops hresp), fun v hv hops hresp => ?_,
    fun x hrd hops hresp => ?_, fun hrd hops hresp => ?_, fun sl r a hact => ⟨fun hs => ?_, fun hs hroom => ?_⟩,
    fun v sl a z hv hs hact => ?_, fun v sl base size width cont hv hs hact => ⟨fun hfree => ?_, fun hfree hpend => ?_⟩⟩
  · obtain ⟨hchans, hflags, hrest⟩ :=
      (periphFrame_periphRun (periphRun_customAccess ht _ w acc)).trans (periphFrame_close _ _ acc 4)
    exact ⟨_, exec_customAccess ht acc hon hwf hw, hchans, hflags, hrest⟩
  · subst hv
    exact hrun _ (handlerReply_write u p off v hops hresp)
  · subst hrd
    exact hrun _ (handlerReply_read_okData u p off hops hresp)
  · subst hrd
    exact ⟨_, hrun _ (handlerReply_read_device u p off hops hresp)⟩
  · obtain ⟨hreply, -⟩ := handlerReply_access u p off acc hact
    rw [onSlot_of_unpopulated u p off hs, answered_slotEmpty] at hreply
    exact hrun _ hreply
  · obtain ⟨hreply, hdir⟩ := handlerReply_access u p off acc hact
    have hleaves := channelAccess_leaves (hcfg ▸ hbits) { pid := p.cid, slot := sl } r a hroom
    rw [onSlot_of_populated u p off hs, answered_last hleaves hdir] at hreply
    exact ⟨_, _, hrun _ hreply, hleaves⟩
  · subst hv hact
    rw [← hcfg] at hne hrun
    exact ⟨_, hrun _ (handlerReply_addr_size u off hs hne v a z), rfl, onlyChan_setChan u _ _, chan_setChan_self u _ _⟩
  · subst hv hact
    have hreply := handlerReply_transfer u off hs v base size width cont
    rw [handlerTransfer_of_noSlot hfree] at hreply
    exact hrun _ hreply
  · subst hv hact
    exact ⟨_, _, hrun _ (handlerReply_transfer u off hs v base size width cont),
      handlerTransfer_leaves hfree hpend base size width cont⟩

/-! ## Which operations change a flag (42_peripheral_group R227) -/

theorem exec_periphSetOn {s : State} {p : Fin 32} (h : (s.cfg.periph p).isSome = true) (b : Bool) :
    exec (.periphSetOn p b) s = .next (s.setOn p b) := by
  obtain ⟨q, hq⟩ := Option.isSome_iff_exists.1 h
  simp [exec, execPeriphSetOn, hq]

theorem flagsSame_row {s : State} {r : Reply} (h : FlagsSame s r.state) (off : Word) (acc : Acc) (size : Nat) :
    FlagsSame s (r.close off acc size) := h.trans (flagsSame_close r off acc size)

theorem flagsSame_periphRun {pid : Fin 32} {s : State} {r : Reply} (h : PeriphRun pid s r) : FlagsSame s r.state :=
  h.lift FlagsSame FlagsSame.trans (fun _ => ⟨rfl, fun _ => rfl⟩) flagsSame_periphAct

/-- 43_controller R236: of the configuration region's accesses the clock-gate write alone changes a flag. -/
theorem flagsSame_configAccess {s : State} {off : Word} {acc : Acc} (h : off.toNat = s.cfg.layout.offCg → acc = .rd) :
    FlagsSame s (s.configAccess off acc).state := by
  unfold State.configAccess
  split_ifs with hcg
  · rw [h hcg]; exact .refl s
  · exact ⟨rfl, fun _ => rfl⟩
  · exact .refl s

theorem flagsSame_channelRegionAccess (s : State) (off : Word) (acc : Acc) :
    FlagsSame s (s.channelRegionAccess off acc).state := by
  unfold State.channelRegionAccess
  cases ht : s.cfg.table (s.cfg.layout.periphId off) with
  | none => exact .refl s
  | some p => exact flagsSame_periphRun (periphRun_periphAccess ht off _ acc)

/-- 43_controller R235: an access that the decoder does not find to be a clock-gate write leaves every flag. -/
theorem flagsSame_busEntry {s : State} {on : Fin 32 → Bool} {off : Word} {acc : Acc} {size : Nat}
    (h : ∀ v, decodeBus s.cfg on off acc size ≠ .cgWr v) : FlagsSame s (s.busEntry off acc size) := by
  refine flagsSame_row ?_ off acc size
  split_ifs with hsize hreg
  · exact .refl s
  · refine flagsSame_configAccess fun hcg => ?_
    cases acc with
    | rd => rfl
    | wr v => exact absurd (by simp [decodeBus, not_not.1 hsize, hcg ▸ hreg, hcg]) (h v)
  · exact flagsSame_channelRegionAccess s off acc

section
variable {s : State} {off : Word} {acc : Acc}

theorem flagsSame_guardedRow {size : Nat} (hE : FlagsSame s (s.busEntry off acc size)) (P : Prop) [Decidable P] {r : Reply}
    (h : FlagsSame s r.state) : FlagsSame s (if P then r.close off acc size else s.busEntry off acc size) := by
  split_ifs
  · exact flagsSame_row h off acc size
  · exact hE

theorem flagsSame_regAccess (hE : FlagsSame s (s.busEntry off acc 4)) {i : Nat} {sl : Slot} {act : ChanId → Reply}
    (h : ∀ c ∈ s.cfg.channels, FlagsSame s (act c).state) : FlagsSame s (s.regAccess i sl off acc act) := by
  unfold State.regAccess
  cases hr : s.reach i sl with
  | none => exact hE
  | some c =>
    obtain ⟨p, ht, -, hs, rfl⟩ := (reach_eq_some_iff s i sl c).1 hr
    exact flagsSame_row (h _ (mem_channels_of_table ht hs)) off acc 4

end

/-- A BUS row other than the clock-gate write leaves every flag, if the register-access entry does so with its access. -/
theorem flagsSame_busRow {s : State} {i : Instr} {off : Word} {acc : Acc} {size : Nat}
    (hc : encode s.cfg i = some (.bus off acc size)) (hcg : ∀ v, i ≠ .cgWr v) (hE : FlagsSame s (s.busEntry off acc size)) :
    ∃ t, exec i s = .next t ∧ FlagsSame s t := by
  cases i with
  | cgWr v => exact absurd rfl (hcg v)
  | cgRd | evtinWr | evtinRd =>
    refine ⟨_, rfl, flagsSame_row ?_ _ _ _⟩
    exact ⟨rfl, fun _ => rfl⟩
  | badSize | cfgBadOffset | noPeriph => cases hc; exact ⟨_, rfl, flagsSame_guardedRow hE _ (.refl s)⟩
  | periphOffNoop i w acc =>
    cases hc
    refine ⟨_, rfl, ?_⟩
    split
    · exact hE
    · exact flagsSame_guardedRow hE _ (flagsSame_periphAct (pid := 0) (.offNoop acc))
  | rxSlotEmpty i w acc | txSlotEmpty i w acc =>
    cases hc
    refine ⟨_, rfl, ?_⟩
    split
    · exact hE
    · exact flagsSame_guardedRow hE _ (flagsSame_emit s _)
  | customAccess i w acc =>
    cases hc
    refine ⟨_, rfl, ?_⟩
    split
    · exact hE
    · exact flagsSame_guardedRow hE _ (flagsSame_periphRun (periphRun_customAccess ‹_› _ w acc))
  | rxAddrWr i v | txAddrWr i v =>
    cases hc; exact ⟨_, rfl, flagsSame_regAccess hE fun c h => flagsSame_periphAct (.addrWr c v h rfl)⟩
  | rxAddrRd i | txAddrRd i =>
    cases hc; exact ⟨_, rfl, flagsSame_regAccess hE fun c h => flagsSame_periphAct (.addrRd c h rfl)⟩
  | rxSizeWr i v | txSizeWr i v =>
    cases hc; exact ⟨_, rfl, flagsSame_regAccess hE fun c h => flagsSame_periphAct (.sizeWr c v h rfl)⟩
  | rxSizeRd i | txSizeRd i =>
    cases hc; exact ⟨_, rfl, flagsSame_regAccess hE fun c h => flagsSame_periphAct (.sizeRd c h rfl)⟩
  | rxConfigWr i v | txConfigWr i v =>
    cases hc; exact ⟨_, rfl, flagsSame_regAccess hE fun c h => flagsSame_periphAct (.configWr c v h rfl)⟩
  | rxConfigRd i | txConfigRd i =>
    cases hc; exact ⟨_, rfl, flagsSame_regAccess hE fun c h => flagsSame_periphAct (.configRd c h rfl)⟩
  | rxBadOffset i w acc | txBadOffset i w acc =>
    cases hc
    refine ⟨_, rfl, ?_⟩
    split
    · exact flagsSame_regAccess hE fun _ _ => .refl s
    · exact hE
  | _ => cases hc

/-- Of the operations that are no register access, set_on and a reset pulse change flags. -/
theorem isOn_of_not_isBus {i : Instr} {s t : State} (hb : ¬ IsBus i) (h : exec i s = .next t)
    (hset : ∀ p b, i ≠ .periphSetOn p b) (hreset : i ≠ .reset true) (q : Fin 32) : t.isOn q = s.isOn q := by
  cases exec_cases h with
  | bus _ _ hbus => exact absurd hbus hb
  | pushTx c bytes | push c bytes => exact (otherChansSame_exec (c := c) (.inl ⟨bytes, rfl⟩) h).2 q
  | loop =>
    obtain ⟨u, hu, e⟩ := ctrlLoop_frame s
    rw [e]
    exact hu.isOn q
  | setOn p b => exact absurd rfl (hset p b)
  | reset | resetRefused => exact absurd rfl hreset
  | tick | deassert | post => rfl
  | popRx c | pop c | promote c | prepareRefused c | prepare c | deliver c | finalize c | ready c | enqueue c | flush c =>
    exact (otherChansSame_exec (c := c) (by simp [NamesChannel]) h).2 q

/-- 30_encoding R120: a register access carries its row. -/
theorem encode_of_isBus {i : Instr} (hb : IsBus i) (cfg : Cfg) :
    ∃ off acc size, encode cfg i = some (.bus off acc size) := by
  cases i with
  | pushBytes | rdqPop | promote | ctrlLoop | tick | reset | prepareNextChunk | deliverChunk | finalize | channelReady
    | postWrite | enqueueTransfer | flush | periphSetOn => cases hb
  | _ => exact ⟨_, _, _, rfl⟩

/-- Settles O53: a BUS row is decoded from its own call (O1), so its access is no clock-gate write unless it is that row. -/
theorem flagsAreWrittenByClockGateAndResetOnly : Obligations.FlagsAreWrittenByClockGateAndResetOnly := by
  refine ⟨fun s p b h => ⟨_, exec_periphSetOn h b, isOn_setOn_self s p b, fun q hq => isOn_setOn_ne s b hq,
    chan_setOn s p b, rfl⟩, fun i s t hwf hi hf hexec hflag => ?_⟩
  by_contra hno
  push Not at hno
  obtain ⟨hcg, hset, hreset⟩ := hno
  obtain ⟨q, hq⟩ := hflag
  by_cases hb : IsBus i
  · obtain ⟨off, acc, size, hc⟩ := encode_of_isBus hb s.cfg
    have hdec := Encoding.decodeOfEncodeIsIdentity s.cfg s.isOn i _ hwf hi hf hc
    have hE : FlagsSame s (s.busEntry off acc size) := flagsSame_busEntry fun v hv => hcg v (hdec.symm.trans hv)
    obtain ⟨u, hu, hsame⟩ := flagsSame_busRow hc hcg hE
    cases hexec.symm.trans hu
    exact hq (hsame.isOn q)
  · exact hq (isOn_of_not_isBus hb hexec hset hreset q)

end Sys2Proof.Machine.PeripheralGroup
end

section
/-! The controller family: every step keeps the schedule (O57), the register-access entry and the configuration region (O4,
O7 to O11), wake-ups and the clock (O36 to O38), and the controller's run (O39, O41 to O44). -/
namespace Sys2Proof.Machine.Controller
open Sys2Proof.Laws Sys2Proof.Machine.Laws

/-! ## The schedule (43_controller R250, R260, R263) -/

/-- Settles O57: the fetch leaves the queues and the wake-up, and each agent's step keeps the schedule. -/
theorem stepKeepsSchedule : Obligations.StepKeepsSchedule := by
  intro s t h hst
  have hfetched : ScheduleInv s.afterFetch := ScheduleInv_of_same h (BlockState.queuesSame_afterFetch s)
  exact BlockState.scheduleInv_agent hfetched (step_agentCases hst).2

/-! ## The rows that answer INVALID without a peripheral (43_controller R235, R240, R242) -/

theorem exec_badSize {size : Nat} (h : size ≠ 4) (off : Word) (acc : Acc) (s : State) :
    exec (.badSize off acc size) s = .next (s.invalidAccess.close off acc size) := by
  rw [exec, execBadSize, if_pos h]

theorem exec_cfgBadOffset {s : State} {off : Word} (hreg : off.toNat < s.cfg.layout.channelRegionStart)
    (hcg : off.toNat ≠ s.cfg.layout.offCg) (hevtin : off.toNat ≠ s.cfg.layout.offEvtin) (acc : Acc) :
    exec (.cfgBadOffset off acc) s = .next (s.invalidAccess.close off acc 4) := by
  rw [exec, execCfgBadOffset, if_pos ⟨hreg, hcg, hevtin⟩]

theorem exec_noPeriph {s : State} {off : Word} (hreg : s.cfg.layout.channelRegionStart ≤ off.toNat)
    (ht : s.cfg.table (s.cfg.layout.periphId off) = none) (acc : Acc) :
    exec (.noPeriph off acc) s = .next (s.invalidAccess.close off acc 4) := by
  rw [exec, execNoPeriph, if_pos ⟨hreg, by rw [ht]; rfl⟩]

/-! ## The nested decode of an access (43_controller R235, R241, 42_peripheral_group R221) -/

section
variable {s : State} {p : PeriphCfg} {off : Word} {acc : Acc}

theorem busEntry_of_size {size : Nat} (h : size ≠ 4) : s.busEntry off acc size = s.invalidAccess.close off acc size := by
  simp [State.busEntry, h]

theorem busEntry_of_config (h : off.toNat < s.cfg.layout.channelRegionStart) :
    s.busEntry off acc 4 = (s.configAccess off acc).close off acc 4 := by
  simp [State.busEntry, h]

theorem busEntry_of_no_periph (hreg : ¬ off.toNat < s.cfg.layout.channelRegionStart)
    (ht : s.cfg.table (s.cfg.layout.periphId off) = none) : s.busEntry off acc 4 = s.invalidAccess.close off acc 4 := by
  simp [State.busEntry, hreg, State.channelRegionAccess, ht]

theorem channelAccess_of_no_register (c : ChanId) {r : Nat} (haddr : r ≠ s.cfg.layout.offAddr)
    (hsize : r ≠ s.cfg.layout.offSize) (hconfig : r ≠ s.cfg.layout.offConfig) :
    s.channelAccess c r acc = s.invalidAccess := by
  simp [State.channelAccess, State.invalidAccess, haddr, hsize, hconfig]

theorem periphAccess_of_off {w : Nat} (hoff : s.isOn p.cid = false) : s.periphAccess p off w acc = s.offNoop acc := by
  simp [State.periphAccess, hoff]

variable {w : Nat} (hon : s.isOn p.cid = true)
include hon

theorem periphAccess_of_rx (hw : w < s.cfg.layout.txWindowStart) :
    s.periphAccess p off w acc = s.onSlot p .rx off (fun c => s.channelAccess c w acc) := by
  simp [State.periphAccess, hon, hw]

theorem periphAccess_of_tx (hlo : ¬ w < s.cfg.layout.txWindowStart) (hhi : w < s.cfg.layout.customWindowStart) :
    s.periphAccess p off w acc =
      s.onSlot p .tx off (fun c => s.channelAccess c (w - s.cfg.layout.txWindowStart) acc) := by
  simp [State.periphAccess, hon, hlo, hhi]

theorem periphAccess_of_custom (hlo : ¬ w < s.cfg.layout.txWindowStart) (hhi : ¬ w < s.cfg.layout.customWindowStart) :
    s.periphAccess p off w acc = s.customAccess p off w acc := by
  simp [State.periphAccess, hon, hlo, hhi]

end

section
variable {s : State} {p : PeriphCfg} {off : Word} {acc : Acc} (hreg : ¬ off.toNat < s.cfg.layout.channelRegionStart)
include hreg

/-- A register row does the entry's access, if its offset is the access's and it does what the entry does on the channel in
its slot. -/
theorem next_regAccess {sl : Slot} {o : Word} {r : Nat} {act : ChanId → Reply} (ho : o = off)
    (hslot : ∀ q : PeriphCfg, s.isOn q.cid = true →
      s.periphAccess q off (s.cfg.layout.windowOff off) acc = s.onSlot q sl off (fun c => s.channelAccess c r acc))
    (hact : ∀ c, s.channelAccess c r acc = act c) :
    (Host.Outcome.next (s.regAccess (s.cfg.layout.periphId off) sl o acc act) : Host.Outcome State Fault Refusal)
      = .next (s.busEntry off acc 4) := by
  subst ho
  refine congrArg _ (regAccess_eq_busEntry fun q ht hon hpop => ?_)
  rw [busEntry_window hreg ht, hslot q hon, State.onSlot, if_pos hpop, hact]

/-- The row of an unpopulated slot does the entry's access, if the entry's access goes to that slot. -/
theorem slotEmpty_close_eq_busEntry (ht : s.cfg.table (s.cfg.layout.periphId off) = some p) {sl : Slot}
    {act : ChanId → Reply} (hslot : s.periphAccess p off (s.cfg.layout.windowOff off) acc = s.onSlot p sl off act)
    (hempty : (p.slotDir sl).isNone = true) : (s.slotEmpty off).close off acc 4 = s.busEntry off acc 4 := by
  rw [busEntry_window hreg ht, hslot, State.onSlot, if_neg (by simpa using hempty)]

/-- The rows of the rx window (30_encoding R126). -/
theorem exec_decodeRxWindow (ht : s.cfg.table (s.cfg.layout.periphId off) = some p)
    (hw : s.cfg.layout.windowOff off < s.cfg.layout.txWindowStart) :
    exec (decodeRxWindow s.cfg.layout p (s.cfg.layout.periphId off) (s.cfg.layout.windowOff off) acc) s
      = .next (s.busEntry off acc 4) := by
  have hoff := windowAddr_split s.cfg.layout off (not_lt.1 hreg)
  have hslot := fun q hon => periphAccess_of_rx (p := q) (off := off) (acc := acc) hon hw
  unfold decodeRxWindow
  split_ifs with hempty haddr hsize hconfig
  · simp only [exec, execRxSlotEmpty, ht, hoff]
    split_ifs with hguard
    · obtain ⟨hon, -, -⟩ := hguard
      rw [slotEmpty_close_eq_busEntry hreg ht (hslot p hon) hempty]
    · rfl
  · cases acc <;> exact next_regAccess hreg (haddr ▸ hoff) hslot fun c => by simp [State.channelAccess, haddr]
  · cases acc <;> exact next_regAccess hreg (hsize ▸ hoff) hslot fun c => by simp [State.channelAccess, haddr, ← hsize]
  · cases acc <;> exact next_regAccess hreg (hconfig ▸ hoff) hslot fun c => by
      simp [State.channelAccess, haddr, hsize, ← hconfig]
  · rw [exec, execRxBadOffset, if_pos ⟨hw, haddr, hsize, hconfig⟩]
    exact next_regAccess hreg hoff hslot fun c => channelAccess_of_no_register c haddr hsize hconfig

/-- The rows of the tx window (30_encoding R126). -/
theorem exec_decodeTxWindow (ht : s.cfg.table (s.cfg.layout.periphId off) = some p)
    (hlo : ¬ s.cfg.layout.windowOff off < s.cfg.layout.txWindowStart)
    (hhi : s.cfg.layout.windowOff off < s.cfg.layout.customWindowStart) :
    exec (decodeTxWindow s.cfg.layout p (s.cfg.layout.periphId off) (s.cfg.layout.windowOff off) acc) s
      = .next (s.busEntry off acc 4) := by
  have hoff := windowAddr_split s.cfg.layout off (not_lt.1 hreg)
  have hslot := fun q hon => periphAccess_of_tx (p := q) (off := off) (acc := acc) hon hlo hhi
  obtain ⟨r, hr⟩ := Nat.exists_eq_add_of_le (not_lt.1 hlo)
  have hsub : s.cfg.layout.windowOff off - s.cfg.layout.txWindowStart = r := by omega
  have ho : s.txOff (s.cfg.layout.periphId off) r = off := by rw [State.txOff, ← hr]; exact hoff
  rw [hsub] at hslot
  unfold decodeTxWindow
  rw [hsub]
  split_ifs with hempty haddr hsize hconfig
  · simp only [exec, execTxSlotEmpty, ht, hoff]
    split_ifs with hguard
    · obtain ⟨hon, -⟩ := hguard
      rw [slotEmpty_close_eq_busEntry hreg ht (hslot p hon) hempty]
    · rfl
  · subst haddr
    cases acc <;> exact next_regAccess hreg ho hslot fun c => by simp [State.channelAccess]
  · subst hsize
    cases acc <;> exact next_regAccess hreg ho hslot fun c => by simp [State.channelAccess, haddr]
  · subst hconfig
    cases acc <;> exact next_regAccess hreg ho hslot fun c => by simp [State.channelAccess, haddr, hsize]
  · rw [exec, execTxBadOffset, if_pos ⟨not_lt.1 hlo, hhi, by omega, by omega, by omega⟩]
    exact next_regAccess hreg hoff hslot fun c => channelAccess_of_no_register c haddr hsize hconfig

/-- 42_peripheral_group R221: the decoder's row behind the window of a peripheral that exists. -/
theorem exec_decodeBus_window (ht : s.cfg.table (s.cfg.layout.periphId off) = some p) (on : Fin 32 → Bool) :
    exec (decodeBus s.cfg on off acc 4) s = .next (s.busEntry off acc 4) := by
  have hoff := windowAddr_split s.cfg.layout off (not_lt.1 hreg)
  simp only [decodeBus, ne_eq, not_true_eq_false, if_false, if_neg hreg, ht]
  split_ifs with hflag hrx htx
  · simp only [exec, execPeriphOffNoop, ht, hoff]
    split_ifs with hison
    · rw [busEntry_window hreg ht, periphAccess_of_off hison]
    · rfl
  · exact exec_decodeRxWindow hreg ht hrx
  · exact exec_decodeTxWindow hreg ht hrx htx
  · simp only [exec, execCustomAccess, ht, hoff]
    split_ifs with hguard
    · obtain ⟨hon, -, -⟩ := hguard
      rw [busEntry_window hreg ht, periphAccess_of_custom hon hrx htx]
    · rfl

end

/-- 43_controller R236: the decoder's row in the configuration region. -/
theorem exec_decodeBus_config {s : State} {off : Word} (h : off.toNat < s.cfg.layout.channelRegionStart)
    (on : Fin 32 → Bool) (acc : Acc) : exec (decodeBus s.cfg on off acc 4) s = .next (s.busEntry off acc 4) := by
  rw [busEntry_of_config h]
  unfold State.configAccess
  simp only [decodeBus, ne_eq, not_true_eq_false, if_false, if_pos h]
  split_ifs with hcg hevtin
  · have ho : BitVec.ofNat 32 s.cfg.layout.offCg = off := by simp [← hcg]
    cases acc <;> simp only [exec, execCgWr, execCgRd, ho]
  · have ho : BitVec.ofNat 32 s.cfg.layout.offEvtin = off := by simp [← hevtin]
    cases acc <;> simp only [exec, execEvtinWr, execEvtinRd, ho]
  · exact exec_cfgBadOffset h hcg hevtin acc

/-- Settles O4: along the decoder's checks, each row closes the reply that the entry gives there. -/
theorem rowMeaningIsNestedDecode : Obligations.RowMeaningIsNestedDecode := by
  intro s on off acc size
  by_cases hsize : size = 4
  case neg =>
    have hrow : decodeBus s.cfg on off acc size = .badSize off acc size := if_pos hsize
    rw [decode, hrow, exec_badSize hsize, busEntry_of_size hsize]
  subst hsize
  by_cases hreg : off.toNat < s.cfg.layout.channelRegionStart
  · exact exec_decodeBus_config hreg on acc
  cases ht : s.cfg.table (s.cfg.layout.periphId off) with
  | none =>
    have hrow : decodeBus s.cfg on off acc 4 = .noPeriph off acc := by simp [decodeBus, hreg, ht]
    rw [decode, hrow, exec_noPeriph (not_lt.1 hreg) ht, busEntry_of_no_periph hreg ht]
  | some p => exact exec_decodeBus_window hreg ht on

/-! ## The configuration region and the accesses that are no register's (43_controller R235 to R242) -/

/-- Settles O7: the guard of either row holds, so the reply is INVALID in the unchanged state. -/
theorem badSizeAndBadConfigOffsetAreInvalid : Obligations.BadSizeAndBadConfigOffsetAreInvalid := by
  intro s off acc
  exact ⟨fun size hsize => ⟨_, exec_badSize hsize off acc s, rfl, rfl⟩,
    fun hreg hcg hevtin => ⟨_, exec_cfgBadOffset hreg hcg hevtin acc, rfl, rfl⟩⟩

/-- Settles O8: each of the mask's 32 bits informs the peripheral whose canonical id it is, and a canonical id is its own
entry of the table. -/
theorem clockGateWriteInformsChangedBits : Obligations.ClockGateWriteInformsChangedBits := by
  intro s v hwf
  have hloop := cgLoop_eq s.cg v 32 { s with cg := v }
  refine ⟨_, rfl, ?_, fun p hp => (cgWrite_isOn s v p.cid).trans ?_, fun q hq => (cgWrite_isOn s v q).trans (if_neg ?_),
    fun c => cgLoop_chan s.cg v 32 _ c, ?_, ?_⟩
  · rw [cgWrite_eq, hloop]; rfl
  · simp [table_cid hwf hp]
  · rintro ⟨-, p, ht, hp⟩
    obtain ⟨-, hmem, -⟩ := mem_of_table ht
    exact hq p hmem hp
  · rw [cgWrite_eq, hloop]; rfl
  · rw [cgWrite_eq, hloop]; rfl

/-- Settles O9: the reply is the stored mask in the unchanged state. -/
theorem clockGateReadReturnsMask : Obligations.ClockGateReadReturnsMask :=
  fun _ => ⟨_, rfl, rfl, rfl⟩

/-- 43_controller R239: an EVTIN access in either direction. -/
theorem evtinAccess_close (s : State) (off : Word) (acc : Acc) :
    (∀ f, f ∈ ((s.evtinAccess off acc).close off acc 4).faults ↔ f ∈ s.faults ∨ f = .evtinUnsupported off acc)
      ∧ ((s.evtinAccess off acc).close off acc 4).hist
        = s.hist ++ [.log (.unimplementedEvtin off acc), .bus off acc 4 .invalid]
      ∧ (s.evtinAccess off acc).close off acc 4 =
        { s with faults := ((s.evtinAccess off acc).close off acc 4).faults
                 hist := ((s.evtinAccess off acc).close off acc 4).hist } :=
  ⟨fun f => mem_raise_faults _ _ f, by simp [State.evtinAccess], rfl⟩

/-- Settles O10: both rows are the EVTIN access. -/
theorem evtinAccessRecordsFault : Obligations.EvtinAccessRecordsFault :=
  fun s v => ⟨⟨_, rfl, evtinAccess_close s _ (.wr v)⟩, ⟨_, rfl, evtinAccess_close s _ .rd⟩⟩

theorem table_of_beyond {cfg : Cfg} {i : Nat} (h : cfg.np ≤ i) : cfg.table i = none := if_neg h.not_gt

/-- Settles O11: an id at or beyond NP has no peripheral either, and the row's guard reads no flag. -/
theorem nonexistentPeripheralIsInvalid : Obligations.NonexistentPeripheralIsInvalid := by
  intro s off acc hreg hid
  have ht : s.cfg.table (s.cfg.layout.periphId off) = none := hid.elim table_of_beyond id
  exact ⟨_, exec_noPeriph hreg ht acc, rfl, rfl⟩

/-! ## Stimuli, wake-ups and the clock (43_controller R245, R246, R260 to R263) -/

/-- Settles O36: by the direction of the channel; a WRITE request is posted. -/
theorem stimuliJoinQueuesAndWakeController : Obligations.StimuliJoinQueuesAndWakeController := by
  intro s c req
  refine ⟨fun hrx => ?_, fun htx => ?_, fun hwrite => ?_⟩
  · rw [exec, execChannelReady, Channel.onChannel_of_dirOf hrx, channelReady_not_tx (by simp [hrx])]
  · rw [exec, execChannelReady, Channel.onChannel_of_dirOf htx, channelReady_tx htx]
  · rw [exec, execPostWrite, if_pos hwrite, postWrite_eq]

/-- Settles O37: by what is scheduled. -/
theorem wakeRequestsCoalesce : Obligations.WakeRequestsCoalesce := by
  intro s t
  refine ⟨fun hnone => ?_, fun t0 hsome => ?_⟩
  · rw [State.requestWake, hnone]
  · rw [State.requestWake, hsome]

theorem loopDue_iff (s : State) : s.loopDue = true ↔ ∃ t, s.wake = some t ∧ t ≤ s.now := by
  unfold State.loopDue
  cases s.wake <;> simp

/-- Settles O38: by whether a run is due. -/
theorem tickAdvancesCycleUnlessRunDue : Obligations.TickAdvancesCycleUnlessRunDue := by
  intro s
  rw [← loopDue_iff, exec, execTick]
  exact ⟨fun hdue => if_pos hdue, fun hnot => if_neg hnot⟩

/-! ## The run (43_controller R250 to R254) -/

theorem exec_ctrlLoop_of_due {s : State} (h : s.loopDue = true) : exec .ctrlLoop s = .next s.ctrlLoop := if_pos h

theorem ran_of_inv {s t : State} (h : Inv s) (hrun : exec .ctrlLoop s = .next t) : Ran s t := by
  rw [Memory.exec_ctrlLoop hrun]
  exact ran_ctrlLoop (core_of_inv h) h.schedule.sorted

/-- Settles O43: the due reads are those the drain delivers, and the read just issued is not due. -/
theorem runDeliversMaturedReadsInOrder : Obligations.RunDeliversMaturedReadsInOrder := by
  intro s t _ hinv hrun
  have h := ran_of_inv hinv hrun
  exact ⟨h.later, h.rdq, h.kept⟩

/-- Settles O44: a run that is not refused ends with the re-arm. -/
theorem runRearmsForRemainingWork : Obligations.RunRearmsForRemainingWork := by
  intro s t _ hinv hrun
  exact (ran_of_inv hinv hrun).wake

/-! What a run leaves of a channel (43_controller R250). -/

/-- A run ends after its issue step or after its drain, but for the wake-up. -/
theorem ctrlLoop_stages (s : State) :
    ∃ u, (u = (runStart s).issueOne.state ∨ u = (runStart s).issueOne.state.drain.state)
      ∧ s.ctrlLoop = { u with wake := s.ctrlLoop.wake } := by
  rcases ctrlLoop_cases s with ⟨t, hissue, e⟩ | ⟨t, u, hissue, hdrain, e⟩ | ⟨t, u, hissue, hdrain, e⟩
  · exact ⟨t, .inl (by rw [hissue]; rfl), by rw [e]⟩
  · exact ⟨u, .inr (by rw [hissue, flow_state_cont, hdrain]; rfl), by rw [e]⟩
  · exact ⟨u, .inr (by rw [hissue, flow_state_cont, hdrain]; rfl), by rw [e]; exact rearm_eq u⟩

theorem regsSame_ctrlLoop (s : State) : RegsSame s s.ctrlLoop := by
  obtain ⟨hissue, -, -⟩ := run_issueOne (runStart s)
  obtain ⟨u, hu, e⟩ := ctrlLoop_stages s
  have hregs : RegsSame (runStart s) u := by
    rcases hu with rfl | rfl
    · exact hissue
    · exact hissue.trans (run_drainEntries _ _).1
  rw [e]
  exact hregs

/-- The read that the run issues is not due in it, so the drain finds no due read of `c` either. -/
theorem chan_ctrlLoop_of_idle {s : State} {c : ChanId} (hready : s.ready.head? ≠ some c)
    (hlate : ∀ e ∈ s.inflight, e.c = c → s.now < e.ts) : s.ctrlLoop.chan c = s.chan c := by
  obtain ⟨-, hchan, hreads⟩ := run_issueOne (runStart s)
  obtain ⟨u, hu, e⟩ := ctrlLoop_stages s
  have hnow : (runStart s).issueOne.state.now = s.now := (issueFrame_issueOne (runStart s)).now
  have hlate' : ∀ e ∈ (runStart s).issueOne.state.inflight, e.c = c → (runStart s).issueOne.state.now < e.ts := by
    intro e he hc
    rw [hnow]
    rcases hreads with hsame | ⟨new, hnew, hpushed⟩
    · exact hlate e (hsame ▸ he) hc
    · rw [hpushed, (pushOrdered_perm _ _ _).mem_iff, List.mem_cons] at he
      rcases he with rfl | he
      · exact hnew
      · exact hlate e he hc
  have hu' : u.chan c = s.chan c := by
    rcases hu with rfl | rfl
    · exact hchan c hready
    · exact ((run_drainEntries _ _).2 c hlate').trans (hchan c hready)
  rw [e]
  exact hu'

/-- Settles O39: the frame of the run, then what its issue step and its drain leave of a channel. -/
theorem controllerRunsWhenDue : Obligations.ControllerRunsWhenDue := by
  intro s
  rw [← loopDue_iff]
  refine ⟨fun hnot => if_neg hnot, fun hdue => ⟨_, exec_ctrlLoop_of_due hdue, ?_⟩⟩
  obtain ⟨u, hframe, e⟩ := ctrlLoop_frame s
  refine ⟨?_, ?_, ?_, ?_, fun p => ?_, ?_, regsSame_ctrlLoop s, fun c => chan_ctrlLoop_of_idle⟩ <;> rw [e]
  · exact hframe.lastrun
  · exact hframe.now
  · exact hframe.cg
  · exact hframe.cfg
  · exact hframe.isOn p
  · exact hframe.agenda

/-! ## The request of a run (43_controller R251, R252, R256) -/

/-- The request `req` is issued and answered `ans`; of the events `evs` after it none is a request. -/
structure IssuesRequest (req : Req) (ans : MemAnswer) (evs : List Event) (s t : State) : Prop where
  hist : t.hist = s.hist ++ .mem req ans s.now :: evs
  only : ∀ e ∈ evs, e.isMem = false

section
variable {req : Req} {ans : MemAnswer} {evs : List Event} {s t u : State}

theorem issuesRequest_memIssue (hhist : u.hist = s.hist) (hnow : u.now = s.now) (hans : u.nextAnswer = ans) :
    IssuesRequest req ans [] s (u.memIssue req) :=
  ⟨by rw [memIssue_hist, hhist, hnow, hans], nofun⟩

theorem IssuesRequest.log (h : IssuesRequest req ans evs s t) (k : LogKind) :
    IssuesRequest req ans (evs ++ [.log k]) s (t.log k) :=
  ⟨by simp [h.hist], by simpa [or_imp, forall_and, Event.isMem] using h.only⟩

theorem IssuesRequest.of_hist_eq (h : IssuesRequest req ans evs s t) (hu : u.hist = t.hist) : IssuesRequest req ans evs s u :=
  ⟨hu.trans h.hist, h.only⟩

/-- Steps 3 and 4 of the run issue nothing. -/
theorem IssuesRequest.drain (h : IssuesRequest req ans evs s t) (g : DrainFrame t u) :
    ∃ more, IssuesRequest req ans (evs ++ more) s u := by
  obtain ⟨more, hhist, hmore⟩ := g.hist
  refine ⟨more, by simp [hhist, h.hist], fun e he => ?_⟩
  exact (List.mem_append.1 he).elim (h.only e) (hmore e)

end

/-- What a run keeps of the state after its issue step: the queues of work, the faults, and every read that is not due. -/
structure RunTail (t u : State) : Prop where
  wq     : u.wq = t.wq
  ready  : u.ready = t.ready
  faults : u.faults = t.faults
  kept   : ∀ e ∈ t.inflight, t.now < e.ts → e ∈ u.inflight

theorem queuesSame_deliverChunk (s : State) (c : ChanId) (rdata : Quad) :
    QueuesSame s (s.deliverChunk c rdata).state := by
  unfold State.deliverChunk State.pushRdq
  split
  · exact queuesSame_refuse s _
  · split
    · exact ((queuesSame_setChan s c _).trans (queuesSame_setChan _ c _)).trans (queuesSame_finalize _ c)
    · exact (queuesSame_setChan s c _).trans (queuesSame_setChan _ c _)

/-- 43_controller R253: only due reads leave the pipeline, whether or not the drain is refused. -/
theorem mem_inflight_drainEntries {e : InFlight} (es : List InFlight) {s : State} (hs : s.inflight = es) (he : e ∈ es)
    (hlate : s.now < e.ts) : e ∈ (drainEntries es s).state.inflight := by
  induction es generalizing s with
  | nil => cases he
  | cons first rest ih =>
    simp only [drainEntries]
    split_ifs with hdue
    · have hrest : e ∈ rest := (List.mem_cons.1 he).resolve_left fun h => by subst h; omega
      have hq := queuesSame_deliverChunk (State.pushBuffer { s with inflight := rest }) first.c first.rdata
      have hinflight := hq.inflight.trans (pushBuffer_inflight _)
      have hnow := hq.now.trans (pushBuffer_now _)
      cases hd : State.deliverChunk (State.pushBuffer { s with inflight := rest }) first.c first.rdata with
      | cont t =>
        rw [hd] at hinflight hnow
        exact ih hinflight hrest (hnow.trans_lt hlate)
      | halted t =>
        rw [hd] at hinflight
        exact hinflight ▸ hrest
    · rw [flow_state_cont, hs]
      exact he

section
variable {s t : State} (hissue : (runStart s).issueOne = .cont t)
include hissue

theorem runTail_ctrlLoop : RunTail t s.ctrlLoop := by
  obtain ⟨u, hframe, hloop, hdrain⟩ := ctrlLoop_of_issueOne hissue
  have hkept : ∀ e ∈ t.inflight, t.now < e.ts → e ∈ u.inflight := fun e he hlate =>
    hdrain ▸ mem_inflight_drainEntries t.inflight rfl he hlate
  have htail : RunTail t u := ⟨hframe.wq, hframe.ready, hframe.faults, hkept⟩
  rcases hloop with e | e
  · rwa [e]
  · rw [e, rearm_eq u]
    exact ⟨htail.wq, htail.ready, htail.faults, htail.kept⟩

/-- A due run whose issue step issues a request goes on to its end and issues no other. -/
theorem run_of_issuesRequest {req : Req} {ans : MemAnswer} {evs : List Event} (hdue : s.loopDue = true)
    (h : IssuesRequest req ans evs s t) :
    ∃ more, exec .ctrlLoop s = .next s.ctrlLoop ∧ IssuesRequest req ans (evs ++ more) s s.ctrlLoop := by
  obtain ⟨u, hframe, hloop, -⟩ := ctrlLoop_of_issueOne hissue
  obtain ⟨more, hu⟩ := h.drain hframe
  refine ⟨more, exec_ctrlLoop_of_due hdue, hu.of_hist_eq ?_⟩
  rcases hloop with e | e <;> simp [e]

end

/-! Step 1 (43_controller R251). -/

section
variable {s : State} {req : Req} {rest : List Req}

theorem issueOne_of_write (h : s.wq = req :: rest) : s.issueOne = .cont (s.issueWrite req rest) := by
  simp [State.issueOne, h]

theorem issueWrite_wq (s : State) (req : Req) (rest : List Req) : (s.issueWrite req rest).wq = rest := by
  unfold State.issueWrite
  split <;> simp

theorem issueWrite_ready (s : State) (req : Req) (rest : List Req) : (s.issueWrite req rest).ready = s.ready := by
  unfold State.issueWrite
  split <;> simp

theorem issueWrite_of_accept {lat : Nat} {rdata : Quad} (h : s.nextAnswer = .accept lat rdata) :
    s.issueWrite req rest = { s with wq := rest }.memIssue req := by
  simp [State.issueWrite, h]

theorem issueWrite_of_reject (h : s.nextAnswer = .reject) :
    s.issueWrite req rest =
      (({ s with wq := rest }.memIssue req).log (.writeRejected req)).raise (.writeRejected req) := by
  simp [State.issueWrite, h]

theorem issueWrite_of_pending (h : s.nextAnswer = .pending) :
    s.issueWrite req rest =
      (({ s with wq := rest }.memIssue req).log (.unimplementedResponse req)).raise (.asyncResponse req) := by
  simp [State.issueWrite, h]

end

/-- Settles O41: by the answer; what the issue step leaves, the rest of the run keeps. -/
theorem runIssuesQueuedWriteFirst : Obligations.RunIssuesQueuedWriteFirst := by
  intro s req rest hdue hwq
  have hissue : (runStart s).issueOne = .cont ((runStart s).issueWrite req rest) := issueOne_of_write hwq
  have hrequest : IssuesRequest req s.nextAnswer [] s ({ runStart s with wq := rest }.memIssue req) :=
    issuesRequest_memIssue rfl rfl rfl
  have htail := runTail_ctrlLoop hissue
  have hwq' : s.ctrlLoop.wq = rest := htail.wq.trans (issueWrite_wq ..)
  have hready' : s.ctrlLoop.ready = s.ready := htail.ready.trans (issueWrite_ready ..)
  cases hn : s.nextAnswer with
  | accept lat rdata =>
    rw [issueWrite_of_accept (s := runStart s) hn] at hissue htail
    rw [hn] at hrequest
    obtain ⟨more, hexec, hhist, honly⟩ := run_of_issuesRequest hissue hdue hrequest
    exact ⟨_, _, hexec, hwq', hready', hhist, honly, htail.faults.trans (memIssue_faults ..)⟩
  | reject =>
    rw [issueWrite_of_reject (s := runStart s) hn] at hissue htail
    rw [hn] at hrequest
    obtain ⟨more, hexec, hhist, honly⟩ :=
      run_of_issuesRequest hissue hdue ((hrequest.log (.writeRejected req)).of_hist_eq rfl)
    refine ⟨_, _, hexec, hwq', hready', hhist, honly, by simp, fun f => ?_⟩
    rw [htail.faults, mem_raise_faults, log_faults, memIssue_faults]
    rfl
  | pending =>
    rw [issueWrite_of_pending (s := runStart s) hn] at hissue htail
    rw [hn] at hrequest
    obtain ⟨more, hexec, hhist, honly⟩ :=
      run_of_issuesRequest hissue hdue ((hrequest.log (.unimplementedResponse req)).of_hist_eq rfl)
    refine ⟨_, _, hexec, hwq', hready', hhist, honly, by simp, fun f => ?_⟩
    rw [htail.faults, mem_raise_faults, log_faults, memIssue_faults]
    rfl

/-! Step 2 (43_controller R252). -/

/-- The state in which channel `c`, first of the ready queue, issues its next chunk: one buffer taken, the chunk prepared,
the turn ceded unless the chunk is the `last`. -/
def turnTaken (s : State) (c : ChanId) (rest : List ChanId) (last : Bool) : State :=
  ({ s with ready := rest, rbfree := s.rbfree - 1 }.advanceChunk c).cedeTurn c last

section
variable (s : State) (c : ChanId) (rest : List ChanId) (last : Bool)

@[simp] theorem turnTaken_hist : (turnTaken s c rest last).hist = s.hist := by simp [turnTaken]
@[simp] theorem turnTaken_now : (turnTaken s c rest last).now = s.now := by simp [turnTaken]
@[simp] theorem turnTaken_wq : (turnTaken s c rest last).wq = s.wq := by simp [turnTaken]
@[simp] theorem turnTaken_faults : (turnTaken s c rest last).faults = s.faults := by simp [turnTaken]
@[simp] theorem turnTaken_nextAnswer : (turnTaken s c rest last).nextAnswer = s.nextAnswer := by
  simp [turnTaken, State.nextAnswer]
@[simp] theorem turnTaken_ready : (turnTaken s c rest last).ready = if last then rest else rest ++ [c] := by
  cases last <;> rfl

end

theorem issueOne_of_read {s : State} {c : ChanId} {rest : List ChanId} {ch : Chunk} (hwq : s.wq = [])
    (hready : s.ready = c :: rest) (hbuf : 0 < s.rbfree) (hchunk : s.nextChunk c = some ch) :
    s.issueOne =
      .cont (((turnTaken s c rest ch.last).memIssue ch.req).readAnswered c ch.req s.nextAnswer) := by
  simp [State.issueOne, hwq, hready, hbuf, State.issueRead, hchunk, turnTaken]

theorem readAnswered_wq (s : State) (c : ChanId) (req : Req) (ans : MemAnswer) :
    (s.readAnswered c req ans).wq = s.wq := by
  cases ans <;> simp [State.readAnswered]

theorem readAnswered_ready (s : State) (c : ChanId) (req : Req) (ans : MemAnswer) :
    (s.readAnswered c req ans).ready = s.ready := by
  cases ans <;> simp [State.readAnswered]

theorem mem_inflight_readAnswered (s : State) (c : ChanId) (req : Req) (lat : Nat) (rdata : Quad) :
    { ts := s.now + lat + 1, c := c, req := req, rdata := rdata }
      ∈ (s.readAnswered c req (.accept lat rdata)).inflight :=
  (pushOrdered_perm _ _ _).mem_iff.2 List.mem_cons_self

/-- Settles O42: by the answer; an accepted read is not due in the run that issues it, so the drain leaves it in flight. -/
theorem runIssuesOneChunkAndCedesTurn : Obligations.RunIssuesOneChunkAndCedesTurn := by
  intro s c rest x hdue hwq hready hbuf hdir hactive
  generalize hreq : ({ addr := x.cur, size := 4, dir := .read, data := [], tag := c } : Req) = req
  have hchunk : (runStart s).nextChunk c = some ⟨req, decide (x.remaining ≤ 4)⟩ := by
    rw [← hreq]
    exact nextChunk_eq hdir hactive
  have hissue := issueOne_of_read (s := runStart s) hwq hready hbuf hchunk
  generalize hv : (turnTaken (runStart s) c rest (decide (x.remaining ≤ 4))).memIssue req = v at hissue
  have hrequest : IssuesRequest req s.nextAnswer [] s v := by
    rw [← hv]
    exact issuesRequest_memIssue (turnTaken_hist ..) (turnTaken_now ..) (turnTaken_nextAnswer ..)
  have hnow : v.now = s.now := by simp [← hv, runStart]
  have hfaults : v.faults = s.faults := by simp [← hv, runStart]
  have htail := runTail_ctrlLoop hissue
  have hwq' : s.ctrlLoop.wq = [] := by rw [htail.wq, readAnswered_wq, ← hv]; simpa [runStart] using hwq
  have hready' : s.ctrlLoop.ready = if x.remaining ≤ 4 then rest else rest ++ [c] := by
    rw [htail.ready, readAnswered_ready, ← hv]; simp
  have hans : (runStart s).nextAnswer = s.nextAnswer := rfl
  rw [hans] at hissue htail
  generalize s.nextAnswer = ans at *
  cases ans with
  | accept lat rdata =>
    obtain ⟨more, hexec, hhist, honly⟩ :=
      run_of_issuesRequest hissue hdue (hrequest.of_hist_eq (pushInflight_hist ..))
    have hissued := mem_inflight_readAnswered v c req lat rdata
    rw [hnow] at hissued
    refine ⟨_, req, _, hexec, rfl, hhist, honly, hwq', hready', htail.kept _ hissued ?_, htail.faults.trans hfaults⟩
    exact hnow.trans_lt (by simp only; omega)
  | reject =>
    obtain ⟨more, hbuffer⟩ := hrequest.drain (drainFrame_pushBuffer v)
    obtain ⟨more', hexec, hhist, honly⟩ := run_of_issuesRequest hissue hdue (hbuffer.of_hist_eq rfl)
    refine ⟨_, req, _, hexec, rfl, hhist, honly, hwq', hready', fun f => ?_⟩
    rw [htail.faults, State.readAnswered, mem_raise_faults, pushBuffer_faults, hfaults]
  | pending =>
    obtain ⟨more, hbuffer⟩ := hrequest.drain (drainFrame_pushBuffer v)
    obtain ⟨more', hexec, hhist, honly⟩ :=
      run_of_issuesRequest hissue hdue ((hbuffer.log (.unimplementedResponse req)).of_hist_eq rfl)
    refine ⟨_, req, _, hexec, rfl, hhist, honly, hwq', hready', by simp, fun f => ?_⟩
    rw [htail.faults, State.readAnswered, mem_raise_faults, log_faults, pushBuffer_faults, hfaults]

end Sys2Proof.Machine.Controller
end

section
/-! The exceptions family: faults and the refusal mark stay (O52), a block left to itself never stops (O6), and what
60_exceptions R282 calls unreachable stays unreached (O60). -/
namespace Sys2Proof.Machine.Exceptions
open Sys2Proof.Machine.Laws

/-! ## Faults and the refusal mark stay (60_exceptions R284, R285) -/

/-- Settles O52: every operation but the tick has the sticky frame, and the tick changes the cycle only. -/
theorem faultsAndRefusalMarkAreSticky : Obligations.FaultsAndRefusalMarkAreSticky := by
  intro i s t h
  by_cases hi : i = .tick
  · subst hi
    rw [exec_tick h]
    exact ⟨fun _ hf => hf, fun _ hk => hk⟩
  · have hframe := stickyFrame_exec h hi
    exact ⟨hframe.faults, hframe.refused⟩

/-! ## A block left to itself never stops (60_exceptions R280, 00_scope R16) -/

/-- 43_controller R250, R260: a due run bars the tick, and the tick bars no run. -/
theorem enabled_ownCall (s : State) : s.enabled s.ownCall = true := by
  cases hdue : s.loopDue <;> simp [State.ownCall, State.enabled, hdue]

theorem enabled_upcoming_of_nil {s : State} (ha : s.agenda = []) : s.enabled s.upcoming = true := by
  simp only [State.upcoming, ha]
  split_ifs with henabled
  · exact henabled
  · exact enabled_ownCall s

theorem enabled_afterFetch (s : State) (c : Call) : s.afterFetch.enabled c = s.enabled c := by
  rw [BlockState.afterFetch_eq]
  cases c <;> rfl

/-- 00_scope R16: a call that an agent has completes, whatever flags it is decoded with. -/
theorem exec_decode_of_enabled {s : State} (cfg : Cfg) (on : Fin 32 → Bool) {c : Call} (h : s.enabled c = true) :
    ∃ t, exec (decode cfg on c) s = .next t := by
  cases c with
  | bus off acc size => exact exec_decodeBus_next s cfg on off acc size
  | pushBytes c bytes =>
    obtain ⟨d, hd⟩ := Option.isSome_iff_exists.1 h
    cases d with
    | rx => exact ⟨_, Channel.exec_pushBytes_rx hd bytes⟩
    | tx => exact ⟨_, Channel.exec_pushBytes_tx hd bytes⟩
  | rdqPop c =>
    cases hd : s.cfg.dirOf c with
    | none => simp [State.enabled, hd] at h
    | some d =>
      cases d with
      | rx => exact ⟨_, Channel.exec_rdqPop_rx hd⟩
      | tx =>
        cases hq : (s.chan c).rdq with
        | nil => simp [State.enabled, hd, hq] at h
        | cons w rest => exact ⟨_, Channel.exec_rdqPop_tx_of_cons hd hq⟩
  | promote c =>
    obtain ⟨hsome, hp⟩ := (Bool.and_eq_true _ _).mp h
    obtain ⟨d, hd⟩ := Option.isSome_iff_exists.1 hsome
    exact ⟨_, Channel.exec_promote_of_promo hd hp⟩
  | ctrlLoop => exact ⟨_, Controller.exec_ctrlLoop_of_due h⟩
  | tick => exact ⟨_, if_neg (by simpa [State.enabled] using h)⟩
  | reset active => exact ⟨_, rfl⟩

/-- Settles O6: with an empty agenda the call made next is one that its agent has. -/
theorem freeRunningBlockNeverStops : Obligations.FreeRunningBlockNeverStops := by
  intro s hv hr ha
  rw [Scope.step_of_unmarked hv hr]
  exact exec_decode_of_enabled _ _ ((enabled_afterFetch s _).trans (enabled_upcoming_of_nil ha))

/-! ## What is never reached (60_exceptions R282, 40_latency_queue R164, R167) -/

/-- From `s` to `t` no refusal mark of 60_exceptions R282's unreachable kinds is set, and no `LOG(QUEUE_FULL)` is added. -/
structure NoUnreachable (s t : State) : Prop where
  refused : ∀ k, t.refused = some k → s.refused = some k ∨ k.unreachable = false
  hist    : ∃ evs, t.hist = s.hist ++ evs ∧ ∀ e ∈ evs, e.isQueueFull = false

section
variable {s t u : State}

theorem noUnreachable_of_hist {evs : List Event} (hrefused : t.refused = s.refused) (hhist : t.hist = s.hist ++ evs)
    (hevs : ∀ e ∈ evs, e.isQueueFull = false) : NoUnreachable s t :=
  ⟨fun _ hk => .inl (hrefused ▸ hk), evs, hhist, hevs⟩

theorem noUnreachable_of_same (hrefused : t.refused = s.refused) (hhist : t.hist = s.hist) : NoUnreachable s t :=
  noUnreachable_of_hist hrefused (by simpa using hhist) (evs := []) nofun

theorem NoUnreachable.refl (s : State) : NoUnreachable s s := noUnreachable_of_same rfl rfl

theorem NoUnreachable.trans (h : NoUnreachable s t) (g : NoUnreachable t u) : NoUnreachable s u := by
  obtain ⟨evs, hhist, hevs⟩ := h.hist
  obtain ⟨more, ghist, gmore⟩ := g.hist
  refine ⟨fun k hk => (g.refused k hk).elim (h.refused k) .inr, evs ++ more, ?_, fun e he => ?_⟩
  · rw [ghist, hhist, List.append_assoc]
  · exact (List.mem_append.1 he).elim (hevs e) (gmore e)

theorem NoUnreachable.emit (h : NoUnreachable s t) {ev : Event} (hev : ev.isQueueFull = false) :
    NoUnreachable s (t.emit ev) :=
  h.trans (noUnreachable_of_hist (evs := [ev]) rfl rfl (by simpa using hev))

/-- An access undone leaves of its events the logs only, and no mark (60_exceptions R281). -/
theorem NoUnreachable.undone (h : NoUnreachable s t) : NoUnreachable s (s.undone t) := by
  obtain ⟨evs, hhist, hevs⟩ := h.hist
  exact noUnreachable_of_hist rfl (undone_hist hhist) fun e he => hevs e (List.mem_filter.1 he).1

theorem noUnreachable_log (s : State) {k : LogKind} (hk : (Event.log k).isQueueFull = false) :
    NoUnreachable s (s.log k) :=
  (NoUnreachable.refl s).emit hk

theorem noUnreachable_setChan (s : State) (c : ChanId) (ch : Chan) : NoUnreachable s (s.setChan c ch) :=
  noUnreachable_of_same rfl rfl

theorem noUnreachable_refuse (s : State) {k : RefusalKind} (hk : k.unreachable = false) :
    NoUnreachable s (s.refuse k) := by
  refine ⟨fun k' hk' => ?_, [], by simp, nofun⟩
  cases hr : s.refused with
  | none =>
    simp only [State.refuse, hr, Option.getD_none, Option.some.injEq] at hk'
    exact .inr (hk' ▸ hk)
  | some k0 => exact .inl (by rw [← hk', refuse_of_some hr])

end

/-- 41_channel R176: the checks of an enable refuse for reasons that a driver can reach. -/
theorem unreachable_of_stagingRefusal {c : ChanId} {addr size : Option Word} {k : RefusalKind}
    (h : stagingRefusal c addr size = some k) : k.unreachable = false := by
  unfold stagingRefusal at h
  split at h
  · split_ifs at h <;> cases h <;> rfl
  · cases h
    rfl

section
variable {s t : State}

/-- 41_channel R176, 40_latency_queue R167: a free record leaves room in the pending queue. -/
theorem noUnreachable_enqueueRecord (h : CoreInv s) {c : ChanId} (hf : (s.chan c).free ≠ 0) (addr size : Option Word)
    (width : BitVec 2) (cont : Bool) : NoUnreachable s (s.enqueueRecord c addr size width cont).state := by
  cases hr : stagingRefusal c addr size with
  | some k =>
    rw [enqueueRecord_refused width cont hr]
    exact noUnreachable_refuse s (unreachable_of_stagingRefusal hr)
  | none =>
    have hpos := Nat.pos_of_ne_zero hf
    rw [enqueueRecord_eq width cont hr hpos ((h.chans c).pending_lt hpos)]
    exact (noUnreachable_setChan s c _).emit rfl

/-- 41_channel R175: without a free record the enable is dropped before the pool is asked for one. -/
theorem noUnreachable_configWr (h : CoreInv s) (c : ChanId) (v : Word) : NoUnreachable s (s.configWr c v).state := by
  have hstore : NoUnreachable s (s.storeConfig c v) := noUnreachable_setChan s c _
  unfold State.configWr
  split_ifs with hclear hdropped hen
  · exact .refl s
  · exact noUnreachable_log s rfl
  · have hf : ((s.storeConfig c v).chan c).free ≠ 0 := by simpa [State.storeConfig, hen] using hdropped
    rw [flow_reply_state]
    exact hstore.trans (noUnreachable_enqueueRecord (h.storeConfig c v) hf _ _ _ _)
  · exact hstore

/-- 42_peripheral_group R225. -/
theorem noUnreachable_handlerTransfer (h : CoreInv s) (c : ChanId) (base size : Word) (width : BitVec 2) (cont : Bool) :
    NoUnreachable s (s.handlerTransfer c base size width cont).state := by
  unfold State.handlerTransfer
  split_ifs with hf
  · exact noUnreachable_log s rfl
  · rw [flow_reply_state]
    exact noUnreachable_enqueueRecord h hf _ _ _ _

theorem noUnreachable_stagedRd (s : State) (r : Option Word) : NoUnreachable s (s.stagedRd r).state := by
  cases r <;> exact noUnreachable_of_same rfl rfl

theorem noUnreachable_periphAct {pid : Fin 32} {r : Reply} (h : CoreInv s) (ha : PeriphAct pid s r) :
    NoUnreachable s r.state := by
  cases ha with
  | invalid => exact .refl s
  | offNoop acc => cases acc <;> exact noUnreachable_of_same rfl rfl
  | slotEmpty off => exact noUnreachable_log s rfl
  | addrWr c v _ _ => exact noUnreachable_setChan s c _
  | addrRd c _ _ => exact noUnreachable_stagedRd s _
  | sizeWr c v _ _ => exact noUnreachable_setChan s c _
  | sizeRd c _ _ => exact noUnreachable_stagedRd s _
  | configWr c v _ _ => exact noUnreachable_configWr h c v
  | configRd c _ _ => exact .refl s
  | transfer c base size width cont _ _ => exact noUnreachable_handlerTransfer h c base size width cont

/-- The operations of a custom handler each start in a state that meets the invariant (42_peripheral_group R225). -/
theorem noUnreachable_periphRun {pid : Fin 32} {r : Reply} (h : CoreInv s) (hr : PeriphRun pid s r) :
    NoUnreachable s r.state := by
  have hlift := hr.lift (fun a b => CoreInv a → CoreInv b ∧ NoUnreachable a b)
    (fun f g ha => ⟨(g (f ha).1).1, (f ha).2.trans (g (f ha).1).2⟩)
    (fun f ha => ⟨ha.of_eq rfl rfl rfl rfl rfl rfl rfl rfl, (f ha).2.undone⟩)
    (fun hact ha => ⟨CoreInv.periphAct hact ha, noUnreachable_periphAct ha hact⟩)
  exact (hlift h).2

theorem noUnreachable_busAct {r : Reply} (h : CoreInv s) (ha : BusAct s r) : NoUnreachable s r.state := by
  cases ha with
  | cgWrite v =>
    rw [cgWrite_eq, cgLoop_eq]
    exact noUnreachable_of_same rfl rfl
  | cgRead => exact .refl s
  | evtin off acc => exact (noUnreachable_log s rfl).trans (noUnreachable_of_same rfl rfl)
  | periph pid r hr => exact noUnreachable_periphRun h hr

theorem noUnreachable_busNext (h : CoreInv s) (hb : BusNext s t) : NoUnreachable s t := by
  obtain ⟨r, off, acc, size, ha, rfl⟩ := hb
  have hr := noUnreachable_busAct h ha
  unfold Reply.close
  split
  · exact hr.emit rfl
  · exact hr

/-- 41_channel R191, R205: the record of an active transfer finds room in the pool. -/
theorem noUnreachable_flush {c : ChanId} (hf : (s.chan c).free < 2) (x : Transfer) : NoUnreachable s (s.flush c x) := by
  by_cases hmore : (s.chan c).asm.length < x.remaining
  · rw [flush_more hmore]
    exact noUnreachable_of_same rfl rfl
  · rw [flush_last (by omega) hf]
    refine NoUnreachable.emit (NoUnreachable.emit ?_ rfl) rfl
    exact noUnreachable_of_same rfl rfl

/-- 41_channel R190. -/
theorem noUnreachable_pushBytes (h : CoreInv s) (c : ChanId) (bytes : List Byte) :
    NoUnreachable s (s.pushBytes c bytes) := by
  unfold State.pushBytes
  split
  · exact noUnreachable_log s rfl
  · rename_i x ha
    have hf : (s.chan c).free < 2 := (h.chans c).free_lt ha
    split_ifs
    · exact noUnreachable_log s rfl
    · exact noUnreachable_refuse s rfl
    · exact (noUnreachable_setChan s c _).trans (noUnreachable_flush (by rwa [chan_setChan_self]) x)
    · exact noUnreachable_setChan s c _

/-- 41_channel R181. -/
theorem noUnreachable_promote (s : State) (c : ChanId) : NoUnreachable s (s.promote c) := by
  unfold State.promote
  split
  · exact noUnreachable_of_same (channelReady_refused _ c) (channelReady_hist _ c)
  · exact noUnreachable_setChan s c _

/-- 70_reset_and_hazards R310 to R314: a reset drives each busy/full signal and logs nothing. -/
theorem noUnreachable_resetBlock (s : State) : NoUnreachable s s.resetBlock := by
  rw [(resetBlock_spec s).1]
  refine noUnreachable_of_hist rfl (List.append_assoc _ _ _) fun e he => ?_
  rcases List.mem_append.1 he with hbusy | hreset
  · obtain ⟨c, -, rfl⟩ := List.mem_map.1 hbusy
    rfl
  · rw [List.mem_singleton.1 hreset]
    rfl

/-- 43_controller R250 to R253, 41_channel R195, R196: in a run a ready channel has an active transfer, and so has the
channel of a read that returns. -/
theorem noUnreachable_ctrlLoop (h : CoreInv s) (hs : InflightSorted s) : NoUnreachable s s.ctrlLoop := by
  have hran := ran_ctrlLoop h hs
  obtain ⟨evs, hhist, hevs⟩ := hran.hist
  exact noUnreachable_of_hist hran.refused hhist hevs

theorem noUnreachable_agent (h : CoreInv s) (hs : InflightSorted s) (ha : AgentCase s t) : NoUnreachable s t := by
  cases ha with
  | bus _ hb => exact noUnreachable_busNext h hb
  | pushTx c _ => exact noUnreachable_refuse s rfl
  | push c bytes _ => exact noUnreachable_pushBytes h c bytes
  | popRx c _ => exact noUnreachable_refuse s rfl
  | pop c w rest _ _ => exact (noUnreachable_setChan s c _).emit rfl
  | promote c _ _ => exact noUnreachable_promote s c
  | loop _ => exact noUnreachable_ctrlLoop h hs
  | tick _ => exact noUnreachable_of_same rfl rfl
  | deassert => exact .refl s
  | reset _ => exact noUnreachable_resetBlock s
  | resetRefused _ => exact noUnreachable_refuse s rfl

theorem noUnreachable_afterFetch (s : State) : NoUnreachable s s.afterFetch := by
  rw [BlockState.afterFetch_eq]
  exact noUnreachable_of_same rfl rfl

end

/-- Settles O60: the fetch and each agent's step reach none of them, and a state that steps has no mark yet. -/
theorem unreachableRefusalsStayUnreached : Obligations.UnreachableRefusalsStayUnreached := by
  intro s t _ h hst
  obtain ⟨hunmarked, hagent⟩ := step_agentCases hst
  have hfetched := BlockState.inv_afterFetch h
  have hstep : NoUnreachable s t := (noUnreachable_afterFetch s).trans
    (noUnreachable_agent (core_of_inv hfetched) hfetched.schedule.sorted hagent)
  refine ⟨fun k hk => (hstep.refused k hk).resolve_left fun hmarked => ?_, hstep.hist⟩
  rw [hunmarked] at hmarked
  cases hmarked

end Sys2Proof.Machine.Exceptions
end

section
/-! The reset family: the refused and the deasserted pulse (O46), and what a pulse leaves in a quiescent block (O47). -/
namespace Sys2Proof.Machine.Reset
open Sys2Proof.Machine.Laws

/-! ## The cases of a reset pulse (70_reset_and_hazards R310, R313) -/

theorem exec_reset_deasserted (s : State) : exec (.reset false) s = .next s := rfl

theorem exec_reset_of_not_quiescent {s : State} (hq : s.quiescent = false) :
    exec (.reset true) s = .next (s.refuse .resetNotQuiescent) := by
  simp [exec, execReset, State.resetPulse, hq]

/-- Settles O46: the two branches of the pulse other than the reset itself. -/
theorem resetNeedsQuiescence : Obligations.ResetNeedsQuiescence :=
  fun s => ⟨exec_reset_deasserted s, exec_reset_of_not_quiescent⟩

/-! ## Quiescence (10_state R72) -/

theorem chanQuiescent_iff (ch : Chan) :
    chanQuiescent ch = true ↔
      ch.active = none ∧ ch.pending = [] ∧ ch.asm = [] ∧ ch.promo = false ∧ ch.rdq = [] := by
  simp only [chanQuiescent, Bool.and_eq_true, Option.isNone_iff_eq_none, List.isEmpty_iff, Bool.not_eq_true', and_assoc]

theorem quiescent_iff (s : State) :
    s.quiescent = true ↔ (∀ c ∈ s.cfg.channels, chanQuiescent (s.chan c) = true)
      ∧ s.wq = [] ∧ s.ready = [] ∧ s.inflight = [] ∧ s.wake = none := by
  simp only [State.quiescent, Bool.and_eq_true, List.all_eq_true, Option.isNone_iff_eq_none, List.isEmpty_iff, and_assoc]

/-! ## What the reset leaves (70_reset_and_hazards R311, R312, R314, R315) -/

/-- With no record pending or active the pool is full, and what a reset does not write is empty already; so the direction
does not matter. -/
theorem resetChan_of_quiescent {ch : Chan} (d : Option Dir) (hq : chanQuiescent ch = true)
    (hn : BlockState.recordCount ch = 2) : resetChan d ch = Chan.init := by
  obtain ⟨hactive, hpending, hasm, hpromo, hrdq⟩ := (chanQuiescent_iff ch).1 hq
  have hfree : ch.free = 2 := by
    rw [BlockState.recordCount_of_idle hactive, hpending] at hn
    exact hn
  simp [resetChan, Chan.init, Config.poolCap, hpending, hasm, hpromo, hrdq, hfree]

/-- Settles O47: the reset writes each channel of the configuration, the flags and CG; that the queues are empty, the pool
full and no wake-up scheduled is quiescence itself. -/
theorem quiescentResetLeavesResetValues : Obligations.QuiescentResetLeavesResetValues := by
  intro s hq hrecords hbuffers
  obtain ⟨hchans, hwq, hready, hinflight, -⟩ := (quiescent_iff s).1 hq
  have hpool : s.rbfree = s.cfg.nrb := by
    rw [hinflight] at hbuffers
    exact hbuffers
  obtain ⟨e, hin, hout, hoff, hsame⟩ := resetBlock_spec s
  have hcg : s.resetBlock.cg = 0 := congrArg State.cg e
  have hwake : s.resetBlock.wake = none := congrArg State.wake e
  have hhist : s.resetBlock.hist = s.hist ++ s.cfg.channels.map (fun c => Event.busy c .undriven) ++ [.reset] :=
    congrArg State.hist e
  refine ⟨s.resetBlock, BlockState.exec_reset_of_quiescent hq, fun c hc => ?_, hout, hoff, hcg,
    (congrArg State.rbfree e).trans hpool, (congrArg State.inflight e).trans hinflight, (congrArg State.wq e).trans hwq,
    (congrArg State.ready e).trans hready, hwake, by rw [e], by rw [e], by rw [e], by rw [e], by rw [e], hhist, hsame, ?_⟩
  · rw [hin c hc]
    exact resetChan_of_quiescent _ (hchans c hc) (hrecords c)
  · rw [hcg, hwake, hhist]
    exact e

end Sys2Proof.Machine.Reset
end
